-- ==== Sys2Proof/Word.lean ====
section
/-! DEFINITION. The machine's words (spec/00_scope.md R10): bytes, the 64-bit register word, byte sequences. -/

namespace Sys2Proof

/-- A byte, an unsigned integer 0 to 255 (R10). -/
abbrev Byte := BitVec 8

/-- The 64-bit word of the wide registers (10_state.md R30). -/
abbrev Word64 := BitVec 64

/-- A byte sequence (R10). -/
abbrev Bytes := List Byte

end Sys2Proof
end

