-- ==== Sys2Proof/Config.lean ====
section
/-! DEFINITION. What an implementation fixes: the constants of spec/00_scope.md R8, the literals R9 decides, and the
values the spec leaves open, as constants without a body. -/

namespace Sys2Proof.Config

/-- R8 `ALPHABET`. -/
def alphabet : Nat := 256
/-- R8 `RLE_MAX_RUN`. -/
def rleMaxRun : Nat := 255
/-- R8 `DELTA_HDR`. -/
def deltaHdr : Nat := 8
/-- R8 `LZ77_WINDOW`. -/
def lz77Window : Nat := 1024
/-- R8 `LZ77_MAX_MATCH`. -/
def lz77MaxMatch : Nat := 32
/-- R8 `LZ77_MIN_MATCH`. -/
def lz77MinMatch : Nat := 3
/-- R8 `LZ77_LIT_FLAG`. -/
def lz77LitFlag : Byte := 0x80
/-- R8 `LZSS_WINDOW`. -/
def lzssWindow : Nat := 4096
/-- R8 `LZSS_LOOKAHEAD`. -/
def lzssLookahead : Nat := 18
/-- R8 `LZSS_MIN_MATCH`. -/
def lzssMinMatch : Nat := 3
/-- R8 `LZW_CODE_BITS`. -/
def lzwCodeBits : Nat := 12
/-- R8 `LZW_DICT_MAX`. -/
def lzwDictMax : Nat := 4096
/-- R8 `LZW_SEED`. -/
def lzwSeed : Nat := 256
/-- R9 `HUFF_TREE_LEN_MAX`. -/
def huffTreeLenMax : Nat := 767
/-- R8 `BWT_CHUNK_MAX`. -/
def bwtChunkMax : Nat := 100000
/-- R8 `CONT_HDR`. -/
def contHdr : Nat := 10

/-- The container's sentinel byte `MAGIC` (R9 OPEN, 48_container.md R297): no value is known, so none can be proved
(log 1). -/
opaque magic : Byte

/-- What `IN` holds where the host has written nothing since the reset that began epoch `epoch` (70_reset_and_hazards.md
R350, R364: arbitrary bytes): a free value for every address (log 3). -/
opaque inByte (epoch addr : Nat) : Byte

/-- What a read of `OUT` outside the result returns (70_reset_and_hazards.md R361, R364: an arbitrary byte): a free value
for the `draw`-th such read (log 4). -/
opaque outByte (draw addr : Nat) : Byte

end Sys2Proof.Config
end

