-- ==== Sys2Proof/Syntax.lean ====
section
/-! DEFINITION. The instructions: one constructor for each of the 38 rows of spec/opcode_table.json, 25 commands and 13
tokens (30_encoding.md R80, R104), and the places a decoder can stand in (R100). -/

namespace Sys2Proof

/-- The seven algorithms (30_encoding.md R81), in the order of their ids. -/
inductive Alg where
  | rle
  | lz77
  | huffman
  | lzw
  | lzss
  | delta
  | bwt
  deriving DecidableEq, Repr

/-- One constructor per row of the opcode table. -/
inductive Instr where
  /-- COMPRESS.RLE, 41_rle.md R141. -/
  | compressRle
  /-- COMPRESS.LZ77, 43_lz77.md R162. -/
  | compressLz77
  /-- COMPRESS.HUFFMAN, 46_huffman.md R221. -/
  | compressHuffman
  /-- COMPRESS.LZW, 45_lzw.md R201. -/
  | compressLzw
  /-- COMPRESS.LZSS, 44_lzss.md R181. -/
  | compressLzss
  /-- COMPRESS.DELTA, 42_delta.md R151. -/
  | compressDelta
  /-- COMPRESS.BWT, 47_bwt_mtf.md R261. -/
  | compressBwt
  /-- DECOMPRESS.RLE, 41_rle.md R142. -/
  | decompressRle
  /-- DECOMPRESS.LZ77, 43_lz77.md R165. -/
  | decompressLz77
  /-- DECOMPRESS.HUFFMAN, 46_huffman.md R235. -/
  | decompressHuffman
  /-- DECOMPRESS.LZW, 45_lzw.md R205. -/
  | decompressLzw
  /-- DECOMPRESS.LZSS, 44_lzss.md R185. -/
  | decompressLzss
  /-- DECOMPRESS.DELTA, 42_delta.md R152. -/
  | decompressDelta
  /-- DECOMPRESS.BWT, 47_bwt_mtf.md R270. -/
  | decompressBwt
  /-- PACK, 48_container.md R291. -/
  | pack
  /-- UNPACK, 48_container.md R292. -/
  | unpack
  /-- ENCODE.RLE, 48_container.md R294. -/
  | encodeRle
  /-- ENCODE.LZ77, 48_container.md R294. -/
  | encodeLz77
  /-- ENCODE.HUFFMAN, 48_container.md R294. -/
  | encodeHuffman
  /-- ENCODE.LZW, 48_container.md R294. -/
  | encodeLzw
  /-- ENCODE.LZSS, 48_container.md R294. -/
  | encodeLzss
  /-- ENCODE.DELTA, 48_container.md R294. -/
  | encodeDelta
  /-- ENCODE.BWT, 48_container.md R294. -/
  | encodeBwt
  /-- DECODE, 48_container.md R295. -/
  | decode
  /-- CLEAR, 40_commands_contract.md R128. -/
  | clear
  /-- RLE.PAIR, the pair `(count, value)`, 30_encoding.md R84, 41_rle.md R143. -/
  | rlePair (count value : Byte)
  /-- DELTA.FIRST, the first byte verbatim, 30_encoding.md R85, 42_delta.md R153. -/
  | deltaFirst (b : Byte)
  /-- DELTA.DIFF, a wrapped difference, 30_encoding.md R85, 42_delta.md R153. -/
  | deltaDiff (d : Byte)
  /-- LZ77.LIT, 30_encoding.md R87, 43_lz77.md R164. -/
  | lz77Lit (b : Byte)
  /-- LZ77.MATCH, 30_encoding.md R88, 43_lz77.md R166. -/
  | lz77Match (len : BitVec 7) (off : BitVec 16)
  /-- LZSS.LIT, 30_encoding.md R91, 44_lzss.md R184. -/
  | lzssLit (b : Byte)
  /-- LZSS.MATCH: the fields `offset - 1` and `length - 3`, 30_encoding.md R91, 44_lzss.md R187. -/
  | lzssMatch (offMinus1 : BitVec 12) (lenMinus3 : BitVec 4)
  /-- LZW.CODE, 30_encoding.md R93, 45_lzw.md R204. -/
  | lzwCode (code : BitVec 12)
  /-- HUF.INT, 30_encoding.md R95, 46_huffman.md R236. -/
  | hufInt
  /-- HUF.LEAF, 30_encoding.md R95, 46_huffman.md R236. -/
  | hufLeaf (sym : Byte)
  /-- HUF.NULL, 30_encoding.md R95, 46_huffman.md R236. -/
  | hufNull
  /-- HUF.BIT: 0 = left, 1 = right, 30_encoding.md R96, 46_huffman.md R238. -/
  | hufBit (dir : BitVec 1)
  /-- MTF.IDX, 30_encoding.md R98, 47_bwt_mtf.md R268. -/
  | mtfIdx (idx : Byte)
  deriving DecidableEq, Repr

/-- Where a decoder stands, which tells what the next unit is (30_encoding.md R100): the `CMD` register, or a place in a
frame. In the two bit streams the place includes the bit, 0 to 7, of the first byte at which the token begins. -/
inductive Ctx where
  /-- the `CMD` register, R81 -/
  | command
  /-- an RLE frame, R84 -/
  | rle
  /-- byte 8 of a Delta frame, R85 -/
  | deltaFirst
  /-- a later byte of a Delta frame, R85 -/
  | deltaDiff
  /-- an LZ77 frame, R86 -/
  | lz77
  /-- the LZSS data stream at a token whose flag is 0, R90, R91 -/
  | lzssLit
  /-- the LZSS data stream at a token whose flag is 1, R90, R91 -/
  | lzssMatch
  /-- the LZW code stream, R93 -/
  | lzw (bit : Nat)
  /-- the serialised Huffman tree, R95 -/
  | hufTree
  /-- the Huffman payload, R96 -/
  | hufBit (bit : Nat)
  /-- the payload of a BWT chunk, R98 -/
  | mtf
  deriving DecidableEq, Repr

/-- Why a decoder refuses what it stands at (30_encoding.md R82, R101). -/
inductive Reject where
  /-- a `CMD` value that is no command, R82 -/
  | illegalCommand
  /-- a `CMD` value whose ALG field names no algorithm, R82 -/
  | unknownAlgorithm
  /-- the bytes end inside the token -/
  | cutShort
  /-- an LZ77 first byte 0x81 to 0xFF, R101 -/
  | badFlag
  /-- a Huffman tree tag 0x03 to 0xFF, R101 -/
  | badTag
  /-- an LZSS token whose flag bit lies past the flag bytes, 44_lzss.md R185 -/
  | outOfFlags
  deriving DecidableEq, Repr

end Sys2Proof
end

