-- ==== Sys2Proof/WellFormed.lean ====
section
/-! DEFINITION. Which instruction terms are well formed. The widths of the fields are in their types; what is left to
check is the one field value that 30_encoding.md R101 calls illegal whatever the state, and that a token stands at a place
where its codec's decoder reads it. -/

namespace Sys2Proof

/-- The static legality of an encoding (30_encoding.md R88, R101): an LZ77 match offset of 0 is illegal; every other field
value of every other row is legal, or its legality depends on the state. -/
def Instr.WellFormed : Instr → Bool
  | .lz77Match _ off => off != 0
  | _ => true

/-- The place a decoder stands in when it reads the instruction (30_encoding.md R100); for a token of a bit stream, at the
first bit of a byte. -/
def Instr.ctx : Instr → Ctx
  | .rlePair _ _ => .rle
  | .deltaFirst _ => .deltaFirst
  | .deltaDiff _ => .deltaDiff
  | .lz77Lit _ => .lz77
  | .lz77Match _ _ => .lz77
  | .lzssLit _ => .lzssLit
  | .lzssMatch _ _ => .lzssMatch
  | .lzwCode _ => .lzw 0
  | .hufInt => .hufTree
  | .hufLeaf _ => .hufTree
  | .hufNull => .hufTree
  | .hufBit _ => .hufBit 0
  | .mtfIdx _ => .mtf
  | _ => .command

/-- The place `c` without the bit position inside a byte. -/
def Ctx.atBit0 : Ctx → Ctx
  | .lzw _ => .lzw 0
  | .hufBit _ => .hufBit 0
  | c => c

/-- The instruction may stand at the place `c`: a token of another codec, or a command inside a frame, may not
(30_encoding.md R80, R100). -/
def Instr.WellFormedAt (c : Ctx) (i : Instr) : Bool :=
  i.WellFormed && decide (i.ctx = c.atBit0)

end Sys2Proof
end

