-- ==== Sys2Proof/Decode.lean ====
section
/-! DEFINITION. Decoding and encoding of commands and tokens, from the tables of spec/30_encoding.md. -/

namespace Sys2Proof

/-! ## Bits -/

/-- Bit `i` of a byte sequence read MSB-first (00_scope.md R12): `(s[i >> 3] >> (7 - (i & 7))) & 1`. -/
def bitAt (s : Bytes) (i : Nat) : Bool := (s.getD (i / 8) 0).getLsbD (7 - i % 8)

/-- Bits `i` to `i + len - 1` of an MSB-first stream, first bit first (00_scope.md R12). -/
def bitsFrom (s : Bytes) (i : Nat) : Nat → List Bool
  | 0 => []
  | len + 1 => bitAt s i :: bitsFrom s (i + 1) len

/-- The unsigned integer whose binary digits are given, highest first. -/
def bitsValue (bits : List Bool) : Nat := bits.foldl (fun a b => 2 * a + b.toNat) 0

/-! ## Commands -/

/-- The algorithm an id names (30_encoding.md R81); 7 and above name none (40_commands_contract.md R124). -/
def algOfId : Nat → Option Alg
  | 0 => some .rle
  | 1 => some .lz77
  | 2 => some .huffman
  | 3 => some .lzw
  | 4 => some .lzss
  | 5 => some .delta
  | 6 => some .bwt
  | _ => none

/-- The id of an algorithm (30_encoding.md R81). -/
def algId : Alg → Nat
  | .rle => 0
  | .lz77 => 1
  | .huffman => 2
  | .lzw => 3
  | .lzss => 4
  | .delta => 5
  | .bwt => 6

/-- COMPRESS of an algorithm, OP = 0x1 (30_encoding.md R81). -/
def compressOf : Alg → Instr
  | .rle => .compressRle
  | .lz77 => .compressLz77
  | .huffman => .compressHuffman
  | .lzw => .compressLzw
  | .lzss => .compressLzss
  | .delta => .compressDelta
  | .bwt => .compressBwt

/-- DECOMPRESS of an algorithm, OP = 0x2 (30_encoding.md R81). -/
def decompressOf : Alg → Instr
  | .rle => .decompressRle
  | .lz77 => .decompressLz77
  | .huffman => .decompressHuffman
  | .lzw => .decompressLzw
  | .lzss => .decompressLzss
  | .delta => .decompressDelta
  | .bwt => .decompressBwt

/-- ENCODE of an algorithm, OP = 0x5 (30_encoding.md R81). -/
def encodeOf : Alg → Instr
  | .rle => .encodeRle
  | .lz77 => .encodeLz77
  | .huffman => .encodeHuffman
  | .lzw => .encodeLzw
  | .lzss => .encodeLzss
  | .delta => .encodeDelta
  | .bwt => .encodeBwt

/-- A command whose ALG field names an algorithm (30_encoding.md R81, R82). -/
def withAlg (alg : Nat) (f : Alg → Instr) : Except Reject Instr :=
  match algOfId alg with
  | some a => .ok (f a)
  | none => .error .unknownAlgorithm

/-- A command whose ALG field must be 0 (30_encoding.md R81, R82). -/
def withZero (alg : Nat) (i : Instr) : Except Reject Instr :=
  if alg = 0 then .ok i else .error .illegalCommand

/-- The `CMD` byte: `OP = CMD[7:4]`, `ALG = CMD[3:0]` (30_encoding.md R81, R82). -/
def decodeCommand (v : Byte) : Except Reject Instr :=
  let alg := v.toNat % 16
  match v.toNat / 16 with
  | 0x1 => withAlg alg compressOf
  | 0x2 => withAlg alg decompressOf
  | 0x3 => withZero alg .pack
  | 0x4 => withZero alg .unpack
  | 0x5 => withAlg alg encodeOf
  | 0x6 => withZero alg .decode
  | 0xF => withZero alg .clear
  | _ => .error .illegalCommand

/-! ## Tokens -/

/-- An LZ77 token: the first byte decides (30_encoding.md R87, R88, R100, R101). -/
def decodeLz77 : Bytes → Except Reject Instr
  | [] => .error .cutShort
  | t :: rest =>
    if t = Config.lz77LitFlag then
      match rest with
      | b :: _ => .ok (.lz77Lit b)
      | [] => .error .cutShort
    else if t.toNat < 0x80 then
      match rest with
      | hi :: lo :: _ => .ok (.lz77Match (t.truncate 7) (hi ++ lo))
      | _ => .error .cutShort
    else .error .badFlag

/-- An LZSS match code, high byte first (30_encoding.md R91). -/
def lzssMatchOf (v : BitVec 16) : Instr := .lzssMatch (v.extractLsb' 4 12) (v.extractLsb' 0 4)

/-- A tag of a serialised tree (30_encoding.md R95, R101). -/
def decodeHufTree : Bytes → Except Reject Instr
  | [] => .error .cutShort
  | tag :: rest =>
    if tag = 0x00 then .ok .hufInt
    else if tag = 0x01 then
      match rest with
      | s :: _ => .ok (.hufLeaf s)
      | [] => .error .cutShort
    else if tag = 0x02 then .ok .hufNull
    else .error .badTag

/-- The instruction at the head of the bytes `bs`, read at the place `c`; total on any bytes. -/
def decode (c : Ctx) (bs : Bytes) : Except Reject Instr :=
  match c, bs with
  | .command, v :: _ => decodeCommand v
  | .rle, count :: value :: _ => .ok (.rlePair count value)
  | .deltaFirst, b :: _ => .ok (.deltaFirst b)
  | .deltaDiff, d :: _ => .ok (.deltaDiff d)
  | .lz77, bs => decodeLz77 bs
  | .lzssLit, b :: _ => .ok (.lzssLit b)
  | .lzssMatch, hi :: lo :: _ => .ok (lzssMatchOf (hi ++ lo))
  | .lzw bit, bs =>
    if bit + Config.lzwCodeBits ≤ 8 * bs.length then
      .ok (.lzwCode (BitVec.ofNat 12 (bitsValue (bitsFrom bs bit Config.lzwCodeBits))))
    else .error .cutShort
  | .hufTree, bs => decodeHufTree bs
  | .hufBit bit, bs =>
    if bit < 8 * bs.length then .ok (.hufBit (BitVec.ofBool (bitAt bs bit))) else .error .cutShort
  | .mtf, i :: _ => .ok (.mtfIdx i)
  | _, _ => .error .cutShort

/-! ## Encoding -/

/-- The byte of a command (30_encoding.md R81). -/
def commandByte (op alg : Nat) : Bytes := [BitVec.ofNat 8 (16 * op + alg)]

/-- The bytes of an instruction (30_encoding.md R81, R84 to R98). A token of a bit stream is laid out from bit 7 of its
first byte on, and its last byte is filled with zeros. -/
def encode : Instr → Bytes
  | .compressRle => commandByte 0x1 (algId .rle)
  | .compressLz77 => commandByte 0x1 (algId .lz77)
  | .compressHuffman => commandByte 0x1 (algId .huffman)
  | .compressLzw => commandByte 0x1 (algId .lzw)
  | .compressLzss => commandByte 0x1 (algId .lzss)
  | .compressDelta => commandByte 0x1 (algId .delta)
  | .compressBwt => commandByte 0x1 (algId .bwt)
  | .decompressRle => commandByte 0x2 (algId .rle)
  | .decompressLz77 => commandByte 0x2 (algId .lz77)
  | .decompressHuffman => commandByte 0x2 (algId .huffman)
  | .decompressLzw => commandByte 0x2 (algId .lzw)
  | .decompressLzss => commandByte 0x2 (algId .lzss)
  | .decompressDelta => commandByte 0x2 (algId .delta)
  | .decompressBwt => commandByte 0x2 (algId .bwt)
  | .pack => commandByte 0x3 0
  | .unpack => commandByte 0x4 0
  | .encodeRle => commandByte 0x5 (algId .rle)
  | .encodeLz77 => commandByte 0x5 (algId .lz77)
  | .encodeHuffman => commandByte 0x5 (algId .huffman)
  | .encodeLzw => commandByte 0x5 (algId .lzw)
  | .encodeLzss => commandByte 0x5 (algId .lzss)
  | .encodeDelta => commandByte 0x5 (algId .delta)
  | .encodeBwt => commandByte 0x5 (algId .bwt)
  | .decode => commandByte 0x6 0
  | .clear => commandByte 0xF 0
  | .rlePair count value => [count, value]
  | .deltaFirst b => [b]
  | .deltaDiff d => [d]
  | .lz77Lit b => [Config.lz77LitFlag, b]
  | .lz77Match len off => [0#1 ++ len, off.extractLsb' 8 8, off.extractLsb' 0 8]
  | .lzssLit b => [b]
  | .lzssMatch o l => [(o ++ l).extractLsb' 8 8, (o ++ l).extractLsb' 0 8]
  | .lzwCode c => [c.extractLsb' 4 8, c.extractLsb' 0 4 ++ 0#4]
  | .hufInt => [0x00]
  | .hufLeaf s => [0x01, s]
  | .hufNull => [0x02]
  | .hufBit d => [d ++ 0#7]
  | .mtfIdx i => [i]

/-- How many bits the instruction has (30_encoding.md R100, opcode_table.json `width_bits`). -/
def bitLength : Instr → Nat
  | .rlePair _ _ => 16
  | .lz77Lit _ => 16
  | .lz77Match _ _ => 24
  | .lzssMatch _ _ => 16
  | .lzwCode _ => 12
  | .hufLeaf _ => 16
  | .hufBit _ => 1
  | _ => 8

/-! ## The words of the opcode table -/

/-- `v` as `k` bytes, highest byte first. -/
def bytesBE (k v : Nat) : Bytes :=
  match k with
  | 0 => []
  | k + 1 => BitVec.ofNat 8 (v / 256 ^ k) :: bytesBE k v

/-- The bytes in which a table word of `nbits` bits is stored: the table reads a row as one number, high byte first, so
the word's highest bit is bit 7 of the first byte; a word that is no whole number of bytes is filled with zeros, as the
bit streams are (00_scope.md R12). -/
def tableBytes (nbits w : Nat) : Bytes :=
  let k := (nbits + 7) / 8
  bytesBE k (w * 2 ^ (8 * k - nbits))

/-- The places at which a word of `nbits` bits is read when no place is given (log 10): first those whose instructions have
fixed bits of their own, then the codec that the table tells apart by nothing but the word's width. -/
def bareContexts : Nat → List Ctx
  | 1 => [.hufBit 0]
  | 8 => [.command, .hufTree, .mtf]
  | 12 => [.lzw 0]
  | 16 => [.hufTree, .lz77, .rle]
  | 24 => [.lz77]
  | _ => []

/-- The first of the places at which the bytes are an instruction of exactly `nbits` bits. -/
def firstReading (nbits : Nat) (bs : Bytes) : List Ctx → Option Instr
  | [] => none
  | c :: cs =>
    match decode c bs with
    | .ok i => if bitLength i = nbits then some i else firstReading nbits bs cs
    | .error _ => firstReading nbits bs cs

/-- The instruction of a word of `nbits` bits numbered as spec/opcode_table.json numbers it. -/
def decodeTableWord (nbits w : Nat) : Option Instr :=
  firstReading nbits (tableBytes nbits w) (bareContexts nbits)

end Sys2Proof
end

