-- ==== Sys2Proof/Machine/State.lean ====
section
/-! DEFINITION. The state of the engine as plain data: every register, buffer and table of spec/10_state.md, and the
model's own fields, each with a log entry. -/

namespace Sys2Proof.Machine

/-- The error kinds (60_exceptions.md R310). `poolShutdown` and `ioFailure` are reserved and never raised (R311). -/
inductive ErrKind where
  | malformedContainer
  | unknownAlgorithm
  | corruptPayload
  | sizeMismatch
  | poolShutdown
  | ioFailure
  | capacityExceeded
  | illegalCommand
  deriving DecidableEq, Repr

/-- The field STATE of `STATUS` (10_state.md R32). -/
inductive Status where
  /-- 0: no result is held -/
  | idle
  /-- 1: an operation is running -/
  | busy
  /-- 2: the last operation succeeded -/
  | done
  /-- 3: the last operation failed -/
  | error
  deriving DecidableEq, Repr

/-- The seven registers of the CSR map (10_state.md R30). -/
inductive Csr where
  | cmd
  | status
  | err
  | inLen
  | outLen
  | argAlg
  | argSize
  deriving DecidableEq, Repr

/-- The width of a CSR access (10_state.md R30: a register is accessed whole, in its own width). -/
inductive Width where
  | w8
  | w16
  | w32
  | w64
  deriving DecidableEq, Repr

/-- Where the running operation stands: the loop of the family rule it is in (40_commands_contract.md R121, the `run`
step). The model's own field (log 7). -/
inductive Phase where
  /-- no operation is running -/
  | off
  /-- an operation has started and its command is still to be fetched from `CMD` (R121) -/
  | command
  /-- the run is over and the end sequence of R121 is next -/
  | finished
  /-- 41_rle.md R141 -/
  | rleC
  /-- 41_rle.md R142 -/
  | rleD
  /-- 42_delta.md R151 -/
  | deltaC
  /-- 42_delta.md R152 -/
  | deltaD
  /-- 43_lz77.md R162 -/
  | lz77C
  /-- 43_lz77.md R165 -/
  | lz77D
  /-- 44_lzss.md R181 -/
  | lzssC
  /-- 44_lzss.md R185 -/
  | lzssD
  /-- 45_lzw.md R201 -/
  | lzwC
  /-- 45_lzw.md R205 -/
  | lzwD
  /-- 46_huffman.md R221 step (7) -/
  | hufC
  /-- 46_huffman.md R235 step (4), `Des` -/
  | hufTree
  /-- 46_huffman.md R235 step (7), the tree walk -/
  | hufBits
  /-- 47_bwt_mtf.md R261 -/
  | bwtC
  /-- 47_bwt_mtf.md R270, at a chunk header or the end of the frame -/
  | bwtChunk
  /-- 47_bwt_mtf.md R270, in a chunk's payload -/
  | bwtIdx
  /-- 48_container.md R291 -/
  | pack
  /-- 48_container.md R292 -/
  | unpack
  deriving DecidableEq, Repr

/-- Which end sequence of 40_commands_contract.md R121 the running command has. The model's own field (log 12). -/
inductive Ending where
  /-- every command but UNPACK and DECODE -/
  | plain
  /-- UNPACK: the `ARG` registers are written -/
  | unpack
  /-- DECODE: `out_len` is compared with `original_size` and the `ARG` registers are written (48_container.md R295) -/
  | decode
  deriving DecidableEq, Repr

/-- A record of `TREE` (10_state.md R37); a child is an arena index or `NULL`. -/
inductive TreeRec where
  | leaf (sym : Byte)
  | internal (left right : Option Nat)
  deriving DecidableEq, Repr

/-- An entry of `PQ` (10_state.md R37). -/
structure PqEntry where
  freq : Nat
  seq : Nat
  node : Nat
  deriving DecidableEq, Repr

/-- A place in the tree that `Des` still has to fill: the stack that stands for its recursion (46_huffman.md R236, log 13). -/
inductive Slot where
  | root
  | left (parent : Nat)
  | right (parent : Nat)
  deriving DecidableEq, Repr

/-- What the host, or the reset input, does next (70_reset_and_hazards.md R350, R355 to R361; log 6). -/
inductive HostMove where
  /-- write bytes into `IN` (R356) -/
  | writeIn (addr : Nat) (bytes : Bytes)
  /-- write a CSR (R358, R359; `CMD`: 40_commands_contract.md R120) -/
  | writeCsr (offset : Nat) (width : Width) (value : Word64)
  /-- read a CSR (R360) -/
  | readCsr (offset : Nat) (width : Width)
  /-- read a byte of `OUT` (R361) -/
  | readOut (addr : Nat)
  /-- let the engine do one unit of work (40_commands_contract.md R129, log 7) -/
  | tick
  /-- poll `STATUS` until STATE is not BUSY (30_encoding.md R102) -/
  | wait
  /-- the reset input (R350) -/
  | reset
  deriving DecidableEq, Repr

/-- The OPEN parameters of 00_scope.md R9, fixed for the life of the engine (logs 1, 2); `none` is an unbounded buffer. -/
structure Params where
  inCap : Option Nat
  outCap : Option Nat
  magic : Byte
  deriving DecidableEq, Repr

/-- The working registers (10_state.md R22, R23), under the spec's names, and the model's `ending`, `inBase`, `outBase`,
`slots` (logs 12, 13). Counters are unbounded naturals, as R23 allows (log 8). -/
structure Regs where
  ip : Nat
  outCount : Nat
  nIn : Nat
  n : Nat
  run : Nat
  cur : Byte
  prev : Byte
  bestLen : Nat
  bestOff : Nat
  j : Nat
  len : Nat
  off : Nat
  tok : Nat
  fc : Nat
  dp : Nat
  bp : Nat
  acc : Nat
  nacc : Nat
  w : Option Nat
  e : Option Nat
  code : Nat
  prevCode : Option Nat
  total : Nat
  nextCode : Nat
  node : Option Nat
  root : Option Nat
  tl : Nat
  tp : Nat
  tb : Nat
  seq : Nat
  p : Nat
  cs : Nat
  r : Nat
  k : Nat
  rank : Byte
  aAlg : Byte
  aSize : Word64
  ending : Ending
  inBase : Nat
  outBase : Nat
  slots : List Slot
  deriving DecidableEq, Repr

/-- The working tables (10_state.md R36 to R42), under the spec's names. -/
structure Tables where
  freq : List Nat
  tree : List TreeRec
  pq : List PqEntry
  code : List (List Bool)
  dict : List Bytes
  mtf : Bytes
  chunk : Bytes
  rot : List Nat
  lf : List Nat
  blk : Bytes
  cnt : List Nat
  start : List Nat
  seen : List Nat
  flags : Bytes
  data : Bytes
  deriving DecidableEq, Repr

/-- A byte-addressed space: the addresses that hold a value the model knows, strictly rising (`Memory.wf`). An address
that is not listed holds no value; what a read of it gives is said where it is read (logs 3, 4). -/
abbrev Memory := List Host.Cell

/-- The whole state (10_state.md R20), with the model's own fields `params`, `phase`, `host`, `rdata`, `epoch`, `draws`. -/
structure State where
  /-- the OPEN parameters (00_scope.md R9); no step changes them -/
  params : Params
  /-- `CMD` (10_state.md R31) -/
  cmd : Byte
  /-- `STATUS.STATE` (10_state.md R32) -/
  status : Status
  /-- `ERR` (10_state.md R33) -/
  err : Byte
  /-- `IN_LEN` (10_state.md R34) -/
  inLen : Word64
  /-- `OUT_LEN` (10_state.md R34) -/
  outLen : Word64
  /-- `ARG_ALG` (10_state.md R35) -/
  argAlg : Byte
  /-- `ARG_SIZE` (10_state.md R35) -/
  argSize : Word64
  /-- `IN` (20_memory.md R50) -/
  inMem : Memory
  /-- `OUT` (20_memory.md R51): the bytes the last operation emitted -/
  outMem : Memory
  /-- the working registers -/
  regs : Regs
  /-- the working tables -/
  tabs : Tables
  /-- where the running operation stands -/
  phase : Phase
  /-- the host's moves still to come -/
  host : List HostMove
  /-- what the host's last read returned -/
  rdata : Word64
  /-- which unspecified contents `IN` has -/
  epoch : Nat
  /-- how many unspecified bytes of `OUT` have been read -/
  draws : Nat
  deriving DecidableEq, Repr

/-- Why the machine stops with a fault. Only a host move can: no instruction does. -/
inductive Fault where
  /-- The host writes `IN` at an address outside `IN_CAP`, which 20_memory.md R50 says does not exist. Raised by the host
  move `writeIn`; safe: the hardware has no such address. -/
  | inAddress
  /-- The host reads `OUT` at an address outside `OUT_CAP`, which 20_memory.md R51 says does not exist. Raised by the host
  move `readOut`; safe: the hardware has no such address. -/
  | outAddress
  deriving DecidableEq, Repr

/-- Why the machine refuses to go on. -/
inductive Refusal where
  /-- The instruction has no meaning in the model. Raised by no arm of `exec`; safe. -/
  | notModelled (mnemonic : String)
  /-- The host touches `IN` or `OUT` while BUSY: 70_reset_and_hazards.md R357 makes it a move that is not enabled. Raised by
  the host moves `writeIn` and `readOut`; safe. -/
  | bufferWhileBusy
  /-- A CSR access at an offset or in a width that is not the map's: 10_state.md R30 and 20_memory.md R52 give it no meaning.
  Raised by the host moves `writeCsr` and `readCsr`; safe. -/
  | noSuchCsr
  deriving DecidableEq, Repr

/-- `MTF` at `MtfInit` (47_bwt_mtf.md R266): byte value `v` at rank `v`. -/
def Tables.mtfIdentity : Bytes := (List.range 256).map (BitVec.ofNat 8)

/-- The seed of `DICT` (45_lzw.md R202): code `c` is the one-byte string `[c]`. -/
def Tables.dictSeed : List Bytes := (List.range 256).map (fun c => [BitVec.ofNat 8 c])

/-- The working registers when they hold nothing yet (10_state.md R25; the values are the model's, log 5). -/
def Regs.fresh : Regs where
  ip := 0
  outCount := 0
  nIn := 0
  n := 0
  run := 0
  cur := 0
  prev := 0
  bestLen := 0
  bestOff := 0
  j := 0
  len := 0
  off := 0
  tok := 0
  fc := 0
  dp := 0
  bp := 0
  acc := 0
  nacc := 0
  w := none
  e := none
  code := 0
  prevCode := none
  total := 0
  nextCode := 256
  node := none
  root := none
  tl := 0
  tp := 0
  tb := 0
  seq := 0
  p := 0
  cs := 0
  r := 0
  k := 0
  rank := 0
  aAlg := 0
  aSize := 0
  ending := .plain
  inBase := 0
  outBase := 0
  slots := [.root]

/-- The working tables when they hold nothing yet (10_state.md R25; the values are the model's, log 5). -/
def Tables.fresh : Tables where
  freq := List.replicate 256 0
  tree := []
  pq := []
  code := List.replicate 256 []
  dict := Tables.dictSeed
  mtf := Tables.mtfIdentity
  chunk := []
  rot := []
  lf := []
  blk := []
  cnt := List.replicate 256 0
  start := List.replicate 256 0
  seen := List.replicate 256 0
  flags := []
  data := []

/-- The machine right after reset (10_state.md R44, 70_reset_and_hazards.md R350): the seven registers at 0 and STATE =
IDLE. The buffers list nothing; the working state is the model's (log 5), the parameters are unbounded and free (logs 1,
2), and no host move is pending (log 11). -/
def State.reset : State where
  params := { inCap := none, outCap := none, magic := Config.magic }
  cmd := 0
  status := .idle
  err := 0
  inLen := 0
  outLen := 0
  argAlg := 0
  argSize := 0
  inMem := []
  outMem := []
  regs := Regs.fresh
  tabs := Tables.fresh
  phase := .off
  host := []
  rdata := 0
  epoch := 0
  draws := 0

end Sys2Proof.Machine
end

