-- ==== Sys2Proof/Machine/Flags.lean ====
section
/-! DEFINITION. The status and error words. CKE has no condition codes (spec/10_state.md R26); the only status is
`STATUS.STATE` (R32) and the error kind in `ERR` (R33, 60_exceptions.md R310). -/

namespace Sys2Proof.Machine

/-- The value of the field STATE (10_state.md R32). -/
def statusCode : Status → Nat
  | .idle => 0
  | .busy => 1
  | .done => 2
  | .error => 3

/-- `STATUS` as the host reads it: `STATUS[1:0]` is STATE and `STATUS[7:2]` read as zero (10_state.md R32). -/
def statusWord (st : Status) : Byte := BitVec.ofNat 8 (statusCode st)

/-- The code of an error kind (60_exceptions.md R310). -/
def errCode : ErrKind → Byte
  | .malformedContainer => 1
  | .unknownAlgorithm => 2
  | .corruptPayload => 3
  | .sizeMismatch => 4
  | .poolShutdown => 5
  | .ioFailure => 6
  | .capacityExceeded => 7
  | .illegalCommand => 8

/-- The error kind a decoder's refusal is reported as (30_encoding.md R82, R101; 60_exceptions.md R312). -/
def rejectKind : Reject → ErrKind
  | .illegalCommand => .illegalCommand
  | .unknownAlgorithm => .unknownAlgorithm
  | .cutShort => .corruptPayload
  | .badFlag => .corruptPayload
  | .badTag => .corruptPayload
  | .outOfFlags => .corruptPayload

end Sys2Proof.Machine
end

