-- ==== Sys2Proof/Machine/Ops.lean ====
section
/-! DEFINITION. The named operations: the memory spaces, reading `IN` and `OUT`, `Emit`, the start and the end of an
operation, `raise` (taking an error) and CLEAR (the return from it). -/

namespace Sys2Proof.Machine

/-! ## Memory -/

/-- The byte at an address, if the address holds a value. -/
def Memory.read : Memory → Nat → Option Byte
  | [], _ => none
  | (x, b) :: rest, a => if x = a then some b else Memory.read rest a

/-- Write one byte, keeping the addresses strictly rising. -/
def Memory.write : Memory → Nat → Byte → Memory
  | [], a, v => [(a, v)]
  | (x, b) :: rest, a, v =>
    if a < x then (a, v) :: (x, b) :: rest
    else if a = x then (a, v) :: rest
    else (x, b) :: Memory.write rest a v

/-- Write bytes at consecutive addresses. -/
def Memory.writeAll (m : Memory) (a : Nat) : Bytes → Memory
  | [] => m
  | v :: vs => Memory.writeAll (m.write a v) (a + 1) vs

/-- The canonical form: addresses strictly rising. An unlisted address holds no value, so no entry can equal it. -/
abbrev Memory.wf (m : Memory) : Prop := m.Pairwise (fun x y => x.1 < y.1)

/-- An address or a length is beyond a capacity (00_scope.md R9: a natural number or unbounded). -/
def beyond (cap : Option Nat) (a : Nat) : Bool :=
  match cap with
  | none => false
  | some c => decide (c ≤ a)

/-! ## The engine's reads -/

/-- The byte of `IN` at an address; where the host has written nothing, the free byte of log 3. -/
def State.inByteAt (s : State) (addr : Nat) : Byte :=
  (s.inMem.read addr).getD (Config.inByte s.epoch addr)

/-- `in[i]` (00_scope.md R13), which in the codec of DECODE means `IN[10 + i]` (48_container.md R295). -/
def State.inAt (s : State) (i : Nat) : Byte := s.inByteAt (s.regs.inBase + i)

/-- `out[k]` (00_scope.md R13), which in the codec of ENCODE stands after the header (48_container.md R294). Every rule
asks `k < out_len` first, and then the byte is there (20_memory.md R56). -/
def State.outAt (s : State) (k : Nat) : Byte :=
  (s.outMem.read (s.regs.outBase + k)).getD (Config.outByte s.draws (s.regs.outBase + k))

/-- The bytes `in[a .. a + len]`. -/
def State.inSlice (s : State) (a : Nat) : Nat → Bytes
  | 0 => []
  | len + 1 => s.inAt a :: s.inSlice (a + 1) len

/-- The whole input `in[0..n_in]` of the running operation. -/
def State.input (s : State) : Bytes := s.inSlice 0 s.regs.nIn

/-! ## Errors -/

/-- `raise K` (60_exceptions.md R320): the error entry. `CMD`, `IN`, `IN_LEN`, `ARG_ALG` and `ARG_SIZE` are kept, all output is
withdrawn, and no cursor, vector or mode is saved. -/
def State.raise (s : State) (k : ErrKind) : State :=
  { s with outLen := 0, err := errCode k, status := .error, outMem := [], phase := .off }

/-- A piece of an operation: it goes on in a state or raises an error kind, and no statement after a raise runs
(00_scope.md R13). -/
abbrev Run := Except ErrKind State

/-- The state after a piece of an operation that began in `s`. -/
def State.settle (s : State) : Run → State
  | .ok t => t
  | .error k => s.raise k

/-! ## Emit -/

/-- The state after one more byte of output, when there is room for it. -/
def State.put (s : State) (b : Byte) : State :=
  { s with
    outMem := s.outMem.write (s.regs.outBase + s.regs.outCount) b
    regs := { s.regs with outCount := s.regs.outCount + 1 } }

/-- `Emit(b)` (00_scope.md R13, 40_commands_contract.md R122). -/
def State.emit (s : State) (b : Byte) : Run :=
  if beyond s.params.outCap (s.regs.outBase + s.regs.outCount) then .error .capacityExceeded
  else .ok (s.put b)

/-- `EmitSeq(s)` (00_scope.md R13): `Emit` of each byte in order. -/
def State.emitSeq (s : State) : Bytes → Run
  | [] => .ok s
  | b :: bs => s.emit b >>= fun t => t.emitSeq bs

/-- The byte-by-byte history copy (20_memory.md R61): `repeat len times: Emit(out[out_len - off])`, with `out_len` read
again at every byte. -/
def State.copyHistory (s : State) (off : Nat) : Nat → Run
  | 0 => .ok s
  | len + 1 => s.emit (s.outAt (s.regs.outCount - off)) >>= fun t => t.copyHistory off len

/-! ## The life of an operation -/

/-- The start of an operation (40_commands_contract.md R121). The working registers and tables hold nothing yet
(10_state.md R25), and the old result is gone (R120). -/
def State.start (s : State) : State :=
  { s with
    err := 0
    outLen := 0
    status := .busy
    outMem := []
    regs := { Regs.fresh with nIn := s.inLen.toNat, aAlg := s.argAlg, aSize := s.argSize }
    tabs := Tables.fresh
    phase := .command }

/-- The last start check (40_commands_contract.md R121, R122): `n_in > IN_CAP`. -/
def State.checkCap (s : State) : Run :=
  match s.params.inCap with
  | none => .ok s
  | some c => if c < s.regs.nIn then .error .capacityExceeded else .ok s

/-- Go on to a place of an operation. -/
def State.goTo (s : State) (ph : Phase) : State := { s with phase := ph }

/-- The successful end of an operation (40_commands_contract.md R121): the result is held in DONE. -/
def State.finish (s : State) : State :=
  { s with outLen := BitVec.ofNat 64 (s.regs.outBase + s.regs.outCount), status := .done, phase := .off }

/-- The end of UNPACK and DECODE also writes the `ARG` registers (40_commands_contract.md R121). -/
def State.finishArgs (s : State) : State :=
  { s.finish with argAlg := s.regs.aAlg, argSize := s.regs.aSize }

/-- `return` (00_scope.md R13), with DECODE's last test (48_container.md R295). -/
def State.endOp (s : State) : Run :=
  match s.regs.ending with
  | .plain => .ok s.finish
  | .unpack => .ok s.finishArgs
  | .decode =>
    if s.regs.outCount ≠ s.regs.aSize.toNat then .error .sizeMismatch else .ok s.finishArgs

/-- CLEAR (40_commands_contract.md R128), the return from the ERROR state (60_exceptions.md R325). `OUT` becomes
unspecified. -/
def State.clear (s : State) : State :=
  { s with status := .idle, err := 0, outLen := 0, outMem := [], phase := .off }

end Sys2Proof.Machine
end

