-- ==== Sys2Proof/Machine/Operands.lean ====
section
/-! DEFINITION. The operand forms: multi-byte fields (spec/00_scope.md R11), bit streams (R12) and the bytes a token is
fetched from. -/

namespace Sys2Proof.Machine

/-- The `len` lowest bytes of `v`, lowest first: `U64LE` and `U32LE` for `len` 8 and 4 (R11). -/
def bytesLE : Nat → Nat → Bytes
  | 0, _ => []
  | len + 1, v => BitVec.ofNat 8 v :: bytesLE len (v / 256)

/-- `U64LE(v)` (R11). -/
def u64le (v : Nat) : Bytes := bytesLE 8 v

/-- `U32LE(v)` (R11). -/
def u32le (v : Nat) : Bytes := bytesLE 4 v

/-- The integer of bytes, lowest first (R11). -/
def valueLE : Bytes → Nat
  | [] => 0
  | b :: bs => b.toNat + 256 * valueLE bs

/-- `RdU64LE(in, p)` (R11), assembled from single-byte reads (20_memory.md R55). -/
def State.rdU64 (s : State) (p : Nat) : Nat := valueLE (s.inSlice p 8)

/-- `RdU32LE(in, p)` (R11). -/
def State.rdU32 (s : State) (p : Nat) : Nat := valueLE (s.inSlice p 4)

/-- At most `len` bytes of `in` from `a` on, none of them at or beyond `hi` (20_memory.md R56). -/
def State.window (s : State) (a hi len : Nat) : Bytes := s.inSlice a (min len (hi - a))

/-- Bit `t` of an LSB-first flag stream that begins at `in[base]` (R12): `(s[t >> 3] >> (t & 7)) & 1`. -/
def State.flagAt (s : State) (base t : Nat) : Bool := (s.inAt (base + t / 8)).getLsbD (t % 8)

end Sys2Proof.Machine
end

