-- ==== Sys2Proof/Machine/Bwt.lean ====
section
/-! DEFINITION. BWT + MTF (spec/47_bwt_mtf.md). -/

namespace Sys2Proof.Machine

/-! ## The forward transform (R263) -/

/-- Rotation `i` of a chunk (R263): `rot_i[t] = C[(i + t) mod m]`. -/
def rotation (c : Bytes) (i : Nat) : Bytes := c.drop i ++ c.take i

/-- Lexicographic order of byte sequences, bytes compared as unsigned numbers (R263). -/
def compareBytes : Bytes → Bytes → Ordering
  | [], [] => .eq
  | [], _ :: _ => .lt
  | _ :: _, [] => .gt
  | a :: as, b :: bs =>
    if a.toNat < b.toNat then .lt else if b.toNat < a.toNat then .gt else compareBytes as bs

/-- The order `<<` of R263: equal rotations stand in the order of their start index. -/
def rotationBefore (c : Bytes) (i j : Nat) : Bool :=
  match compareBytes (rotation c i) (rotation c j) with
  | .lt => true
  | .gt => false
  | .eq => decide (i < j)

/-- Put a rotation into its place among sorted ones. -/
def insertRotation (c : Bytes) (i : Nat) : List Nat → List Nat
  | [] => [i]
  | j :: rest => if rotationBefore c i j then i :: j :: rest else j :: insertRotation c i rest

/-- `ROT` (R263): the rotations of the chunk, sorted; how is free (70_reset_and_hazards.md R365). -/
def sortRotations (c : Bytes) : List Nat := (List.range c.length).foldr (insertRotation c) []

/-- `L` (R263): the last column, `L[k] = C[(ROT[k] + m - 1) mod m]`. -/
def lastColumn (c : Bytes) (rot : List Nat) : Bytes :=
  rot.map (fun i => c.getD ((i + c.length - 1) % c.length) 0)

/-- `p` (R263): the row of the original string. -/
def primaryIndex (rot : List Nat) : Nat := rot.idxOf 0

/-! ## Move-to-front (R266 to R268) -/

/-- `MtfInit()` (R266). -/
def State.mtfInit (s : State) : State := { s with tabs := { s.tabs with mtf := Tables.mtfIdentity } }

/-- Move the entry at a rank to the front of the list (R267, R268). -/
def moveToFront (mtf : Bytes) (rank : Nat) (b : Byte) : Bytes := b :: mtf.eraseIdx rank

/-- `MtfEncode` of each byte (R267): the ranks and the list after them. -/
def mtfEncodeAll (mtf : Bytes) : Bytes → Bytes × Bytes
  | [] => ([], mtf)
  | b :: bs =>
    let rank := mtf.idxOf b
    let rest := mtfEncodeAll (moveToFront mtf rank b) bs
    (BitVec.ofNat 8 rank :: rest.1, rest.2)

/-! ## The compressor (R261) -/

/-- R261 before its loop. DESIGN CHOICE: R261 does not write `n`, which keeps the 0 of the start (log 27). -/
def bwtCStart (s : State) : Run :=
  s.emitSeq (u64le s.regs.nIn) >>= fun t =>
    .ok { t with regs := { t.regs with ip := 0 }, phase := .bwtC }

/-- One turn of the loop of R261: one chunk (R262). DESIGN CHOICE: `k` is `cs` after the loops over the chunk (log 27). -/
def bwtUnit (s : State) : Run :=
  let cs := min Config.bwtChunkMax (s.regs.nIn - s.regs.ip)
  let chunk := s.inSlice s.regs.ip cs
  let rot := sortRotations chunk
  let col := lastColumn chunk rot
  let p := primaryIndex rot
  let coded := mtfEncodeAll Tables.mtfIdentity col
  s.emitSeq (u64le p ++ u64le cs ++ coded.1.flatMap (fun i => encode (.mtfIdx i))) >>= fun t =>
    .ok { t with
      tabs := { t.tabs with chunk := chunk, rot := rot, mtf := coded.2 }
      regs := { t.regs with
        cs := cs, p := p, k := cs, cur := col.getLastD 0, rank := coded.1.getLastD 0, ip := t.regs.ip + cs } }

/-! ## The inverse transform (R272) -/

/-- `CNT` (R272): the byte counts of the column. -/
def countBytes (col : Bytes) : List Nat :=
  col.foldl (fun cnt b => cnt.modify b.toNat (· + 1)) (List.replicate Config.alphabet 0)

/-- `START` (R272): the cumulative start offsets, from `s` on. -/
def startOffsets (s : Nat) : List Nat → List Nat
  | [] => []
  | c :: cs => s :: startOffsets (s + c) cs

/-- `LF` and `SEEN` (R272): `LF[k] = START[L[k]] + SEEN[L[k]]`. -/
def lfMapping (start seen : List Nat) : Bytes → List Nat × List Nat
  | [] => ([], seen)
  | b :: bs =>
    let rest := lfMapping start (seen.modify b.toNat (· + 1)) bs
    ((start.getD b.toNat 0 + seen.getD b.toNat 0) :: rest.1, rest.2)

/-- The walk of R272, from the block's last byte to its first: the row and the bytes written so far. -/
def lfWalk (col : Bytes) (lf : List Nat) : Nat → Nat × Bytes → Nat × Bytes
  | 0, x => x
  | more + 1, (r, blk) => lfWalk col lf more (lf.getD r 0, col.getD r 0 :: blk)

/-- `InverseBWT(CHUNK, cs, p)` (R272): fills `CNT`, `START`, `SEEN`, `LF` and `BLK`. -/
def State.inverseBwt (s : State) : State :=
  let col := s.tabs.chunk
  let cnt := countBytes col
  let start := startOffsets 0 cnt
  let mapped := lfMapping start (List.replicate Config.alphabet 0) col
  let walked := lfWalk col mapped.1 s.regs.cs (s.regs.p, [])
  { s with
    tabs := { s.tabs with cnt := cnt, start := start, seen := mapped.2, lf := mapped.1, blk := walked.2 }
    regs := { s.regs with r := walked.1 } }

/-! ## The decompressor (R270) -/

/-- R270 before its loop. -/
def bwtDStart (s : State) : Run :=
  if s.regs.nIn < 8 then .error .corruptPayload
  else .ok { s with regs := { s.regs with n := s.rdU64 0, ip := 8 }, phase := .bwtChunk }

/-- A chunk header (R270): its tests in order, and `MtfInit()`. -/
def bwtHeader (s : State) : Run :=
  if s.regs.nIn < s.regs.ip + 16 then .error .corruptPayload
  else
    let p := s.rdU64 s.regs.ip
    let cs := s.rdU64 (s.regs.ip + 8)
    if Config.bwtChunkMax < cs then .error .corruptPayload
    else if s.regs.nIn < s.regs.ip + 16 + cs then .error .corruptPayload
    else if cs ≤ p then .error .corruptPayload
    else
      let t := s.mtfInit
      .ok { t with
        regs := { t.regs with p := p, cs := cs, k := 0 }, tabs := { t.tabs with chunk := [] }, phase := .bwtIdx }

/-- IDX (R268, R270): `CHUNK[k] <- MtfDecode(i)`. -/
def mtfIdx (i : Byte) (s : State) : Run :=
  let b := s.tabs.mtf.getD i.toNat 0
  .ok { s with
    tabs := { s.tabs with
      mtf := moveToFront s.tabs.mtf i.toNat b
      chunk := s.tabs.chunk.take s.regs.k ++ [b] }
    regs := { s.regs with rank := i, cur := b, k := s.regs.k + 1 } }

/-- The end of a chunk (R270): the block is rebuilt and emitted. DESIGN CHOICE: `k`, which the loops of R272 and R270 use
again, keeps the `cs` that the IDX loop leaves in it (log 27). -/
def bwtChunkEnd (s : State) : Run :=
  let t := s.inverseBwt
  t.emitSeq t.tabs.blk >>= fun u =>
    .ok { u with regs := { u.regs with ip := u.regs.ip + 16 + u.regs.cs }, phase := .bwtChunk }

/-- R270 after its loop. -/
def bwtDEnd (s : State) : Run :=
  if s.regs.outCount ≠ s.regs.n then .error .sizeMismatch else s.endOp

/-- MTF.IDX. -/
def execMtfIdx (i : Byte) (s : State) : Host.Outcome State Fault Refusal := .next (s.settle (mtfIdx i s))

end Sys2Proof.Machine
end

