-- ==== Sys2Proof/Machine/Delta.lean ====
section
/-! DEFINITION. Delta (spec/42_delta.md). -/

namespace Sys2Proof.Machine

/-! ## The encoder (R151) -/

/-- R151 before its loop: the length and the first byte. -/
def deltaCStart (s : State) : Run :=
  s.emitSeq (u64le s.regs.nIn) >>= fun t =>
  t.emitSeq (encode (.deltaFirst (t.inAt 0))) >>= fun u =>
    .ok { u with regs := { u.regs with prev := u.inAt 0, ip := 1 }, phase := .deltaC }

/-- One turn of the loop of R151: the wrapped difference from the previous original byte. -/
def deltaUnit (s : State) : Run :=
  let cur := s.inAt s.regs.ip
  s.emitSeq (encode (.deltaDiff (cur - s.regs.prev))) >>= fun t =>
    .ok { t with regs := { t.regs with cur := cur, prev := cur, ip := t.regs.ip + 1 } }

/-! ## The decoder (R152) -/

/-- The three tests of R152, in its order. -/
def deltaDStart (s : State) : Run :=
  if s.regs.nIn < Config.deltaHdr then .error .corruptPayload
  else
    let n := s.rdU64 0
    if 0 < n ∧ s.regs.nIn < Config.deltaHdr + 1 then .error .corruptPayload
    else if s.regs.nIn - Config.deltaHdr ≠ n then .error .sizeMismatch
    else .ok { s with regs := { s.regs with n := n, ip := Config.deltaHdr }, phase := .deltaD }

/-- The end of a Delta token (R152, R153): the reconstructed byte goes out and becomes the previous one. -/
def deltaOut (cur : Byte) (s : State) : Run :=
  s.emit cur >>= fun t =>
    .ok { t with regs := { t.regs with cur := cur, prev := cur, ip := t.regs.ip + 1 } }

/-- FIRST (R153). -/
def deltaFirst (b : Byte) (s : State) : Run := deltaOut b s

/-- DIFF (R153): the running sum, wrapped to a byte. -/
def deltaDiff (d : Byte) (s : State) : Run := deltaOut (s.regs.prev + d) s

/-- DELTA.FIRST. -/
def execDeltaFirst (b : Byte) (s : State) : Host.Outcome State Fault Refusal :=
  .next (s.settle (deltaFirst b s))

/-- DELTA.DIFF. -/
def execDeltaDiff (d : Byte) (s : State) : Host.Outcome State Fault Refusal :=
  .next (s.settle (deltaDiff d s))

end Sys2Proof.Machine
end

