-- ==== Sys2Proof/Machine/Lzw.lean ====
section
/-! DEFINITION. LZW (spec/45_lzw.md). -/

namespace Sys2Proof.Machine

/-! ## The dictionary (R202) -/

/-- The seeded dictionary (R201, R202, R205). -/
def lzwSeed (s : State) : State :=
  { s with tabs := { s.tabs with dict := Tables.dictSeed }, regs := { s.regs with nextCode := Config.lzwSeed } }

/-- `DICT[c]`. -/
def State.dictAt (s : State) (c : Nat) : Bytes := s.tabs.dict.getD c []

/-- `DICT[w]` for a register that can hold `NONE`, which is no string yet (10_state.md R24). -/
def State.dictOf (s : State) : Option Nat → Bytes
  | none => []
  | some c => s.dictAt c

/-- `DICT.find(x)`: the code of the string `x`, or `NONE`. -/
def State.dictFind (s : State) (x : Bytes) : Option Nat := s.tabs.dict.findIdx? (· == x)

/-- `if next_code < 4096: DICT[next_code] <- x; next_code <- next_code + 1` (R201, R204): append-only, frozen when full. -/
def State.dictAdd (s : State) (x : Bytes) : State :=
  if s.regs.nextCode < Config.lzwDictMax then
    { s with
      tabs := { s.tabs with dict := s.tabs.dict ++ [x] }
      regs := { s.regs with nextCode := s.regs.nextCode + 1 } }
  else s

/-! ## The bit packer (R203) -/

/-- The loop of `PutCode`: whole bytes leave the accumulator. -/
def packDrain : Nat → State → Run
  | 0, s => .ok s
  | more + 1, s =>
    s.emit (BitVec.ofNat 8 (s.regs.acc / 2 ^ (s.regs.nacc - 8))) >>= fun t =>
      packDrain more { t with regs := { t.regs with nacc := t.regs.nacc - 8 } }

/-- `PutCode(c)` (R203). -/
def putCode (c : Nat) (s : State) : Run :=
  let nacc := s.regs.nacc + Config.lzwCodeBits
  packDrain (nacc / 8)
      { s with regs := { s.regs with code := c, acc := s.regs.acc * 2 ^ Config.lzwCodeBits + c, nacc := nacc } } >>=
    fun t => .ok { t with regs := { t.regs with acc := t.regs.acc % 2 ^ t.regs.nacc } }

/-- `FlushCodes()` (R203) and `FlushBits()` (46_huffman.md R226): the last bits, zeros below them. -/
def flushBits (s : State) : Run :=
  if 0 < s.regs.nacc then
    s.emit (BitVec.ofNat 8 (s.regs.acc * 2 ^ (8 - s.regs.nacc))) >>= fun t =>
      .ok { t with regs := { t.regs with nacc := 0 } }
  else .ok s

/-! ## The compressor (R201) -/

/-- R201 before its loop. DESIGN CHOICE: R201 writes neither `n` nor `bp`, and both keep the 0 of the start (log 27). -/
def lzwCStart (s : State) : Run :=
  (lzwSeed s).emitSeq (u64le s.regs.nIn) >>= fun t =>
    .ok { t with regs := { t.regs with acc := 0, nacc := 0, w := some (t.inAt 0).toNat, ip := 1 }, phase := .lzwC }

/-- One turn of the loop of R201: one input byte. -/
def lzwUnit (s : State) : Run :=
  let cur := s.inAt s.regs.ip
  let x := s.dictOf s.regs.w ++ [cur]
  let e := s.dictFind x
  match e with
  | some c =>
    .ok { s with regs := { s.regs with cur := cur, e := e, w := some c, ip := s.regs.ip + 1 } }
  | none =>
    putCode (s.regs.w.getD 0) s >>= fun t =>
      let u := t.dictAdd x
      .ok { u with regs := { u.regs with cur := cur, e := e, w := some cur.toNat, ip := u.regs.ip + 1 } }

/-- R201 after its loop: the last code and the padding. -/
def lzwCEnd (s : State) : Run :=
  putCode (s.regs.w.getD 0) s >>= fun t => flushBits t >>= fun u => .ok (u.goTo .finished)

/-! ## The decompressor (R204, R205) -/

/-- R205 before its loop. DESIGN CHOICE: R205 never writes `ip`; the model puts it at the code stream (log 25). -/
def lzwDStart (s : State) : Run :=
  if s.regs.nIn < 8 then .error .corruptPayload
  else
    let t := lzwSeed s
    .ok { t with
      regs := { t.regs with n := s.rdU64 0, prevCode := none, total := 0, bp := 0, ip := 8 }, phase := .lzwD }

/-- The string a code stands for (R204), or none where the code is unknown. -/
def lzwString (code : Nat) (s : State) : Option Bytes :=
  match s.regs.prevCode with
  | none => if code < Config.lzwSeed then some (s.dictAt code) else none
  | some pc =>
    if code < s.regs.nextCode then some (s.dictAt code)
    else if code = s.regs.nextCode ∧ s.regs.nextCode < Config.lzwDictMax then
      some (s.dictAt pc ++ (s.dictAt pc).take 1)
    else none

/-- What the dictionary learns from the string `x` of a code (R204): nothing at the first code. -/
def lzwLearn (x : Bytes) (s : State) : State :=
  match s.regs.prevCode with
  | none => s
  | some pc => s.dictAdd (s.dictAt pc ++ x.take 1)

/-- CODE (R204); the output is cut at `n`. -/
def lzwCode (c : BitVec 12) (s : State) : Run :=
  match lzwString c.toNat s with
  | none => .error .corruptPayload
  | some x =>
    (lzwLearn x s).emitSeq (x.take (s.regs.n - s.regs.outCount)) >>= fun t =>
      .ok { t with
        regs := { t.regs with
          code := c.toNat, total := t.regs.total + x.length, prevCode := some c.toNat, bp := t.regs.bp + 12 } }

/-- R205 after its loop. -/
def lzwDEnd (s : State) : Run :=
  if s.regs.total < s.regs.n then .error .sizeMismatch else s.endOp

/-- LZW.CODE. -/
def execLzwCode (c : BitVec 12) (s : State) : Host.Outcome State Fault Refusal :=
  .next (s.settle (lzwCode c s))

end Sys2Proof.Machine
end

