-- ==== Sys2Proof/Machine/Huffman.lean ====
section
/-! DEFINITION. Huffman (spec/46_huffman.md). -/

namespace Sys2Proof.Machine

/-! ## The encoder (R221 to R226) -/

/-- `FREQ` (R221 step 1): every byte of the input is counted. -/
def freqTable (x : Bytes) : List Nat :=
  x.foldl (fun freq b => freq.modify b.toNat (· + 1)) (List.replicate Config.alphabet 0)

/-- The order of `PQ` (R222): lower frequency first, and among equal frequencies lower `seq` first. -/
def pqBefore (a b : PqEntry) : Bool :=
  decide (a.freq < b.freq) || (decide (a.freq = b.freq) && decide (a.seq < b.seq))

/-- `PQ.insert` (R222); the queue is kept in order, so `PQ.pop_min` takes its head. -/
def pqInsert (a : PqEntry) : List PqEntry → List PqEntry
  | [] => [a]
  | b :: rest => if pqBefore a b then a :: b :: rest else b :: pqInsert a rest

/-- One symbol of the first loop of `BuildTree` (R222): a leaf for every byte value that occurs. -/
def buildLeaf (freq : List Nat) (t : Tables) (sym : Nat) : Tables :=
  let f := freq.getD sym 0
  if 0 < f then
    { t with
      tree := t.tree ++ [.leaf (BitVec.ofNat 8 sym)]
      pq := pqInsert { freq := f, seq := sym, node := t.tree.length } t.pq }
  else t

/-- The merge loop of `BuildTree` (R222): the two least entries become the left and the right child of a new node. -/
def mergeAll : Nat → Tables × Nat → Tables × Nat
  | 0, x => x
  | more + 1, (t, seq) =>
    match t.pq with
    | a :: b :: rest =>
      mergeAll more
        ({ t with
            tree := t.tree ++ [.internal (some a.node) (some b.node)]
            pq := pqInsert { freq := a.freq + b.freq, seq := seq, node := t.tree.length } rest },
          seq + 1)
    | _ => (t, seq)

/-- `OneChildRoot()` (R223): the leaf is the left child. -/
def oneChildRoot (t : Tables) : Tables × Option Nat :=
  match t.pq with
  | e :: rest =>
    ({ t with tree := t.tree ++ [.internal (some e.node) none], pq := rest }, some t.tree.length)
  | [] => (t, none)

/-- `BuildTree()` (R222): the tables, the next `seq` and the root. -/
def buildTree (t : Tables) : Tables × Nat × Option Nat :=
  let t := (List.range Config.alphabet).foldl (buildLeaf t.freq) { t with tree := [], pq := [] }
  if t.pq.length = 1 then
    let r := oneChildRoot t
    (r.1, 256, r.2)
  else
    let m := mergeAll t.pq.length (t, 256)
    match m.1.pq with
    | e :: rest => ({ m.1 with pq := rest }, m.2, some e.node)
    | [] => (m.1, m.2, none)

/-- `GenCodes(t, path)` (R224); the first argument bounds the depth, which the arena's size does. -/
def genCodes (tree : List TreeRec) : Nat → Option Nat → List Bool → List (List Bool) → List (List Bool)
  | 0, _, _, code => code
  | _ + 1, none, _, code => code
  | depth + 1, some t, path, code =>
    match tree[t]? with
    | some (.leaf sym) => code.set sym.toNat path
    | some (.internal l r) =>
      genCodes tree depth r (path ++ [true]) (genCodes tree depth l (path ++ [false]) code)
    | none => code

/-- `Ser(t)` (R225): pre-order; the first argument bounds the depth, which the arena's size does. -/
def serTree (tree : List TreeRec) : Nat → Option Nat → Bytes
  | 0, _ => []
  | _ + 1, none => encode .hufNull
  | depth + 1, some t =>
    match tree[t]? with
    | some (.leaf sym) => encode (.hufLeaf sym)
    | some (.internal l r) => encode .hufInt ++ serTree tree depth l ++ serTree tree depth r
    | none => []

/-- `tb` (R221 step 5): the sum of `FREQ[s] * CODE[s].len`. -/
def totalBits (freq : List Nat) (code : List (List Bool)) : Nat :=
  (List.zipWith (fun f c => f * c.length) freq code).sum

/-- Steps (1) to (6) of R221. DESIGN CHOICE: R221 writes neither `n` nor `bp`, and both keep the 0 of the start (log 27). -/
def hufCStart (s : State) : Run :=
  let built := buildTree { s.tabs with freq := freqTable s.input }
  let tabs := built.1
  let root := built.2.2
  let depth := tabs.tree.length
  let code := genCodes tabs.tree depth root [] (List.replicate Config.alphabet [])
  let ser := serTree tabs.tree (depth + 1) root
  let tb := totalBits tabs.freq code
  let t : State := { s with
    tabs := { tabs with code := code }
    regs := { s.regs with seq := built.2.1, root := root, tl := ser.length, tb := tb } }
  t.emitSeq (u64le s.regs.nIn ++ u32le ser.length ++ ser ++ u64le tb) >>= fun u =>
    .ok { u with regs := { u.regs with acc := 0, nacc := 0, ip := 0 }, phase := .hufC }

/-- One bit of `PutBits` (R226). -/
def putBit (b : Bool) (s : State) : Run :=
  let acc := s.regs.acc * 2 + b.toNat
  if s.regs.nacc + 1 = 8 then
    s.emit (BitVec.ofNat 8 acc) >>= fun t => .ok { t with regs := { t.regs with acc := 0, nacc := 0 } }
  else .ok { s with regs := { s.regs with acc := acc, nacc := s.regs.nacc + 1 } }

/-- `PutBits(c)` (R226): the bits of a code, first bit first. -/
def putBits : List Bool → State → Run
  | [], s => .ok s
  | b :: bs, s => putBit b s >>= putBits bs

/-- One turn of the loop of R221 step (7): the code of one input byte. DESIGN CHOICE: R220 lists `cur` and no rule of the
family writes it; the model puts the input byte into it here (log 26). DESIGN CHOICE: `ip` is `n_in` after the last turn
(log 27). -/
def hufUnit (s : State) : Run :=
  let cur := s.inAt s.regs.ip
  putBits (s.tabs.code.getD cur.toNat []) s >>= fun t =>
    .ok { t with regs := { t.regs with cur := cur, ip := t.regs.ip + 1 } }

/-- R221 after its loop: `FlushBits()`. -/
def hufCEnd (s : State) : Run := flushBits s >>= fun t => .ok (t.goTo .finished)

/-! ## The decoder (R235) -/

/-- Steps (1) to (3) of R235, and step (4) up to the first tag. DESIGN CHOICE: R235 never writes `ip`; the model puts it at
the tree field (log 25). -/
def hufDStart (s : State) : Run :=
  if s.regs.nIn < 12 then .error .corruptPayload
  else
    let tl := s.rdU32 8
    if Config.huffTreeLenMax < tl then .error .corruptPayload
    else if s.regs.nIn < 12 + tl + 8 then .error .corruptPayload
    else .ok { s with
      regs := { s.regs with n := s.rdU64 0, tl := tl, tp := 0, root := none, slots := [.root], ip := 12 }
      tabs := { s.tabs with tree := [] }
      phase := .hufTree }

/-- The child of an internal record at one side. -/
def TreeRec.withLeft (v : Option Nat) : TreeRec → TreeRec
  | .leaf sym => .leaf sym
  | .internal _ r => .internal v r

/-- The child of an internal record at the other side. -/
def TreeRec.withRight (v : Option Nat) : TreeRec → TreeRec
  | .leaf sym => .leaf sym
  | .internal l _ => .internal l v

/-- What `Des` returns goes to the place that asked for it (R236): the root, or a child of a record. `more` are the places
the node just read asks to fill, left before right. -/
def State.fillSlot (s : State) (v : Option Nat) (more : List Slot) : State :=
  match s.regs.slots with
  | [] => { s with regs := { s.regs with slots := more } }
  | .root :: rest => { s with regs := { s.regs with root := v, slots := more ++ rest } }
  | .left t :: rest =>
    { s with
      tabs := { s.tabs with tree := s.tabs.tree.modify t (TreeRec.withLeft v) }
      regs := { s.regs with slots := more ++ rest } }
  | .right t :: rest =>
    { s with
      tabs := { s.tabs with tree := s.tabs.tree.modify t (TreeRec.withRight v) }
      regs := { s.regs with slots := more ++ rest } }

/-- A new record of `TREE`, and the tree cursor past a tag of `len` bytes (R236). -/
def State.newRec (s : State) (r : TreeRec) (len : Nat) : State :=
  { s with
    tabs := { s.tabs with tree := s.tabs.tree ++ [r] }
    regs := { s.regs with tp := s.regs.tp + len } }

/-- INT (R236): the index is taken before the children's. -/
def hufInt (s : State) : Run :=
  let t := s.tabs.tree.length
  .ok ((s.newRec (.internal none none) 1).fillSlot (some t) [.left t, .right t])

/-- LEAF (R236). -/
def hufLeaf (sym : Byte) (s : State) : Run :=
  .ok ((s.newRec (.leaf sym) 2).fillSlot (some s.tabs.tree.length) [])

/-- NULL (R236): no node at this place. -/
def hufNull (s : State) : Run :=
  .ok (({ s with regs := { s.regs with tp := s.regs.tp + 1 } } : State).fillSlot none [])

/-- Steps (5) and (6) of R235, and step (7) up to the first bit. DESIGN CHOICE: R235 never writes `ip`; the model puts it at
the payload (log 25). -/
def hufTreeEnd (s : State) : Run :=
  if s.regs.tp ≠ s.regs.tl then .error .corruptPayload
  else
    let tb := s.rdU64 (12 + s.regs.tl)
    if s.regs.nIn - 20 - s.regs.tl < (tb + 7) / 8 then .error .corruptPayload
    else .ok { s with
      regs := { s.regs with tb := tb, node := s.regs.root, bp := 0, ip := 20 + s.regs.tl }, phase := .hufBits }

/-- BIT (R238): one step of the tree walk. -/
def hufBit (dir : BitVec 1) (s : State) : Run :=
  match s.regs.node.bind (s.tabs.tree[·]?) with
  | some (.internal l r) =>
    match if dir = 0 then l else r with
    | none => .error .corruptPayload
    | some child =>
      match s.tabs.tree[child]? with
      | some (.leaf sym) =>
        s.emit sym >>= fun t =>
          .ok { t with regs := { t.regs with node := t.regs.root, bp := t.regs.bp + 1 } }
      | _ => .ok { s with regs := { s.regs with node := some child, bp := s.regs.bp + 1 } }
  | _ => .error .corruptPayload

/-- Step (8) of R235. -/
def hufDEnd (s : State) : Run :=
  if s.regs.outCount < s.regs.n then .error .sizeMismatch else s.endOp

/-- HUF.INT. -/
def execHufInt (s : State) : Host.Outcome State Fault Refusal := .next (s.settle (hufInt s))

/-- HUF.LEAF. -/
def execHufLeaf (sym : Byte) (s : State) : Host.Outcome State Fault Refusal := .next (s.settle (hufLeaf sym s))

/-- HUF.NULL. -/
def execHufNull (s : State) : Host.Outcome State Fault Refusal := .next (s.settle (hufNull s))

/-- HUF.BIT. -/
def execHufBit (dir : BitVec 1) (s : State) : Host.Outcome State Fault Refusal :=
  .next (s.settle (hufBit dir s))

end Sys2Proof.Machine
end

