-- ==== Sys2Proof/Machine/Lz77.lean ====
section
/-! DEFINITION. The match finder and LZ77 (spec/43_lz77.md). -/

namespace Sys2Proof.Machine

/-! ## The match finder (R161) -/

/-- What `FindMatch` works on (R161). -/
structure Match where
  bestLen : Nat
  bestOff : Nat
  j : Nat
  len : Nat
  deriving DecidableEq, Repr

/-- The inner loop of R161: the match at `i` with the candidate `j` grows from `len` while the next bytes agree and the
input has not ended, by at most `more` bytes. It may run past `i`. -/
def matchLen (s : State) (i j : Nat) : Nat → Nat → Nat
  | 0, len => len
  | more + 1, len =>
    if i + len < s.regs.nIn ∧ s.inAt (j + len) = s.inAt (i + len) then matchLen s i j more (len + 1) else len

/-- One candidate of R161: only a strictly longer match replaces the best. -/
def matchCandidate (s : State) (i maxLen : Nat) (m : Match) : Match :=
  let len := matchLen s i m.j maxLen 0
  if m.bestLen < len then { bestLen := len, bestOff := i - m.j, j := m.j + 1, len := len }
  else { m with j := m.j + 1, len := len }

/-- The next candidates of R161, by ascending start position. -/
def matchScan (s : State) (i maxLen : Nat) : Nat → Match → Match
  | 0, m => m
  | more + 1, m => matchScan s i maxLen more (matchCandidate s i maxLen m)

/-- `FindMatch(i, W, M)` (R161): the candidates are the starts from `W` bytes behind `i`, or from the start of the input,
up to `i - 1`. -/
def findMatch (s : State) (i window maxLen : Nat) : Match :=
  matchScan s i maxLen (i - (i - window)) { bestLen := 0, bestOff := 0, j := i - window, len := 0 }

/-- The registers after `FindMatch`. -/
def Regs.withMatch (r : Regs) (m : Match) : Regs :=
  { r with bestLen := m.bestLen, bestOff := m.bestOff, j := m.j, len := m.len }

/-! ## The compressor (R162) -/

/-- One turn of the loop of R162: one token, a match or a literal. -/
def lz77Unit (s : State) : Run :=
  let m := findMatch s s.regs.ip Config.lz77Window Config.lz77MaxMatch
  let i : Instr × Nat :=
    if Config.lz77MinMatch ≤ m.bestLen then
      (.lz77Match (BitVec.ofNat 7 m.bestLen) (BitVec.ofNat 16 m.bestOff), m.bestLen)
    else (.lz77Lit (s.inAt s.regs.ip), 1)
  s.emitSeq (encode i.1) >>= fun t =>
    .ok { t with regs := { t.regs.withMatch m with ip := t.regs.ip + i.2 } }

/-! ## The decompressor (R165) -/

/-- LIT (R164). -/
def lz77Lit (b : Byte) (s : State) : Run :=
  s.emit b >>= fun t => .ok { t with regs := { t.regs with ip := t.regs.ip + 2 } }

/-- MATCH (R165, R166): the offset is tested also for length 0, and the copy is byte by byte. -/
def lz77Match (len : BitVec 7) (off : BitVec 16) (s : State) : Run :=
  if off.toNat = 0 ∨ s.regs.outCount < off.toNat then .error .corruptPayload
  else
    s.copyHistory off.toNat len.toNat >>= fun t =>
      .ok { t with regs := { t.regs with len := len.toNat, off := off.toNat, ip := t.regs.ip + 3 } }

/-- LZ77.LIT. -/
def execLz77Lit (b : Byte) (s : State) : Host.Outcome State Fault Refusal :=
  .next (s.settle (lz77Lit b s))

/-- LZ77.MATCH. -/
def execLz77Match (len : BitVec 7) (off : BitVec 16) (s : State) : Host.Outcome State Fault Refusal :=
  .next (s.settle (lz77Match len off s))

end Sys2Proof.Machine
end

