-- ==== Sys2Proof/Machine/Lzss.lean ====
section
/-! DEFINITION. LZSS (spec/44_lzss.md). -/

namespace Sys2Proof.Machine

/-! ## The compressor (R181) -/

/-- `FLAGS` with token `tok`'s flag written (R181): a new flag byte is opened with all bits 0 at every eighth token. -/
def flagsWith (flags : Bytes) (tok : Nat) (isMatch : Bool) : Bytes :=
  let opened := if tok % 8 = 0 then flags ++ [0x00] else flags
  if isMatch then opened.modify (tok / 8) (fun f => f ||| BitVec.ofNat 8 (2 ^ (tok % 8))) else opened

/-- One turn of the loop of R181: one token's flag and data. -/
def lzssUnit (s : State) : Run :=
  let m := findMatch s s.regs.ip Config.lzssWindow Config.lzssLookahead
  let isMatch := decide (Config.lzssMinMatch ≤ m.bestLen)
  let i : Instr × Nat :=
    if isMatch then
      (.lzssMatch (BitVec.ofNat 12 (m.bestOff - 1)) (BitVec.ofNat 4 (m.bestLen - Config.lzssMinMatch)), m.bestLen)
    else (.lzssLit (s.inAt s.regs.ip), 1)
  .ok { s with
    tabs := { s.tabs with
      flags := flagsWith s.tabs.flags s.regs.tok isMatch
      data := s.tabs.data ++ encode i.1 }
    regs := { s.regs.withMatch m with ip := s.regs.ip + i.2, tok := s.regs.tok + 1 } }

/-- R181 after its loop: the frame is written. -/
def lzssCEnd (s : State) : Run :=
  let fc := s.tabs.flags.length
  if 2 ^ 32 ≤ fc then .error .capacityExceeded
  else
    s.emitSeq (u64le s.regs.nIn ++ u32le fc ++ s.tabs.flags ++ s.tabs.data) >>= fun t =>
      .ok { t with regs := { t.regs with fc := fc }, phase := .finished }

/-! ## The decompressor (R185) -/

/-- The header tests of R185. DESIGN CHOICE: R185 never writes `ip`; the model puts it at the first flag byte (log 25). -/
def lzssDStart (s : State) : Run :=
  if s.regs.nIn < 12 then .error .corruptPayload
  else
    let fc := s.rdU32 8
    if s.regs.nIn < 12 + fc then .error .corruptPayload
    else .ok { s with
      regs := { s.regs with n := s.rdU64 0, fc := fc, tok := 0, dp := 0, ip := 12 }, phase := .lzssD }

/-- LIT (R184). -/
def lzssLit (b : Byte) (s : State) : Run :=
  s.emit b >>= fun t =>
    .ok { t with regs := { t.regs with dp := t.regs.dp + 1, tok := t.regs.tok + 1 } }

/-- MATCH (R185, R187): `off` and `len` are the fields plus 1 and plus 3; a match is copied in full. -/
def lzssMatch (offMinus1 : BitVec 12) (lenMinus3 : BitVec 4) (s : State) : Run :=
  let off := offMinus1.toNat + 1
  let len := lenMinus3.toNat + Config.lzssMinMatch
  if s.regs.outCount < off then .error .corruptPayload
  else
    s.copyHistory off len >>= fun t =>
      .ok { t with
        regs := { t.regs with len := len, off := off, dp := t.regs.dp + 2, tok := t.regs.tok + 1 } }

/-- R185 after its loop: the last match may have passed `n`. -/
def lzssDEnd (s : State) : Run :=
  if s.regs.outCount ≠ s.regs.n then .error .sizeMismatch else s.endOp

/-- LZSS.LIT. -/
def execLzssLit (b : Byte) (s : State) : Host.Outcome State Fault Refusal :=
  .next (s.settle (lzssLit b s))

/-- LZSS.MATCH. -/
def execLzssMatch (offMinus1 : BitVec 12) (lenMinus3 : BitVec 4) (s : State) : Host.Outcome State Fault Refusal :=
  .next (s.settle (lzssMatch offMinus1 lenMinus3 s))

end Sys2Proof.Machine
end

