-- ==== Sys2Proof/Machine/Rle.lean ====
section
/-! DEFINITION. RLE (spec/41_rle.md). -/

namespace Sys2Proof.Machine

/-! ## The encoder (R141) -/

/-- The inner loop of R141: the run that began at `ip` with byte `b` and has `run` bytes so far grows while the next byte
is the same, by at most the bytes left to `RLE_MAX_RUN`. -/
def rleRun (s : State) (b : Byte) : Nat → Nat → Nat
  | 0, run => run
  | more + 1, run =>
    if s.regs.ip + run < s.regs.nIn ∧ s.inAt (s.regs.ip + run) = b then rleRun s b more (run + 1) else run

/-- One turn of the loop of R141: one pair. -/
def rleUnit (s : State) : Run :=
  let cur := s.inAt s.regs.ip
  let run := rleRun s cur (Config.rleMaxRun - 1) 1
  s.emitSeq (encode (.rlePair (BitVec.ofNat 8 run) cur)) >>= fun t =>
    .ok { t with regs := { t.regs with run := run, cur := cur, ip := t.regs.ip + run } }

/-! ## The decoder (R142) -/

/-- The test before any output (R142). -/
def rleDStart (s : State) : Run :=
  if s.regs.nIn % 2 = 1 then .error .corruptPayload else .ok (s.goTo .rleD)

/-- PAIR (R143): append `count` copies of `value`. -/
def rlePair (count value : Byte) (s : State) : Run :=
  s.emitSeq (List.replicate count.toNat value) >>= fun t =>
    .ok { t with regs := { t.regs with run := count.toNat, cur := value, ip := t.regs.ip + 2 } }

/-- RLE.PAIR. -/
def execRlePair (count value : Byte) (s : State) : Host.Outcome State Fault Refusal :=
  .next (s.settle (rlePair count value s))

end Sys2Proof.Machine
end

