-- ==== Sys2Proof/Machine/Codecs.lean ====
section
/-! DEFINITION. The seven codecs under one contract (spec/40_commands_contract.md R123 to R127). -/

namespace Sys2Proof.Machine

/-- The start of `A.C` (R125), after the empty-input case, which comes first in every codec (R127). DESIGN CHOICE: no
compressor writes `n`, which 10_state.md R23 lists for LZSS, LZW, Huffman and BWT, or `bp`, which it lists for LZW and
Huffman; their pseudocode does not (log 27). -/
def beginCompress (a : Alg) (s : State) : Run :=
  if s.regs.nIn = 0 then .ok (s.goTo .finished)
  else
    match a with
    | .rle => .ok (s.goTo .rleC)
    | .lz77 => .ok (s.goTo .lz77C)
    | .huffman => hufCStart s
    | .lzw => lzwCStart s
    | .lzss => .ok (s.goTo .lzssC)
    | .delta => deltaCStart s
    | .bwt => bwtCStart s

/-- The start of `A.D` (R126), after the empty-input case (R127): the tests that come before the first token. -/
def beginDecompress (a : Alg) (s : State) : Run :=
  if s.regs.nIn = 0 then .ok (s.goTo .finished)
  else
    match a with
    | .rle => rleDStart s
    | .lz77 => .ok (s.goTo .lz77D)
    | .huffman => hufDStart s
    | .lzw => lzwDStart s
    | .lzss => lzssDStart s
    | .delta => deltaDStart s
    | .bwt => bwtDStart s

end Sys2Proof.Machine
end

