-- ==== Sys2Proof/Machine/Container.lean ====
section
/-! DEFINITION. The single-block container (spec/48_container.md). -/

namespace Sys2Proof.Machine

/-- The header `[magic:1][algorithm_id:1][original_size:8 LE]` (30_encoding.md R99). -/
def containerHeader (magic alg : Byte) (size : Nat) : Bytes := magic :: alg :: u64le size

/-- PACK before its loop (R291). -/
def beginPack (s : State) : Run :=
  if 6 < s.regs.aAlg.toNat then .error .unknownAlgorithm
  else
    s.emitSeq (containerHeader s.params.magic s.regs.aAlg s.regs.aSize.toNat) >>= fun t => .ok (t.goTo .pack)

/-- One turn of the loops of R291 and R292: a byte of the payload, verbatim. -/
def copyUnit (s : State) : Run :=
  s.emit (s.inAt s.regs.ip) >>= fun t => .ok { t with regs := { t.regs with ip := t.regs.ip + 1 } }

/-- The three tests of UNPACK and DECODE, and the two fields (R292, R295). -/
def readHeader (s : State) : Except ErrKind (Alg × State) :=
  if s.regs.nIn < Config.contHdr then .error .malformedContainer
  else if s.inAt 0 ≠ s.params.magic then .error .malformedContainer
  else
    match algOfId (s.inAt 1).toNat with
    | none => .error .unknownAlgorithm
    | some a =>
      .ok (a, { s with regs := { s.regs with aAlg := s.inAt 1, aSize := BitVec.ofNat 64 (s.rdU64 2) } })

/-- UNPACK before its loop (R292). -/
def beginUnpack (s : State) : Run :=
  readHeader s >>= fun x =>
    .ok { x.2 with regs := { x.2.regs with ip := Config.contHdr, ending := .unpack }, phase := .unpack }

/-- ENCODE (R294): the header, and then the codec, whose `out_len` counts from 0 after it. -/
def beginEncode (a : Alg) (s : State) : Run :=
  s.emitSeq (containerHeader s.params.magic (BitVec.ofNat 8 (algId a)) s.regs.nIn) >>= fun t =>
    beginCompress a { t with regs := { t.regs with outBase := Config.contHdr, outCount := 0 } }

/-- DECODE (R295): the header, and then the codec it names over the payload; inside it `in[i]` means `IN[10 + i]` and
`n_in` means `IN_LEN - 10`. -/
def beginDecode (s : State) : Run :=
  readHeader s >>= fun x =>
    beginDecompress x.1 { x.2 with
      regs := { x.2.regs with inBase := Config.contHdr, nIn := x.2.regs.nIn - Config.contHdr, ending := .decode } }

end Sys2Proof.Machine
end

