-- ==== Sys2Proof/Machine/Engine.lean ====
section
/-! DEFINITION. The engine: fetching a command or a token, one unit of work, and the run of an operation to its end
(spec/40_commands_contract.md R121, R129; spec/30_encoding.md R80, R100). -/

namespace Sys2Proof.Machine

/-! ## Fetching -/

/-- The place of the next token and the bytes there, or why there is none, where the running operation is about to execute
a token; `none` where its next unit of work is something else. The conditions are those of the loops of the family rules. -/
def State.fetchBytes (s : State) : Option (Except Reject (Ctx × Bytes)) :=
  let r := s.regs
  match s.phase with
  | .rleD => if r.ip < r.nIn then some (.ok (.rle, s.window r.ip r.nIn 2)) else none
  | .deltaD =>
    if r.ip < r.nIn then
      some (.ok (if r.ip = Config.deltaHdr then .deltaFirst else .deltaDiff, s.window r.ip r.nIn 1))
    else none
  | .lz77D => if r.ip < r.nIn then some (.ok (.lz77, s.window r.ip r.nIn 3)) else none
  | .lzssD =>
    if r.outCount < r.n then
      if 8 * r.fc ≤ r.tok then some (.error .outOfFlags)
      else
        some (.ok (if s.flagAt 12 r.tok then .lzssMatch else .lzssLit,
          s.window (12 + r.fc + r.dp) r.nIn 2))
    else none
  | .lzwD =>
    if r.bp + Config.lzwCodeBits ≤ 8 * (r.nIn - 8) then
      some (.ok (.lzw (r.bp % 8), s.window (8 + r.bp / 8) r.nIn 3))
    else none
  | .hufTree =>
    if r.slots ≠ [] then some (.ok (.hufTree, s.window (12 + r.tp) (12 + r.tl) 2)) else none
  | .hufBits =>
    if r.outCount < r.n ∧ r.bp < r.tb then
      some (.ok (.hufBit (r.bp % 8), s.window (20 + r.tl + r.bp / 8) r.nIn 1))
    else none
  | .bwtIdx => if r.k < r.cs then some (.ok (.mtf, s.window (r.ip + 16 + r.k) r.nIn 1)) else none
  | _ => none

/-- The token the running operation executes next, or why its bytes are none (30_encoding.md R100, R101). -/
def State.nextToken (s : State) : Option (Except Reject Instr) :=
  s.fetchBytes.map (fun x => x >>= fun cb => decode cb.1 cb.2)

/-! ## One unit of work -/

/-- What a token does (the family rules); a command is no token. -/
def tokenEffect (i : Instr) (s : State) : Run :=
  match i with
  | .rlePair count value => rlePair count value s
  | .deltaFirst b => deltaFirst b s
  | .deltaDiff d => deltaDiff d s
  | .lz77Lit b => lz77Lit b s
  | .lz77Match len off => lz77Match len off s
  | .lzssLit b => lzssLit b s
  | .lzssMatch o l => lzssMatch o l s
  | .lzwCode c => lzwCode c s
  | .hufInt => hufInt s
  | .hufLeaf sym => hufLeaf sym s
  | .hufNull => hufNull s
  | .hufBit d => hufBit d s
  | .mtfIdx i => mtfIdx i s
  | _ => .error .corruptPayload

/-- A turn of a loop while its input lasts, and then what the rule says after the loop. -/
def turn (s : State) (unit after : State → Run) : Run :=
  if s.regs.ip < s.regs.nIn then unit s else after s

/-- The unit of work of a running operation where it is not a token: a turn of a compressor's loop, or what a rule says
between and after its tokens. -/
def advance (s : State) : Run :=
  match s.phase with
  | .off => .ok s
  | .command => .ok s
  | .finished => s.endOp
  | .rleC => turn s rleUnit State.endOp
  | .rleD => s.endOp
  | .deltaC => turn s deltaUnit State.endOp
  | .deltaD => s.endOp
  | .lz77C => turn s lz77Unit State.endOp
  | .lz77D => s.endOp
  | .lzssC => turn s lzssUnit lzssCEnd
  | .lzssD => lzssDEnd s
  | .lzwC => turn s lzwUnit lzwCEnd
  | .lzwD => lzwDEnd s
  | .hufC => turn s hufUnit hufCEnd
  | .hufTree => hufTreeEnd s
  | .hufBits => hufDEnd s
  | .bwtC => turn s bwtUnit State.endOp
  | .bwtChunk => turn s bwtHeader bwtDEnd
  | .bwtIdx => bwtChunkEnd s
  | .pack => turn s copyUnit State.endOp
  | .unpack => turn s copyUnit State.endOp

/-- One unit of work of a running operation: the next token is decoded and executed, or the operation goes on otherwise. -/
def unitOfWork (s : State) : State :=
  match s.nextToken with
  | some (.ok i) => s.settle (tokenEffect i s)
  | some (.error x) => s.raise (rejectKind x)
  | none => s.settle (advance s)

/-- Units of work until the operation ends, at most `fuel` of them (40_commands_contract.md R129: an operation ends). -/
def runUnits : Nat → State → State
  | 0, s => s
  | fuel + 1, s => if s.status = .busy then runUnits fuel (unitOfWork s) else s

/-- A bound on the units of work of an operation (R129): every unit consumes an input byte or a bit of one, or ends a
chunk, a loop or the operation (log 21). -/
def State.fuel (s : State) : Nat := 16 * (s.inLen.toNat + 1)

/-! ## An operation -/

/-- The start check that is left once the command is known, and the start of its run (R121, R122). -/
def beginRun (b : State → Run) (s : State) : State := s.settle (s.checkCap >>= b)

/-- An operation from its start to its end (40_commands_contract.md R121). -/
def operate (b : State → Run) (s : State) : State := runUnits s.fuel (beginRun b s.start)

/-- How the run of a command starts; CLEAR starts none (40_commands_contract.md R120). -/
def beginOf : Instr → Option (State → Run)
  | .compressRle => some (beginCompress .rle)
  | .compressLz77 => some (beginCompress .lz77)
  | .compressHuffman => some (beginCompress .huffman)
  | .compressLzw => some (beginCompress .lzw)
  | .compressLzss => some (beginCompress .lzss)
  | .compressDelta => some (beginCompress .delta)
  | .compressBwt => some (beginCompress .bwt)
  | .decompressRle => some (beginDecompress .rle)
  | .decompressLz77 => some (beginDecompress .lz77)
  | .decompressHuffman => some (beginDecompress .huffman)
  | .decompressLzw => some (beginDecompress .lzw)
  | .decompressLzss => some (beginDecompress .lzss)
  | .decompressDelta => some (beginDecompress .delta)
  | .decompressBwt => some (beginDecompress .bwt)
  | .pack => some beginPack
  | .unpack => some beginUnpack
  | .encodeRle => some (beginEncode .rle)
  | .encodeLz77 => some (beginEncode .lz77)
  | .encodeHuffman => some (beginEncode .huffman)
  | .encodeLzw => some (beginEncode .lzw)
  | .encodeLzss => some (beginEncode .lzss)
  | .encodeDelta => some (beginEncode .delta)
  | .encodeBwt => some (beginEncode .bwt)
  | .decode => some beginDecode
  | _ => none

/-- The first unit of work of an operation that is run unit by unit: the command in `CMD` is decoded, checked and begun. -/
def beginCommand (s : State) : State :=
  match decode .command [s.cmd] with
  | .error x => s.raise (rejectKind x)
  | .ok i =>
    match beginOf i with
    | some b => beginRun b s
    | none => s.clear

/-- One unit of work of the engine, when it is BUSY. -/
def tick (s : State) : State :=
  if s.status = .busy then
    if s.phase = .command then beginCommand s else unitOfWork s
  else s

end Sys2Proof.Machine
end

