-- ==== Sys2Proof/Machine/Commands.lean ====
section
/-! DEFINITION. The meanings of the 25 commands (spec/40_commands_contract.md, spec/48_container.md). A command's meaning is
the whole operation of R121: start, check, run, end. -/

namespace Sys2Proof.Machine

/-- COMPRESS.RLE, 41_rle.md R141. -/
def execCompressRle (s : State) : Host.Outcome State Fault Refusal :=
  .next (operate (beginCompress .rle) s)

/-- COMPRESS.LZ77, 43_lz77.md R162. -/
def execCompressLz77 (s : State) : Host.Outcome State Fault Refusal :=
  .next (operate (beginCompress .lz77) s)

/-- COMPRESS.HUFFMAN, 46_huffman.md R221. -/
def execCompressHuffman (s : State) : Host.Outcome State Fault Refusal :=
  .next (operate (beginCompress .huffman) s)

/-- COMPRESS.LZW, 45_lzw.md R201. -/
def execCompressLzw (s : State) : Host.Outcome State Fault Refusal :=
  .next (operate (beginCompress .lzw) s)

/-- COMPRESS.LZSS, 44_lzss.md R181. -/
def execCompressLzss (s : State) : Host.Outcome State Fault Refusal :=
  .next (operate (beginCompress .lzss) s)

/-- COMPRESS.DELTA, 42_delta.md R151. -/
def execCompressDelta (s : State) : Host.Outcome State Fault Refusal :=
  .next (operate (beginCompress .delta) s)

/-- COMPRESS.BWT, 47_bwt_mtf.md R261. -/
def execCompressBwt (s : State) : Host.Outcome State Fault Refusal :=
  .next (operate (beginCompress .bwt) s)

/-- DECOMPRESS.RLE, 41_rle.md R142. -/
def execDecompressRle (s : State) : Host.Outcome State Fault Refusal :=
  .next (operate (beginDecompress .rle) s)

/-- DECOMPRESS.LZ77, 43_lz77.md R165. -/
def execDecompressLz77 (s : State) : Host.Outcome State Fault Refusal :=
  .next (operate (beginDecompress .lz77) s)

/-- DECOMPRESS.HUFFMAN, 46_huffman.md R235. -/
def execDecompressHuffman (s : State) : Host.Outcome State Fault Refusal :=
  .next (operate (beginDecompress .huffman) s)

/-- DECOMPRESS.LZW, 45_lzw.md R205. -/
def execDecompressLzw (s : State) : Host.Outcome State Fault Refusal :=
  .next (operate (beginDecompress .lzw) s)

/-- DECOMPRESS.LZSS, 44_lzss.md R185. -/
def execDecompressLzss (s : State) : Host.Outcome State Fault Refusal :=
  .next (operate (beginDecompress .lzss) s)

/-- DECOMPRESS.DELTA, 42_delta.md R152. -/
def execDecompressDelta (s : State) : Host.Outcome State Fault Refusal :=
  .next (operate (beginDecompress .delta) s)

/-- DECOMPRESS.BWT, 47_bwt_mtf.md R270. -/
def execDecompressBwt (s : State) : Host.Outcome State Fault Refusal :=
  .next (operate (beginDecompress .bwt) s)

/-- ENCODE.RLE, 48_container.md R294. -/
def execEncodeRle (s : State) : Host.Outcome State Fault Refusal :=
  .next (operate (beginEncode .rle) s)

/-- ENCODE.LZ77, 48_container.md R294. -/
def execEncodeLz77 (s : State) : Host.Outcome State Fault Refusal :=
  .next (operate (beginEncode .lz77) s)

/-- ENCODE.HUFFMAN, 48_container.md R294. -/
def execEncodeHuffman (s : State) : Host.Outcome State Fault Refusal :=
  .next (operate (beginEncode .huffman) s)

/-- ENCODE.LZW, 48_container.md R294. -/
def execEncodeLzw (s : State) : Host.Outcome State Fault Refusal :=
  .next (operate (beginEncode .lzw) s)

/-- ENCODE.LZSS, 48_container.md R294. -/
def execEncodeLzss (s : State) : Host.Outcome State Fault Refusal :=
  .next (operate (beginEncode .lzss) s)

/-- ENCODE.DELTA, 48_container.md R294. -/
def execEncodeDelta (s : State) : Host.Outcome State Fault Refusal :=
  .next (operate (beginEncode .delta) s)

/-- ENCODE.BWT, 48_container.md R294. -/
def execEncodeBwt (s : State) : Host.Outcome State Fault Refusal :=
  .next (operate (beginEncode .bwt) s)

/-- PACK, 48_container.md R291. -/
def execPack (s : State) : Host.Outcome State Fault Refusal := .next (operate beginPack s)

/-- UNPACK, 48_container.md R292. -/
def execUnpack (s : State) : Host.Outcome State Fault Refusal := .next (operate beginUnpack s)

/-- DECODE, 48_container.md R295. -/
def execDecode (s : State) : Host.Outcome State Fault Refusal := .next (operate beginDecode s)

/-- CLEAR, 40_commands_contract.md R128; R120 says when a write of it is accepted. -/
def execClear (s : State) : Host.Outcome State Fault Refusal := .next s.clear

end Sys2Proof.Machine
end

