-- ==== Sys2Proof/Machine/Dispatch.lean ====
section
/-! DEFINITION. The meaning of every instruction, one arm per constructor of Instr. -/

namespace Sys2Proof.Machine

/-- The meaning of an instruction. -/
def exec (i : Instr) (s : State) : Host.Outcome State Fault Refusal :=
  match i with
  | .compressRle => Sys2Proof.Machine.execCompressRle s
  | .compressLz77 => Sys2Proof.Machine.execCompressLz77 s
  | .compressHuffman => Sys2Proof.Machine.execCompressHuffman s
  | .compressLzw => Sys2Proof.Machine.execCompressLzw s
  | .compressLzss => Sys2Proof.Machine.execCompressLzss s
  | .compressDelta => Sys2Proof.Machine.execCompressDelta s
  | .compressBwt => Sys2Proof.Machine.execCompressBwt s
  | .decompressRle => Sys2Proof.Machine.execDecompressRle s
  | .decompressLz77 => Sys2Proof.Machine.execDecompressLz77 s
  | .decompressHuffman => Sys2Proof.Machine.execDecompressHuffman s
  | .decompressLzw => Sys2Proof.Machine.execDecompressLzw s
  | .decompressLzss => Sys2Proof.Machine.execDecompressLzss s
  | .decompressDelta => Sys2Proof.Machine.execDecompressDelta s
  | .decompressBwt => Sys2Proof.Machine.execDecompressBwt s
  | .pack => Sys2Proof.Machine.execPack s
  | .unpack => Sys2Proof.Machine.execUnpack s
  | .encodeRle => Sys2Proof.Machine.execEncodeRle s
  | .encodeLz77 => Sys2Proof.Machine.execEncodeLz77 s
  | .encodeHuffman => Sys2Proof.Machine.execEncodeHuffman s
  | .encodeLzw => Sys2Proof.Machine.execEncodeLzw s
  | .encodeLzss => Sys2Proof.Machine.execEncodeLzss s
  | .encodeDelta => Sys2Proof.Machine.execEncodeDelta s
  | .encodeBwt => Sys2Proof.Machine.execEncodeBwt s
  | .decode => Sys2Proof.Machine.execDecode s
  | .clear => Sys2Proof.Machine.execClear s
  | .rlePair a b => Sys2Proof.Machine.execRlePair a b s
  | .deltaFirst a => Sys2Proof.Machine.execDeltaFirst a s
  | .deltaDiff a => Sys2Proof.Machine.execDeltaDiff a s
  | .lz77Lit a => Sys2Proof.Machine.execLz77Lit a s
  | .lz77Match a b => Sys2Proof.Machine.execLz77Match a b s
  | .lzssLit a => Sys2Proof.Machine.execLzssLit a s
  | .lzssMatch a b => Sys2Proof.Machine.execLzssMatch a b s
  | .lzwCode a => Sys2Proof.Machine.execLzwCode a s
  | .hufInt => Sys2Proof.Machine.execHufInt s
  | .hufLeaf a => Sys2Proof.Machine.execHufLeaf a s
  | .hufNull => Sys2Proof.Machine.execHufNull s
  | .hufBit a => Sys2Proof.Machine.execHufBit a s
  | .mtfIdx a => Sys2Proof.Machine.execMtfIdx a s

end Sys2Proof.Machine
end

