-- ==== Sys2Proof/Machine/Host.lean ====
section
/-! DEFINITION. The engine's step, the host's moves (spec/70_reset_and_hazards.md R350, R355 to R361) and the reset input. -/

namespace Sys2Proof.Machine

/-! ## The engine's step -/

/-- The instruction the engine runs next: the command in `CMD` when an operation has just started, else the next token of
the frame (30_encoding.md R80); `none` where the engine's next unit of work is no instruction. -/
def State.nextInstr (s : State) : Option (Except Reject Instr) :=
  if s.status = .busy then
    if s.phase = .command then some (decode .command [s.cmd]) else s.nextToken
  else none

/-- One step of the engine (40_commands_contract.md R120, R129): the next instruction is executed, an illegal one raises
the kind R82 and R101 give it, and between instructions a BUSY engine goes on; out of BUSY it waits. -/
def engineStep (s : State) : Host.Outcome State Fault Refusal :=
  match s.nextInstr with
  | some (.ok i) => exec i s
  | some (.error x) => .next (s.raise (rejectKind x))
  | none => .next (if s.status = .busy then s.settle (advance s) else s)

/-- `wait` (30_encoding.md R102): the engine runs until STATE is not BUSY. -/
def hostWait (s : State) : Host.Outcome State Fault Refusal :=
  if s.status = .busy ∧ s.phase ≠ .command then .next (runUnits s.fuel s) else engineStep s

/-! ## The CSR space (10_state.md R30, 20_memory.md R52) -/

/-- The register at an offset. -/
def csrAt : Nat → Option Csr
  | 0x00 => some .cmd
  | 0x08 => some .status
  | 0x10 => some .err
  | 0x18 => some .inLen
  | 0x20 => some .outLen
  | 0x28 => some .argAlg
  | 0x30 => some .argSize
  | _ => none

/-- The width of a register. -/
def csrWidth : Csr → Width
  | .cmd => .w8
  | .status => .w8
  | .err => .w8
  | .inLen => .w64
  | .outLen => .w64
  | .argAlg => .w8
  | .argSize => .w64

/-- The register of an access: the offset and the width must be the map's (10_state.md R30). -/
def csrOf (offset : Nat) (width : Width) : Option Csr :=
  match csrAt offset with
  | some c => if csrWidth c = width then some c else none
  | none => none

/-- What a read of a register returns (70_reset_and_hazards.md R360). -/
def State.csr (s : State) : Csr → Word64
  | .cmd => s.cmd.zeroExtend 64
  | .status => (statusWord s.status).zeroExtend 64
  | .err => s.err.zeroExtend 64
  | .inLen => s.inLen
  | .outLen => s.outLen
  | .argAlg => s.argAlg.zeroExtend 64
  | .argSize => s.argSize

/-- An accepted write of `CMD` (40_commands_contract.md R120): CLEAR acts at once, every other value starts an operation. -/
def writeCmd (v : Byte) (s : State) : Host.Outcome State Fault Refusal :=
  let t : State := { s with cmd := v }
  if v = 0xF0 then execClear t else .next t.start

/-- A write of a register: dropped while BUSY, ignored for the read-only registers (70_reset_and_hazards.md R358, R359). -/
def writeCsr (c : Csr) (v : Word64) (s : State) : Host.Outcome State Fault Refusal :=
  if s.status = .busy then .next s
  else
    match c with
    | .cmd => writeCmd (v.truncate 8) s
    | .status => .next s
    | .err => .next s
    | .inLen => .next { s with inLen := v }
    | .outLen => .next s
    | .argAlg => .next { s with argAlg := v.truncate 8 }
    | .argSize => .next { s with argSize := v }

/-! ## The buffers -/

/-- Write bytes into `IN` (70_reset_and_hazards.md R356, R357). -/
def hostWriteIn (addr : Nat) (bytes : Bytes) (s : State) : Host.Outcome State Fault Refusal :=
  if s.status = .busy then .refused .bufferWhileBusy
  else if bytes ≠ [] ∧ beyond s.params.inCap (addr + bytes.length - 1) then .fault .inAddress
  else .next { s with inMem := s.inMem.writeAll addr bytes }

/-- Read a byte of `OUT` (70_reset_and_hazards.md R361): the result's bytes in DONE, a free byte anywhere else (log 4). -/
def hostReadOut (addr : Nat) (s : State) : Host.Outcome State Fault Refusal :=
  if s.status = .busy then .refused .bufferWhileBusy
  else if beyond s.params.outCap addr then .fault .outAddress
  else
    match if s.status = .done ∧ addr < s.outLen.toNat then s.outMem.read addr else none with
    | some b => .next { s with rdata := b.zeroExtend 64 }
    | none => .next { s with rdata := (Config.outByte s.draws addr).zeroExtend 64, draws := s.draws + 1 }

/-! ## Reset -/

/-- The reset input (70_reset_and_hazards.md R350), whatever the engine was doing: the parameters are the engine's, the
host's moves still to come are the host's, and `IN` has other unspecified contents from now on (logs 3, 19). -/
def hostReset (s : State) : State :=
  { State.reset with
    params := s.params, host := s.host, rdata := s.rdata, epoch := s.epoch + 1, draws := s.draws }

/-! ## One move -/

/-- What a move of the host does. -/
def hostMove (m : HostMove) (s : State) : Host.Outcome State Fault Refusal :=
  match m with
  | .writeIn addr bytes => hostWriteIn addr bytes s
  | .writeCsr offset width value =>
    match csrOf offset width with
    | some c => writeCsr c value s
    | none => .refused .noSuchCsr
  | .readCsr offset width =>
    match csrOf offset width with
    | some c => .next { s with rdata := s.csr c }
    | none => .refused .noSuchCsr
  | .readOut addr => hostReadOut addr s
  | .tick => .next (tick s)
  | .wait => hostWait s
  | .reset => .next (hostReset s)

/-! ## Placing an instruction -/

/-- `s` with an operation running in the phase `ph` over the input `x`, with the working registers `r` (log 11). -/
def State.placed (s : State) (ph : Phase) (x : Bytes) (r : Regs) : State :=
  { s with
    host := []
    status := .busy
    phase := ph
    inMem := Memory.writeAll [] 0 x
    inLen := BitVec.ofNat 64 x.length
    regs := { r with nIn := x.length, inBase := 0 } }

/-- `s` with the word `w` of `nbits` bits where the engine fetches next (log 11): a command in `CMD`, a token at the cursor
of the frame its decoder reads. -/
def State.placeWord (s : State) (nbits w : Nat) : State :=
  let bs := tableBytes nbits w
  let pad : Bytes := List.replicate 8 0
  match decodeTableWord nbits w with
  | none => s
  | some i =>
    match i.ctx with
    | .command => { s with host := [], status := .busy, phase := .command, cmd := bs.headD 0 }
    | .rle => s.placed .rleD bs { s.regs with ip := 0 }
    | .deltaFirst => s.placed .deltaD (pad ++ bs) { s.regs with ip := 8 }
    | .deltaDiff => s.placed .deltaD (pad ++ 0 :: bs) { s.regs with ip := 9 }
    | .lz77 => s.placed .lz77D bs { s.regs with ip := 0 }
    | .lzssLit =>
      s.placed .lzssD (pad ++ [1, 0, 0, 0, 0] ++ bs)
        { s.regs with n := s.regs.outCount + 1, fc := 1, tok := 0, dp := 0 }
    | .lzssMatch =>
      s.placed .lzssD (pad ++ [1, 0, 0, 0, 1] ++ bs)
        { s.regs with n := s.regs.outCount + 1, fc := 1, tok := 0, dp := 0 }
    | .lzw _ => s.placed .lzwD (pad ++ bs) { s.regs with bp := 0 }
    | .hufTree => s.placed .hufTree (pad ++ [BitVec.ofNat 8 bs.length, 0, 0, 0] ++ bs)
        { s.regs with tl := bs.length, tp := 0, slots := [.root] }
    | .hufBit _ => s.placed .hufBits (List.replicate 20 0 ++ bs)
        { s.regs with n := s.regs.outCount + 1, tl := 0, tb := 1, bp := 0 }
    | .mtf => s.placed .bwtIdx (pad ++ List.replicate 16 0 ++ bs) { s.regs with ip := 8, cs := 1, k := 0 }

end Sys2Proof.Machine
end

