-- ==== Sys2Proof/Machine/Step.lean ====
section
/-! DEFINITION. One step of the machine: the host's next move if it has one, else the engine's. -/

namespace Sys2Proof.Machine

/-- One step. The host's moves still to come are in State (log 6); with none left, the engine goes on by itself. -/
def step (s : State) : Host.Outcome State Fault Refusal :=
  match s.host with
  | m :: rest => hostMove m { s with host := rest }
  | [] => engineStep s

/-- `s` with the word `w` of `nbits` bits stored where `step` fetches its next instruction (log 11). -/
def State.withFetchWord (s : State) (nbits w : Nat) : State := s.placeWord nbits w

end Sys2Proof.Machine
end

