-- ==== Sys2Proof/Safety.lean ====
section
/-! DEFINITION. The terms in which statements speak of a run: what the host sees as input and result, what an operation
keeps, what a token appends, and the invariant of every state the machine goes through. -/

namespace Sys2Proof.Machine

/-- The input of the next operation, `IN[0..IN_LEN]` (20_memory.md R50). -/
def State.inputBytes (s : State) : Bytes := (List.range s.inLen.toNat).map s.inByteAt

/-- No command of this input is turned away for its length (40_commands_contract.md R122). -/
def State.inputFits (s : State) : Prop := ∀ c, s.params.inCap = some c → s.inLen.toNat ≤ c

/-- `OUT` holds `len` bytes (20_memory.md R51; an unbounded one holds any number). -/
def State.outHolds (s : State) (len : Nat) : Prop := ∀ c, s.params.outCap = some c → len ≤ c

/-- The same state of an engine with another `OUT_CAP` (00_scope.md R9). -/
def State.withOutCap (s : State) (cap : Option Nat) : State := { s with params := { s.params with outCap := cap } }

/-- There is room for `len` more bytes of output (00_scope.md R13). -/
def State.room (s : State) (len : Nat) : Prop :=
  len = 0 ∨ ∀ c, s.params.outCap = some c → s.regs.outBase + s.regs.outCount + len ≤ c

/-- A successful end with the result `y` (40_commands_contract.md R121, 20_memory.md R51). -/
structure State.Result (t : State) (y : Bytes) : Prop where
  status : t.status = .done
  err : t.err = 0
  outLen : t.outLen.toNat = y.length
  out : ∀ k (h : k < y.length), t.outMem.read k = some y[k]

/-- An end in ERROR with the kind `k` and no output (60_exceptions.md R320). -/
structure State.Failed (t : State) (k : ErrKind) : Prop where
  status : t.status = .error
  err : t.err = errCode k
  outLen : t.outLen = 0
  out : ∀ a, t.outMem.read a = none

/-- What no operation and no error entry changes (60_exceptions.md R320, 20_memory.md R62), and the model's own fields
outside the engine. -/
structure State.KeepsInputs (s t : State) : Prop where
  params : t.params = s.params
  cmd : t.cmd = s.cmd
  inLen : t.inLen = s.inLen
  inMem : ∀ a, t.inMem.read a = s.inMem.read a
  host : t.host = s.host
  rdata : t.rdata = s.rdata
  epoch : t.epoch = s.epoch
  draws : t.draws = s.draws

/-- The `ARG` registers are kept (10_state.md R35). -/
structure State.KeepsArgs (s t : State) : Prop where
  argAlg : t.argAlg = s.argAlg
  argSize : t.argSize = s.argSize

/-- What a token that neither ends the operation nor raises keeps: every register the host can see, `IN`, and where the
operation stands. -/
structure State.KeepsOutside (s t : State) : Prop where
  inputs : s.KeepsInputs t
  args : s.KeepsArgs t
  status : t.status = s.status
  err : t.err = s.err
  outLen : t.outLen = s.outLen
  phase : t.phase = s.phase

/-- `t`'s `OUT` is `s`'s with the bytes `bs` after the `out_len` bytes already emitted, and nothing else changed in it
(00_scope.md R13, 20_memory.md R51). -/
structure State.Appends (s t : State) (bs : Bytes) : Prop where
  outCount : t.regs.outCount = s.regs.outCount + bs.length
  outBase : t.regs.outBase = s.regs.outBase
  new : ∀ k (h : k < bs.length), t.outMem.read (s.regs.outBase + s.regs.outCount + k) = some bs[k]
  old : ∀ a, (a < s.regs.outBase + s.regs.outCount ∨ s.regs.outBase + s.regs.outCount + bs.length ≤ a) →
    t.outMem.read a = s.outMem.read a

/-- `OUT` is unchanged at every address. -/
def State.KeepsOut (s t : State) : Prop := ∀ a, t.outMem.read a = s.outMem.read a

/-- The invariant of the machine. -/
structure State.Inv (s : State) : Prop where
  /-- `IN` is in canonical form -/
  inWf : s.inMem.wf
  /-- `OUT` is in canonical form -/
  outWf : s.outMem.wf
  /-- in ERROR, `ERR` holds a kind the engine can raise (10_state.md R33, 60_exceptions.md R310, R311) -/
  errSet : s.status = .error → ∃ k, k ≠ .poolShutdown ∧ k ≠ .ioFailure ∧ s.err = errCode k
  /-- outside ERROR, `ERR` is 0 (10_state.md R33) -/
  errClear : s.status ≠ .error → s.err = 0
  /-- outside DONE, `OUT_LEN` is 0 (10_state.md R34, 40_commands_contract.md R121, R128) -/
  outLenClear : s.status ≠ .done → s.outLen = 0
  /-- an operation is in progress exactly in BUSY (10_state.md R32) -/
  phaseBusy : s.status = .busy ↔ s.phase ≠ .off
  /-- in DONE, every byte of the result is there (20_memory.md R51) -/
  resultThere : s.status = .done → ∀ a, a < s.outLen.toNat → (s.outMem.read a).isSome
  /-- in BUSY, exactly the bytes emitted so far are there (20_memory.md R51: ascending from 0, each once) -/
  historyThere : s.status = .busy → ∀ a, (s.outMem.read a).isSome ↔ a < s.regs.outBase + s.regs.outCount
  /-- no byte was emitted at or beyond `OUT_CAP` (20_memory.md R56) -/
  outFits : s.status = .busy → ∀ c, s.params.outCap = some c → s.regs.outBase + s.regs.outCount ≤ c
  /-- no result is longer than `OUT_CAP` (20_memory.md R56) -/
  resultFits : s.status = .done → ∀ c, s.params.outCap = some c → s.outLen.toNat ≤ c
  /-- `MTF` is a permutation of 0 to 255 at every moment (10_state.md R40) -/
  mtfPerm : s.tabs.mtf.Perm Tables.mtfIdentity
  /-- the dictionary has an entry for every code below `next_code` (10_state.md R39) -/
  dictSize : s.tabs.dict.length = s.regs.nextCode
  /-- the dictionary has at least its 256 seed entries and at most 4096 (10_state.md R39) -/
  dictCap : 256 ≤ s.regs.nextCode ∧ s.regs.nextCode ≤ 4096
  /-- the seed: code `c` below 256 is the one-byte string `[c]` (10_state.md R39, 45_lzw.md R202) -/
  dictSeed : ∀ c, c < 256 → s.tabs.dict[c]? = some [BitVec.ofNat 8 c]
  /-- before its command is fetched, an operation has emitted nothing (40_commands_contract.md R121) -/
  notBegun : s.phase = .command → s.regs.outBase = 0 ∧ s.regs.outCount = 0

/-- A state in which an operation has just started and its command has not been fetched (40_commands_contract.md R121). -/
def State.JustStarted (s : State) : Prop := s = s.start

/-- `i` over `s` ends with the result `y`, and with its inputs and the `ARG` registers as they were. -/
def Gives (i : Instr) (s : State) (y : Bytes) : Prop :=
  ∃ t, exec i s = .next t ∧ t.Result y ∧ s.KeepsInputs t ∧ s.KeepsArgs t

/-- `i` over `s` ends in ERROR with the kind `k`, and with its inputs and the `ARG` registers as they were. -/
def Fails (i : Instr) (s : State) (k : ErrKind) : Prop :=
  ∃ t, exec i s = .next t ∧ t.Failed k ∧ s.KeepsInputs t ∧ s.KeepsArgs t

/-- `i` over `s` gives `y` where `OUT` holds it, and is CapacityExceeded where it does not (40_commands_contract.md
R122). -/
def GivesWithinCap (i : Instr) (s : State) (y : Bytes) : Prop :=
  (s.outHolds y.length → Gives i s y) ∧ (¬ s.outHolds y.length → Fails i s .capacityExceeded)

/-- The next step of `s` ends its operation in ERROR with the kind `k`. -/
def StepFails (s : State) (k : ErrKind) : Prop :=
  ∃ t, step s = .next t ∧ t.Failed k ∧ s.KeepsInputs t ∧ s.KeepsArgs t

/-- The next step of `s` ends its operation in DONE with the bytes emitted so far (40_commands_contract.md R121). -/
def StepEnds (s : State) : Prop :=
  ∃ t, step s = .next t ∧ t.status = .done ∧ t.err = s.err ∧
    t.outLen = BitVec.ofNat 64 (s.regs.outBase + s.regs.outCount) ∧ s.KeepsOut t ∧ s.KeepsInputs t ∧ s.KeepsArgs t

/-- COMPRESS by `c` and then DECOMPRESS by `d` give the input back (40_commands_contract.md R123 (d)): there is one `y`
that is `c`'s result with every `OUT_CAP` that holds it, and over every state whose input is `y` and whose `OUT` holds the
first input, `d` gives the first input. Inputs shorter than `bound`, for which every length fits its field. -/
def RoundTrips (c d : Instr) (bound : Nat) : Prop :=
  ∀ s : State, s.inputFits → s.inLen.toNat < bound →
    ∃ y, (∀ cap, (s.withOutCap cap).outHolds y.length →
        ∃ t, exec c (s.withOutCap cap) = .next t ∧ t.Result y) ∧
      ∀ u : State, u.outHolds s.inLen.toNat → u.inputFits → u.inputBytes = y → Gives d u s.inputBytes

/-- The place in a tree that a path of branch bits leads to from `q`, 0 to the left and 1 to the right (46_huffman.md
R224). -/
def walkTree (tree : List TreeRec) : Option Nat → List Bool → Option Nat
  | q, [] => q
  | none, _ :: _ => none
  | some q, b :: bs =>
    match tree[q]? with
    | some (.internal l r) => walkTree tree (if b then r else l) bs
    | _ => none

/-- What `Des` returns (`v`: an arena index, or `NULL`) stands in `t` at the place that asked for it in `s`: the root, or a
child of an internal record; every other record `s` had is unchanged (46_huffman.md R236). -/
def State.Fills (s t : State) (v : Option Nat) : Prop :=
  match s.regs.slots.head? with
  | some .root => t.regs.root = v ∧ ∀ q, q < s.tabs.tree.length → t.tabs.tree[q]? = s.tabs.tree[q]?
  | some (.left p) =>
    t.regs.root = s.regs.root ∧
    (∀ l r, s.tabs.tree[p]? = some (.internal l r) → t.tabs.tree[p]? = some (.internal v r)) ∧
    ∀ q, q < s.tabs.tree.length → q ≠ p → t.tabs.tree[q]? = s.tabs.tree[q]?
  | some (.right p) =>
    t.regs.root = s.regs.root ∧
    (∀ l r, s.tabs.tree[p]? = some (.internal l r) → t.tabs.tree[p]? = some (.internal l v)) ∧
    ∀ q, q < s.tabs.tree.length → q ≠ p → t.tabs.tree[q]? = s.tabs.tree[q]?
  | none => t.regs.root = s.regs.root ∧ ∀ q, q < s.tabs.tree.length → t.tabs.tree[q]? = s.tabs.tree[q]?

/-- The place `Des` fills next is the root or a child of a record that is there (46_huffman.md R236). -/
def State.SlotReady (s : State) : Prop :=
  match s.regs.slots.head? with
  | some (.left p) => p < s.tabs.tree.length
  | some (.right p) => p < s.tabs.tree.length
  | _ => True

/-- `k` units of work of the engine. -/
def ticks : Nat → State → State
  | 0, s => s
  | k + 1, s => ticks k (tick s)

end Sys2Proof.Machine
end

