-- ==== Sys2Proof/Certificates/Slice0/Obligations.lean ====
section
/-! DEFINITION. The statements for the provers, from the numbered rules of spec/. -/

open Sys2Proof Sys2Proof.Machine

/-! ## Reset -/

/-- 10_state.md R44 and 70_reset_and_hazards.md R350: the seven registers after reset, STATE = IDLE; and the reset input,
whatever the engine was doing, leaves them so and nothing of a running operation. Model's choice: that unspecified buffers
are lists that hold no byte (logs 3, 4), and that the reset input is a move of the host's list (logs 6, 19). -/
def Obligations.ResetLeavesRegistersZero : Prop :=
  (State.reset.cmd = 0x00 ∧ State.reset.status = .idle ∧ statusWord State.reset.status = 0x00 ∧
    State.reset.err = 0x00 ∧ State.reset.inLen = 0 ∧ State.reset.outLen = 0 ∧
    State.reset.argAlg = 0x00 ∧ State.reset.argSize = 0 ∧
    (∀ a, State.reset.inMem.read a = none) ∧ ∀ a, State.reset.outMem.read a = none) ∧
  ∀ (s : State) (rest : List HostMove), s.host = .reset :: rest →
    ∃ t, step s = .next t ∧ t.cmd = 0 ∧ t.status = .idle ∧ t.err = 0 ∧ t.inLen = 0 ∧ t.outLen = 0 ∧
      t.argAlg = 0 ∧ t.argSize = 0 ∧ t.phase = .off ∧ t.params = s.params ∧ t.host = rest ∧
      (∀ a, t.inMem.read a = none) ∧ ∀ a, t.outMem.read a = none

/-! ## Encoding -/

/-- 30_encoding.md R81, R84 to R98: decoding the encoding of an instruction, whatever follows it, gives the instruction,
with every operand at every value. -/
def Obligations.DecodeInvertsEncode : Prop :=
  ∀ (i : Instr) (rest : Bytes), i.WellFormed → i.WellFormedAt i.ctx ∧ decode i.ctx (encode i ++ rest) = .ok i

/-- Each byte-aligned encoding has one meaning: what a decoder reads at a place is the encoding of what it answers. -/
def Obligations.DecodedBytesAreTheEncoding : Prop :=
  ∀ (c : Ctx) (bs : Bytes) (i : Instr), c.atBit0 ≠ .lzw 0 → c.atBit0 ≠ .hufBit 0 → decode c bs = .ok i →
    i.ctx = c ∧ ∃ rest, bs = encode i ++ rest

/-- 30_encoding.md R93: two codes `a`, `b` make the three bytes `a[11:4]`, `(a[3:0] << 4) | b[11:8]`, `b[7:0]`, and are read
from them; and R96 with 00_scope.md R12: the bits of a Huffman payload byte are read highest first. -/
def Obligations.BitStreamsAreReadHighestBitFirst : Prop :=
  (∀ (a b : BitVec 12) (rest : Bytes),
    decode (.lzw 0)
        (a.extractLsb' 4 8 :: (a.extractLsb' 0 4 ++ b.extractLsb' 8 4) :: b.extractLsb' 0 8 :: rest) = .ok (.lzwCode a) ∧
    decode (.lzw 4) ((a.extractLsb' 0 4 ++ b.extractLsb' 8 4) :: b.extractLsb' 0 8 :: rest) = .ok (.lzwCode b)) ∧
  ∀ (x : Byte) (k : Nat) (rest : Bytes), k < 8 → decode (.hufBit k) (x :: rest) = .ok (.hufBit (x.extractLsb' (7 - k) 1))

/-- 30_encoding.md R81 and R82: which `CMD` values are commands, and how the others are refused. -/
def Obligations.CommandValuesAreClassified : Prop :=
  ∀ v : Byte,
    (v.toNat / 16 ∈ [1, 2, 5] → v.toNat % 16 ≤ 6 → ∃ i, decodeCommand v = .ok i ∧ encode i = [v]) ∧
    (v.toNat / 16 ∈ [1, 2, 5] → 7 ≤ v.toNat % 16 → decodeCommand v = .error .unknownAlgorithm) ∧
    (v.toNat / 16 ∈ [3, 4, 6, 15] → v.toNat % 16 = 0 → ∃ i, decodeCommand v = .ok i ∧ encode i = [v]) ∧
    (v.toNat / 16 ∈ [3, 4, 6, 15] → v.toNat % 16 ≠ 0 → decodeCommand v = .error .illegalCommand) ∧
    (v.toNat / 16 ∉ [1, 2, 3, 4, 5, 6, 15] → decodeCommand v = .error .illegalCommand)

/-- Words written out from the tables of 30_encoding.md, one or more of each family, decode to their instructions. -/
def Obligations.WrittenWordsDecode : Prop :=
  decode .command [0x10] = .ok .compressRle ∧ decode .command [0x26] = .ok .decompressBwt ∧
  decode .command [0x30] = .ok .pack ∧ decode .command [0x52] = .ok .encodeHuffman ∧
  decode .command [0xF0] = .ok .clear ∧ decode .rle [0x06, 0x61] = .ok (.rlePair 6 0x61) ∧
  decode .deltaFirst [0x10] = .ok (.deltaFirst 0x10) ∧ decode .deltaDiff [0xF5] = .ok (.deltaDiff 0xF5) ∧
  decode .lz77 [0x80, 0x41] = .ok (.lz77Lit 0x41) ∧ decode .lz77 [0x08, 0x00, 0x02] = .ok (.lz77Match 8 2) ∧
  decode .lz77 [0x20, 0x03, 0xC1] = .ok (.lz77Match 32 0x3C1) ∧
  decode .lzssMatch [0x00, 0x15] = .ok (.lzssMatch 1 5) ∧ decode .lzssMatch [0xFF, 0xF0] = .ok (.lzssMatch 4095 0) ∧
  decode (.lzw 0) [0x06, 0x11, 0x00] = .ok (.lzwCode 97) ∧ decode (.lzw 4) [0x11, 0x00] = .ok (.lzwCode 256) ∧
  decode .hufTree [0x00] = .ok .hufInt ∧ decode .hufTree [0x01, 0x61] = .ok (.hufLeaf 0x61) ∧
  decode .hufTree [0x02] = .ok .hufNull ∧ decode (.hufBit 1) [0x6E] = .ok (.hufBit 1) ∧
  decode .mtf [0x63] = .ok (.mtfIdx 0x63)

/-! ## The step -/

/-- A step runs the decoded instruction: with no host move pending, a BUSY engine that has just started executes the
command that the byte in `CMD` decodes to, and one inside a frame the token that the bytes at its cursor decode to; nothing
is added around `exec`. -/
def Obligations.StepRunsTheDecodedInstruction : Prop :=
  ∀ (s : State) (i : Instr), s.host = [] → s.status = .busy →
    (s.phase = .command → decode .command [s.cmd] = .ok i → step s = exec i s) ∧
    (s.phase ≠ .command → ∀ c bs, s.fetchBytes = some (.ok (c, bs)) → decode c bs = .ok i → step s = exec i s)

/-- Where the cursors are (10_state.md R22): the place in `IN` from which each codec's next token is fetched, whole, while
the input holds it (20_memory.md R56), and its operands (41_rle.md R143, 42_delta.md R153, 43_lz77.md R164 and R166,
44_lzss.md R184 and R187, 45_lzw.md R204, 46_huffman.md R236 and R238, 47_bwt_mtf.md R268). -/
def Obligations.TokensAreFetchedAtTheirCursors : Prop :=
  ∀ s : State, s.host = [] → s.status = .busy →
    (s.phase = .rleD → s.regs.ip + 2 ≤ s.regs.nIn →
      step s = exec (.rlePair (s.inAt s.regs.ip) (s.inAt (s.regs.ip + 1))) s) ∧
    (s.phase = .deltaD → s.regs.ip < s.regs.nIn → s.regs.ip = 8 → step s = exec (.deltaFirst (s.inAt s.regs.ip)) s) ∧
    (s.phase = .deltaD → s.regs.ip < s.regs.nIn → s.regs.ip ≠ 8 → step s = exec (.deltaDiff (s.inAt s.regs.ip)) s) ∧
    (s.phase = .lz77D → s.regs.ip + 2 ≤ s.regs.nIn → s.inAt s.regs.ip = 0x80 →
      step s = exec (.lz77Lit (s.inAt (s.regs.ip + 1))) s) ∧
    (s.phase = .lz77D → s.regs.ip + 3 ≤ s.regs.nIn → (s.inAt s.regs.ip).toNat < 0x80 →
      step s = exec (.lz77Match ((s.inAt s.regs.ip).truncate 7)
        (s.inAt (s.regs.ip + 1) ++ s.inAt (s.regs.ip + 2))) s) ∧
    (s.phase = .lzssD → s.regs.outCount < s.regs.n → s.regs.tok < 8 * s.regs.fc →
      ((s.inAt (12 + s.regs.tok / 8)).getLsbD (s.regs.tok % 8) = false →
        12 + s.regs.fc + s.regs.dp + 1 ≤ s.regs.nIn →
        step s = exec (.lzssLit (s.inAt (12 + s.regs.fc + s.regs.dp))) s) ∧
      ((s.inAt (12 + s.regs.tok / 8)).getLsbD (s.regs.tok % 8) = true →
        12 + s.regs.fc + s.regs.dp + 2 ≤ s.regs.nIn → ∀ v : BitVec 16,
        v = s.inAt (12 + s.regs.fc + s.regs.dp) ++ s.inAt (12 + s.regs.fc + s.regs.dp + 1) →
        step s = exec (.lzssMatch (v.extractLsb' 4 12) (v.extractLsb' 0 4)) s)) ∧
    (s.phase = .lzwD → s.regs.bp + 12 ≤ 8 * (s.regs.nIn - 8) →
      (s.regs.bp % 8 = 0 → step s = exec (.lzwCode
        (s.inAt (8 + s.regs.bp / 8) ++ (s.inAt (8 + s.regs.bp / 8 + 1)).extractLsb' 4 4)) s) ∧
      (s.regs.bp % 8 = 4 → step s = exec (.lzwCode
        ((s.inAt (8 + s.regs.bp / 8)).extractLsb' 0 4 ++ s.inAt (8 + s.regs.bp / 8 + 1))) s)) ∧
    (s.phase = .hufTree → s.regs.slots ≠ [] → s.regs.tp < s.regs.tl →
      (s.inAt (12 + s.regs.tp) = 0x00 → step s = exec .hufInt s) ∧
      (s.inAt (12 + s.regs.tp) = 0x01 → s.regs.tp + 1 < s.regs.tl →
        step s = exec (.hufLeaf (s.inAt (12 + s.regs.tp + 1))) s) ∧
      (s.inAt (12 + s.regs.tp) = 0x02 → step s = exec .hufNull s)) ∧
    (s.phase = .hufBits → s.regs.outCount < s.regs.n → s.regs.bp < s.regs.tb →
      20 + s.regs.tl + s.regs.bp / 8 < s.regs.nIn →
      step s = exec (.hufBit ((s.inAt (20 + s.regs.tl + s.regs.bp / 8)).extractLsb' (7 - s.regs.bp % 8) 1)) s) ∧
    (s.phase = .bwtIdx → s.regs.k < s.regs.cs → s.regs.ip + 16 + s.regs.k < s.regs.nIn →
      step s = exec (.mtfIdx (s.inAt (s.regs.ip + 16 + s.regs.k))) s)

/-- 30_encoding.md R101, 43_lz77.md R165, 44_lzss.md R185, 46_huffman.md R236: an illegal token or one cut short raises
CorruptPayload. -/
def Obligations.IllegalTokensRaiseCorruptPayload : Prop :=
  ∀ s : State, s.host = [] → s.status = .busy →
    (s.phase = .lz77D ∧ s.regs.ip < s.regs.nIn ∧ 0x80 < (s.inAt s.regs.ip).toNat ∨
     s.phase = .lz77D ∧ s.regs.ip + 1 = s.regs.nIn ∨
     s.phase = .lz77D ∧ s.regs.ip + 2 = s.regs.nIn ∧ (s.inAt s.regs.ip).toNat < 0x80 ∨
     s.phase = .lzssD ∧ s.regs.outCount < s.regs.n ∧ 8 * s.regs.fc ≤ s.regs.tok ∨
     s.phase = .lzssD ∧ s.regs.outCount < s.regs.n ∧ s.regs.tok < 8 * s.regs.fc ∧
       s.regs.nIn < 12 + s.regs.fc + s.regs.dp + 1 ∨
     s.phase = .lzssD ∧ s.regs.outCount < s.regs.n ∧ s.regs.tok < 8 * s.regs.fc ∧
       (s.inAt (12 + s.regs.tok / 8)).getLsbD (s.regs.tok % 8) = true ∧
       s.regs.nIn < 12 + s.regs.fc + s.regs.dp + 2 ∨
     s.phase = .hufTree ∧ s.regs.slots ≠ [] ∧ s.regs.tl ≤ s.regs.tp ∨
     s.phase = .hufTree ∧ s.regs.slots ≠ [] ∧ s.regs.tp < s.regs.tl ∧ 2 < (s.inAt (12 + s.regs.tp)).toNat ∨
     s.phase = .hufTree ∧ s.regs.slots ≠ [] ∧ s.regs.tp + 1 = s.regs.tl ∧ s.inAt (12 + s.regs.tp) = 1) →
    ∃ t, step s = .next t ∧ t.Failed .corruptPayload ∧ s.KeepsInputs t ∧ s.KeepsArgs t

/-- 30_encoding.md R82: a started operation whose `CMD` value is no command, or names no algorithm, fails at once. -/
def Obligations.IllegalCommandsFailAtOnce : Prop :=
  ∀ s : State, s.host = [] → s.status = .busy → s.phase = .command →
    (s.cmd.toNat / 16 ∈ [1, 2, 5] → 7 ≤ s.cmd.toNat % 16 →
      ∃ t, step s = .next t ∧ t.Failed .unknownAlgorithm ∧ s.KeepsInputs t ∧ s.KeepsArgs t) ∧
    (s.cmd.toNat / 16 ∉ [1, 2, 3, 4, 5, 6, 15] ∨ s.cmd.toNat / 16 ∈ [3, 4, 6, 15] ∧ s.cmd.toNat % 16 ≠ 0 →
      ∃ t, step s = .next t ∧ t.Failed .illegalCommand ∧ s.KeepsInputs t ∧ s.KeepsArgs t)

/-- 40_commands_contract.md R129: an operation run unit by unit reaches the state its command's meaning gives. The unit is
the model's choice (log 7), which R129 leaves free: with no host move pending, a step inside an operation is one unit of
work, and out of BUSY the engine waits. -/
def Obligations.UnitsOfWorkReachTheResult : Prop :=
  (∀ (s : State) (i : Instr), s.JustStarted → decode .command [s.cmd] = .ok i → i ≠ .clear →
    ∃ k, exec i s = .next (ticks k s)) ∧
  ∀ s : State, s.host = [] →
    (s.status = .busy → s.phase ≠ .command → step s = .next (tick s)) ∧
    (s.status ≠ .busy → step s = .next s)

/-! ## The host's moves -/

/-- 40_commands_contract.md R120 and R121: what a host write to `CMD` does in each state. The last clause, `t.JustStarted`,
also says that the working registers and tables, which hold no value at a start (10_state.md R25), have the values the
model starts them with (model's choice, log 5). -/
def Obligations.CmdWriteStartsOrClears : Prop :=
  ∀ (s : State) (v : Word64) (rest : List HostMove), s.host = .writeCsr 0x00 .w8 v :: rest →
    (s.status = .busy → step s = .next { s with host := rest }) ∧
    (s.status ≠ .busy → v.truncate 8 = 0xF0#8 →
      ∃ t, step s = .next t ∧ t.cmd = 0xF0 ∧ t.status = .idle ∧ t.err = 0 ∧ t.outLen = 0 ∧
        t.inLen = s.inLen ∧ s.KeepsArgs t ∧ t.host = rest ∧ ∀ a, t.inMem.read a = s.inMem.read a) ∧
    (s.status ≠ .busy → v.truncate 8 ≠ 0xF0#8 →
      ∃ t, step s = .next t ∧ t.cmd = v.truncate 8 ∧ t.status = .busy ∧ t.err = 0 ∧ t.outLen = 0 ∧
        t.inLen = s.inLen ∧ s.KeepsArgs t ∧ t.host = rest ∧ (∀ a, t.inMem.read a = s.inMem.read a) ∧
        t.regs.nIn = s.inLen.toNat ∧ t.regs.aAlg = s.argAlg ∧ t.regs.aSize = s.argSize ∧
        t.regs.ip = 0 ∧ t.regs.outCount = 0 ∧ t.JustStarted)

/-- 70_reset_and_hazards.md R358: a CSR write while BUSY is dropped, and a write to a read-only register is ignored in
every state. -/
def Obligations.CsrWritesAreDropped : Prop :=
  ∀ (s : State) (offset : Nat) (width : Width) (v : Word64) (rest : List HostMove),
    s.host = .writeCsr offset width v :: rest →
    (s.status = .busy → (∃ c, csrOf offset width = some c) → step s = .next { s with host := rest }) ∧
    ((offset, width) ∈ [(0x08, .w8), (0x10, .w8), (0x20, .w64)] → step s = .next { s with host := rest })

/-- The map of 10_state.md R30 at work: a read returns the register and has no side effect (70_reset_and_hazards.md R360;
where it is returned is log 17); outside BUSY `IN_LEN`, `ARG_ALG` and `ARG_SIZE` take the written value at once and nothing
else happens (R359); an access at another offset or in another width is refused (20_memory.md R52; in BUSY too, log 16). -/
def Obligations.CsrAccessesFollowTheMap : Prop :=
  (∀ (s : State) (offset : Nat) (width : Width) (rest : List HostMove) (v : Word64),
    s.host = .readCsr offset width :: rest →
    (offset, width, v) ∈
      [(0x00, .w8, s.cmd.zeroExtend 64), (0x08, .w8, (statusWord s.status).zeroExtend 64),
       (0x10, .w8, s.err.zeroExtend 64), (0x18, .w64, s.inLen), (0x20, .w64, s.outLen),
       (0x28, .w8, s.argAlg.zeroExtend 64), (0x30, .w64, s.argSize)] →
    step s = .next { s with host := rest, rdata := v }) ∧
  (∀ (s : State) (v : Word64) (rest : List HostMove), s.status ≠ .busy →
    (s.host = .writeCsr 0x18 .w64 v :: rest → step s = .next { s with host := rest, inLen := v }) ∧
    (s.host = .writeCsr 0x28 .w8 v :: rest → step s = .next { s with host := rest, argAlg := v.truncate 8 }) ∧
    (s.host = .writeCsr 0x30 .w64 v :: rest → step s = .next { s with host := rest, argSize := v })) ∧
  ∀ (s : State) (offset : Nat) (width : Width) (v : Word64) (rest : List HostMove),
    (offset, width) ∉
      [(0x00, .w8), (0x08, .w8), (0x10, .w8), (0x18, .w64), (0x20, .w64), (0x28, .w8), (0x30, .w64)] →
    (s.host = .writeCsr offset width v :: rest → step s = .refused .noSuchCsr) ∧
    (s.host = .readCsr offset width :: rest → step s = .refused .noSuchCsr)

/-- 70_reset_and_hazards.md R356, R357, R361: a write of bytes within `IN_CAP` changes them in `IN` and nothing else; in
DONE a read of `OUT` below `OUT_LEN` returns the byte emitted there; while BUSY an access to a buffer is not enabled (logs
15, 17). -/
def Obligations.HostReachesTheBuffers : Prop :=
  (∀ (s : State) (addr : Nat) (bs : Bytes) (rest : List HostMove), s.host = .writeIn addr bs :: rest →
    (s.status = .busy → step s = .refused .bufferWhileBusy) ∧
    (s.status ≠ .busy → (∀ c, s.params.inCap = some c → addr + bs.length ≤ c) →
      ∃ m, step s = .next { s with host := rest, inMem := m } ∧
        (∀ k (h : k < bs.length), m.read (addr + k) = some bs[k]) ∧
        ∀ a, (a < addr ∨ addr + bs.length ≤ a) → m.read a = s.inMem.read a)) ∧
  ∀ (s : State) (addr : Nat) (rest : List HostMove), s.host = .readOut addr :: rest →
    (s.status = .busy → step s = .refused .bufferWhileBusy) ∧
    (∀ y, s.Inv → s.Result y → ∀ h : addr < y.length,
      step s = .next { s with host := rest, rdata := y[addr].zeroExtend 64 })

/-! ## Operations -/

/-- 40_commands_contract.md R129: every operation ends, in DONE or in ERROR. -/
def Obligations.EveryOperationEnds : Prop :=
  ∀ (s : State) (i : Instr), i.ctx = .command → i ≠ .clear →
    ∃ t, exec i s = .next t ∧ (t.status = .done ∨ t.status = .error)

/-- 20_memory.md R62, 60_exceptions.md R320, 10_state.md R35: an operation changes no input of its own, and the `ARG`
registers only at a successful end of UNPACK or DECODE. -/
def Obligations.OperationsKeepTheirInputs : Prop :=
  ∀ (s t : State) (i : Instr), i.ctx = .command → exec i s = .next t →
    s.KeepsInputs t ∧ (i ≠ .unpack → i ≠ .decode → s.KeepsArgs t) ∧ (t.status ≠ .done → s.KeepsArgs t)

/-- 60_exceptions.md R320 and R313: an operation that fails leaves no output and one of the kinds its rules raise; no
compress operation raises anything but CapacityExceeded, and neither RLE.D nor LZ77.D a SizeMismatch. 40_commands_contract.md
R122: an operation started with `IN_LEN > IN_CAP` raises CapacityExceeded. -/
def Obligations.FailuresAreTheRulesKinds : Prop :=
  (∀ (s t : State) (i : Instr), i.ctx = .command → exec i s = .next t → t.status = .error →
    ∃ k, t.Failed k ∧
      (∀ a, i = compressOf a ∨ i = encodeOf a → k = .capacityExceeded) ∧
      (∀ a, i = decompressOf a → k ∈ [.corruptPayload, .sizeMismatch, .capacityExceeded]) ∧
      (i = .decompressRle ∨ i = .decompressLz77 → k ∈ [.corruptPayload, .capacityExceeded]) ∧
      (i = .pack → k ∈ [.unknownAlgorithm, .capacityExceeded]) ∧
      (i = .unpack → k ∈ [.malformedContainer, .unknownAlgorithm, .capacityExceeded]) ∧
      (i = .decode → k ∈ [.malformedContainer, .unknownAlgorithm, .corruptPayload, .sizeMismatch, .capacityExceeded])) ∧
  ∀ (s : State) (i : Instr) (c : Nat), i.ctx = .command → i ≠ .clear → s.params.inCap = some c → c < s.inLen.toNat →
    Fails i s .capacityExceeded

/-- 40_commands_contract.md R125, R122 and R123 (a), 48_container.md R294: over every input that fits (for LZSS, whose flag
count fits its field), COMPRESS has one output `y` that does not depend on `OUT_CAP`, and ENCODE's is the container of `y`:
`MAGIC`, the id, the input's length and `y`. Each succeeds with its output where `OUT` holds it, and raises CapacityExceeded
where it does not. -/
def Obligations.CompressAndEncodeSucceed : Prop :=
  ∀ (s : State) (a : Alg), s.inputFits → (a = .lzss → s.inLen.toNat < 2 ^ 34) →
    ∃ y : Bytes, ∀ (i : Instr) (x : Bytes),
      i = compressOf a ∧ x = y ∨
      i = encodeOf a ∧ x = s.params.magic :: BitVec.ofNat 8 (algId a) :: (u64le s.inLen.toNat ++ y) →
      ∀ cap,
        ((s.withOutCap cap).outHolds x.length →
          ∃ t, exec i (s.withOutCap cap) = .next t ∧ t.status = .done ∧ t.err = 0 ∧
            t.outLen = BitVec.ofNat 64 x.length ∧ (∀ k (h : k < x.length), t.outMem.read k = some x[k]) ∧
            (s.withOutCap cap).KeepsInputs t ∧ s.KeepsArgs t) ∧
        (¬ (s.withOutCap cap).outHolds x.length → Fails i (s.withOutCap cap) .capacityExceeded)

/-- 40_commands_contract.md R127: the empty input. -/
def Obligations.EmptyInputGivesEmptyOutput : Prop :=
  ∀ (s : State) (a : Alg), s.inLen = 0 →
    (∃ t, exec (compressOf a) s = .next t ∧ t.Result [] ∧ s.KeepsInputs t ∧ s.KeepsArgs t) ∧
    ∃ t, exec (decompressOf a) s = .next t ∧ t.Result [] ∧ s.KeepsInputs t ∧ s.KeepsArgs t

/-- 40_commands_contract.md R128: CLEAR, and when a host's write of it is accepted. Model's choice: that the meaning of
CLEAR clears in every state, BUSY included, which no host's write reaches (log 20), and that `OUT`, which becomes
unspecified, holds no byte that the model knows (log 4). -/
def Obligations.ClearReturnsToIdle : Prop :=
  ∀ s : State,
    (∃ t, exec .clear s = .next t ∧ t.status = .idle ∧ t.err = 0 ∧ t.outLen = 0 ∧ s.KeepsInputs t ∧ s.KeepsArgs t ∧
      ∀ a, t.outMem.read a = none) ∧
    ∀ (v : Word64) (rest : List HostMove), s.host = .writeCsr 0x00 .w8 v :: rest → v.truncate 8 = 0xF0#8 →
      (s.status = .busy → step s = .next { s with host := rest }) ∧
      (s.status ≠ .busy → step s = exec .clear { s with host := rest, cmd := 0xF0 })

/-- 10_state.md R21, 40_commands_contract.md R130: what the host sees of an operation is a function of the command, the
parameters, `IN[0..IN_LEN]`, `IN_LEN` and, for PACK, the `ARG` registers: not of an earlier operation, of `OUT` or of any
working register or table. -/
def Obligations.NothingPersistsBetweenOperations : Prop :=
  ∀ (s u s' u' : State) (i : Instr), i.ctx = .command → s.params = u.params → s.inLen = u.inLen →
    (∀ a, a < s.inLen.toNat → s.inByteAt a = u.inByteAt a) →
    (i = .pack → s.argAlg = u.argAlg ∧ s.argSize = u.argSize) →
    exec i s = .next s' → exec i u = .next u' →
    s'.status = u'.status ∧ s'.err = u'.err ∧ s'.outLen = u'.outLen ∧
    (∀ a, a < s'.outLen.toNat → s'.outMem.read a = u'.outMem.read a) ∧
    (i = .unpack ∨ i = .decode → s'.status = .done → s'.argAlg = u'.argAlg ∧ s'.argSize = u'.argSize)

/-! ## RLE -/

/-- 41_rle.md R143: PAIR, fetched at `ip`, appends `count` copies of `value`, and only `ip` and the registers of the pair
change; where `OUT` has no room for them, their `Emit` raises CapacityExceeded (00_scope.md R13). -/
def Obligations.RlePairAppendsCopies : Prop :=
  ∀ (count value : Byte) (s : State),
    (s.room count.toNat →
      ∃ t, exec (.rlePair count value) s = .next t ∧ s.Appends t (List.replicate count.toNat value) ∧
        s.KeepsOutside t ∧ t.tabs = s.tabs ∧
        t.regs = { s.regs with
          run := count.toNat, cur := value, ip := s.regs.ip + 2, outCount := s.regs.outCount + count.toNat }) ∧
    (¬ s.room count.toNat →
      ∃ t, exec (.rlePair count value) s = .next t ∧ t.Failed .capacityExceeded ∧ s.KeepsInputs t ∧ s.KeepsArgs t) ∧
    (s.host = [] → s.status = .busy → s.phase = .rleD → s.regs.ip + 2 ≤ s.regs.nIn →
      count = s.inAt s.regs.ip → value = s.inAt (s.regs.ip + 1) → step s = exec (.rlePair count value) s)

/-- 41_rle.md R141, and R144 with 40_commands_contract.md R123 (d): COMPRESS.RLE writes the pairs of the maximal runs of the
input, each at most 255 long, and the round trip. -/
def Obligations.RleCompressWritesMaximalRuns : Prop :=
  (∀ s : State, s.inputFits → s.inLen.toNat < 2 ^ 56 →
    ∃ pairs : List (Byte × Byte),
      GivesWithinCap .compressRle s (pairs.flatMap fun p => [p.1, p.2]) ∧
      s.inputBytes = pairs.flatMap (fun p => List.replicate p.1.toNat p.2) ∧
      (∀ p ∈ pairs, p.1 ≠ 0) ∧ pairs.IsChain (fun p q => p.2 = q.2 → p.1 = 255)) ∧
  RoundTrips .compressRle .decompressRle (2 ^ 56)

/-- 41_rle.md R142: an odd length is CorruptPayload; every even-length input is a frame and expands pair by pair, as far as
`OUT` holds it. -/
def Obligations.RleDecompressExpandsPairs : Prop :=
  ∀ s : State, s.inputFits →
    (s.inLen.toNat % 2 = 1 → Fails .decompressRle s .corruptPayload) ∧
    ∀ pairs : List (Byte × Byte), s.inLen.toNat < 2 ^ 56 → s.inputBytes = pairs.flatMap (fun p => [p.1, p.2]) →
      GivesWithinCap .decompressRle s (pairs.flatMap fun p => List.replicate p.1.toNat p.2)

/-! ## Delta -/

/-- 42_delta.md R153: FIRST and DIFF; FIRST is the byte at frame offset 8 and DIFF each later byte; where `OUT` is full,
their `Emit` raises CapacityExceeded (00_scope.md R13). -/
def Obligations.DeltaTokensAppendTheSum : Prop :=
  ∀ (b : Byte) (s : State),
    (s.room 1 →
      (∃ t, exec (.deltaFirst b) s = .next t ∧ s.Appends t [b] ∧ s.KeepsOutside t ∧ t.tabs = s.tabs ∧
        t.regs = { s.regs with cur := b, prev := b, ip := s.regs.ip + 1, outCount := s.regs.outCount + 1 }) ∧
      ∃ t, exec (.deltaDiff b) s = .next t ∧ s.Appends t [s.regs.prev + b] ∧ s.KeepsOutside t ∧ t.tabs = s.tabs ∧
        t.regs = { s.regs with
          cur := s.regs.prev + b, prev := s.regs.prev + b, ip := s.regs.ip + 1, outCount := s.regs.outCount + 1 }) ∧
    (¬ s.room 1 →
      (∃ t, exec (.deltaFirst b) s = .next t ∧ t.Failed .capacityExceeded ∧ s.KeepsInputs t ∧ s.KeepsArgs t) ∧
      ∃ t, exec (.deltaDiff b) s = .next t ∧ t.Failed .capacityExceeded ∧ s.KeepsInputs t ∧ s.KeepsArgs t) ∧
    (s.host = [] → s.status = .busy → s.phase = .deltaD → s.regs.ip < s.regs.nIn → b = s.inAt s.regs.ip →
      step s = if s.regs.ip = 8 then exec (.deltaFirst b) s else exec (.deltaDiff b) s)

/-- 42_delta.md R151, and R154 with 40_commands_contract.md R123 (d): the frame is the length, the first byte and the wrapped
differences, and the round trip. -/
def Obligations.DeltaCompressWritesDifferences : Prop :=
  (∀ (s : State) (b : Byte) (rest : Bytes), s.inputFits → s.inLen.toNat < 2 ^ 56 → s.inputBytes = b :: rest →
    GivesWithinCap .compressDelta s
      (u64le s.inLen.toNat ++ b :: List.zipWith (fun cur prev => cur - prev) rest (b :: rest))) ∧
  RoundTrips .compressDelta .decompressDelta (2 ^ 56)

/-- 42_delta.md R152: the three tests in order, and the running sum, as far as `OUT` holds it. -/
def Obligations.DeltaDecompressChecksAndSums : Prop :=
  ∀ (s : State) (n : Nat), s.inputFits → n = valueLE (s.inputBytes.take 8) →
    (1 ≤ s.inLen.toNat → s.inLen.toNat ≤ 7 → Fails .decompressDelta s .corruptPayload) ∧
    (s.inLen.toNat = 8 → 0 < n → Fails .decompressDelta s .corruptPayload) ∧
    (8 ≤ s.inLen.toNat → (s.inLen.toNat = 8 → n = 0) → s.inLen.toNat - 8 ≠ n →
      Fails .decompressDelta s .sizeMismatch) ∧
    (8 ≤ s.inLen.toNat → s.inLen.toNat - 8 = n →
      ∃ y : Bytes, GivesWithinCap .decompressDelta s y ∧ y.length = n ∧
        ∀ i, i < n → y.getD i 0 = (if i = 0 then 0 else y.getD (i - 1) 0) + s.inByteAt (8 + i))

/-! ## LZ77 and LZSS -/

/-- 43_lz77.md R161: `FindMatch` finds a longest match of the window, and among the longest the one whose candidate starts
first. -/
def Obligations.FindMatchFindsTheFarthestLongest : Prop :=
  ∀ (s : State) (i window maxLen : Nat), i < s.regs.nIn →
    let m := findMatch s i window maxLen
    (m.bestLen = 0 ∧ m.bestOff = 0 ∨ (1 ≤ m.bestLen ∧ 1 ≤ m.bestOff ∧ m.bestOff ≤ i ∧ m.bestOff ≤ window ∧ m.bestLen ≤ maxLen ∧
      i + m.bestLen ≤ s.regs.nIn ∧ ∀ k, k < m.bestLen → s.inAt (i - m.bestOff + k) = s.inAt (i + k))) ∧
    ∀ j len, j < i → i ≤ j + window → len ≤ maxLen → i + len ≤ s.regs.nIn →
      (∀ k, k < len → s.inAt (j + k) = s.inAt (i + k)) →
      len ≤ m.bestLen ∧ (0 < len → len = m.bestLen → i - m.bestOff ≤ j)

/-- 43_lz77.md R162: a turn of the compressor's loop is greedy: it writes the match that `FindMatch` finds, if it is at
least 3 bytes long, and else the literal. One turn a step is the model's choice (log 7). -/
def Obligations.Lz77CompressorIsGreedy : Prop :=
  ∀ s : State, s.host = [] → s.status = .busy → s.phase = .lz77C → s.regs.ip < s.regs.nIn →
    let m := findMatch s s.regs.ip 1024 32
    (3 ≤ m.bestLen → s.room 3 → ∃ t, step s = .next t ∧
      s.Appends t (encode (.lz77Match (BitVec.ofNat 7 m.bestLen) (BitVec.ofNat 16 m.bestOff))) ∧
      t.regs = { s.regs.withMatch m with
        ip := s.regs.ip + m.bestLen, outCount := s.regs.outCount + 3 } ∧ s.KeepsOutside t ∧ t.tabs = s.tabs) ∧
    (3 ≤ m.bestLen → ¬ s.room 3 → StepFails s .capacityExceeded) ∧
    (m.bestLen < 3 → s.room 2 → ∃ t, step s = .next t ∧ s.Appends t [0x80, s.inAt s.regs.ip] ∧
      t.regs = { s.regs.withMatch m with ip := s.regs.ip + 1, outCount := s.regs.outCount + 2 } ∧
      s.KeepsOutside t ∧ t.tabs = s.tabs) ∧
    (m.bestLen < 3 → ¬ s.room 2 → StepFails s .capacityExceeded)

/-- 44_lzss.md R181: a turn of the compressor's loop is greedy: the match that `FindMatch` finds goes into `FLAGS` and `DATA`,
if it is at least 3 bytes long, and else the literal; and the frame is the header, `FLAGS` and `DATA`. One turn a step is the
model's choice (log 7). -/
def Obligations.LzssCompressorIsGreedy : Prop :=
  (∀ s : State, s.JustStarted → s.cmd = 0x14 → s.inputFits → s.inLen ≠ 0 → tick s = s.goTo .lzssC) ∧
  ∀ s : State, s.host = [] → s.status = .busy → s.phase = .lzssC →
    let m := findMatch s s.regs.ip 4096 18
    let v := (m.bestOff - 1) * 16 + (m.bestLen - 3)
    let bit := fun (flags : Bytes) (j : Nat) => (flags.getD (j / 8) 0).getLsbD (j % 8)
    let fc := s.tabs.flags.length
    (s.regs.ip < s.regs.nIn → fc = (s.regs.tok + 7) / 8 → bit s.tabs.flags s.regs.tok = false →
      ∃ t, step s = .next t ∧ s.KeepsOut t ∧ s.KeepsOutside t ∧
        t.tabs.flags.length = (s.regs.tok + 1 + 7) / 8 ∧
        (∀ j, bit t.tabs.flags j = if j = s.regs.tok then decide (3 ≤ m.bestLen) else bit s.tabs.flags j) ∧
        t.tabs = { s.tabs with
          flags := t.tabs.flags
          data := s.tabs.data ++
            if 3 ≤ m.bestLen then [BitVec.ofNat 8 (v / 256), BitVec.ofNat 8 v] else [s.inAt s.regs.ip] } ∧
        t.regs = { s.regs.withMatch m with
          ip := s.regs.ip + (if 3 ≤ m.bestLen then m.bestLen else 1), tok := s.regs.tok + 1 }) ∧
    (s.regs.nIn ≤ s.regs.ip → 2 ^ 32 ≤ fc → StepFails s .capacityExceeded) ∧
    (s.regs.nIn ≤ s.regs.ip → fc < 2 ^ 32 → s.room (12 + fc + s.tabs.data.length) →
      ∃ t, step s = .next t ∧ t.phase = .finished ∧ t.status = .busy ∧ s.KeepsInputs t ∧ s.KeepsArgs t ∧
        s.Appends t (u64le s.regs.nIn ++ u32le fc ++ s.tabs.flags ++ s.tabs.data)) ∧
    (s.regs.nIn ≤ s.regs.ip → ¬ s.room (12 + fc + s.tabs.data.length) → StepFails s .capacityExceeded)

/-- 44_lzss.md R185: the header tests of DECOMPRESS.LZSS, in their order; the test after its loop; and a success gives as many
bytes as the frame records. -/
def Obligations.LzssDecompressTestsItsFrame : Prop :=
  (∀ (s : State) (n fc : Nat), s.inputFits → 1 ≤ s.inLen.toNat → n = valueLE (s.inputBytes.take 8) →
    fc = valueLE ((s.inputBytes.drop 8).take 4) →
    (s.inLen.toNat < 12 → Fails .decompressLzss s .corruptPayload) ∧
    (12 ≤ s.inLen.toNat → s.inLen.toNat < 12 + fc → Fails .decompressLzss s .corruptPayload) ∧
    (12 ≤ s.inLen.toNat → 12 + fc ≤ s.inLen.toNat → n = 0 → Gives .decompressLzss s []) ∧
    ∀ t, exec .decompressLzss s = .next t → t.status = .done → t.outLen.toNat = n) ∧
  ∀ s : State, s.host = [] → s.status = .busy → s.phase = .lzssD → s.regs.n ≤ s.regs.outCount →
    (s.regs.outCount ≠ s.regs.n → StepFails s .sizeMismatch) ∧
    (s.regs.outCount = s.regs.n → s.regs.ending = .plain → StepEnds s)

/-- 43_lz77.md R164 and 44_lzss.md R184: the literals. -/
def Obligations.LiteralsAppendTheirByte : Prop :=
  ∀ (b : Byte) (s : State),
    (s.room 1 →
      (∃ t, exec (.lz77Lit b) s = .next t ∧ s.Appends t [b] ∧ s.KeepsOutside t ∧ t.tabs = s.tabs ∧
        t.regs = { s.regs with ip := s.regs.ip + 2, outCount := s.regs.outCount + 1 }) ∧
      ∃ t, exec (.lzssLit b) s = .next t ∧ s.Appends t [b] ∧ s.KeepsOutside t ∧ t.tabs = s.tabs ∧
        t.regs = { s.regs with dp := s.regs.dp + 1, tok := s.regs.tok + 1, outCount := s.regs.outCount + 1 }) ∧
    (¬ s.room 1 →
      (∃ t, exec (.lz77Lit b) s = .next t ∧ t.Failed .capacityExceeded ∧ s.KeepsInputs t ∧ s.KeepsArgs t) ∧
      ∃ t, exec (.lzssLit b) s = .next t ∧ t.Failed .capacityExceeded ∧ s.KeepsInputs t ∧ s.KeepsArgs t)

/-- 43_lz77.md R166 with the test of R165: a match appends `len` bytes, each the byte `off` places before it, overlap
included; an offset of 0 or beyond the history is CorruptPayload. -/
def Obligations.Lz77MatchCopiesHistory : Prop :=
  ∀ (len : BitVec 7) (off : BitVec 16) (s : State),
    (1 ≤ off.toNat → off.toNat ≤ s.regs.outCount → s.room len.toNat →
      ∃ t bs, exec (.lz77Match len off) s = .next t ∧ bs.length = len.toNat ∧ s.Appends t bs ∧ s.KeepsOutside t ∧
        t.tabs = s.tabs ∧
        t.regs = { s.regs with
          len := len.toNat, off := off.toNat, ip := s.regs.ip + 3, outCount := s.regs.outCount + len.toNat } ∧
        ∀ k, k < len.toNat → t.outAt (s.regs.outCount + k) = t.outAt (s.regs.outCount + k - off.toNat)) ∧
    (1 ≤ off.toNat → off.toNat ≤ s.regs.outCount → ¬ s.room len.toNat →
      ∃ t, exec (.lz77Match len off) s = .next t ∧ t.Failed .capacityExceeded ∧ s.KeepsInputs t ∧ s.KeepsArgs t) ∧
    (off.toNat = 0 ∨ s.regs.outCount < off.toNat →
      ∃ t, exec (.lz77Match len off) s = .next t ∧ t.Failed .corruptPayload ∧ s.KeepsInputs t ∧ s.KeepsArgs t)

/-- 44_lzss.md R187 with the test of R185: the LZSS match. -/
def Obligations.LzssMatchCopiesHistory : Prop :=
  ∀ (o : BitVec 12) (l : BitVec 4) (s : State),
    (o.toNat < s.regs.outCount → s.room (l.toNat + 3) →
      ∃ t bs, exec (.lzssMatch o l) s = .next t ∧ bs.length = l.toNat + 3 ∧ s.Appends t bs ∧ s.KeepsOutside t ∧
        t.tabs = s.tabs ∧
        t.regs = { s.regs with
          len := l.toNat + 3, off := o.toNat + 1, dp := s.regs.dp + 2, tok := s.regs.tok + 1,
          outCount := s.regs.outCount + (l.toNat + 3) } ∧
        ∀ k, k < l.toNat + 3 → t.outAt (s.regs.outCount + k) = t.outAt (s.regs.outCount + k - (o.toNat + 1))) ∧
    (o.toNat < s.regs.outCount → ¬ s.room (l.toNat + 3) →
      ∃ t, exec (.lzssMatch o l) s = .next t ∧ t.Failed .capacityExceeded ∧ s.KeepsInputs t ∧ s.KeepsArgs t) ∧
    (s.regs.outCount ≤ o.toNat →
      ∃ t, exec (.lzssMatch o l) s = .next t ∧ t.Failed .corruptPayload ∧ s.KeepsInputs t ∧ s.KeepsArgs t)

/-- 43_lz77.md R167, 40_commands_contract.md R123 (d). -/
def Obligations.Lz77RoundTrip : Prop := RoundTrips .compressLz77 .decompressLz77 (2 ^ 56)

/-- 44_lzss.md R188, 40_commands_contract.md R123 (d). -/
def Obligations.LzssRoundTrip : Prop := RoundTrips .compressLzss .decompressLzss (2 ^ 34)

/-! ## LZW -/

/-- 45_lzw.md R204: the three known cases of CODE, what the dictionary learns, the truncation to `n`, and the unknown
codes. -/
def Obligations.LzwCodeAppendsItsString : Prop :=
  ∀ (c : BitVec 12) (s : State),
    (∀ x : Bytes,
      (s.regs.prevCode = none ∧ c.toNat < 256 ∧ x = s.dictAt c.toNat) ∨
      (∃ pc, s.regs.prevCode = some pc ∧ c.toNat < s.regs.nextCode ∧ x = s.dictAt c.toNat) ∨
      (∃ pc, s.regs.prevCode = some pc ∧ c.toNat = s.regs.nextCode ∧ s.regs.nextCode < 4096 ∧
        x = s.dictAt pc ++ (s.dictAt pc).take 1) →
      (¬ s.room (min x.length (s.regs.n - s.regs.outCount)) →
        ∃ t, exec (.lzwCode c) s = .next t ∧ t.Failed .capacityExceeded ∧ s.KeepsInputs t ∧ s.KeepsArgs t) ∧
      (s.room (min x.length (s.regs.n - s.regs.outCount)) →
      ∃ t, exec (.lzwCode c) s = .next t ∧ s.Appends t (x.take (s.regs.n - s.regs.outCount)) ∧ s.KeepsOutside t ∧
        t.regs = { s.regs with
          prevCode := some c.toNat, code := c.toNat, bp := s.regs.bp + 12, total := s.regs.total + x.length,
          outCount := s.regs.outCount + min x.length (s.regs.n - s.regs.outCount), nextCode := t.regs.nextCode } ∧
        (∀ pc, s.regs.prevCode = some pc → s.regs.nextCode < 4096 →
          t.regs.nextCode = s.regs.nextCode + 1 ∧
          t.tabs = { s.tabs with dict := s.tabs.dict ++ [s.dictAt pc ++ x.take 1] }) ∧
        (s.regs.prevCode = none ∨ 4096 ≤ s.regs.nextCode →
          t.regs.nextCode = s.regs.nextCode ∧ t.tabs = s.tabs))) ∧
    ((s.regs.prevCode = none ∧ 256 ≤ c.toNat) ∨
      (∃ pc, s.regs.prevCode = some pc ∧ s.regs.nextCode < c.toNat) →
      ∃ t, exec (.lzwCode c) s = .next t ∧ t.Failed .corruptPayload ∧ s.KeepsInputs t ∧ s.KeepsArgs t)

/-- 45_lzw.md R207, 40_commands_contract.md R123 (d), the frozen dictionary included. -/
def Obligations.LzwRoundTrip : Prop := RoundTrips .compressLzw .decompressLzw (2 ^ 56)

/-- 45_lzw.md R201 and R203: COMPRESS.LZW before its loop, a turn of its loop and what follows the loop: the prefix `c` grows
while the dictionary has the longer string; else its code goes out, 12 bits after the bits that wait, and the dictionary
learns the string unless it is full. One turn a step is the model's choice (log 7). -/
def Obligations.LzwCompressorPacksItsCodes : Prop :=
  (∀ s : State, s.JustStarted → s.cmd = 0x13 → s.inputFits → s.inLen ≠ 0 →
    (s.room 8 → s.Appends (tick s) (u64le s.inLen.toNat) ∧ s.KeepsInputs (tick s) ∧ s.KeepsArgs (tick s) ∧
      (tick s).phase = .lzwC ∧ (tick s).status = .busy ∧ (tick s).regs.acc = 0 ∧ (tick s).regs.nacc = 0 ∧
      (tick s).regs.w = some (s.inByteAt 0).toNat ∧ (tick s).regs.ip = 1 ∧ (tick s).regs.nextCode = 256 ∧
      (tick s).tabs.dict = (List.range 256).map fun c => [BitVec.ofNat 8 c]) ∧
    (¬ s.room 8 → (tick s).Failed .capacityExceeded)) ∧
  ∀ (s : State) (c : Nat), s.host = [] → s.status = .busy → s.phase = .lzwC → s.regs.w = some c → c < 4096 →
    s.regs.nacc = 0 ∨ s.regs.nacc = 4 → s.regs.acc < 2 ^ s.regs.nacc →
    let cur := s.inAt s.regs.ip
    let x := s.dictAt c ++ [cur]
    let bytes : Bytes :=
      if s.regs.nacc = 0 then [BitVec.ofNat 8 (c / 16)]
      else [BitVec.ofNat 8 (s.regs.acc * 16 + c / 256), BitVec.ofNat 8 (c % 256)]
    let last : Bytes := if s.regs.nacc = 0 then [BitVec.ofNat 8 (c % 16 * 16)] else []
    (s.regs.ip < s.regs.nIn → (∃ e : Nat, s.tabs.dict[e]? = some x) →
      ∃ (t : State) (e : Nat), step s = .next t ∧ s.tabs.dict[e]? = some x ∧ s.KeepsOut t ∧ s.KeepsOutside t ∧ t.tabs = s.tabs ∧
        t.regs = { s.regs with cur := cur, e := some e, w := some e, ip := s.regs.ip + 1 }) ∧
    (s.regs.ip < s.regs.nIn → (∀ e : Nat, s.tabs.dict[e]? ≠ some x) → s.room bytes.length →
      ∃ t, step s = .next t ∧ s.Appends t bytes ∧ s.KeepsOutside t ∧
        t.tabs = { s.tabs with dict := if s.regs.nextCode < 4096 then s.tabs.dict ++ [x] else s.tabs.dict } ∧
        t.regs = { s.regs with
          cur := cur, e := none, w := some cur.toNat, ip := s.regs.ip + 1, code := c
          outCount := s.regs.outCount + bytes.length
          acc := if s.regs.nacc = 0 then c % 16 else 0, nacc := if s.regs.nacc = 0 then 4 else 0
          nextCode := if s.regs.nextCode < 4096 then s.regs.nextCode + 1 else s.regs.nextCode }) ∧
    (s.regs.ip < s.regs.nIn → (∀ e : Nat, s.tabs.dict[e]? ≠ some x) → ¬ s.room bytes.length →
      StepFails s .capacityExceeded) ∧
    (s.regs.nIn ≤ s.regs.ip → s.room (bytes.length + last.length) →
      ∃ t, step s = .next t ∧ s.Appends t (bytes ++ last) ∧ t.phase = .finished ∧ t.status = .busy ∧
        s.KeepsInputs t ∧ s.KeepsArgs t) ∧
    (s.regs.nIn ≤ s.regs.ip → ¬ s.room (bytes.length + last.length) → StepFails s .capacityExceeded)

/-- 45_lzw.md R205: the header test of DECOMPRESS.LZW; a frame that holds no whole code; the test after the last whole code;
and a success gives as many bytes as the frame records. -/
def Obligations.LzwDecompressTestsItsFrame : Prop :=
  (∀ (s : State) (n : Nat), s.inputFits → 1 ≤ s.inLen.toNat → n = valueLE (s.inputBytes.take 8) →
    (s.inLen.toNat < 8 → Fails .decompressLzw s .corruptPayload) ∧
    (8 ≤ s.inLen.toNat → s.inLen.toNat < 10 → 0 < n → Fails .decompressLzw s .sizeMismatch) ∧
    (8 ≤ s.inLen.toNat → s.inLen.toNat < 10 → n = 0 → Gives .decompressLzw s []) ∧
    ∀ t, exec .decompressLzw s = .next t → t.status = .done → t.outLen.toNat = n) ∧
  ∀ s : State, s.host = [] → s.status = .busy → s.phase = .lzwD → 8 * (s.regs.nIn - 8) < s.regs.bp + 12 →
    (s.regs.total < s.regs.n → StepFails s .sizeMismatch) ∧
    (s.regs.n ≤ s.regs.total → s.regs.ending = .plain → StepEnds s)

/-! ## Huffman -/

/-- 46_huffman.md R236: the tag tokens: INT and LEAF make a new record, NULL none; each goes to the place that asked for
it, and INT asks for its left and then its right child. -/
def Obligations.HuffmanTagsBuildTheTree : Prop :=
  ∀ s : State, s.SlotReady →
    (∃ t, exec .hufInt s = .next t ∧ s.KeepsOutside t ∧ s.KeepsOut t ∧ s.Fills t (some s.tabs.tree.length) ∧
      t.tabs = { s.tabs with tree := t.tabs.tree } ∧ t.tabs.tree.length = s.tabs.tree.length + 1 ∧
      t.tabs.tree[s.tabs.tree.length]? = some (.internal none none) ∧
      t.regs = { s.regs with
        tp := s.regs.tp + 1, root := t.regs.root,
        slots := .left s.tabs.tree.length :: .right s.tabs.tree.length :: s.regs.slots.tail }) ∧
    (∀ sym, ∃ t, exec (.hufLeaf sym) s = .next t ∧ s.KeepsOutside t ∧ s.KeepsOut t ∧
      s.Fills t (some s.tabs.tree.length) ∧
      t.tabs = { s.tabs with tree := t.tabs.tree } ∧ t.tabs.tree.length = s.tabs.tree.length + 1 ∧
      t.tabs.tree[s.tabs.tree.length]? = some (.leaf sym) ∧
      t.regs = { s.regs with tp := s.regs.tp + 2, root := t.regs.root, slots := s.regs.slots.tail }) ∧
    ∃ t, exec .hufNull s = .next t ∧ s.KeepsOutside t ∧ s.KeepsOut t ∧ s.Fills t none ∧
      t.tabs = { s.tabs with tree := t.tabs.tree } ∧ t.tabs.tree.length = s.tabs.tree.length ∧
      t.regs = { s.regs with tp := s.regs.tp + 1, root := t.regs.root, slots := s.regs.slots.tail }

/-- 46_huffman.md R238: one step of the tree walk, in each of its cases. -/
def Obligations.HuffmanBitWalksTheTree : Prop :=
  ∀ (d : BitVec 1) (s : State),
    (∀ q l r, s.regs.node = some q → s.tabs.tree[q]? = some (.internal l r) →
      (∀ child sym, (if d = 0 then l else r) = some child → s.tabs.tree[child]? = some (.leaf sym) → ¬ s.room 1 →
        ∃ t, exec (.hufBit d) s = .next t ∧ t.Failed .capacityExceeded ∧ s.KeepsInputs t ∧ s.KeepsArgs t) ∧
      (∀ child sym, (if d = 0 then l else r) = some child → s.tabs.tree[child]? = some (.leaf sym) → s.room 1 →
        ∃ t, exec (.hufBit d) s = .next t ∧ s.Appends t [sym] ∧ s.KeepsOutside t ∧ t.tabs = s.tabs ∧
          t.regs = { s.regs with node := s.regs.root, bp := s.regs.bp + 1, outCount := s.regs.outCount + 1 }) ∧
      (∀ child l' r', (if d = 0 then l else r) = some child → s.tabs.tree[child]? = some (.internal l' r') →
        ∃ t, exec (.hufBit d) s = .next t ∧ s.KeepsOut t ∧ s.KeepsOutside t ∧ t.tabs = s.tabs ∧
          t.regs = { s.regs with node := some child, bp := s.regs.bp + 1 }) ∧
      ((if d = 0 then l else r) = none →
        ∃ t, exec (.hufBit d) s = .next t ∧ t.Failed .corruptPayload ∧ s.KeepsInputs t ∧ s.KeepsArgs t)) ∧
    (s.regs.node = none ∨ (∃ q sym, s.regs.node = some q ∧ s.tabs.tree[q]? = some (.leaf sym)) →
      ∃ t, exec (.hufBit d) s = .next t ∧ t.Failed .corruptPayload ∧ s.KeepsInputs t ∧ s.KeepsArgs t)

/-- 46_huffman.md R241, 40_commands_contract.md R123 (d). -/
def Obligations.HuffmanRoundTrip : Prop := RoundTrips .compressHuffman .decompressHuffman (2 ^ 56)

/-- 46_huffman.md R222 and R223: the tree of a frequency table: the leaves in byte order, the merges in the order of their
making; each merge takes the least and the next least of what is not yet merged, by weight and then by age (a leaf before an
internal node, a lower byte before a higher), the least to the left; one symbol gets the one-child root. -/
def Obligations.HuffmanMergesTheTwoLeast : Prop :=
  ∀ (freq : List Nat) (syms : List Nat), freq.length = 256 →
    syms = (List.range 256).filter (fun v => decide (0 < freq.getD v 0)) →
    let built := buildTree { Tables.fresh with freq := freq }
    let tree := built.1.tree
    let k := syms.length
    (∀ v, syms = [v] → tree = [.leaf (BitVec.ofNat 8 v), .internal (some 0) none] ∧ built.2.2 = some 1) ∧
    (2 ≤ k → tree.length = 2 * k - 1 ∧ built.2.2 = some (2 * k - 2) ∧
      (∀ q, q < k → tree[q]? = some (.leaf (BitVec.ofNat 8 (syms.getD q 0)))) ∧
      ∃ weight : Nat → Nat,
        let before := fun a b => weight a < weight b ∨ weight a = weight b ∧ a < b
        let free := fun (q i : Nat) => q < i ∧ ∀ j l r, j < i → tree[j]? = some (.internal (some l) (some r)) → q ≠ l ∧ q ≠ r
        (∀ q, q < k → weight q = freq.getD (syms.getD q 0) 0) ∧
        ∀ i, k ≤ i → i < 2 * k - 1 →
          ∃ l r, tree[i]? = some (.internal (some l) (some r)) ∧ weight i = weight l + weight r ∧
            free l i ∧ free r i ∧ before l r ∧ ∀ q, free q i → q ≠ l → q ≠ r → before r q)

/-- 46_huffman.md R221 and R224 to R226: the frame of COMPRESS.HUFFMAN: the length, the serialised tree of the byte counts,
the number of code bits, and the code bits of the input packed highest bit first with zeros after them; the code of a byte
is the path to its leaf. -/
def Obligations.HuffmanCompressWritesItsFrame : Prop :=
  ∀ (s : State) (freq : List Nat), s.inputFits → 1 ≤ s.inLen.toNat → s.inLen.toNat < 2 ^ 56 →
    freq = (List.range 256).map (fun v => s.inputBytes.count (BitVec.ofNat 8 v)) →
    let built := buildTree { Tables.fresh with freq := freq }
    let tree := built.1.tree
    let root := built.2.2
    let ser := serTree tree (tree.length + 1) root
    ∃ (code : Byte → List Bool) (payload : Bytes),
      let bits := s.inputBytes.flatMap code
      (∀ b ∈ s.inputBytes, code b ≠ [] ∧ ∃ q, walkTree tree root (code b) = some q ∧ tree[q]? = some (.leaf b)) ∧
      payload.length = (bits.length + 7) / 8 ∧
      bitsFrom payload 0 (8 * payload.length) = bits ++ List.replicate (8 * payload.length - bits.length) false ∧
      GivesWithinCap .compressHuffman s
        (u64le s.inLen.toNat ++ u32le ser.length ++ ser ++ u64le bits.length ++ payload)

/-- 46_huffman.md R235: the tests of DECOMPRESS.HUFFMAN, (1) to (3) over the whole frame, (5) and (6) where `Des` has ended,
(8) after the walk; and a success gives as many bytes as the frame records. -/
def Obligations.HuffmanDecompressTestsItsFrame : Prop :=
  (∀ (s : State) (n tl : Nat), s.inputFits → 1 ≤ s.inLen.toNat → n = valueLE (s.inputBytes.take 8) →
    tl = valueLE ((s.inputBytes.drop 8).take 4) →
    (s.inLen.toNat < 12 → Fails .decompressHuffman s .corruptPayload) ∧
    (12 ≤ s.inLen.toNat → 767 < tl → Fails .decompressHuffman s .corruptPayload) ∧
    (12 ≤ s.inLen.toNat → s.inLen.toNat < 12 + tl + 8 → Fails .decompressHuffman s .corruptPayload) ∧
    ∀ t, exec .decompressHuffman s = .next t → t.status = .done → t.outLen.toNat = n) ∧
  ∀ s : State, s.host = [] → s.status = .busy →
    (s.phase = .hufTree → s.regs.slots = [] →
      let tb := valueLE (s.inSlice (12 + s.regs.tl) 8)
      (s.regs.tp ≠ s.regs.tl → StepFails s .corruptPayload) ∧
      (s.regs.tp = s.regs.tl → s.regs.nIn - 20 - s.regs.tl < (tb + 7) / 8 → StepFails s .corruptPayload) ∧
      (s.regs.tp = s.regs.tl → (tb + 7) / 8 ≤ s.regs.nIn - 20 - s.regs.tl →
        ∃ t, step s = .next t ∧ t.phase = .hufBits ∧ t.status = .busy ∧ s.KeepsOut t ∧ s.KeepsInputs t ∧
          s.KeepsArgs t ∧ t.tabs = s.tabs ∧
          t.regs = { s.regs with tb := tb, node := s.regs.root, bp := 0, ip := t.regs.ip })) ∧
    (s.phase = .hufBits → s.regs.outCount < s.regs.n → s.regs.tb ≤ s.regs.bp → StepFails s .sizeMismatch) ∧
    (s.phase = .hufBits → s.regs.n ≤ s.regs.outCount → s.regs.ending = .plain → StepEnds s)

/-! ## BWT and MTF -/

/-- 47_bwt_mtf.md R268: IDX takes the byte at its rank, writes it into the chunk and moves it to the front; the index that
`MtfEncode` writes for a byte gives the byte back, and both leave the same list. -/
def Obligations.MtfIndexMovesToFront : Prop :=
  ∀ s : State, s.tabs.mtf.Perm Tables.mtfIdentity →
    (∀ i : Byte, ∃ t b, exec (.mtfIdx i) s = .next t ∧ s.tabs.mtf[i.toNat]? = some b ∧
      t.tabs.mtf[0]? = some b ∧
      (∀ q, 1 ≤ q → q ≤ i.toNat → t.tabs.mtf[q]? = s.tabs.mtf[q - 1]?) ∧
      (∀ q, i.toNat < q → t.tabs.mtf[q]? = s.tabs.mtf[q]?) ∧
      t.tabs = { s.tabs with mtf := t.tabs.mtf, chunk := s.tabs.chunk.take s.regs.k ++ [b] } ∧
      t.regs = { s.regs with rank := i, cur := b, k := s.regs.k + 1 } ∧ s.KeepsOut t ∧ s.KeepsOutside t) ∧
    ∀ b : Byte, ∃ i t, (mtfEncodeAll s.tabs.mtf [b]).1 = [i] ∧ exec (.mtfIdx i) s = .next t ∧ t.regs.cur = b ∧
      t.tabs.mtf = (mtfEncodeAll s.tabs.mtf [b]).2

/-- 47_bwt_mtf.md R263 and R264: `ROT` holds every rotation once, in order; the last column is a permutation of the chunk;
the primary index is the row of rotation 0. -/
def Obligations.ForwardTransformSortsRotations : Prop :=
  ∀ c : Bytes, c ≠ [] →
    (sortRotations c).Perm (List.range c.length) ∧
    (sortRotations c).Pairwise (fun i j => rotationBefore c i j = true) ∧
    (∀ k (h : k < (sortRotations c).length),
      (lastColumn c (sortRotations c)).getD k 0 = c.getD (((sortRotations c)[k] + c.length - 1) % c.length) 0) ∧
    (lastColumn c (sortRotations c)).Perm c ∧ (sortRotations c)[primaryIndex (sortRotations c)]? = some 0

/-- 47_bwt_mtf.md R273: `LF` is a permutation of the rows, whatever the column, so from every row the walk of R272 gives as
many bytes as the column has, each of them a byte of the column. -/
def Obligations.LfMappingIsAPermutation : Prop :=
  ∀ (col : Bytes) (lf : List Nat), lf = (lfMapping (startOffsets 0 (countBytes col)) (List.replicate 256 0) col).1 →
    lf.Perm (List.range col.length) ∧
    ∀ p, p < col.length →
      (lfWalk col lf col.length (p, [])).2.length = col.length ∧ ∀ b ∈ (lfWalk col lf col.length (p, [])).2, b ∈ col

/-- 47_bwt_mtf.md R274, 40_commands_contract.md R123 (d). -/
def Obligations.BwtRoundTrip : Prop := RoundTrips .compressBwt .decompressBwt (2 ^ 56)

/-- 47_bwt_mtf.md R261 and R262: the frame of COMPRESS.BWT: the length, and for each chunk of 100000 bytes (the last may be
shorter) its primary index, its size and the MTF indices of its last column, from a fresh list. -/
def Obligations.BwtCompressWritesItsChunks : Prop :=
  ∀ s : State, s.inputFits → 1 ≤ s.inLen.toNat → s.inLen.toNat < 2 ^ 56 →
    ∃ chunks : List Bytes, chunks.flatten = s.inputBytes ∧
      (∀ c ∈ chunks, c ≠ [] ∧ c.length ≤ 100000) ∧ (∀ c ∈ chunks.dropLast, c.length = 100000) ∧
      GivesWithinCap .compressBwt s
        (u64le s.inLen.toNat ++ chunks.flatMap fun c =>
          u64le (primaryIndex (sortRotations c)) ++ u64le c.length ++
            (mtfEncodeAll Tables.mtfIdentity (lastColumn c (sortRotations c))).1)

/-- 47_bwt_mtf.md R270 and R272: the tests of DECOMPRESS.BWT: the header's, a chunk's in their order, the one after the last
chunk; what a chunk's end emits; and a success gives as many bytes as the frame records. -/
def Obligations.BwtDecompressTestsItsFrame : Prop :=
  (∀ (s : State) (n : Nat), s.inputFits → 1 ≤ s.inLen.toNat → n = valueLE (s.inputBytes.take 8) →
    (s.inLen.toNat < 8 → Fails .decompressBwt s .corruptPayload) ∧
    (s.inLen.toNat = 8 → 0 < n → Fails .decompressBwt s .sizeMismatch) ∧
    (s.inLen.toNat = 8 → n = 0 → Gives .decompressBwt s []) ∧
    ∀ t, exec .decompressBwt s = .next t → t.status = .done → t.outLen.toNat = n) ∧
  ∀ s : State, s.host = [] → s.status = .busy →
    (s.phase = .bwtChunk → s.regs.ip < s.regs.nIn →
      let p := valueLE (s.inSlice s.regs.ip 8)
      let cs := valueLE (s.inSlice (s.regs.ip + 8) 8)
      (s.regs.nIn < s.regs.ip + 16 → StepFails s .corruptPayload) ∧
      (s.regs.ip + 16 ≤ s.regs.nIn →
        100000 < cs ∨ s.regs.nIn < s.regs.ip + 16 + cs ∨ cs ≤ p → StepFails s .corruptPayload) ∧
      (s.regs.ip + 16 + cs ≤ s.regs.nIn → cs ≤ 100000 → p < cs →
        ∃ t, step s = .next t ∧ t.phase = .bwtIdx ∧ t.status = .busy ∧ s.KeepsOut t ∧ s.KeepsInputs t ∧
          s.KeepsArgs t ∧ t.tabs = { s.tabs with mtf := Tables.mtfIdentity, chunk := [] } ∧
          t.regs = { s.regs with p := p, cs := cs, k := 0 })) ∧
    (s.phase = .bwtIdx → s.regs.cs ≤ s.regs.k → s.tabs.chunk.length = s.regs.cs → s.regs.p < s.regs.cs →
      let lf := (lfMapping (startOffsets 0 (countBytes s.tabs.chunk)) (List.replicate 256 0) s.tabs.chunk).1
      (s.room s.regs.cs →
        ∃ t, step s = .next t ∧ s.Appends t (lfWalk s.tabs.chunk lf s.regs.cs (s.regs.p, [])).2 ∧
          t.phase = .bwtChunk ∧ t.status = .busy ∧ t.regs.ip = s.regs.ip + 16 + s.regs.cs ∧ t.regs.n = s.regs.n ∧
          s.KeepsInputs t ∧ s.KeepsArgs t) ∧
      (¬ s.room s.regs.cs → StepFails s .capacityExceeded)) ∧
    (s.phase = .bwtChunk → s.regs.nIn ≤ s.regs.ip → s.regs.outCount ≠ s.regs.n → StepFails s .sizeMismatch) ∧
    (s.phase = .bwtChunk → s.regs.nIn ≤ s.regs.ip → s.regs.outCount = s.regs.n → s.regs.ending = .plain → StepEnds s)

/-! ## The container -/

/-- 48_container.md R291: PACK. -/
def Obligations.PackWritesTheHeader : Prop :=
  ∀ s : State, s.inputFits →
    (s.argAlg.toNat ≤ 6 → s.inLen.toNat < 2 ^ 63 →
      GivesWithinCap .pack s (s.params.magic :: s.argAlg :: (u64le s.argSize.toNat ++ s.inputBytes))) ∧
    (6 < s.argAlg.toNat → Fails .pack s .unknownAlgorithm)

/-- 48_container.md R292: UNPACK, its tests in order. -/
def Obligations.UnpackParsesTheHeader : Prop :=
  ∀ s : State, s.inputFits →
    (s.inLen.toNat < 10 → Fails .unpack s .malformedContainer) ∧
    (10 ≤ s.inLen.toNat → s.inByteAt 0 ≠ s.params.magic → Fails .unpack s .malformedContainer) ∧
    (10 ≤ s.inLen.toNat → s.inByteAt 0 = s.params.magic → 6 < (s.inByteAt 1).toNat →
      Fails .unpack s .unknownAlgorithm) ∧
    (10 ≤ s.inLen.toNat → s.inByteAt 0 = s.params.magic → (s.inByteAt 1).toNat ≤ 6 →
      (s.outHolds (s.inLen.toNat - 10) →
        ∃ t, exec .unpack s = .next t ∧ t.Result (s.inputBytes.drop 10) ∧ t.argAlg = s.inByteAt 1 ∧
          t.argSize.toNat = valueLE ((s.inputBytes.drop 2).take 8) ∧ s.KeepsInputs t) ∧
      (¬ s.outHolds (s.inLen.toNat - 10) → Fails .unpack s .capacityExceeded))

/-- 48_container.md R295: DECODE's three header tests in order; after them it is the decompressor its header names over the
payload, with the size test; a container without payload decodes to nothing when its size is 0. -/
def Obligations.DecodeRunsTheNamedDecompressor : Prop :=
  (∀ s : State, s.inputFits →
    (s.inLen.toNat < 10 → Fails .decode s .malformedContainer) ∧
    (10 ≤ s.inLen.toNat → s.inByteAt 0 ≠ s.params.magic → Fails .decode s .malformedContainer) ∧
    (10 ≤ s.inLen.toNat → s.inByteAt 0 = s.params.magic → 6 < (s.inByteAt 1).toNat →
      Fails .decode s .unknownAlgorithm)) ∧
  ∀ (s : State) (a : Alg) (size : Word64) (payload : Bytes), s.inputFits → s.inLen.toNat < 2 ^ 50 →
    s.inputBytes = s.params.magic :: BitVec.ofNat 8 (algId a) :: (u64le size.toNat ++ payload) →
    (payload = [] → size = 0 → ∃ t, exec .decode s = .next t ∧ t.Result [] ∧
      t.argAlg = BitVec.ofNat 8 (algId a) ∧ t.argSize = 0 ∧ s.KeepsInputs t) ∧
    ∀ u v : State, u.params = s.params → u.inputBytes = payload → exec (decompressOf a) u = .next v →
      (∀ y, v.Result y → y.length = size.toNat →
        ∃ t, exec .decode s = .next t ∧ t.Result y ∧ t.argAlg = BitVec.ofNat 8 (algId a) ∧ t.argSize = size ∧
          s.KeepsInputs t) ∧
      (∀ y, v.Result y → y.length ≠ size.toNat →
        ∃ t, exec .decode s = .next t ∧ t.Failed .sizeMismatch ∧ s.KeepsInputs t ∧ s.KeepsArgs t) ∧
      ∀ k, v.Failed k → ∃ t, exec .decode s = .next t ∧ t.Failed k ∧ s.KeepsInputs t ∧ s.KeepsArgs t

/-- 48_container.md R293 and R296: UNPACK gives back what PACK was given, and, for every algorithm, DECODE of what ENCODE
wrote gives the input back, with its algorithm and size in the `ARG` registers; with every `OUT_CAP` that holds the result. -/
def Obligations.ContainersRoundTrip : Prop :=
  (∀ s : State, s.argAlg.toNat ≤ 6 → s.inputFits → s.inLen.toNat < 2 ^ 63 →
    ∃ y, (∀ cap, (s.withOutCap cap).outHolds y.length → ∃ t, exec .pack (s.withOutCap cap) = .next t ∧ t.Result y) ∧
      ∀ u : State, u.outHolds s.inLen.toNat → u.params.magic = s.params.magic → u.inputFits → u.inputBytes = y →
        ∃ v, exec .unpack u = .next v ∧ v.Result s.inputBytes ∧ v.argAlg = s.argAlg ∧ v.argSize = s.argSize) ∧
  ∀ (s : State) (a : Alg), s.inputFits → s.inLen.toNat < 2 ^ 34 →
    ∃ y, (∀ cap, (s.withOutCap cap).outHolds y.length →
        ∃ t, exec (encodeOf a) (s.withOutCap cap) = .next t ∧ t.Result y) ∧
      ∀ u : State, u.outHolds s.inLen.toNat → u.params.magic = s.params.magic → u.inputFits → u.inputBytes = y →
        ∃ v, exec .decode u = .next v ∧ v.Result s.inputBytes ∧ v.argAlg = BitVec.ofNat 8 (algId a) ∧
          v.argSize = s.inLen

/-! ## Invariants -/

/-- The invariant of `Sys2Proof.Machine.State.Inv` (its clause on `phase` is about the model's own field, log 7) holds
after reset. -/
def Obligations.InvariantHoldsAtReset : Prop := State.reset.Inv

/-- Every step from every state that meets the invariant gives a state that meets it. -/
def Obligations.EveryStepKeepsTheInvariant : Prop := ∀ s t : State, s.Inv → step s = .next t → t.Inv

/-- 00_scope.md R9, 48_container.md R297: `MAGIC` and the capacities are fixed for the life of the engine. -/
def Obligations.ParametersNeverChange : Prop := ∀ s t : State, step s = .next t → t.params = s.params
end

