-- ==== Sys2Proof/Laws/State.lean ====
section
/-! SUPPORT. One lemma per field and named update of State, true by rfl, so that no later proof unfolds a record update. -/

namespace Sys2Proof.Machine

@[simp] theorem State.raise_params (s : State) (k : ErrKind) : (s.raise k).params = s.params := rfl
@[simp] theorem State.raise_cmd (s : State) (k : ErrKind) : (s.raise k).cmd = s.cmd := rfl
@[simp] theorem State.raise_status (s : State) (k : ErrKind) : (s.raise k).status = .error := rfl
@[simp] theorem State.raise_err (s : State) (k : ErrKind) : (s.raise k).err = errCode k := rfl
@[simp] theorem State.raise_inLen (s : State) (k : ErrKind) : (s.raise k).inLen = s.inLen := rfl
@[simp] theorem State.raise_outLen (s : State) (k : ErrKind) : (s.raise k).outLen = 0 := rfl
@[simp] theorem State.raise_argAlg (s : State) (k : ErrKind) : (s.raise k).argAlg = s.argAlg := rfl
@[simp] theorem State.raise_argSize (s : State) (k : ErrKind) : (s.raise k).argSize = s.argSize := rfl
@[simp] theorem State.raise_inMem (s : State) (k : ErrKind) : (s.raise k).inMem = s.inMem := rfl
@[simp] theorem State.raise_outMem (s : State) (k : ErrKind) : (s.raise k).outMem = [] := rfl
@[simp] theorem State.raise_regs (s : State) (k : ErrKind) : (s.raise k).regs = s.regs := rfl
@[simp] theorem State.raise_tabs (s : State) (k : ErrKind) : (s.raise k).tabs = s.tabs := rfl
@[simp] theorem State.raise_phase (s : State) (k : ErrKind) : (s.raise k).phase = .off := rfl
@[simp] theorem State.raise_host (s : State) (k : ErrKind) : (s.raise k).host = s.host := rfl
@[simp] theorem State.raise_rdata (s : State) (k : ErrKind) : (s.raise k).rdata = s.rdata := rfl
@[simp] theorem State.raise_epoch (s : State) (k : ErrKind) : (s.raise k).epoch = s.epoch := rfl
@[simp] theorem State.raise_draws (s : State) (k : ErrKind) : (s.raise k).draws = s.draws := rfl

@[simp] theorem State.put_params (s : State) (b : Byte) : (s.put b).params = s.params := rfl
@[simp] theorem State.put_cmd (s : State) (b : Byte) : (s.put b).cmd = s.cmd := rfl
@[simp] theorem State.put_status (s : State) (b : Byte) : (s.put b).status = s.status := rfl
@[simp] theorem State.put_err (s : State) (b : Byte) : (s.put b).err = s.err := rfl
@[simp] theorem State.put_inLen (s : State) (b : Byte) : (s.put b).inLen = s.inLen := rfl
@[simp] theorem State.put_outLen (s : State) (b : Byte) : (s.put b).outLen = s.outLen := rfl
@[simp] theorem State.put_argAlg (s : State) (b : Byte) : (s.put b).argAlg = s.argAlg := rfl
@[simp] theorem State.put_argSize (s : State) (b : Byte) : (s.put b).argSize = s.argSize := rfl
@[simp] theorem State.put_inMem (s : State) (b : Byte) : (s.put b).inMem = s.inMem := rfl
@[simp] theorem State.put_outMem (s : State) (b : Byte) : (s.put b).outMem = s.outMem.write (s.regs.outBase + s.regs.outCount) b := rfl
@[simp] theorem State.put_regs (s : State) (b : Byte) : (s.put b).regs = { s.regs with outCount := s.regs.outCount + 1 } := rfl
@[simp] theorem State.put_tabs (s : State) (b : Byte) : (s.put b).tabs = s.tabs := rfl
@[simp] theorem State.put_phase (s : State) (b : Byte) : (s.put b).phase = s.phase := rfl
@[simp] theorem State.put_host (s : State) (b : Byte) : (s.put b).host = s.host := rfl
@[simp] theorem State.put_rdata (s : State) (b : Byte) : (s.put b).rdata = s.rdata := rfl
@[simp] theorem State.put_epoch (s : State) (b : Byte) : (s.put b).epoch = s.epoch := rfl
@[simp] theorem State.put_draws (s : State) (b : Byte) : (s.put b).draws = s.draws := rfl

@[simp] theorem State.start_params (s : State) : s.start.params = s.params := rfl
@[simp] theorem State.start_cmd (s : State) : s.start.cmd = s.cmd := rfl
@[simp] theorem State.start_status (s : State) : s.start.status = .busy := rfl
@[simp] theorem State.start_err (s : State) : s.start.err = 0 := rfl
@[simp] theorem State.start_inLen (s : State) : s.start.inLen = s.inLen := rfl
@[simp] theorem State.start_outLen (s : State) : s.start.outLen = 0 := rfl
@[simp] theorem State.start_argAlg (s : State) : s.start.argAlg = s.argAlg := rfl
@[simp] theorem State.start_argSize (s : State) : s.start.argSize = s.argSize := rfl
@[simp] theorem State.start_inMem (s : State) : s.start.inMem = s.inMem := rfl
@[simp] theorem State.start_outMem (s : State) : s.start.outMem = [] := rfl
@[simp] theorem State.start_regs (s : State) : s.start.regs = { Regs.fresh with nIn := s.inLen.toNat, aAlg := s.argAlg, aSize := s.argSize } := rfl
@[simp] theorem State.start_tabs (s : State) : s.start.tabs = Tables.fresh := rfl
@[simp] theorem State.start_phase (s : State) : s.start.phase = .command := rfl
@[simp] theorem State.start_host (s : State) : s.start.host = s.host := rfl
@[simp] theorem State.start_rdata (s : State) : s.start.rdata = s.rdata := rfl
@[simp] theorem State.start_epoch (s : State) : s.start.epoch = s.epoch := rfl
@[simp] theorem State.start_draws (s : State) : s.start.draws = s.draws := rfl

@[simp] theorem State.goTo_params (s : State) (ph : Phase) : (s.goTo ph).params = s.params := rfl
@[simp] theorem State.goTo_cmd (s : State) (ph : Phase) : (s.goTo ph).cmd = s.cmd := rfl
@[simp] theorem State.goTo_status (s : State) (ph : Phase) : (s.goTo ph).status = s.status := rfl
@[simp] theorem State.goTo_err (s : State) (ph : Phase) : (s.goTo ph).err = s.err := rfl
@[simp] theorem State.goTo_inLen (s : State) (ph : Phase) : (s.goTo ph).inLen = s.inLen := rfl
@[simp] theorem State.goTo_outLen (s : State) (ph : Phase) : (s.goTo ph).outLen = s.outLen := rfl
@[simp] theorem State.goTo_argAlg (s : State) (ph : Phase) : (s.goTo ph).argAlg = s.argAlg := rfl
@[simp] theorem State.goTo_argSize (s : State) (ph : Phase) : (s.goTo ph).argSize = s.argSize := rfl
@[simp] theorem State.goTo_inMem (s : State) (ph : Phase) : (s.goTo ph).inMem = s.inMem := rfl
@[simp] theorem State.goTo_outMem (s : State) (ph : Phase) : (s.goTo ph).outMem = s.outMem := rfl
@[simp] theorem State.goTo_regs (s : State) (ph : Phase) : (s.goTo ph).regs = s.regs := rfl
@[simp] theorem State.goTo_tabs (s : State) (ph : Phase) : (s.goTo ph).tabs = s.tabs := rfl
@[simp] theorem State.goTo_phase (s : State) (ph : Phase) : (s.goTo ph).phase = ph := rfl
@[simp] theorem State.goTo_host (s : State) (ph : Phase) : (s.goTo ph).host = s.host := rfl
@[simp] theorem State.goTo_rdata (s : State) (ph : Phase) : (s.goTo ph).rdata = s.rdata := rfl
@[simp] theorem State.goTo_epoch (s : State) (ph : Phase) : (s.goTo ph).epoch = s.epoch := rfl
@[simp] theorem State.goTo_draws (s : State) (ph : Phase) : (s.goTo ph).draws = s.draws := rfl

@[simp] theorem State.finish_params (s : State) : s.finish.params = s.params := rfl
@[simp] theorem State.finish_cmd (s : State) : s.finish.cmd = s.cmd := rfl
@[simp] theorem State.finish_status (s : State) : s.finish.status = .done := rfl
@[simp] theorem State.finish_err (s : State) : s.finish.err = s.err := rfl
@[simp] theorem State.finish_inLen (s : State) : s.finish.inLen = s.inLen := rfl
@[simp] theorem State.finish_outLen (s : State) : s.finish.outLen = BitVec.ofNat 64 (s.regs.outBase + s.regs.outCount) := rfl
@[simp] theorem State.finish_argAlg (s : State) : s.finish.argAlg = s.argAlg := rfl
@[simp] theorem State.finish_argSize (s : State) : s.finish.argSize = s.argSize := rfl
@[simp] theorem State.finish_inMem (s : State) : s.finish.inMem = s.inMem := rfl
@[simp] theorem State.finish_outMem (s : State) : s.finish.outMem = s.outMem := rfl
@[simp] theorem State.finish_regs (s : State) : s.finish.regs = s.regs := rfl
@[simp] theorem State.finish_tabs (s : State) : s.finish.tabs = s.tabs := rfl
@[simp] theorem State.finish_phase (s : State) : s.finish.phase = .off := rfl
@[simp] theorem State.finish_host (s : State) : s.finish.host = s.host := rfl
@[simp] theorem State.finish_rdata (s : State) : s.finish.rdata = s.rdata := rfl
@[simp] theorem State.finish_epoch (s : State) : s.finish.epoch = s.epoch := rfl
@[simp] theorem State.finish_draws (s : State) : s.finish.draws = s.draws := rfl

@[simp] theorem State.finishArgs_params (s : State) : s.finishArgs.params = s.params := rfl
@[simp] theorem State.finishArgs_cmd (s : State) : s.finishArgs.cmd = s.cmd := rfl
@[simp] theorem State.finishArgs_status (s : State) : s.finishArgs.status = .done := rfl
@[simp] theorem State.finishArgs_err (s : State) : s.finishArgs.err = s.err := rfl
@[simp] theorem State.finishArgs_inLen (s : State) : s.finishArgs.inLen = s.inLen := rfl
@[simp] theorem State.finishArgs_outLen (s : State) : s.finishArgs.outLen = BitVec.ofNat 64 (s.regs.outBase + s.regs.outCount) := rfl
@[simp] theorem State.finishArgs_argAlg (s : State) : s.finishArgs.argAlg = s.regs.aAlg := rfl
@[simp] theorem State.finishArgs_argSize (s : State) : s.finishArgs.argSize = s.regs.aSize := rfl
@[simp] theorem State.finishArgs_inMem (s : State) : s.finishArgs.inMem = s.inMem := rfl
@[simp] theorem State.finishArgs_outMem (s : State) : s.finishArgs.outMem = s.outMem := rfl
@[simp] theorem State.finishArgs_regs (s : State) : s.finishArgs.regs = s.regs := rfl
@[simp] theorem State.finishArgs_tabs (s : State) : s.finishArgs.tabs = s.tabs := rfl
@[simp] theorem State.finishArgs_phase (s : State) : s.finishArgs.phase = .off := rfl
@[simp] theorem State.finishArgs_host (s : State) : s.finishArgs.host = s.host := rfl
@[simp] theorem State.finishArgs_rdata (s : State) : s.finishArgs.rdata = s.rdata := rfl
@[simp] theorem State.finishArgs_epoch (s : State) : s.finishArgs.epoch = s.epoch := rfl
@[simp] theorem State.finishArgs_draws (s : State) : s.finishArgs.draws = s.draws := rfl

@[simp] theorem State.clear_params (s : State) : s.clear.params = s.params := rfl
@[simp] theorem State.clear_cmd (s : State) : s.clear.cmd = s.cmd := rfl
@[simp] theorem State.clear_status (s : State) : s.clear.status = .idle := rfl
@[simp] theorem State.clear_err (s : State) : s.clear.err = 0 := rfl
@[simp] theorem State.clear_inLen (s : State) : s.clear.inLen = s.inLen := rfl
@[simp] theorem State.clear_outLen (s : State) : s.clear.outLen = 0 := rfl
@[simp] theorem State.clear_argAlg (s : State) : s.clear.argAlg = s.argAlg := rfl
@[simp] theorem State.clear_argSize (s : State) : s.clear.argSize = s.argSize := rfl
@[simp] theorem State.clear_inMem (s : State) : s.clear.inMem = s.inMem := rfl
@[simp] theorem State.clear_outMem (s : State) : s.clear.outMem = [] := rfl
@[simp] theorem State.clear_regs (s : State) : s.clear.regs = s.regs := rfl
@[simp] theorem State.clear_tabs (s : State) : s.clear.tabs = s.tabs := rfl
@[simp] theorem State.clear_phase (s : State) : s.clear.phase = .off := rfl
@[simp] theorem State.clear_host (s : State) : s.clear.host = s.host := rfl
@[simp] theorem State.clear_rdata (s : State) : s.clear.rdata = s.rdata := rfl
@[simp] theorem State.clear_epoch (s : State) : s.clear.epoch = s.epoch := rfl
@[simp] theorem State.clear_draws (s : State) : s.clear.draws = s.draws := rfl

@[simp] theorem State.mtfInit_params (s : State) : s.mtfInit.params = s.params := rfl
@[simp] theorem State.mtfInit_cmd (s : State) : s.mtfInit.cmd = s.cmd := rfl
@[simp] theorem State.mtfInit_status (s : State) : s.mtfInit.status = s.status := rfl
@[simp] theorem State.mtfInit_err (s : State) : s.mtfInit.err = s.err := rfl
@[simp] theorem State.mtfInit_inLen (s : State) : s.mtfInit.inLen = s.inLen := rfl
@[simp] theorem State.mtfInit_outLen (s : State) : s.mtfInit.outLen = s.outLen := rfl
@[simp] theorem State.mtfInit_argAlg (s : State) : s.mtfInit.argAlg = s.argAlg := rfl
@[simp] theorem State.mtfInit_argSize (s : State) : s.mtfInit.argSize = s.argSize := rfl
@[simp] theorem State.mtfInit_inMem (s : State) : s.mtfInit.inMem = s.inMem := rfl
@[simp] theorem State.mtfInit_outMem (s : State) : s.mtfInit.outMem = s.outMem := rfl
@[simp] theorem State.mtfInit_regs (s : State) : s.mtfInit.regs = s.regs := rfl
@[simp] theorem State.mtfInit_tabs (s : State) : s.mtfInit.tabs = { s.tabs with mtf := Tables.mtfIdentity } := rfl
@[simp] theorem State.mtfInit_phase (s : State) : s.mtfInit.phase = s.phase := rfl
@[simp] theorem State.mtfInit_host (s : State) : s.mtfInit.host = s.host := rfl
@[simp] theorem State.mtfInit_rdata (s : State) : s.mtfInit.rdata = s.rdata := rfl
@[simp] theorem State.mtfInit_epoch (s : State) : s.mtfInit.epoch = s.epoch := rfl
@[simp] theorem State.mtfInit_draws (s : State) : s.mtfInit.draws = s.draws := rfl

@[simp] theorem State.inverseBwt_params (s : State) : s.inverseBwt.params = s.params := rfl
@[simp] theorem State.inverseBwt_cmd (s : State) : s.inverseBwt.cmd = s.cmd := rfl
@[simp] theorem State.inverseBwt_status (s : State) : s.inverseBwt.status = s.status := rfl
@[simp] theorem State.inverseBwt_err (s : State) : s.inverseBwt.err = s.err := rfl
@[simp] theorem State.inverseBwt_inLen (s : State) : s.inverseBwt.inLen = s.inLen := rfl
@[simp] theorem State.inverseBwt_outLen (s : State) : s.inverseBwt.outLen = s.outLen := rfl
@[simp] theorem State.inverseBwt_argAlg (s : State) : s.inverseBwt.argAlg = s.argAlg := rfl
@[simp] theorem State.inverseBwt_argSize (s : State) : s.inverseBwt.argSize = s.argSize := rfl
@[simp] theorem State.inverseBwt_inMem (s : State) : s.inverseBwt.inMem = s.inMem := rfl
@[simp] theorem State.inverseBwt_outMem (s : State) : s.inverseBwt.outMem = s.outMem := rfl
@[simp] theorem State.inverseBwt_phase (s : State) : s.inverseBwt.phase = s.phase := rfl
@[simp] theorem State.inverseBwt_host (s : State) : s.inverseBwt.host = s.host := rfl
@[simp] theorem State.inverseBwt_rdata (s : State) : s.inverseBwt.rdata = s.rdata := rfl
@[simp] theorem State.inverseBwt_epoch (s : State) : s.inverseBwt.epoch = s.epoch := rfl
@[simp] theorem State.inverseBwt_draws (s : State) : s.inverseBwt.draws = s.draws := rfl

@[simp] theorem hostReset_params (s : State) : (hostReset s).params = s.params := rfl
@[simp] theorem hostReset_cmd (s : State) : (hostReset s).cmd = 0 := rfl
@[simp] theorem hostReset_status (s : State) : (hostReset s).status = .idle := rfl
@[simp] theorem hostReset_err (s : State) : (hostReset s).err = 0 := rfl
@[simp] theorem hostReset_inLen (s : State) : (hostReset s).inLen = 0 := rfl
@[simp] theorem hostReset_outLen (s : State) : (hostReset s).outLen = 0 := rfl
@[simp] theorem hostReset_argAlg (s : State) : (hostReset s).argAlg = 0 := rfl
@[simp] theorem hostReset_argSize (s : State) : (hostReset s).argSize = 0 := rfl
@[simp] theorem hostReset_inMem (s : State) : (hostReset s).inMem = [] := rfl
@[simp] theorem hostReset_outMem (s : State) : (hostReset s).outMem = [] := rfl
@[simp] theorem hostReset_regs (s : State) : (hostReset s).regs = Regs.fresh := rfl
@[simp] theorem hostReset_tabs (s : State) : (hostReset s).tabs = Tables.fresh := rfl
@[simp] theorem hostReset_phase (s : State) : (hostReset s).phase = .off := rfl
@[simp] theorem hostReset_host (s : State) : (hostReset s).host = s.host := rfl
@[simp] theorem hostReset_rdata (s : State) : (hostReset s).rdata = s.rdata := rfl
@[simp] theorem hostReset_epoch (s : State) : (hostReset s).epoch = s.epoch + 1 := rfl
@[simp] theorem hostReset_draws (s : State) : (hostReset s).draws = s.draws := rfl

@[simp] theorem State.withOutCap_params (s : State) (cap : Option Nat) : (s.withOutCap cap).params = { s.params with outCap := cap } := rfl
@[simp] theorem State.withOutCap_cmd (s : State) (cap : Option Nat) : (s.withOutCap cap).cmd = s.cmd := rfl
@[simp] theorem State.withOutCap_status (s : State) (cap : Option Nat) : (s.withOutCap cap).status = s.status := rfl
@[simp] theorem State.withOutCap_err (s : State) (cap : Option Nat) : (s.withOutCap cap).err = s.err := rfl
@[simp] theorem State.withOutCap_inLen (s : State) (cap : Option Nat) : (s.withOutCap cap).inLen = s.inLen := rfl
@[simp] theorem State.withOutCap_outLen (s : State) (cap : Option Nat) : (s.withOutCap cap).outLen = s.outLen := rfl
@[simp] theorem State.withOutCap_argAlg (s : State) (cap : Option Nat) : (s.withOutCap cap).argAlg = s.argAlg := rfl
@[simp] theorem State.withOutCap_argSize (s : State) (cap : Option Nat) : (s.withOutCap cap).argSize = s.argSize := rfl
@[simp] theorem State.withOutCap_inMem (s : State) (cap : Option Nat) : (s.withOutCap cap).inMem = s.inMem := rfl
@[simp] theorem State.withOutCap_outMem (s : State) (cap : Option Nat) : (s.withOutCap cap).outMem = s.outMem := rfl
@[simp] theorem State.withOutCap_regs (s : State) (cap : Option Nat) : (s.withOutCap cap).regs = s.regs := rfl
@[simp] theorem State.withOutCap_tabs (s : State) (cap : Option Nat) : (s.withOutCap cap).tabs = s.tabs := rfl
@[simp] theorem State.withOutCap_phase (s : State) (cap : Option Nat) : (s.withOutCap cap).phase = s.phase := rfl
@[simp] theorem State.withOutCap_host (s : State) (cap : Option Nat) : (s.withOutCap cap).host = s.host := rfl
@[simp] theorem State.withOutCap_rdata (s : State) (cap : Option Nat) : (s.withOutCap cap).rdata = s.rdata := rfl
@[simp] theorem State.withOutCap_epoch (s : State) (cap : Option Nat) : (s.withOutCap cap).epoch = s.epoch := rfl
@[simp] theorem State.withOutCap_draws (s : State) (cap : Option Nat) : (s.withOutCap cap).draws = s.draws := rfl
@[simp] theorem State.withOutCap_inputFits (s : State) (cap : Option Nat) : (s.withOutCap cap).inputFits ↔ s.inputFits := .rfl
@[simp] theorem State.withOutCap_inputBytes (s : State) (cap : Option Nat) : (s.withOutCap cap).inputBytes = s.inputBytes := rfl
@[simp] theorem State.withOutCap_none_outHolds (s : State) (len : Nat) : (s.withOutCap none).outHolds len :=
  fun _ h => nomatch h
@[simp] theorem State.withOutCap_some_outHolds (s : State) (c len : Nat) : (s.withOutCap (some c)).outHolds len ↔ len ≤ c := by
  simp [State.outHolds]

/-- At the start of an operation, `OUT` holds what there is room for. -/
theorem State.room_iff_outHolds (s : State) (len : Nat) (hb : s.regs.outBase = 0) (hc : s.regs.outCount = 0) :
    s.room len ↔ s.outHolds len := by
  simp only [State.room, State.outHolds, hb, hc, Nat.zero_add, or_iff_right_iff_imp]
  rintro rfl _ _
  exact Nat.zero_le _

@[simp] theorem State.settle_ok (s t : State) : s.settle (.ok t) = t := rfl
@[simp] theorem State.settle_error (s : State) (k : ErrKind) : s.settle (.error k) = s.raise k := rfl

@[simp] theorem Regs.withMatch_ip (r : Regs) (m : Match) : (r.withMatch m).ip = r.ip := rfl
@[simp] theorem Regs.withMatch_outCount (r : Regs) (m : Match) : (r.withMatch m).outCount = r.outCount := rfl
@[simp] theorem Regs.withMatch_nIn (r : Regs) (m : Match) : (r.withMatch m).nIn = r.nIn := rfl
@[simp] theorem Regs.withMatch_n (r : Regs) (m : Match) : (r.withMatch m).n = r.n := rfl
@[simp] theorem Regs.withMatch_tok (r : Regs) (m : Match) : (r.withMatch m).tok = r.tok := rfl
@[simp] theorem Regs.withMatch_fc (r : Regs) (m : Match) : (r.withMatch m).fc = r.fc := rfl
@[simp] theorem Regs.withMatch_dp (r : Regs) (m : Match) : (r.withMatch m).dp = r.dp := rfl
@[simp] theorem Regs.withMatch_w (r : Regs) (m : Match) : (r.withMatch m).w = r.w := rfl
@[simp] theorem Regs.withMatch_nextCode (r : Regs) (m : Match) : (r.withMatch m).nextCode = r.nextCode := rfl
@[simp] theorem Regs.withMatch_bestLen (r : Regs) (m : Match) : (r.withMatch m).bestLen = m.bestLen := rfl
@[simp] theorem Regs.withMatch_bestOff (r : Regs) (m : Match) : (r.withMatch m).bestOff = m.bestOff := rfl
@[simp] theorem Regs.withMatch_j (r : Regs) (m : Match) : (r.withMatch m).j = m.j := rfl
@[simp] theorem Regs.withMatch_len (r : Regs) (m : Match) : (r.withMatch m).len = m.len := rfl
@[simp] theorem Regs.withMatch_ending (r : Regs) (m : Match) : (r.withMatch m).ending = r.ending := rfl
@[simp] theorem Regs.withMatch_inBase (r : Regs) (m : Match) : (r.withMatch m).inBase = r.inBase := rfl
@[simp] theorem Regs.withMatch_outBase (r : Regs) (m : Match) : (r.withMatch m).outBase = r.outBase := rfl
@[simp] theorem Regs.withMatch_slots (r : Regs) (m : Match) : (r.withMatch m).slots = r.slots := rfl
@[simp] theorem Regs.withMatch_aAlg (r : Regs) (m : Match) : (r.withMatch m).aAlg = r.aAlg := rfl
@[simp] theorem Regs.withMatch_aSize (r : Regs) (m : Match) : (r.withMatch m).aSize = r.aSize := rfl

end Sys2Proof.Machine
end

