-- ==== Sys2Proof/Laws/Ops.lean ====
section
/-! SUPPORT. What each shared operation can do, said once. -/

namespace Sys2Proof.Machine

/-! ## Emit -/

/-- The state after bytes of output for which there is room. -/
def State.putAll (s : State) (bs : Bytes) : State :=
  { s with
    outMem := s.outMem.writeAll (s.regs.outBase + s.regs.outCount) bs
    regs := { s.regs with outCount := s.regs.outCount + bs.length } }

theorem State.putAll_nil (s : State) : s.putAll [] = s := rfl

theorem State.putAll_cons (s : State) (b : Byte) (bs : Bytes) : s.putAll (b :: bs) = (s.put b).putAll bs := by
  simp [State.putAll, State.put, Memory.writeAll, Nat.add_assoc, Nat.add_comm 1]

theorem beyond_false {cap : Option Nat} {a : Nat} : beyond cap a = false ↔ ∀ c, cap = some c → a < c := by
  cases cap <;> simp [beyond]

/-- `Emit` answers the next state exactly where there is room. -/
theorem State.emit_ok {s t : State} {b : Byte} : s.emit b = .ok t ↔ s.room 1 ∧ t = s.put b := by
  by_cases h : beyond s.params.outCap (s.regs.outBase + s.regs.outCount)
  · have : ¬ s.room 1 := fun hr => by
      have hb : beyond s.params.outCap (s.regs.outBase + s.regs.outCount) = false :=
        beyond_false.2 fun c hc => by
          have := (hr.resolve_left one_ne_zero) c hc
          omega
      simp [hb] at h
    simp [State.emit, h, this]
  · have hr : s.room 1 := .inr fun c hc => by
      have := beyond_false.1 (Bool.eq_false_iff.2 h) c hc
      omega
    simp [State.emit, h, hr, eq_comm]

/-- `Emit` raises nothing but `CapacityExceeded`. -/
theorem State.emit_error {s : State} {b : Byte} {k : ErrKind} (h : s.emit b = .error k) : k = .capacityExceeded := by
  unfold State.emit at h
  split at h
  · exact (Except.error.inj h).symm
  · cases h

theorem State.emit_of_room {s : State} (h : s.room 1) (b : Byte) : s.emit b = .ok (s.put b) :=
  State.emit_ok.2 ⟨h, rfl⟩

/-- `EmitSeq` succeeds where there is room, and appends its bytes. -/
theorem State.emitSeq_of_room {s : State} {bs : Bytes} (h : s.room bs.length) : s.emitSeq bs = .ok (s.putAll bs) := by
  induction bs generalizing s with
  | nil => rfl
  | cons b bs ih =>
    have hc : ∀ c, s.params.outCap = some c → s.regs.outBase + s.regs.outCount + (bs.length + 1) ≤ c :=
      h.resolve_left (by simp)
    have h1 : s.room 1 := .inr fun c hs => by have := hc c hs; omega
    have h2 : (s.put b).room bs.length := .inr fun c hs => by
      have := hc c hs
      simp only [State.put_regs] at *
      omega
    simp only [State.emitSeq, State.emit_of_room h1]
    exact (ih h2).trans (by rw [State.putAll_cons])

/-- `EmitSeq` answers a state only by appending its bytes. -/
theorem State.emitSeq_ok {s t : State} {bs : Bytes} (h : s.emitSeq bs = .ok t) :
    s.room bs.length ∧ t = s.putAll bs := by
  induction bs generalizing s with
  | nil => exact ⟨.inl rfl, (Except.ok.inj h).symm⟩
  | cons b bs ih =>
    simp only [State.emitSeq] at h
    cases he : s.emit b with
    | error k => rw [he] at h; cases h
    | ok u =>
      rw [he] at h
      obtain ⟨hr, hu⟩ := State.emit_ok.1 he
      subst hu
      obtain ⟨hr', ht⟩ := ih h
      refine ⟨.inr fun c hs => ?_, ht.trans (State.putAll_cons s b bs).symm⟩
      have h1 := (hr.resolve_left one_ne_zero) c hs
      rcases hr' with h0 | h2
      · simp only [List.length_cons]; omega
      · have := h2 c hs
        simp only [State.put_regs, List.length_cons] at *
        omega

/-- `EmitSeq` raises nothing but `CapacityExceeded`. -/
theorem State.emitSeq_error {s : State} {bs : Bytes} {k : ErrKind} (h : s.emitSeq bs = .error k) :
    k = .capacityExceeded := by
  induction bs generalizing s with
  | nil => cases h
  | cons b bs ih =>
    simp only [State.emitSeq] at h
    cases he : s.emit b with
    | error k' => rw [he] at h; cases h; exact State.emit_error he
    | ok u => rw [he] at h; exact ih h

/-- Appended bytes in the terms of the statements. -/
theorem State.putAll_appends (s : State) (bs : Bytes) : s.Appends (s.putAll bs) bs where
  outCount := rfl
  outBase := rfl
  new := fun _ h => Memory.read_writeAll_same _ _ _ h
  old := fun _ h => Memory.read_writeAll_other _ _ _ h

/-- A history copy answers a state only by appending as many bytes as it is asked for. -/
theorem State.copyHistory_ok {s t : State} {off len : Nat} (h : s.copyHistory off len = .ok t) :
    ∃ bs : Bytes, bs.length = len ∧ t = s.putAll bs := by
  induction len generalizing s with
  | zero => exact ⟨[], rfl, (Except.ok.inj h).symm⟩
  | succ len ih =>
    simp only [State.copyHistory] at h
    cases he : s.emit (s.outAt (s.regs.outCount - off)) with
    | error k => rw [he] at h; cases h
    | ok u =>
      rw [he] at h
      obtain ⟨-, hu⟩ := State.emit_ok.1 he
      obtain ⟨bs, hl, ht⟩ := ih h
      refine ⟨s.outAt (s.regs.outCount - off) :: bs, by simp [hl], ?_⟩
      rw [ht, hu, State.putAll_cons]

/-! ## Input -/

@[simp] theorem State.inSlice_length (s : State) (a len : Nat) : (s.inSlice a len).length = len := by
  induction len generalizing a with
  | zero => rfl
  | succ len ih => simp [State.inSlice, ih]

/-- A slice of the input, byte by byte. -/
theorem State.inSlice_get (s : State) (a len : Nat) {k : Nat} (h : k < (s.inSlice a len).length) :
    (s.inSlice a len)[k] = s.inAt (a + k) := by
  induction len generalizing a k with
  | zero => simp [State.inSlice] at h
  | succ len ih =>
    cases k with
    | zero => simp [State.inSlice]
    | succ k =>
      simp only [State.inSlice, List.getElem_cons_succ]
      rw [ih, Nat.add_assoc, Nat.add_comm 1]

end Sys2Proof.Machine
end

