-- ==== Sys2Proof/Laws/Engine.lean ====
section
/-! SUPPORT. The engine's loop: what a unit of work is, and how a run of units composes. -/

namespace Sys2Proof.Machine

@[simp] theorem runUnits_zero (s : State) : runUnits 0 s = s := rfl

theorem runUnits_busy {s : State} (h : s.status = .busy) (fuel : Nat) :
    runUnits (fuel + 1) s = runUnits fuel (unitOfWork s) := by simp [runUnits, h]

/-- An operation that has ended stays as it is. -/
theorem runUnits_ended {s : State} (h : s.status ≠ .busy) (fuel : Nat) : runUnits fuel s = s := by
  cases fuel <;> simp [runUnits, h]

/-- A property that every unit of work of a BUSY engine keeps is kept by a run of them. -/
theorem runUnits_keeps {P : State → Prop} (h : ∀ s, s.status = .busy → P s → P (unitOfWork s)) (fuel : Nat) {s : State}
    (hs : P s) : P (runUnits fuel s) := by
  induction fuel generalizing s with
  | zero => exact hs
  | succ fuel ih =>
    by_cases hb : s.status = .busy
    · rw [runUnits_busy hb]; exact ih (h s hb hs)
    · rwa [runUnits_ended hb]

/-- A run of units in two parts. -/
theorem runUnits_add (a b : Nat) (s : State) : runUnits (a + b) s = runUnits b (runUnits a s) := by
  induction a generalizing s with
  | zero => simp
  | succ a ih =>
    by_cases hb : s.status = .busy
    · rw [Nat.succ_add, runUnits_busy hb, runUnits_busy hb, ih]
    · rw [runUnits_ended hb, runUnits_ended hb, runUnits_ended hb]

/-- A run whose units of work lower a measure has ended when there are more units than the measure. -/
theorem runUnits_ends {P : State → Prop} {m : State → Nat}
    (hP : ∀ s, s.status = .busy → P s → (unitOfWork s).status = .busy → P (unitOfWork s) ∧ m (unitOfWork s) < m s)
    (fuel : Nat) {s : State} (hs : s.status = .busy → P s ∧ m s < fuel) : (runUnits fuel s).status ≠ .busy := by
  induction fuel generalizing s with
  | zero => exact fun hb => absurd (hs hb).2 (Nat.not_lt_zero _)
  | succ fuel ih =>
    by_cases hb : s.status = .busy
    · rw [runUnits_busy hb]
      refine ih fun hb' => ?_
      obtain ⟨h1, h2⟩ := hP s hb (hs hb).1 hb'
      exact ⟨h1, by have := (hs hb).2; omega⟩
    · rwa [runUnits_ended hb]

theorem tick_not_busy {s : State} (h : s.status ≠ .busy) : tick s = s := by simp [tick, h]

theorem tick_unit {s : State} (h : s.status = .busy) (hp : s.phase ≠ .command) : tick s = unitOfWork s := by
  simp [tick, h, hp]

/-- A unit of work is a token executed, a token refused, or the operation going on otherwise. -/
theorem unitOfWork_cases (s : State) :
    (∃ i, s.nextToken = some (.ok i) ∧ unitOfWork s = s.settle (tokenEffect i s)) ∨
    (∃ x, s.nextToken = some (.error x) ∧ unitOfWork s = s.raise (rejectKind x)) ∨
    (s.nextToken = none ∧ unitOfWork s = s.settle (advance s)) := by
  unfold unitOfWork
  split
  · next i h => exact .inl ⟨i, h, rfl⟩
  · next x h => exact .inr (.inl ⟨x, h, rfl⟩)
  · next h => exact .inr (.inr ⟨h, rfl⟩)

/-- A piece of an operation either goes on or raises. -/
theorem State.settle_cases (s : State) (r : Run) : (∃ t, r = .ok t ∧ s.settle r = t) ∨ ∃ k, s.settle r = s.raise k := by
  cases r with
  | ok t => exact .inl ⟨t, rfl, rfl⟩
  | error k => exact .inr ⟨k, rfl⟩

/-- A bind of a piece of an operation answers a state only when both parts do. -/
theorem run_bind_ok {r : Run} {f : State → Run} {t : State} : (r >>= f) = .ok t ↔ ∃ u, r = .ok u ∧ f u = .ok t := by
  cases r with
  | ok u => exact ⟨fun h => ⟨u, rfl, h⟩, fun ⟨_, hu, h⟩ => by cases hu; exact h⟩
  | error k => exact ⟨fun h => (by cases h), fun ⟨_, hu, _⟩ => (by cases hu)⟩

end Sys2Proof.Machine
end

