-- ==== Sys2Proof/Laws/Operands.lean ====
section
/-! SUPPORT. The multi-byte fields: what is written little-endian is read back. -/

namespace Sys2Proof.Machine

@[simp] theorem bytesLE_length (len v : Nat) : (bytesLE len v).length = len := by
  induction len generalizing v with
  | zero => rfl
  | succ len ih => simp [bytesLE, ih]

/-- The bytes of a number that fits them give the number back. -/
theorem valueLE_bytesLE (len v : Nat) (h : v < 256 ^ len) : valueLE (bytesLE len v) = v := by
  induction len generalizing v with
  | zero => simp at h; simp [bytesLE, valueLE, h]
  | succ len ih =>
    have : v / 256 < 256 ^ len := by rw [pow_succ] at h; exact Nat.div_lt_of_lt_mul (by omega)
    simp only [bytesLE, valueLE, ih _ this, BitVec.toNat_ofNat]
    omega

theorem valueLE_u64le {v : Nat} (h : v < 2 ^ 64) : valueLE (u64le v) = v := valueLE_bytesLE 8 v (by omega)

theorem valueLE_u32le {v : Nat} (h : v < 2 ^ 32) : valueLE (u32le v) = v := valueLE_bytesLE 4 v (by omega)

end Sys2Proof.Machine
end

