-- ==== Sys2Proof/Laws/PerInstr.lean ====
section
/-! SUPPORT. The statements made per instruction: an instruction's encoding has the bytes its width asks for
(30_encoding.md R100). -/

/-- The encoding of an instruction is as many bytes as its bits need, and at least one. -/
def Sys2Proof.Laws.EncodedLength.Statement (i : Sys2Proof.Instr) : Prop :=
  (Sys2Proof.encode i).length = (Sys2Proof.bitLength i + 7) / 8

namespace Sys2Proof

theorem Laws.EncodedLength.compressRle : Laws.EncodedLength.Statement .compressRle := by
  simp [Laws.EncodedLength.Statement, encode, bitLength, commandByte]
theorem Laws.EncodedLength.compressLz77 : Laws.EncodedLength.Statement .compressLz77 := by
  simp [Laws.EncodedLength.Statement, encode, bitLength, commandByte]
theorem Laws.EncodedLength.compressHuffman : Laws.EncodedLength.Statement .compressHuffman := by
  simp [Laws.EncodedLength.Statement, encode, bitLength, commandByte]
theorem Laws.EncodedLength.compressLzw : Laws.EncodedLength.Statement .compressLzw := by
  simp [Laws.EncodedLength.Statement, encode, bitLength, commandByte]
theorem Laws.EncodedLength.compressLzss : Laws.EncodedLength.Statement .compressLzss := by
  simp [Laws.EncodedLength.Statement, encode, bitLength, commandByte]
theorem Laws.EncodedLength.compressDelta : Laws.EncodedLength.Statement .compressDelta := by
  simp [Laws.EncodedLength.Statement, encode, bitLength, commandByte]
theorem Laws.EncodedLength.compressBwt : Laws.EncodedLength.Statement .compressBwt := by
  simp [Laws.EncodedLength.Statement, encode, bitLength, commandByte]
theorem Laws.EncodedLength.decompressRle : Laws.EncodedLength.Statement .decompressRle := by
  simp [Laws.EncodedLength.Statement, encode, bitLength, commandByte]
theorem Laws.EncodedLength.decompressLz77 : Laws.EncodedLength.Statement .decompressLz77 := by
  simp [Laws.EncodedLength.Statement, encode, bitLength, commandByte]
theorem Laws.EncodedLength.decompressHuffman : Laws.EncodedLength.Statement .decompressHuffman := by
  simp [Laws.EncodedLength.Statement, encode, bitLength, commandByte]
theorem Laws.EncodedLength.decompressLzw : Laws.EncodedLength.Statement .decompressLzw := by
  simp [Laws.EncodedLength.Statement, encode, bitLength, commandByte]
theorem Laws.EncodedLength.decompressLzss : Laws.EncodedLength.Statement .decompressLzss := by
  simp [Laws.EncodedLength.Statement, encode, bitLength, commandByte]
theorem Laws.EncodedLength.decompressDelta : Laws.EncodedLength.Statement .decompressDelta := by
  simp [Laws.EncodedLength.Statement, encode, bitLength, commandByte]
theorem Laws.EncodedLength.decompressBwt : Laws.EncodedLength.Statement .decompressBwt := by
  simp [Laws.EncodedLength.Statement, encode, bitLength, commandByte]
theorem Laws.EncodedLength.pack : Laws.EncodedLength.Statement .pack := by
  simp [Laws.EncodedLength.Statement, encode, bitLength, commandByte]
theorem Laws.EncodedLength.unpack : Laws.EncodedLength.Statement .unpack := by
  simp [Laws.EncodedLength.Statement, encode, bitLength, commandByte]
theorem Laws.EncodedLength.encodeRle : Laws.EncodedLength.Statement .encodeRle := by
  simp [Laws.EncodedLength.Statement, encode, bitLength, commandByte]
theorem Laws.EncodedLength.encodeLz77 : Laws.EncodedLength.Statement .encodeLz77 := by
  simp [Laws.EncodedLength.Statement, encode, bitLength, commandByte]
theorem Laws.EncodedLength.encodeHuffman : Laws.EncodedLength.Statement .encodeHuffman := by
  simp [Laws.EncodedLength.Statement, encode, bitLength, commandByte]
theorem Laws.EncodedLength.encodeLzw : Laws.EncodedLength.Statement .encodeLzw := by
  simp [Laws.EncodedLength.Statement, encode, bitLength, commandByte]
theorem Laws.EncodedLength.encodeLzss : Laws.EncodedLength.Statement .encodeLzss := by
  simp [Laws.EncodedLength.Statement, encode, bitLength, commandByte]
theorem Laws.EncodedLength.encodeDelta : Laws.EncodedLength.Statement .encodeDelta := by
  simp [Laws.EncodedLength.Statement, encode, bitLength, commandByte]
theorem Laws.EncodedLength.encodeBwt : Laws.EncodedLength.Statement .encodeBwt := by
  simp [Laws.EncodedLength.Statement, encode, bitLength, commandByte]
theorem Laws.EncodedLength.decode : Laws.EncodedLength.Statement .decode := by
  simp [Laws.EncodedLength.Statement, encode, bitLength, commandByte]
theorem Laws.EncodedLength.clear : Laws.EncodedLength.Statement .clear := by
  simp [Laws.EncodedLength.Statement, encode, bitLength, commandByte]
theorem Laws.EncodedLength.rlePair (a b : Byte) : Laws.EncodedLength.Statement (.rlePair a b) := by
  simp [Laws.EncodedLength.Statement, encode, bitLength]
theorem Laws.EncodedLength.deltaFirst (a : Byte) : Laws.EncodedLength.Statement (.deltaFirst a) := by
  simp [Laws.EncodedLength.Statement, encode, bitLength]
theorem Laws.EncodedLength.deltaDiff (a : Byte) : Laws.EncodedLength.Statement (.deltaDiff a) := by
  simp [Laws.EncodedLength.Statement, encode, bitLength]
theorem Laws.EncodedLength.lz77Lit (a : Byte) : Laws.EncodedLength.Statement (.lz77Lit a) := by
  simp [Laws.EncodedLength.Statement, encode, bitLength]
theorem Laws.EncodedLength.lz77Match (a : BitVec 7) (b : BitVec 16) : Laws.EncodedLength.Statement (.lz77Match a b) := by
  simp [Laws.EncodedLength.Statement, encode, bitLength]
theorem Laws.EncodedLength.lzssLit (a : Byte) : Laws.EncodedLength.Statement (.lzssLit a) := by
  simp [Laws.EncodedLength.Statement, encode, bitLength]
theorem Laws.EncodedLength.lzssMatch (a : BitVec 12) (b : BitVec 4) : Laws.EncodedLength.Statement (.lzssMatch a b) := by
  simp [Laws.EncodedLength.Statement, encode, bitLength]
theorem Laws.EncodedLength.lzwCode (a : BitVec 12) : Laws.EncodedLength.Statement (.lzwCode a) := by
  simp [Laws.EncodedLength.Statement, encode, bitLength]
theorem Laws.EncodedLength.hufInt : Laws.EncodedLength.Statement .hufInt := by
  simp [Laws.EncodedLength.Statement, encode, bitLength]
theorem Laws.EncodedLength.hufLeaf (a : Byte) : Laws.EncodedLength.Statement (.hufLeaf a) := by
  simp [Laws.EncodedLength.Statement, encode, bitLength]
theorem Laws.EncodedLength.hufNull : Laws.EncodedLength.Statement .hufNull := by
  simp [Laws.EncodedLength.Statement, encode, bitLength]
theorem Laws.EncodedLength.hufBit (a : BitVec 1) : Laws.EncodedLength.Statement (.hufBit a) := by
  simp [Laws.EncodedLength.Statement, encode, bitLength]
theorem Laws.EncodedLength.mtfIdx (a : Byte) : Laws.EncodedLength.Statement (.mtfIdx a) := by
  simp [Laws.EncodedLength.Statement, encode, bitLength]

end Sys2Proof
end

