-- ==== Sys2Proof/Tests/Slice0.lean ====
section
/-! SUPPORT. The model's own tests. Expected values are those of spec/95_test_vectors.md (`V-...`), of the examples in the
rules, or words written out by hand from the tables of spec/30_encoding.md. A `witness_<Name>` meets the hypotheses of
`Obligations.<Name>`, one clause after the other. -/

namespace Sys2Proof.Tests

open Sys2Proof Sys2Proof.Machine

/-! ## Helpers -/

/-- The parameters of the tests: unbounded buffers, and `MG` = 0x4D. -/
def params : Params := { inCap := none, outCap := none, magic := 0x4D }

/-- Reset, then `IN <- x`. -/
def ld (x : Bytes) : State :=
  { State.reset with params := params, inMem := (List.range x.length).zip x, inLen := BitVec.ofNat 64 x.length }

/-- `ld x` with the operation of the value `v` just started. -/
def started (v : Byte) (x : Bytes) : State := { (ld x).start with cmd := v }

/-- A running operation in the phase `ph` over the input `x`. -/
def running (ph : Phase) (x : Bytes) (r : Regs) : State := (ld []).placed ph x r

/-- The result the host sees. -/
def outOf (t : State) : Bytes := (List.range t.outLen.toNat).map fun a => (t.outMem.read a).getD 0

/-- What the host sees of an outcome: STATE, ERR and the result. -/
def res (o : Host.Outcome State Fault Refusal) : Option (Status × Byte × Bytes) :=
  match o with
  | .next t => some (t.status, t.err, outOf t)
  | _ => none

/-- A register of an outcome. -/
def reg {α : Type} (f : State → α) (o : Host.Outcome State Fault Refusal) : Option α :=
  match o with
  | .next t => some (f t)
  | _ => none

/-- `U64LE` of a small length, written out. -/
def len8 (n : Byte) : Bytes := [n, 0, 0, 0, 0, 0, 0, 0]

def banana : Bytes := [0x62, 0x61, 0x6E, 0x61, 0x6E, 0x61]
def ababababab : Bytes := [0x41, 0x42, 0x41, 0x42, 0x41, 0x42, 0x41, 0x42, 0x41, 0x42]

/-! ## WellFormed: an ill-formed term for each check -/

/-- 30_encoding.md R101: an LZ77 offset of 0 is illegal, and 1 is legal. -/
theorem test_wellFormed_refuses_offset_zero :
    (Instr.lz77Match 3 0).WellFormed = false ∧ (Instr.lz77Match 3 1).WellFormed = true := by decide

/-- A token of another codec, a command inside a frame, and a token where a command stands are refused. -/
theorem test_wellFormedAt_refuses_other_places :
    (Instr.rlePair 1 2).WellFormedAt .lz77 = false ∧ Instr.pack.WellFormedAt .rle = false ∧
    (Instr.mtfIdx 0).WellFormedAt .command = false ∧ (Instr.lz77Match 3 0).WellFormedAt .lz77 = false ∧
    (Instr.lzwCode 97).WellFormedAt (.lzw 4) = true := by decide

/-! ## Decoding: every constructor from a word written out -/

theorem test_decode_compress :
    decode .command [0x10] = .ok .compressRle ∧ decode .command [0x11] = .ok .compressLz77 ∧
    decode .command [0x12] = .ok .compressHuffman ∧ decode .command [0x13] = .ok .compressLzw ∧
    decode .command [0x14] = .ok .compressLzss ∧ decode .command [0x15] = .ok .compressDelta ∧
    decode .command [0x16] = .ok .compressBwt := by decide

theorem test_decode_decompress :
    decode .command [0x20] = .ok .decompressRle ∧ decode .command [0x21] = .ok .decompressLz77 ∧
    decode .command [0x22] = .ok .decompressHuffman ∧ decode .command [0x23] = .ok .decompressLzw ∧
    decode .command [0x24] = .ok .decompressLzss ∧ decode .command [0x25] = .ok .decompressDelta ∧
    decode .command [0x26] = .ok .decompressBwt := by decide

theorem test_decode_encode :
    decode .command [0x50] = .ok .encodeRle ∧ decode .command [0x51] = .ok .encodeLz77 ∧
    decode .command [0x52] = .ok .encodeHuffman ∧ decode .command [0x53] = .ok .encodeLzw ∧
    decode .command [0x54] = .ok .encodeLzss ∧ decode .command [0x55] = .ok .encodeDelta ∧
    decode .command [0x56] = .ok .encodeBwt := by decide

theorem test_decode_other_commands :
    decode .command [0x30] = .ok .pack ∧ decode .command [0x40] = .ok .unpack ∧
    decode .command [0x60] = .ok .decode ∧ decode .command [0xF0] = .ok .clear := by decide

/-- V-CMD-2, V-CMD-3, V-CMD-4. -/
theorem test_decode_refuses_commands :
    decode .command [0x00] = .error .illegalCommand ∧ decode .command [0x31] = .error .illegalCommand ∧
    decode .command [0x70] = .error .illegalCommand ∧ decode .command [0xF1] = .error .illegalCommand ∧
    decode .command [0x17] = .error .unknownAlgorithm ∧ decode .command [0x2F] = .error .unknownAlgorithm := by decide

theorem test_decode_byte_tokens :
    decode .rle [0x06, 0x61] = .ok (.rlePair 6 0x61) ∧ decode .deltaFirst [0x10] = .ok (.deltaFirst 0x10) ∧
    decode .deltaDiff [0xF5] = .ok (.deltaDiff 0xF5) ∧ decode .lzssLit [0x41] = .ok (.lzssLit 0x41) ∧
    decode .mtf [0x63] = .ok (.mtfIdx 0x63) := by decide

/-- `08 00 02` is MATCH 8, 2; `20 03 C1` is MATCH 32, 961; the offset's high byte stands first. -/
theorem test_decode_lz77 :
    decode .lz77 [0x80, 0x41] = .ok (.lz77Lit 0x41) ∧ decode .lz77 [0x08, 0x00, 0x02] = .ok (.lz77Match 8 2) ∧
    decode .lz77 [0x20, 0x03, 0xC1] = .ok (.lz77Match 32 961) ∧ decode .lz77 [0x81, 0x00, 0x01] = .error .badFlag ∧
    decode .lz77 [0x03, 0x00] = .error .cutShort := by decide

/-- `0x0015` is offset 2 and length 8: the fields hold 1 and 5. -/
theorem test_decode_lzss_match :
    decode .lzssMatch [0x00, 0x15] = .ok (.lzssMatch 1 5) ∧
    decode .lzssMatch [0xFF, 0xF0] = .ok (.lzssMatch 4095 0) := by decide

/-- V-LZW-3: `06 11 00` holds the codes 97 and 256. -/
theorem test_decode_lzw :
    decode (.lzw 0) [0x06, 0x11, 0x00] = .ok (.lzwCode 97) ∧
    decode (.lzw 4) [0x11, 0x00] = .ok (.lzwCode 256) ∧ decode (.lzw 0) [0x06] = .error .cutShort := by decide

theorem test_decode_huffman :
    decode .hufTree [0x00] = .ok .hufInt ∧ decode .hufTree [0x01, 0x61] = .ok (.hufLeaf 0x61) ∧
    decode .hufTree [0x02] = .ok .hufNull ∧ decode .hufTree [0x03] = .error .badTag ∧
    decode (.hufBit 0) [0x6E] = .ok (.hufBit 0) ∧ decode (.hufBit 1) [0x6E] = .ok (.hufBit 1) := by decide

theorem test_encode :
    encode .encodeBwt = [0x56] ∧ encode (.lz77Match 8 2) = [0x08, 0x00, 0x02] ∧
    encode (.lzssMatch 1 5) = [0x00, 0x15] ∧ encode (.lzwCode 256) = [0x10, 0x00] ∧
    encode (.hufBit 1) = [0x80] := by decide

/-- The host's numbering: a table word is one number, high byte first. -/
theorem test_decodeTableWord :
    decodeTableWord 8 0x10 = some .compressRle ∧ decodeTableWord 16 0x0661 = some (.rlePair 6 0x61) ∧
    decodeTableWord 24 0x080002 = some (.lz77Match 8 2) ∧ decodeTableWord 12 97 = some (.lzwCode 97) ∧
    decodeTableWord 1 1 = some (.hufBit 1) := by decide

/-! ## Steps -/

/-- The first step after reset runs the placed command; CMD = 0x10 over the empty input ends DONE (V-CMD-1). -/
theorem test_step_runs_placed_command :
    reg State.status (step (State.reset.withFetchWord 8 0x10)) = some .done := by decide

/-- A placed LZ77 match has no history: CorruptPayload (43_lz77.md R165). -/
theorem test_step_runs_placed_match :
    reg State.err (step (State.reset.withFetchWord 24 0x030001)) = some 3 := by decide

theorem test_step_runs_placed_literal :
    reg (fun t => t.outMem.read 0) (step (State.reset.withFetchWord 16 0x8041)) = some (some 0x41) := by decide

/-- V-CMD-6: the command check comes before the capacity check. -/
theorem test_illegal_command_comes_first :
    reg State.err (step { started 0x00 [1, 2] with params := { params with inCap := some 1 } }) = some 8 ∧
    reg State.err (step { started 0x10 [1, 2] with params := { params with inCap := some 1 } }) = some 7 := by decide

/-- V-CMD-8: the second `Emit` is at `OUT_CAP`. -/
theorem test_emit_at_capacity :
    res (exec .compressRle { ld [0x61, 0x61] with params := { params with outCap := some 1 } }) =
      some (.error, 7, []) := by decide +kernel

/-- V-CMD-7: CLEAR returns from ERROR; 40_commands_contract.md R120: a write of CMD is dropped while BUSY. -/
theorem test_clear_and_busy_write :
    reg State.status (step { ld [] with status := .error, err := 3, host := [.writeCsr 0x00 .w8 0xF0] }) = some .idle ∧
    reg State.cmd (step { started 0x10 [] with host := [.writeCsr 0x00 .w8 0x20] }) = some 0x10 := by decide

/-- 10_state.md R30: STATUS reads as the word; an access in another width is refused. -/
theorem test_csr_reads :
    reg State.rdata (step { ld [] with status := .error, host := [.readCsr 0x08 .w8] }) = some 3 ∧
    reg State.rdata (step { ld [] with host := [.readCsr 0x08 .w32] }) = none := by decide

/-- 20_memory.md R50: the host writes `IN` inside `IN_CAP` only. -/
theorem test_host_writes_in :
    reg (fun t => t.inMem.read 3) (step { ld [] with host := [.writeIn 2 [7, 9]] }) = some (some 9) ∧
    reg State.inLen (step { ld [] with
      params := { params with inCap := some 3 }, host := [.writeIn 2 [7, 9]] }) = none := by decide

theorem test_reset_memory_wf : State.reset.inMem.wf ∧ State.reset.outMem.wf := by decide

/-! ## Operations: the vectors -/

/-- V-RLE-8, V-RLE-12, V-RLE-15. -/
theorem test_rle :
    res (exec .compressRle (ld [0x61, 0x61, 0x62, 0x62, 0x62, 0x63])) =
      some (.done, 0, [2, 0x61, 3, 0x62, 1, 0x63]) ∧
    res (exec .decompressRle (ld [2, 0x61, 0, 0x62, 1, 0x63])) = some (.done, 0, [0x61, 0x61, 0x63]) ∧
    res (exec .decompressRle (ld [6, 0x61, 1])) = some (.error, 3, []) := by decide +kernel

/-- V-DELTA-6, V-DELTA-7, V-DELTA-11, V-DELTA-12. -/
theorem test_delta :
    res (exec .compressDelta (ld [0x10, 0x05, 0xFF, 0x00, 0x80])) =
      some (.done, 0, len8 5 ++ [0x10, 0xF5, 0xFA, 0x01, 0x80]) ∧
    res (exec .decompressDelta (ld (len8 5 ++ [0x10, 0xF5, 0xFA, 0x01, 0x80]))) =
      some (.done, 0, [0x10, 0x05, 0xFF, 0x00, 0x80]) ∧
    res (exec .decompressDelta (ld (len8 1))) = some (.error, 3, []) ∧
    res (exec .decompressDelta (ld (len8 2 ++ [0x61]))) = some (.error, 4, []) := by decide +kernel

/-- V-LZ77-4, V-LZ77-12, and the farthest of two candidates, V-LZ77-11. -/
theorem test_lz77 :
    res (exec .compressLz77 (ld ababababab)) = some (.done, 0, [0x80, 0x41, 0x80, 0x42, 8, 0, 2]) ∧
    res (exec .decompressLz77 (ld [0x80, 0x41, 0x80, 0x42, 8, 0, 2])) = some (.done, 0, ababababab) ∧
    res (exec .compressLz77 (ld [0x61, 0x62, 0x63, 0x58, 0x61, 0x62, 0x63, 0x59, 0x61, 0x62, 0x63])) =
      some (.done, 0, [0x80, 0x61, 0x80, 0x62, 0x80, 0x63, 0x80, 0x58, 3, 0, 4, 0x80, 0x59, 3, 0, 8]) := by
  decide +kernel

/-- V-LZSS-4, V-LZSS-12, V-LZSS-23. -/
theorem test_lzss :
    res (exec .compressLzss (ld ababababab)) = some (.done, 0, len8 10 ++ [1, 0, 0, 0, 4, 0x41, 0x42, 0, 0x15]) ∧
    res (exec .decompressLzss (ld (len8 10 ++ [1, 0, 0, 0, 4, 0x41, 0x42, 0, 0x15]))) = some (.done, 0, ababababab) ∧
    res (exec .decompressLzss (ld (len8 3 ++ [1, 0, 0, 0, 2, 0x61, 0, 0]))) = some (.error, 4, []) := by
  decide +kernel

/-- V-LZW-3, V-LZW-10, V-LZW-17. -/
theorem test_lzw :
    res (exec .compressLzw (ld [0x61, 0x61, 0x61, 0x61])) = some (.done, 0, len8 4 ++ [6, 0x11, 0, 6, 0x10]) ∧
    res (exec .decompressLzw (ld (len8 4 ++ [6, 0x11, 0, 6, 0x10]))) = some (.done, 0, [0x61, 0x61, 0x61, 0x61]) ∧
    res (exec .decompressLzw (ld (len8 2 ++ [6, 0x11, 1]))) = some (.error, 3, []) := by decide +kernel

/-- V-HUF-5. -/
theorem test_huffman_compress :
    res (exec .compressHuffman (ld [0x61, 0x61, 0x62])) =
      some (.done, 0, len8 3 ++ [5, 0, 0, 0, 0, 1, 0x62, 1, 0x61] ++ len8 3 ++ [0xC0]) := by decide +kernel

/-- V-HUF-11, V-HUF-22. -/
theorem test_huffman_decompress :
    res (exec .decompressHuffman (ld (len8 4 ++ [4, 0, 0, 0, 0, 2, 1, 0x61] ++ len8 4 ++ [0xF0]))) =
      some (.done, 0, [0x61, 0x61, 0x61, 0x61]) ∧
    res (exec .decompressHuffman (ld (len8 1 ++ [4, 0, 0, 0, 0, 1, 0x61, 2] ++ len8 1 ++ [0x80]))) =
      some (.error, 3, []) := by decide +kernel

/-- V-BWT-4. -/
theorem test_bwt_compress :
    res (exec .compressBwt (ld banana)) =
      some (.done, 0, len8 6 ++ len8 3 ++ len8 6 ++ [0x6E, 0, 0x63, 0x63, 0, 0]) := by decide +kernel

/-- V-BWT-12, V-BWT-16. -/
theorem test_bwt_decompress :
    res (exec .decompressBwt (ld (len8 6 ++ len8 0 ++ len8 6 ++ [0x6E, 0, 0x63, 0x63, 0, 0]))) =
      some (.done, 0, [0x61, 0x62, 0x61, 0x6E, 0x61, 0x6E]) ∧
    res (exec .decompressBwt (ld (len8 6 ++ len8 6 ++ len8 6 ++ [0x6E, 0, 0x63, 0x63, 0, 0]))) =
      some (.error, 3, []) := by decide +kernel

/-- V-CONT-1, V-CONT-2, V-CONT-4, V-CONT-7. -/
theorem test_pack_unpack :
    res (exec .pack { ld [6, 0x61] with argSize := 6 }) = some (.done, 0, [0x4D, 0] ++ len8 6 ++ [6, 0x61]) ∧
    res (exec .unpack (ld ([0x4D, 0] ++ len8 6 ++ [6, 0x61]))) = some (.done, 0, [6, 0x61]) ∧
    reg State.argSize (exec .unpack (ld ([0x4D, 0] ++ len8 6 ++ [6, 0x61]))) = some 6 ∧
    res (exec .unpack (ld ([0x4E, 0] ++ len8 6 ++ [6, 0x61]))) = some (.error, 1, []) ∧
    res (exec .unpack (ld ([0x4D, 7] ++ len8 0))) = some (.error, 2, []) := by decide +kernel

/-- V-CONT-9, V-CONT-10, V-CONT-15, V-CONT-12. -/
theorem test_encode_decode :
    res (exec .encodeRle (ld (List.replicate 6 0x61))) = some (.done, 0, [0x4D, 0] ++ len8 6 ++ [6, 0x61]) ∧
    res (exec .encodeLz77 (ld [])) = some (.done, 0, [0x4D, 1] ++ len8 0) ∧
    res (exec .decode (ld ([0x4D, 1] ++ len8 10 ++ [0x80, 0x41, 0x80, 0x42, 8, 0, 2]))) =
      some (.done, 0, ababababab) ∧
    res (exec .decode (ld ([0x4D, 0] ++ len8 7 ++ [6, 0x61]))) = some (.error, 4, []) := by decide +kernel

/-! ## Witnesses -/

theorem fits (s : State) (h : s.params.inCap = none) : s.inputFits := fun c hc => by simp [h] at hc

theorem room_of (s : State) (len : Nat) (h : s.params.outCap = none) : s.room len :=
  Or.inr fun c hc => by simp [h] at hc

theorem room_within (s : State) (len c : Nat) (h : s.params.outCap = some c)
    (hc : s.regs.outBase + s.regs.outCount + len ≤ c) : s.room len :=
  Or.inr fun c' hc' => by rw [h] at hc'; cases hc'; exact hc

theorem no_room_of (s : State) (len c : Nat) (h : s.params.outCap = some c) (hl : len ≠ 0)
    (hc : c < s.regs.outBase + s.regs.outCount + len) : ¬ s.room len := by
  rintro (h0 | h1)
  · exact hl h0
  · exact absurd (h1 c h) (by omega)

/-- `s` with a bounded `OUT`. -/
def capped (c : Nat) (s : State) : State := { s with params := { s.params with outCap := some c } }

theorem witness_ResetLeavesRegistersZero :
    ({ started 0x10 [1] with host := [.reset, .tick] } : State).host = .reset :: [.tick] := rfl

theorem witness_DecodeInvertsEncode : (Instr.lz77Match 127 1).WellFormed = true ∧ (Instr.lzwCode 4095).WellFormed = true := by
  decide

theorem witness_DecodedBytesAreTheEncoding :
    Ctx.lz77.atBit0 ≠ .lzw 0 ∧ Ctx.lz77.atBit0 ≠ .hufBit 0 ∧ decode .lz77 [0x7F, 0, 1, 5] = .ok (.lz77Match 127 1) := by
  decide

theorem witness_BitStreamsAreReadHighestBitFirst : 0 < 8 ∧ 7 < 8 := by decide

/-- `10`, `56`; `17`, `5F`; `30`, `F0`; `31`, `FF`; `00`, `7F`, `E0`. -/
theorem witness_CommandValuesAreClassified :
    (0x10 / 16 ∈ [1, 2, 5] ∧ 0x10 % 16 ≤ 6) ∧ (0x56 / 16 ∈ [1, 2, 5] ∧ 0x56 % 16 ≤ 6) ∧
    (0x17 / 16 ∈ [1, 2, 5] ∧ 7 ≤ 0x17 % 16) ∧ (0x5F / 16 ∈ [1, 2, 5] ∧ 7 ≤ 0x5F % 16) ∧
    (0x30 / 16 ∈ [3, 4, 6, 15] ∧ 0x30 % 16 = 0) ∧ (0xF0 / 16 ∈ [3, 4, 6, 15] ∧ 0xF0 % 16 = 0) ∧
    (0x31 / 16 ∈ [3, 4, 6, 15] ∧ 0x31 % 16 ≠ 0) ∧ (0xFF / 16 ∈ [3, 4, 6, 15] ∧ 0xFF % 16 ≠ 0) ∧
    0x00 / 16 ∉ [1, 2, 3, 4, 5, 6, 15] ∧ 0x7F / 16 ∉ [1, 2, 3, 4, 5, 6, 15] ∧ 0xE0 / 16 ∉ [1, 2, 3, 4, 5, 6, 15] := by
  decide

theorem witness_StepRunsTheDecodedInstruction :
    ((started 0x20 [1, 2]).host = [] ∧ (started 0x20 [1, 2]).status = .busy ∧ (started 0x20 [1, 2]).phase = .command ∧
      decode .command [(started 0x20 [1, 2]).cmd] = .ok .decompressRle) ∧
    ((running .rleD [1, 2] Regs.fresh).host = [] ∧ (running .rleD [1, 2] Regs.fresh).status = .busy ∧
      (running .rleD [1, 2] Regs.fresh).phase ≠ .command ∧
      (running .rleD [1, 2] Regs.fresh).fetchBytes = some (.ok (.rle, [1, 2])) ∧
      decode .rle [1, 2] = .ok (.rlePair 1 2)) := by decide

/-- A tree field of 2 bytes and then 8 zeros and a payload byte, after a header of 12 bytes. -/
def hufIn (a b : Byte) : Bytes := len8 1 ++ [2, 0, 0, 0, a, b] ++ len8 1 ++ [0x80]

/-- One witness for each clause, at the last position at which the token is whole. -/
theorem witness_TokensAreFetchedAtTheirCursors :
    (let s := running .rleD [3, 0x61] Regs.fresh;
      s.host = [] ∧ s.status = .busy ∧ s.phase = .rleD ∧ s.regs.ip + 2 ≤ s.regs.nIn) ∧
    (let s := running .deltaD (len8 1 ++ [5]) { Regs.fresh with ip := 8 };
      s.host = [] ∧ s.status = .busy ∧ s.phase = .deltaD ∧ s.regs.ip < s.regs.nIn ∧ s.regs.ip = 8) ∧
    (let s := running .deltaD (len8 2 ++ [5, 6]) { Regs.fresh with ip := 9 };
      s.host = [] ∧ s.status = .busy ∧ s.phase = .deltaD ∧ s.regs.ip < s.regs.nIn ∧ s.regs.ip ≠ 8) ∧
    (let s := running .lz77D [0x80, 5] Regs.fresh;
      s.host = [] ∧ s.status = .busy ∧ s.phase = .lz77D ∧ s.regs.ip + 2 ≤ s.regs.nIn ∧ s.inAt s.regs.ip = 0x80) ∧
    (let s := running .lz77D [0x7F, 0, 1] Regs.fresh;
      s.host = [] ∧ s.status = .busy ∧ s.phase = .lz77D ∧ s.regs.ip + 3 ≤ s.regs.nIn ∧
      (s.inAt s.regs.ip).toNat < 0x80) ∧
    (let s := running .lzssD (len8 1 ++ [1, 0, 0, 0, 0, 7]) { Regs.fresh with n := 1, fc := 1 };
      s.host = [] ∧ s.status = .busy ∧ s.phase = .lzssD ∧ s.regs.outCount < s.regs.n ∧ s.regs.tok < 8 * s.regs.fc ∧
      (s.inAt (12 + s.regs.tok / 8)).getLsbD (s.regs.tok % 8) = false ∧
      12 + s.regs.fc + s.regs.dp + 1 ≤ s.regs.nIn) ∧
    (let s := running .lzssD (len8 4 ++ [1, 0, 0, 0, 0x80, 0, 5]) { Regs.fresh with n := 4, fc := 1, tok := 7 };
      s.host = [] ∧ s.status = .busy ∧ s.phase = .lzssD ∧ s.regs.outCount < s.regs.n ∧ s.regs.tok < 8 * s.regs.fc ∧
      (s.inAt (12 + s.regs.tok / 8)).getLsbD (s.regs.tok % 8) = true ∧
      12 + s.regs.fc + s.regs.dp + 2 ≤ s.regs.nIn) ∧
    (let s := running .lzwD (len8 1 ++ [6, 0x10]) Regs.fresh;
      s.host = [] ∧ s.status = .busy ∧ s.phase = .lzwD ∧ s.regs.bp + 12 ≤ 8 * (s.regs.nIn - 8) ∧
      s.regs.bp % 8 = 0) ∧
    (let s := running .lzwD (len8 2 ++ [6, 0x10, 0x62]) { Regs.fresh with bp := 12 };
      s.host = [] ∧ s.status = .busy ∧ s.phase = .lzwD ∧ s.regs.bp + 12 ≤ 8 * (s.regs.nIn - 8) ∧
      s.regs.bp % 8 = 4) ∧
    (let s := running .hufTree (hufIn 0 0) { Regs.fresh with tl := 2, tp := 1 };
      s.host = [] ∧ s.status = .busy ∧ s.phase = .hufTree ∧ s.regs.slots ≠ [] ∧ s.regs.tp < s.regs.tl ∧
      s.inAt (12 + s.regs.tp) = 0x00) ∧
    (let s := running .hufTree (hufIn 1 0x61) { Regs.fresh with tl := 2 };
      s.host = [] ∧ s.status = .busy ∧ s.phase = .hufTree ∧ s.regs.slots ≠ [] ∧ s.regs.tp + 1 < s.regs.tl ∧
      s.inAt (12 + s.regs.tp) = 0x01) ∧
    (let s := running .hufTree (hufIn 0 2) { Regs.fresh with tl := 2, tp := 1 };
      s.host = [] ∧ s.status = .busy ∧ s.phase = .hufTree ∧ s.regs.slots ≠ [] ∧ s.regs.tp < s.regs.tl ∧
      s.inAt (12 + s.regs.tp) = 0x02) ∧
    (let s := running .hufBits (hufIn 1 0x61) { Regs.fresh with n := 1, tl := 2, tb := 8, bp := 7 };
      s.host = [] ∧ s.status = .busy ∧ s.phase = .hufBits ∧ s.regs.outCount < s.regs.n ∧ s.regs.bp < s.regs.tb ∧
      20 + s.regs.tl + s.regs.bp / 8 < s.regs.nIn) ∧
    (let s := running .bwtIdx (len8 1 ++ len8 0 ++ len8 1 ++ [0x61]) { Regs.fresh with ip := 8, cs := 1 };
      s.host = [] ∧ s.status = .busy ∧ s.phase = .bwtIdx ∧ s.regs.k < s.regs.cs ∧
      s.regs.ip + 16 + s.regs.k < s.regs.nIn) :=
  ⟨by decide, by decide, by decide, by decide, by decide, by decide, by decide, by decide, by decide, by decide, by decide, by decide, by decide, by decide⟩

/-- One witness for each case, at its boundary. -/
theorem witness_IllegalTokensRaiseCorruptPayload :
    (let s := running .lz77D [0x81, 0, 1] Regs.fresh;
      s.host = [] ∧ s.status = .busy ∧ s.phase = .lz77D ∧ s.regs.ip < s.regs.nIn ∧ 0x80 < (s.inAt s.regs.ip).toNat) ∧
    (let s := running .lz77D [0x80] Regs.fresh;
      s.host = [] ∧ s.status = .busy ∧ s.phase = .lz77D ∧ s.regs.ip + 1 = s.regs.nIn) ∧
    (let s := running .lz77D [0x7F, 0] Regs.fresh;
      s.host = [] ∧ s.status = .busy ∧ s.phase = .lz77D ∧ s.regs.ip + 2 = s.regs.nIn ∧
      (s.inAt s.regs.ip).toNat < 0x80) ∧
    (let s := running .lzssD (len8 2 ++ [0, 0, 0, 0]) { Regs.fresh with n := 2 };
      s.host = [] ∧ s.status = .busy ∧ s.phase = .lzssD ∧ s.regs.outCount < s.regs.n ∧ 8 * s.regs.fc ≤ s.regs.tok) ∧
    (let s := running .lzssD (len8 1 ++ [1, 0, 0, 0, 0]) { Regs.fresh with n := 1, fc := 1, tok := 7 };
      s.host = [] ∧ s.status = .busy ∧ s.phase = .lzssD ∧ s.regs.outCount < s.regs.n ∧ s.regs.tok < 8 * s.regs.fc ∧
      s.regs.nIn < 12 + s.regs.fc + s.regs.dp + 1) ∧
    (let s := running .lzssD (len8 3 ++ [1, 0, 0, 0, 1, 0]) { Regs.fresh with n := 3, fc := 1 };
      s.host = [] ∧ s.status = .busy ∧ s.phase = .lzssD ∧ s.regs.outCount < s.regs.n ∧ s.regs.tok < 8 * s.regs.fc ∧
      (s.inAt (12 + s.regs.tok / 8)).getLsbD (s.regs.tok % 8) = true ∧
      s.regs.nIn < 12 + s.regs.fc + s.regs.dp + 2) ∧
    (let s := running .hufTree (hufIn 0 0) { Regs.fresh with tl := 2, tp := 2 };
      s.host = [] ∧ s.status = .busy ∧ s.phase = .hufTree ∧ s.regs.slots ≠ [] ∧ s.regs.tl ≤ s.regs.tp) ∧
    (let s := running .hufTree (hufIn 0 3) { Regs.fresh with tl := 2, tp := 1 };
      s.host = [] ∧ s.status = .busy ∧ s.phase = .hufTree ∧ s.regs.slots ≠ [] ∧ s.regs.tp < s.regs.tl ∧
      2 < (s.inAt (12 + s.regs.tp)).toNat) ∧
    (let s := running .hufTree (hufIn 0 1) { Regs.fresh with tl := 2, tp := 1 };
      s.host = [] ∧ s.status = .busy ∧ s.phase = .hufTree ∧ s.regs.slots ≠ [] ∧ s.regs.tp + 1 = s.regs.tl ∧
      s.inAt (12 + s.regs.tp) = 1) := by decide

theorem witness_IllegalCommandsFailAtOnce :
    (∀ v ∈ [0x17#8, 0x5F#8], (started v []).host = [] ∧ (started v []).status = .busy ∧
      (started v []).phase = .command ∧ (started v []).cmd.toNat / 16 ∈ [1, 2, 5] ∧
      7 ≤ (started v []).cmd.toNat % 16) ∧
    (∀ v ∈ [0x00#8, 0x7F#8, 0xE0#8], (started v []).host = [] ∧ (started v []).status = .busy ∧
      (started v []).phase = .command ∧ (started v []).cmd.toNat / 16 ∉ [1, 2, 3, 4, 5, 6, 15]) ∧
    (∀ v ∈ [0x31#8, 0xFF#8], (started v []).host = [] ∧ (started v []).status = .busy ∧
      (started v []).phase = .command ∧ (started v []).cmd.toNat / 16 ∈ [3, 4, 6, 15] ∧
      (started v []).cmd.toNat % 16 ≠ 0) := by decide

theorem witness_UnitsOfWorkReachTheResult :
    ((started 0x10 [1, 1]).JustStarted ∧ decode .command [(started 0x10 [1, 1]).cmd] = .ok .compressRle ∧
      Instr.compressRle ≠ .clear) ∧
    ((running .rleC [1] Regs.fresh).host = [] ∧ (running .rleC [1] Regs.fresh).status = .busy ∧
      (running .rleC [1] Regs.fresh).phase ≠ .command) ∧
    (ld []).host = [] ∧ (ld []).status ≠ .busy := ⟨⟨rfl, by decide, by decide⟩, by decide, by decide⟩

/-- A move in front of the host's queue, out of BUSY and in BUSY. -/
def idleWith (m : HostMove) : State := { ld [0x61] with host := [m] }
def busyWith (m : HostMove) : State := { started 0x10 [0x61] with host := [m] }

theorem witness_CmdWriteStartsOrClears :
    ((busyWith (.writeCsr 0x00 .w8 0x10)).host = [.writeCsr 0x00 .w8 0x10] ∧
      (busyWith (.writeCsr 0x00 .w8 0x10)).status = .busy) ∧
    ((idleWith (.writeCsr 0x00 .w8 0xF0)).host = [.writeCsr 0x00 .w8 0xF0] ∧
      (idleWith (.writeCsr 0x00 .w8 0xF0)).status ≠ .busy ∧ (0xF0#64).truncate 8 = 0xF0#8) ∧
    ((idleWith (.writeCsr 0x00 .w8 0xEF)).host = [.writeCsr 0x00 .w8 0xEF] ∧
      (idleWith (.writeCsr 0x00 .w8 0xEF)).status ≠ .busy ∧ (0xEF#64).truncate 8 ≠ 0xF0#8) := by decide

theorem witness_CsrWritesAreDropped :
    ((busyWith (.writeCsr 0x30 .w64 1)).host = [.writeCsr 0x30 .w64 1] ∧
      (busyWith (.writeCsr 0x30 .w64 1)).status = .busy ∧ csrOf 0x30 .w64 = some .argSize) ∧
    ((idleWith (.writeCsr 0x08 .w8 1)).host = [.writeCsr 0x08 .w8 1] ∧
      (0x08, Width.w8) ∈ [(0x08, Width.w8), (0x10, Width.w8), (0x20, Width.w64)]) := by decide

/-- The offsets and widths of the map (10_state.md R30). -/
def csrMap : List (Nat × Width) :=
  [(0x00, .w8), (0x08, .w8), (0x10, .w8), (0x18, .w64), (0x20, .w64), (0x28, .w8), (0x30, .w64)]

theorem witness_CsrAccessesFollowTheMap :
    ((busyWith (.readCsr 0x08 .w8)).host = [.readCsr 0x08 .w8] ∧
      ((0x08, Width.w8, (1 : Word64)) : Nat × Width × Word64) ∈
        [(0x08, Width.w8, (statusWord (busyWith (.readCsr 0x08 .w8)).status).zeroExtend 64)]) ∧
    (∀ m ∈ [HostMove.writeCsr 0x18 .w64 5, .writeCsr 0x28 .w8 5, .writeCsr 0x30 .w64 5],
      (idleWith m).status ≠ .busy ∧ (idleWith m).host = [m]) ∧
    (0x38, Width.w8) ∉ csrMap ∧ (0x00, Width.w16) ∉ csrMap ∧
    (idleWith (.writeCsr 0x38 .w8 0)).host = [.writeCsr 0x38 .w8 0] ∧
    (idleWith (.readCsr 0x00 .w16)).host = [.readCsr 0x00 .w16] := by decide

/-- DONE with the result `[0x61]`, and a read of its only byte. -/
def doneState : State := { idleWith (.readOut 0) with status := .done, outLen := 1, outMem := [(0, 0x61)] }

theorem doneState_inv : doneState.Inv where
  inWf := by decide
  outWf := by decide
  errSet h := absurd h (by decide)
  errClear _ := rfl
  outLenClear h := absurd rfl h
  phaseBusy := by decide
  resultThere _ a h := by
    have : a = 0 := by
      have h1 : doneState.outLen.toNat = 1 := rfl
      omega
    subst this; rfl
  historyThere h := absurd h (by decide)
  outFits h := absurd h (by decide)
  resultFits _ c h := by cases h
  mtfPerm := .refl _
  dictSize := by decide +kernel
  dictCap := by decide
  dictSeed := by decide +kernel
  notBegun h := absurd h (by decide)

/-- The last bytes that fit: an end at `IN_CAP` exactly; and the last byte of a result. -/
theorem witness_HostReachesTheBuffers :
    ((busyWith (.writeIn 0 [1])).host = [.writeIn 0 [1]] ∧ (busyWith (.writeIn 0 [1])).status = .busy) ∧
    (let s := { idleWith (.writeIn 1 [1, 2]) with params := { params with inCap := some 3 } };
      s.host = [.writeIn 1 [1, 2]] ∧ s.status ≠ .busy ∧ s.params.inCap = some 3 ∧ 1 + [1#8, 2#8].length ≤ 3) ∧
    ((busyWith (.readOut 0)).host = [.readOut 0] ∧ (busyWith (.readOut 0)).status = .busy) ∧
    doneState.host = [.readOut 0] ∧ doneState.Inv ∧ doneState.Result [0x61] ∧ 0 < [0x61#8].length :=
  ⟨by decide, by decide, by decide, rfl, doneState_inv,
    ⟨rfl, rfl, rfl, fun k h => by
      have : k = 0 := by simpa using h
      subst this; rfl⟩, by decide⟩

theorem witness_EveryOperationEnds :
    Instr.decode.ctx = .command ∧ Instr.decode ≠ .clear ∧ Instr.compressRle.ctx = .command := by decide

theorem witness_OperationsKeepTheirInputs :
    Instr.unpack.ctx = .command ∧ Instr.encodeRle ≠ .unpack ∧ Instr.encodeRle ≠ .decode ∧
    reg State.status (exec .encodeRle (ld [1])) = some .done ∧
    reg State.status (exec .unpack (ld [])) = some .error := by decide +kernel

/-- A failing operation of each row, and an input longer than `IN_CAP`. -/
theorem witness_FailuresAreTheRulesKinds :
    reg State.status (exec (compressOf .rle) (capped 1 (ld [1]))) = some .error ∧
    reg State.status (exec (encodeOf .rle) (capped 11 (ld [1]))) = some .error ∧
    reg State.status (exec (decompressOf .rle) (ld [1])) = some .error ∧
    reg State.status (exec .pack { ld [] with argAlg := 7 }) = some .error ∧
    reg State.status (exec .unpack (ld [])) = some .error ∧
    reg State.status (exec .decode (ld [])) = some .error ∧
    Instr.pack.ctx = .command ∧ Instr.pack ≠ .clear ∧
    ({ ld [1, 2] with params := { params with inCap := some 1 } } : State).params.inCap = some 1 ∧
    1 < (ld [1, 2]).inLen.toNat := by decide +kernel

theorem holds_of (s : State) (len c : Nat) (h : len ≤ c) : (s.withOutCap (some c)).outHolds len := fun _ hc =>
  (Option.some.inj hc) ▸ h

theorem not_holds_of (s : State) (len c : Nat) (h : c < len) : ¬ (s.withOutCap (some c)).outHolds len := fun hh =>
  absurd (hh c rfl) (by omega)

/-- The output of one byte by RLE has two bytes, and its container 12: an `OUT_CAP` that holds each, and one that does
not. -/
theorem witness_CompressAndEncodeSucceed :
    (ld [5]).inputFits ∧ (Alg.lzss = .lzss → (ld [5]).inLen.toNat < 2 ^ 34) ∧
    (Instr.compressRle = compressOf .rle ∧ res (exec .compressRle (ld [5])) = some (.done, 0, [1, 5]) ∧
      ((ld [5]).withOutCap (some 2)).outHolds 2 ∧ ¬ ((ld [5]).withOutCap (some 1)).outHolds 2) ∧
    (Instr.encodeRle = encodeOf .rle ∧
      res (exec .encodeRle (ld [5])) = some (.done, 0, [0x4D, 0] ++ (u64le (ld [5]).inLen.toNat ++ [1, 5])) ∧
      ((ld [5]).withOutCap (some 12)).outHolds 12 ∧ ¬ ((ld [5]).withOutCap (some 11)).outHolds 12) :=
  ⟨fits _ rfl, fun _ => by decide,
    ⟨rfl, by decide +kernel, holds_of _ _ _ (by decide), not_holds_of _ _ _ (by decide)⟩,
    rfl, by decide +kernel, holds_of _ _ _ (by decide), not_holds_of _ _ _ (by decide)⟩

theorem witness_EmptyInputGivesEmptyOutput : (ld []).inLen = 0 := rfl

theorem witness_ClearReturnsToIdle :
    (busyWith (.writeCsr 0x00 .w8 0xF0)).host = [.writeCsr 0x00 .w8 0xF0] ∧
    (busyWith (.writeCsr 0x00 .w8 0xF0)).status = .busy ∧ (idleWith (.writeCsr 0x00 .w8 0xF0)).status ≠ .busy ∧
    (0xF0#64).truncate 8 = 0xF0#8 := by decide

/-- Two states that differ in the old result, a working register and a table. -/
theorem witness_NothingPersistsBetweenOperations :
    let s := ld [1, 1]
    let u := { ld [1, 1] with
      outMem := [(5, 9)], regs := { Regs.fresh with nextCode := 300 }, tabs := { Tables.fresh with mtf := [] } }
    Instr.compressRle.ctx = .command ∧ s.params = u.params ∧ s.inLen = u.inLen ∧
    (∀ a, a < s.inLen.toNat → s.inByteAt a = u.inByteAt a) ∧
    (∃ t, exec .compressRle s = .next t) ∧ ∃ t, exec .compressRle u = .next t :=
  ⟨rfl, rfl, rfl, fun _ _ => rfl, ⟨_, rfl⟩, ⟨_, rfl⟩⟩

theorem witness_RlePairAppendsCopies :
    (ld []).room (3 : Byte).toNat ∧ ¬ (capped 2 (ld [])).room (3 : Byte).toNat ∧
    (let s := running .rleD [3, 0x61] Regs.fresh;
      s.host = [] ∧ s.status = .busy ∧ s.phase = .rleD ∧ s.regs.ip + 2 ≤ s.regs.nIn ∧
      3 = s.inAt s.regs.ip ∧ 0x61 = s.inAt (s.regs.ip + 1)) :=
  ⟨room_of _ _ rfl, no_room_of _ _ 2 rfl (by decide) (by decide), by decide⟩

/-- The hypotheses of a round trip: the first input `x`, and the second state's input `y`, which is what the first
operation gives over `x`, each with the least `OUT_CAP` that holds the result. -/
abbrev TripPremises (c : Instr) (bound : Nat) (x y : Bytes) : Prop :=
  ((ld x).inputFits ∧ (ld x).inLen.toNat < bound ∧ ((ld x).withOutCap (some y.length)).outHolds y.length) ∧
  res (exec c ((ld x).withOutCap (some y.length))) = some (.done, 0, y) ∧
  ((ld y).withOutCap (some x.length)).outHolds x.length ∧ ((ld y).withOutCap (some x.length)).inputFits ∧
  ((ld y).withOutCap (some x.length)).inputBytes = y ∧
  ((ld y).withOutCap (some x.length)).params.magic = (ld x).params.magic

/-- V-RLE-1; its output does not fit an `OUT_CAP` of 1. -/
theorem witness_RleCompressWritesMaximalRuns :
    TripPremises .compressRle (2 ^ 56) [0x61] [1, 0x61] ∧ ¬ ((ld [0x61]).withOutCap (some 1)).outHolds 2 :=
  ⟨⟨⟨fits _ rfl, by decide, holds_of _ _ _ (by decide)⟩, by decide +kernel, holds_of _ _ _ (by decide), fits _ rfl,
    by decide, rfl⟩,
    not_holds_of _ _ _ (by decide)⟩

theorem witness_RleDecompressExpandsPairs :
    ((ld [1]).inputFits ∧ (ld [1]).inLen.toNat % 2 = 1) ∧ (ld [2, 1]).inputFits ∧ (ld [2, 1]).inLen.toNat < 2 ^ 56 ∧
    (ld [2, 1]).inputBytes = [((2 : Byte), (1 : Byte))].flatMap (fun p => [p.1, p.2]) ∧
    ((ld [2, 1]).withOutCap (some 2)).outHolds 2 ∧ ¬ ((ld [2, 1]).withOutCap (some 1)).outHolds 2 :=
  ⟨⟨fits _ rfl, by decide⟩, fits _ rfl, by decide, by decide, holds_of _ _ _ (by decide),
    not_holds_of _ _ _ (by decide)⟩

theorem witness_DeltaTokensAppendTheSum :
    (ld []).room 1 ∧ ¬ (capped 0 (ld [])).room 1 ∧
    (let s := running .deltaD (len8 1 ++ [5]) { Regs.fresh with ip := 8 };
      s.host = [] ∧ s.status = .busy ∧ s.phase = .deltaD ∧ s.regs.ip < s.regs.nIn ∧ 5 = s.inAt s.regs.ip) :=
  ⟨room_of _ _ rfl, no_room_of _ _ 0 rfl (by decide) (by decide), by decide⟩

/-- V-DELTA-1; its output does not fit an `OUT_CAP` of 8. -/
theorem witness_DeltaCompressWritesDifferences :
    (ld [0x61]).inputBytes = 0x61 :: [] ∧ TripPremises .compressDelta (2 ^ 56) [0x61] (len8 1 ++ [0x61]) ∧
    ¬ ((ld [0x61]).withOutCap (some 8)).outHolds 9 :=
  ⟨by decide, ⟨⟨fits _ rfl, by decide, holds_of _ _ _ (by decide)⟩, by decide +kernel, holds_of _ _ _ (by decide), fits _ rfl,
    by decide, rfl⟩,
    not_holds_of _ _ _ (by decide)⟩

/-- Lengths 1 and 7; 8 with a length above 0; 9 with another length, 8 with 0, and the sum over 9. -/
theorem witness_DeltaDecompressChecksAndSums :
    (ld [1]).inputFits ∧ 1 ≤ (ld [1]).inLen.toNat ∧ (ld (List.replicate 7 0)).inLen.toNat ≤ 7 ∧
    ((ld (len8 1)).inLen.toNat = 8 ∧ 0 < valueLE ((ld (len8 1)).inputBytes.take 8)) ∧
    (let s := ld (len8 2 ++ [5]);
      8 ≤ s.inLen.toNat ∧ (s.inLen.toNat = 8 → valueLE (s.inputBytes.take 8) = 0) ∧
      s.inLen.toNat - 8 ≠ valueLE (s.inputBytes.take 8)) ∧
    (let s := ld (len8 0);
      8 ≤ s.inLen.toNat ∧ s.inLen.toNat - 8 = valueLE (s.inputBytes.take 8)) ∧
    (let s := ld (len8 1 ++ [5]);
      8 ≤ s.inLen.toNat ∧ s.inLen.toNat - 8 = valueLE (s.inputBytes.take 8)) :=
  ⟨fits _ rfl, by decide, by decide, by decide, by decide, by decide, by decide⟩

/-- 43_lz77.md R161's example, at position 8: the candidates 0 and 4 both match 3 bytes. -/
theorem witness_FindMatchFindsTheFarthestLongest :
    let s := (ld [0x61, 0x62, 0x63, 0x58, 0x61, 0x62, 0x63, 0x59, 0x61, 0x62, 0x63]).start
    8 < s.regs.nIn ∧ 0 < 8 ∧ 8 ≤ 0 + 1024 ∧ 3 ≤ 32 ∧ 8 + 3 ≤ s.regs.nIn ∧
    (∀ k, k < 3 → s.inAt (0 + k) = s.inAt (8 + k)) ∧ (findMatch s 8 1024 32).bestLen = 3 ∧
    (findMatch s 8 1024 32).bestOff = 8 := by decide +kernel

theorem witness_Lz77CompressorIsGreedy :
    (let s := running .lz77C [1, 1, 1, 1] { Regs.fresh with ip := 1 };
      s.host = [] ∧ s.status = .busy ∧ s.phase = .lz77C ∧ s.regs.ip < s.regs.nIn ∧
      3 ≤ (findMatch s s.regs.ip 1024 32).bestLen) ∧
    (let s := running .lz77C [1, 1, 1] { Regs.fresh with ip := 1 };
      s.host = [] ∧ s.status = .busy ∧ s.phase = .lz77C ∧ s.regs.ip < s.regs.nIn ∧
      (findMatch s s.regs.ip 1024 32).bestLen < 3) := by decide +kernel

/-- Room for exactly a match, and for a literal, and one byte less of each. -/
theorem witness_Lz77CompressorIsGreedy_room :
    (capped 3 (running .lz77C [] Regs.fresh)).room 3 ∧ ¬ (capped 2 (running .lz77C [] Regs.fresh)).room 3 ∧
    (capped 2 (running .lz77C [] Regs.fresh)).room 2 ∧ ¬ (capped 1 (running .lz77C [] Regs.fresh)).room 2 :=
  ⟨room_within _ _ _ rfl (by decide), no_room_of _ _ 2 rfl (by decide) (by decide),
    room_within _ _ _ rfl (by decide), no_room_of _ _ 1 rfl (by decide) (by decide)⟩

/-- The flag `j` of a flag stream. -/
def flagOf (flags : Bytes) (j : Nat) : Bool := (flags.getD (j / 8) 0).getLsbD (j % 8)

/-- The LZSS compressor at the end of an empty input, with `m` flag bytes. -/
def flagged (m : Nat) : State :=
  { running .lzssC [] Regs.fresh with tabs := { Tables.fresh with flags := List.replicate m 0 } }

theorem flagged_length (m : Nat) : (flagged m).tabs.flags.length = m := List.length_replicate

theorem flagged_ends (m : Nat) : (flagged m).regs.nIn ≤ (flagged m).regs.ip := Nat.le_refl 0

/-- The start; a match and a literal as the last token of a flag byte and the first of one; the end, in and beyond
`OUT_CAP`; a flag count of 2^32 is met by a list of as many zeros. -/
theorem witness_LzssCompressorIsGreedy :
    ((started 0x14 [1]).JustStarted ∧ (started 0x14 [1]).cmd = 0x14 ∧ (started 0x14 [1]).inputFits ∧
      (started 0x14 [1]).inLen ≠ 0) ∧
    (let s := { running .lzssC [1, 1, 1, 1] { Regs.fresh with ip := 1, tok := 7 } with
        tabs := { Tables.fresh with flags := [0x01] } };
      s.host = [] ∧ s.status = .busy ∧ s.phase = .lzssC ∧ s.regs.ip < s.regs.nIn ∧
      s.tabs.flags.length = (s.regs.tok + 7) / 8 ∧ flagOf s.tabs.flags s.regs.tok = false ∧
      3 ≤ (findMatch s s.regs.ip 4096 18).bestLen) ∧
    (let s := running .lzssC [1] Regs.fresh;
      s.host = [] ∧ s.status = .busy ∧ s.phase = .lzssC ∧ s.regs.ip < s.regs.nIn ∧
      s.tabs.flags.length = (s.regs.tok + 7) / 8 ∧ flagOf s.tabs.flags s.regs.tok = false ∧
      (findMatch s s.regs.ip 4096 18).bestLen < 3) ∧
    (let s := running .lzssC [] Regs.fresh;
      s.regs.nIn ≤ s.regs.ip ∧ s.tabs.flags.length < 2 ^ 32 ∧ s.room (12 + 0 + 0) ∧ ¬ (capped 11 s).room (12 + 0 + 0)) ∧
    (flagged (2 ^ 32)).regs.nIn ≤ (flagged (2 ^ 32)).regs.ip ∧ 2 ^ 32 ≤ (flagged (2 ^ 32)).tabs.flags.length :=
  ⟨⟨rfl, rfl, fits _ rfl, by decide⟩, by decide +kernel, by decide +kernel,
    ⟨by decide, by decide, room_of _ _ rfl, no_room_of _ _ 11 rfl (by decide) (by decide)⟩,
    flagged_ends _, (flagged_length _).ge⟩

/-- 11 bytes; 12 bytes with one flag byte recorded; 12 bytes with none; the loop at its end, on `n` and past it. -/
theorem witness_LzssDecompressTestsItsFrame :
    ((ld []).inputFits ∧ 1 ≤ (ld (List.replicate 11 0)).inLen.toNat ∧ (ld (List.replicate 11 0)).inLen.toNat < 12) ∧
    (let s := ld (len8 1 ++ [1, 0, 0, 0]);
      12 ≤ s.inLen.toNat ∧ s.inLen.toNat < 12 + valueLE ((s.inputBytes.drop 8).take 4)) ∧
    (let s := ld (len8 0 ++ [0, 0, 0, 0]);
      12 ≤ s.inLen.toNat ∧ 12 + valueLE ((s.inputBytes.drop 8).take 4) ≤ s.inLen.toNat ∧
      valueLE (s.inputBytes.take 8) = 0 ∧ reg State.status (exec .decompressLzss s) = some .done) ∧
    (let s := running .lzssD [] { Regs.fresh with n := 3, outCount := 4 };
      s.host = [] ∧ s.status = .busy ∧ s.phase = .lzssD ∧ s.regs.n ≤ s.regs.outCount ∧ s.regs.outCount ≠ s.regs.n) ∧
    (let s := running .lzssD [] { Regs.fresh with n := 3, outCount := 3 };
      s.regs.n ≤ s.regs.outCount ∧ s.regs.outCount = s.regs.n ∧ s.regs.ending = .plain) :=
  ⟨⟨fits _ rfl, by decide, by decide⟩, by decide +kernel, by decide +kernel, by decide +kernel, by decide +kernel⟩

theorem witness_LiteralsAppendTheirByte : (ld []).room 1 ∧ ¬ (capped 0 (ld [])).room 1 :=
  ⟨room_of _ _ rfl, no_room_of _ _ 0 rfl (by decide) (by decide)⟩

/-- A running operation with one byte of history. -/
def withHistory (r : Regs) : State := { running .lz77D [] { r with outCount := 1 } with outMem := [(0, 0x61)] }

theorem witness_Lz77MatchCopiesHistory :
    (1 ≤ (1 : BitVec 16).toNat ∧ (1 : BitVec 16).toNat ≤ (withHistory Regs.fresh).regs.outCount ∧
      (withHistory Regs.fresh).room (127 : BitVec 7).toNat) ∧
    (1 ≤ (1 : BitVec 16).toNat ∧ ¬ (capped 127 (withHistory Regs.fresh)).room (127 : BitVec 7).toNat) ∧
    (0 : BitVec 16).toNat = 0 ∧ (withHistory Regs.fresh).regs.outCount < (2 : BitVec 16).toNat :=
  ⟨⟨by decide, by decide, room_of _ _ rfl⟩, ⟨by decide, no_room_of _ _ 127 rfl (by decide) (by decide)⟩,
    by decide, by decide⟩

theorem witness_LzssMatchCopiesHistory :
    ((0 : BitVec 12).toNat < (withHistory Regs.fresh).regs.outCount ∧
      (withHistory Regs.fresh).room ((15 : BitVec 4).toNat + 3)) ∧
    ¬ (capped 18 (withHistory Regs.fresh)).room ((15 : BitVec 4).toNat + 3) ∧
    (withHistory Regs.fresh).regs.outCount ≤ (1 : BitVec 12).toNat :=
  ⟨⟨by decide, room_of _ _ rfl⟩, no_room_of _ _ 18 rfl (by decide) (by decide), by decide⟩

/-- V-LZ77-1. -/
theorem witness_Lz77RoundTrip : TripPremises .compressLz77 (2 ^ 56) [0x61] [0x80, 0x61] :=
  ⟨⟨fits _ rfl, by decide, holds_of _ _ _ (by decide)⟩, by decide +kernel, holds_of _ _ _ (by decide), fits _ rfl,
    by decide, rfl⟩

/-- V-LZSS-1. -/
theorem witness_LzssRoundTrip : TripPremises .compressLzss (2 ^ 34) [0x61] (len8 1 ++ [1, 0, 0, 0, 0, 0x61]) :=
  ⟨⟨fits _ rfl, by decide, holds_of _ _ _ (by decide)⟩, by decide +kernel, holds_of _ _ _ (by decide), fits _ rfl,
    by decide, rfl⟩

/-- The first code; a known one; the one just made; the first one unknown, and a later one. -/
theorem witness_LzwCodeAppendsItsString :
    (let s := running .lzwD [] { Regs.fresh with n := 2 };
      s.regs.prevCode = none ∧ (255 : BitVec 12).toNat < 256 ∧ [255#8] = s.dictAt (255 : BitVec 12).toNat ∧
      s.room (min 1 (s.regs.n - s.regs.outCount))) ∧
    (let s := running .lzwD [] { Regs.fresh with n := 2, prevCode := some 97 };
      s.regs.prevCode = some 97 ∧ (98 : BitVec 12).toNat < s.regs.nextCode ∧
      [98#8] = s.dictAt (98 : BitVec 12).toNat ∧ s.regs.nextCode < 4096 ∧
      (256 : BitVec 12).toNat = s.regs.nextCode ∧ s.dictAt 97 ++ (s.dictAt 97).take 1 = [97#8, 97#8] ∧
      ¬ (capped 1 s).room (min 2 (s.regs.n - s.regs.outCount)) ∧ s.regs.nextCode < (257 : BitVec 12).toNat) ∧
    (running .lzwD [] Regs.fresh).regs.prevCode = none ∧ 256 ≤ (256 : BitVec 12).toNat :=
  ⟨⟨rfl, by decide, by decide, room_of _ _ rfl⟩,
    ⟨rfl, by decide, by decide, by decide, by decide, by decide, no_room_of _ _ 1 rfl (by decide) (by decide),
      by decide⟩, rfl, by decide⟩

/-- V-LZW-1. -/
theorem witness_LzwRoundTrip : TripPremises .compressLzw (2 ^ 56) [0x61] (len8 1 ++ [6, 0x10]) :=
  ⟨⟨fits _ rfl, by decide, holds_of _ _ _ (by decide)⟩, by decide +kernel, holds_of _ _ _ (by decide), fits _ rfl,
    by decide, rfl⟩

/-- The start with room and without; a prefix that grows; one that does not, with the packer empty and half full and
without room; the end, with room for exactly its bytes and without. -/
theorem witness_LzwCompressorPacksItsCodes :
    ((started 0x13 [1]).JustStarted ∧ (started 0x13 [1]).cmd = 0x13 ∧ (started 0x13 [1]).inputFits ∧
      (started 0x13 [1]).inLen ≠ 0 ∧ (started 0x13 [1]).room 8 ∧ ¬ (capped 7 (started 0x13 [1])).room 8) ∧
    (let s := { running .lzwC [97, 97] { Regs.fresh with ip := 1, w := some 97, nextCode := 257 } with
        tabs := { Tables.fresh with dict := Tables.dictSeed ++ [[97, 97]] } };
      s.host = [] ∧ s.status = .busy ∧ s.phase = .lzwC ∧ s.regs.w = some 97 ∧ 97 < 4096 ∧ s.regs.nacc = 0 ∧
      s.regs.acc < 2 ^ s.regs.nacc ∧ s.regs.ip < s.regs.nIn ∧
      s.tabs.dict[256]? = some (s.dictAt 97 ++ [s.inAt s.regs.ip])) ∧
    (let s := running .lzwC [97, 98] { Regs.fresh with ip := 1, w := some 97, nacc := 4, acc := 15 };
      s.regs.w = some 97 ∧ s.regs.nacc = 4 ∧ s.regs.acc < 2 ^ s.regs.nacc ∧ s.regs.ip < s.regs.nIn ∧
      (s.dictAt 97 ++ [s.inAt s.regs.ip]) ∉ s.tabs.dict) ∧
    ¬ (capped 1 (running .lzwC [97, 98] Regs.fresh)).room 2 ∧
    (running .lzwC [97] { Regs.fresh with ip := 1 }).regs.nIn ≤ 1 ∧
    (capped 2 (running .lzwC [] Regs.fresh)).room (1 + 1) ∧ ¬ (capped 1 (running .lzwC [] Regs.fresh)).room (1 + 1) :=
  ⟨⟨rfl, rfl, fits _ rfl, by decide, room_of _ _ rfl, no_room_of _ _ 7 rfl (by decide) (by decide)⟩,
    by decide +kernel, by decide +kernel, no_room_of _ _ 1 rfl (by decide) (by decide), by decide,
    room_within _ _ _ rfl (by decide), no_room_of _ _ 1 rfl (by decide) (by decide)⟩

/-- 7 bytes; 8 and 9 bytes, with a length above 0 and with 0; the end of the codes with too few bytes and with enough. -/
theorem witness_LzwDecompressTestsItsFrame :
    ((ld []).inputFits ∧ 1 ≤ (ld (List.replicate 7 0)).inLen.toNat ∧ (ld (List.replicate 7 0)).inLen.toNat < 8) ∧
    (let s := ld (len8 1);
      8 ≤ s.inLen.toNat ∧ 0 < valueLE (s.inputBytes.take 8)) ∧
    (let s := ld (len8 0 ++ [7]);
      s.inLen.toNat < 10 ∧ valueLE (s.inputBytes.take 8) = 0 ∧ reg State.status (exec .decompressLzw s) = some .done) ∧
    (let s := running .lzwD (len8 2) { Regs.fresh with n := 2, total := 1 };
      s.host = [] ∧ s.status = .busy ∧ s.phase = .lzwD ∧ 8 * (s.regs.nIn - 8) < s.regs.bp + 12 ∧
      s.regs.total < s.regs.n) ∧
    (let s := running .lzwD (len8 2) { Regs.fresh with n := 2, total := 2 };
      s.regs.n ≤ s.regs.total ∧ s.regs.ending = .plain) :=
  ⟨⟨fits _ rfl, by decide, by decide⟩, by decide +kernel, by decide +kernel, by decide +kernel, by decide +kernel⟩

/-- A running tree walk or tree read with the tree `00 01 61 02`. -/
def oneChild (slots : List Slot) (node : Option Nat) : State :=
  { running .hufBits [] { Regs.fresh with slots := slots, node := node, root := some 0 } with
    tabs := { Tables.fresh with tree := [.internal (some 1) none, .leaf 0x61] } }

/-- The root, a left and a right child are asked for. -/
theorem witness_HuffmanTagsBuildTheTree :
    (oneChild [.root] none).SlotReady ∧ (oneChild [.left 0] none).SlotReady ∧
    (oneChild [.right 1] none).SlotReady := ⟨trivial, by show 0 < 2; decide, by show 1 < 2; decide⟩

theorem witness_HuffmanBitWalksTheTree :
    (let s := oneChild [] (some 0);
      s.regs.node = some 0 ∧ s.tabs.tree[0]? = some (.internal (some 1) none) ∧
      s.tabs.tree[1]? = some (.leaf 0x61) ∧ s.room 1 ∧ ¬ (capped 0 s).room 1) ∧
    (let s := { oneChild [] (some 0) with
        tabs := { Tables.fresh with tree := [.internal (some 1) none, .internal none none] } };
      s.tabs.tree[0]? = some (.internal (some 1) none) ∧ s.tabs.tree[1]? = some (.internal none none)) ∧
    (oneChild [] none).regs.node = none ∧
    (oneChild [] (some 1)).regs.node = some 1 ∧ (oneChild [] (some 1)).tabs.tree[1]? = some (.leaf 0x61) :=
  ⟨⟨rfl, rfl, rfl, room_of _ _ rfl, no_room_of _ _ 0 rfl (by decide) (by decide)⟩, ⟨rfl, rfl⟩, rfl, rfl, rfl⟩

/-- V-HUF-1. -/
theorem witness_HuffmanRoundTrip :
    TripPremises .compressHuffman (2 ^ 56) [0x61] (len8 1 ++ [4, 0, 0, 0, 0, 1, 0x61, 2] ++ len8 1 ++ [0]) :=
  ⟨⟨fits _ rfl, by decide, holds_of _ _ _ (by decide)⟩, by decide +kernel, holds_of _ _ _ (by decide), fits _ rfl,
    by decide, rfl⟩

/-- The counts of `aab`. -/
def countsAab : List Nat := List.replicate 97 0 ++ [2, 1] ++ List.replicate 157 0

/-- One symbol and two. -/
theorem witness_HuffmanMergesTheTwoLeast :
    (List.replicate 97 0 ++ [3] ++ List.replicate 158 0).length = 256 ∧
    [97] = (List.range 256).filter
      (fun v => decide (0 < (List.replicate 97 0 ++ [3] ++ List.replicate 158 0).getD v 0)) ∧
    countsAab.length = 256 ∧ [97, 98] = (List.range 256).filter (fun v => decide (0 < countsAab.getD v 0)) := by
  decide +kernel

/-- V-HUF-5 with an `OUT_CAP` that holds its 30 bytes, and one that does not. -/
theorem witness_HuffmanCompressWritesItsFrame :
    (let s := ld [0x61, 0x61, 0x62];
      1 ≤ s.inLen.toNat ∧ s.inLen.toNat < 72057594037927936 ∧
      countsAab = (List.range 256).map (fun v => s.inputBytes.count (BitVec.ofNat 8 v))) ∧
    (ld [0x61, 0x61, 0x62]).inputFits ∧
    ((ld [0x61, 0x61, 0x62]).withOutCap (some 26)).outHolds 26 ∧
    ¬ ((ld [0x61, 0x61, 0x62]).withOutCap (some 25)).outHolds 26 :=
  ⟨by decide +kernel, fits _ rfl, holds_of _ _ _ (by decide), not_holds_of _ _ _ (by decide)⟩

/-- 11 bytes; 12 bytes with a tree of 768; with a tree of 1 and 20 bytes; the end of `Des` in its three cases; the end of
the walk in its two. -/
theorem witness_HuffmanDecompressTestsItsFrame :
    ((ld []).inputFits ∧ 1 ≤ (ld (List.replicate 11 0)).inLen.toNat ∧ (ld (List.replicate 11 0)).inLen.toNat < 12) ∧
    (let s := ld (len8 1 ++ [0, 3, 0, 0]);
      12 ≤ s.inLen.toNat ∧ 767 < valueLE ((s.inputBytes.drop 8).take 4)) ∧
    (let s := ld (len8 1 ++ [1, 0, 0, 0] ++ len8 0);
      12 ≤ s.inLen.toNat ∧ s.inLen.toNat < 12 + valueLE ((s.inputBytes.drop 8).take 4) + 8) ∧
    (let s := ld (len8 0 ++ [1, 0, 0, 0, 2] ++ len8 0);
      reg State.status (exec .decompressHuffman s) = some .done) ∧
    (let s := running .hufTree (hufIn 2 2) { Regs.fresh with tl := 2, tp := 1, slots := [] };
      s.host = [] ∧ s.status = .busy ∧ s.phase = .hufTree ∧ s.regs.slots = [] ∧ s.regs.tp ≠ s.regs.tl) ∧
    (let s := running .hufTree (len8 1 ++ [1, 0, 0, 0, 2] ++ len8 9 ++ [0]) { Regs.fresh with tl := 1, tp := 1, slots := [] };
      s.regs.tp = s.regs.tl ∧
      s.regs.nIn - 20 - s.regs.tl < (valueLE (s.inSlice (12 + s.regs.tl) 8) + 7) / 8) ∧
    (let s := running .hufTree (len8 1 ++ [1, 0, 0, 0, 2] ++ len8 8 ++ [0]) { Regs.fresh with tl := 1, tp := 1, slots := [] };
      s.regs.tp = s.regs.tl ∧
      (valueLE (s.inSlice (12 + s.regs.tl) 8) + 7) / 8 ≤ s.regs.nIn - 20 - s.regs.tl) ∧
    (let s := running .hufBits [] { Regs.fresh with n := 1 };
      s.phase = .hufBits ∧ s.regs.outCount < s.regs.n ∧ s.regs.tb ≤ s.regs.bp) ∧
    (let s := running .hufBits [] Regs.fresh;
      s.phase = .hufBits ∧ s.regs.n ≤ s.regs.outCount ∧ s.regs.ending = .plain) :=
  ⟨⟨fits _ rfl, by decide, by decide⟩, by decide +kernel, by decide +kernel, by decide +kernel, by decide +kernel,
    by decide +kernel, by decide +kernel, by decide +kernel, by decide +kernel⟩

theorem witness_MtfIndexMovesToFront : (ld []).tabs.mtf.Perm Tables.mtfIdentity := .refl _

theorem witness_ForwardTransformSortsRotations : banana ≠ [] := by decide

theorem witness_LfMappingIsAPermutation :
    [0, 1] = (lfMapping (startOffsets 0 (countBytes [1, 1])) (List.replicate 256 0) [1, 1]).1 ∧ 1 < [1#8, 1#8].length := by
  decide +kernel

/-- V-BWT-1. -/
theorem witness_BwtRoundTrip :
    TripPremises .compressBwt (2 ^ 56) [0x61] (len8 1 ++ len8 0 ++ len8 1 ++ [0x61]) :=
  ⟨⟨fits _ rfl, by decide, holds_of _ _ _ (by decide)⟩, by decide +kernel, holds_of _ _ _ (by decide), fits _ rfl,
    by decide, rfl⟩

theorem witness_BwtCompressWritesItsChunks :
    (ld banana).inputFits ∧ 1 ≤ (ld banana).inLen.toNat ∧ (ld banana).inLen.toNat < 2 ^ 56 ∧
    ((ld banana).withOutCap (some 30)).outHolds 30 ∧ ¬ ((ld banana).withOutCap (some 29)).outHolds 30 :=
  ⟨fits _ rfl, by decide, by decide, holds_of _ _ _ (by decide), not_holds_of _ _ _ (by decide)⟩

/-- A chunk header with the primary index `p` and the size `cs`, and then one byte. -/
def chunkIn (p cs : Bytes) : State := running .bwtChunk (len8 1 ++ (p ++ cs ++ [0x61])) { Regs.fresh with ip := 8, n := 1 }

/-- 7 bytes; 8 bytes with a length above 0 and with 0; a chunk header of 15 bytes; one with a size of 100001, of 2, of 1 and
an index of 1, and a good one; the end of a chunk with room and without; the end of the frame on `n` and off it. -/
theorem witness_BwtDecompressTestsItsFrame :
    ((ld []).inputFits ∧ 1 ≤ (ld (List.replicate 7 0)).inLen.toNat ∧ (ld (List.replicate 7 0)).inLen.toNat < 8) ∧
    ((ld (len8 1)).inLen.toNat = 8 ∧ 0 < valueLE ((ld (len8 1)).inputBytes.take 8)) ∧
    ((ld (len8 0)).inLen.toNat = 8 ∧ valueLE ((ld (len8 0)).inputBytes.take 8) = 0 ∧
      reg State.status (exec .decompressBwt (ld (len8 0))) = some .done) ∧
    (let s := running .bwtChunk (len8 1 ++ List.replicate 15 0) { Regs.fresh with ip := 8 };
      s.host = [] ∧ s.status = .busy ∧ s.phase = .bwtChunk ∧ s.regs.ip < s.regs.nIn ∧ s.regs.nIn < s.regs.ip + 16) ∧
    (∀ x ∈ [(len8 0, [0xA1, 0x86, 1, 0, 0, 0, 0, 0]), (len8 0, len8 2), (len8 1, len8 1)],
      let s := chunkIn x.1 x.2;
      let p := valueLE (s.inSlice s.regs.ip 8);
      let cs := valueLE (s.inSlice (s.regs.ip + 8) 8);
      s.regs.ip + 16 ≤ s.regs.nIn ∧ (100000 < cs ∨ s.regs.nIn < s.regs.ip + 16 + cs ∨ cs ≤ p)) ∧
    (let s := chunkIn (len8 0) (len8 1);
      s.regs.ip + 16 + valueLE (s.inSlice (s.regs.ip + 8) 8) ≤ s.regs.nIn ∧
      valueLE (s.inSlice (s.regs.ip + 8) 8) ≤ 100000 ∧
      valueLE (s.inSlice s.regs.ip 8) < valueLE (s.inSlice (s.regs.ip + 8) 8)) ∧
    (let s := { running .bwtIdx [] { Regs.fresh with cs := 1, k := 1 } with tabs := { Tables.fresh with chunk := [0x61] } };
      s.phase = .bwtIdx ∧ s.regs.cs ≤ s.regs.k ∧ s.tabs.chunk.length = s.regs.cs ∧ s.regs.p < s.regs.cs) ∧
    ((capped 1 (running .bwtIdx [] Regs.fresh)).room 1 ∧ ¬ (capped 0 (running .bwtIdx [] Regs.fresh)).room 1) ∧
    (let s := running .bwtChunk [] { Regs.fresh with n := 1 };
      s.regs.nIn ≤ s.regs.ip ∧ s.regs.outCount ≠ s.regs.n) ∧
    (let s := running .bwtChunk [] Regs.fresh;
      s.regs.nIn ≤ s.regs.ip ∧ s.regs.outCount = s.regs.n ∧ s.regs.ending = .plain) :=
  ⟨⟨fits _ rfl, by decide, by decide⟩, by decide +kernel, by decide +kernel, by decide +kernel, by decide +kernel,
    by decide +kernel, by decide +kernel,
    ⟨room_within _ _ _ rfl (by decide), no_room_of _ _ 0 rfl (by decide) (by decide)⟩, by decide +kernel,
    by decide +kernel⟩

theorem witness_PackWritesTheHeader :
    (ld []).inputFits ∧ ({ ld [] with argAlg := 6 } : State).argAlg.toNat ≤ 6 ∧ (ld []).inLen.toNat < 2 ^ 63 ∧
    6 < ({ ld [] with argAlg := 7 } : State).argAlg.toNat ∧ ((ld []).withOutCap (some 10)).outHolds 10 ∧
    ¬ ((ld []).withOutCap (some 9)).outHolds 10 :=
  ⟨fits _ rfl, by decide, by decide, by decide, holds_of _ _ _ (by decide), not_holds_of _ _ _ (by decide)⟩

/-- 9 bytes; 10 bytes with another magic, an id of 7, an id of 6. -/
theorem witness_UnpackParsesTheHeader :
    (ld []).inputFits ∧ (ld ([0x4D, 0] ++ List.replicate 7 0)).inLen.toNat < 10 ∧
    (10 ≤ (ld ([0x4E, 0] ++ len8 0)).inLen.toNat ∧ (ld ([0x4E, 0] ++ len8 0)).inByteAt 0 ≠ 0x4D) ∧
    (10 ≤ (ld ([0x4D, 7] ++ len8 0)).inLen.toNat ∧ (ld ([0x4D, 7] ++ len8 0)).inByteAt 0 = 0x4D ∧
      6 < ((ld ([0x4D, 7] ++ len8 0)).inByteAt 1).toNat) ∧
    (10 ≤ (ld ([0x4D, 6] ++ len8 0)).inLen.toNat ∧ (ld ([0x4D, 6] ++ len8 0)).inByteAt 0 = 0x4D ∧
      ((ld ([0x4D, 6] ++ len8 0)).inByteAt 1).toNat ≤ 6) ∧ (ld []).params.magic = 0x4D ∧
    ((ld ([0x4D, 6] ++ len8 0 ++ [1])).withOutCap (some 1)).outHolds (11 - 10) ∧
    ¬ ((ld ([0x4D, 6] ++ len8 0 ++ [1])).withOutCap (some 0)).outHolds (11 - 10) :=
  ⟨fits _ rfl, by decide, by decide, by decide, by decide, rfl, holds_of _ _ _ (by decide),
    not_holds_of _ _ _ (by decide)⟩

/-- PACK of one byte, and V-CONT-9 shortened. -/
theorem witness_ContainersRoundTrip :
    (ld [9]).argAlg.toNat ≤ 6 ∧ TripPremises .pack (2 ^ 63) [9] ([0x4D, 0] ++ len8 0 ++ [9]) ∧
    TripPremises (encodeOf .rle) (2 ^ 34) [0x61] ([0x4D, 0] ++ len8 1 ++ [1, 0x61]) :=
  ⟨by decide, ⟨⟨fits _ rfl, by decide, holds_of _ _ _ (by decide)⟩, by decide +kernel, holds_of _ _ _ (by decide), fits _ rfl,
    by decide, rfl⟩,
    ⟨⟨fits _ rfl, by decide, holds_of _ _ _ (by decide)⟩, by decide +kernel, holds_of _ _ _ (by decide), fits _ rfl,
    by decide, rfl⟩⟩

/-- A container of RLE. -/
def rleBox (size : Word64) (p : Bytes) : State := ld ([0x4D, 0] ++ (u64le size.toNat ++ p))

/-- The premises of DECODE over `rleBox size p`, and what the decompressor gives over the payload. -/
abbrev BoxPremises (size : Word64) (p : Bytes) (r : Status × Byte × Bytes) : Prop :=
  (rleBox size p).inputFits ∧ (rleBox size p).inLen.toNat ≤ 12 ∧
  (rleBox size p).inputBytes = (rleBox size p).params.magic :: BitVec.ofNat 8 (algId .rle) :: (u64le size.toNat ++ p) ∧
  (ld p).params = (rleBox size p).params ∧ (ld p).inputBytes = p ∧ res (exec (decompressOf .rle) (ld p)) = some r

/-- 9 bytes; 10 bytes with another magic, and with an id of 7; an empty payload with size 0; a payload that decodes to as
many bytes as recorded, to another number, and not at all. -/
theorem witness_DecodeRunsTheNamedDecompressor :
    ((ld []).inputFits ∧ (ld ([0x4D, 0] ++ List.replicate 7 0)).inLen.toNat = 9) ∧
    ((ld ([0x4E, 0] ++ len8 0)).inLen.toNat = 10 ∧ (ld ([0x4E, 0] ++ len8 0)).inByteAt 0 ≠ params.magic) ∧
    ((ld ([0x4D, 7] ++ len8 0)).inLen.toNat = 10 ∧ (ld ([0x4D, 7] ++ len8 0)).inByteAt 0 = params.magic ∧
      6 < ((ld ([0x4D, 7] ++ len8 0)).inByteAt 1).toNat) ∧
    12 < 2 ^ 50 ∧ BoxPremises 0 [] (.done, 0, []) ∧ BoxPremises 6 [6, 0x61] (.done, 0, List.replicate 6 0x61) ∧
    BoxPremises 7 [6, 0x61] (.done, 0, List.replicate 6 0x61) ∧ BoxPremises 6 [6] (.error, 3, []) :=
  ⟨⟨fits _ rfl, by decide⟩, by decide, by decide, by norm_num,
    ⟨fits _ rfl, by decide, by decide, rfl, by decide, by decide +kernel⟩,
    ⟨fits _ rfl, by decide, by decide, rfl, by decide, by decide +kernel⟩,
    ⟨fits _ rfl, by decide, by decide, rfl, by decide, by decide +kernel⟩,
    ⟨fits _ rfl, by decide, by decide, rfl, by decide, by decide +kernel⟩⟩

theorem witness_EveryStepKeepsTheInvariant : doneState.Inv ∧ ∃ t, step doneState = .next t :=
  ⟨doneState_inv, ⟨_, rfl⟩⟩

theorem witness_ParametersNeverChange : ∃ t, step State.reset = .next t := ⟨_, rfl⟩

end Sys2Proof.Tests
end

section
/-! The frame of the engine's work: `KeepsInputs` for every piece of an operation, for a whole operation and for every
instruction (60_exceptions.md R320, 20_memory.md R62), and from it O60. -/

namespace Sys2Proof.Machine

/-! ## Partial correctness of a piece of an operation -/

/-- Every answer of `r` that is no raise satisfies `P`. -/
def Answers {α : Type} (r : Except ErrKind α) (P : α → Prop) : Prop := ∀ a, r = .ok a → P a

theorem answers_ok {α : Type} {P : α → Prop} {a : α} : Answers (.ok a) P ↔ P a :=
  ⟨fun h => h a rfl, fun h _ e => Except.ok.inj e ▸ h⟩

theorem answers_error {α : Type} {P : α → Prop} {k : ErrKind} : Answers (.error k) P :=
  fun _ h => nomatch h

/-- A test that raises. -/
theorem answers_guard {α : Type} {P : α → Prop} {c : Prop} [Decidable c] {k : ErrKind} {r : Except ErrKind α}
    (hr : Answers r P) : Answers (if c then .error k else r) P := by
  split
  · exact answers_error
  · exact hr

theorem Answers.imp {α : Type} {r : Except ErrKind α} {P Q : α → Prop} (hr : Answers r P) (h : ∀ a, P a → Q a) :
    Answers r Q := fun a e => h a (hr a e)

theorem Answers.bind {α β : Type} {r : Except ErrKind α} {f : α → Except ErrKind β} {P : α → Prop} {Q : β → Prop}
    (hr : Answers r P) (hf : ∀ a, P a → Answers (f a) Q) : Answers (r >>= f) Q := by
  cases r with
  | ok a => exact hf a (answers_ok.1 hr)
  | error k => exact answers_error

/-! ## `KeepsInputs` as a relation between states -/

theorem State.KeepsInputs.refl (s : State) : s.KeepsInputs s := ⟨rfl, rfl, rfl, fun _ => rfl, rfl, rfl, rfl, rfl⟩

theorem State.KeepsInputs.trans {s t u : State} (h : s.KeepsInputs t) (h' : t.KeepsInputs u) : s.KeepsInputs u where
  params := h'.params.trans h.params
  cmd := h'.cmd.trans h.cmd
  inLen := h'.inLen.trans h.inLen
  inMem a := (h'.inMem a).trans (h.inMem a)
  host := h'.host.trans h.host
  rdata := h'.rdata.trans h.rdata
  epoch := h'.epoch.trans h.epoch
  draws := h'.draws.trans h.draws

/-- What the engine itself writes is no part of the inputs. -/
theorem State.keepsInputs_engine (s : State) {status : Status} {err argAlg : Byte} {outLen argSize : Word64}
    {outMem : Memory} {regs : Regs} {tabs : Tables} {phase : Phase} :
    s.KeepsInputs { s with
      status := status, err := err, argAlg := argAlg, outLen := outLen, argSize := argSize, outMem := outMem
      regs := regs, tabs := tabs, phase := phase } :=
  ⟨rfl, rfl, rfl, fun _ => rfl, rfl, rfl, rfl, rfl⟩

theorem State.raise_keepsInputs (s : State) (k : ErrKind) : s.KeepsInputs (s.raise k) := s.keepsInputs_engine

theorem State.start_keepsInputs (s : State) : s.KeepsInputs s.start := s.keepsInputs_engine

theorem State.clear_keepsInputs (s : State) : s.KeepsInputs s.clear := s.keepsInputs_engine

theorem State.finish_keepsInputs (s : State) : s.KeepsInputs s.finish := s.keepsInputs_engine

theorem State.finishArgs_keepsInputs (s : State) : s.KeepsInputs s.finishArgs := s.keepsInputs_engine

theorem State.putAll_keepsInputs (s : State) (bs : Bytes) : s.KeepsInputs (s.putAll bs) := s.keepsInputs_engine

theorem State.dictAdd_keepsInputs (s : State) (x : Bytes) : s.KeepsInputs (s.dictAdd x) := by
  unfold State.dictAdd
  split
  · exact s.keepsInputs_engine
  · exact .refl s

theorem lzwLearn_keepsInputs (x : Bytes) (s : State) : s.KeepsInputs (lzwLearn x s) := by
  unfold lzwLearn
  split
  · exact .refl s
  · exact s.dictAdd_keepsInputs _

theorem State.fillSlot_keepsInputs (s : State) (v : Option Nat) (more : List Slot) :
    s.KeepsInputs (s.fillSlot v more) := by
  unfold State.fillSlot
  split <;> exact s.keepsInputs_engine

theorem State.settle_keepsInputs {s : State} {r : Run} (h : Answers r s.KeepsInputs) : s.KeepsInputs (s.settle r) := by
  cases r with
  | ok t => exact answers_ok.1 h
  | error k => exact s.raise_keepsInputs k

/-! ## Composing pieces that keep the inputs -/

/-- A piece that begins in a later state. -/
theorem Answers.since {s t : State} {r : Run} (hr : Answers r t.KeepsInputs) (h : s.KeepsInputs t) :
    Answers r s.KeepsInputs := hr.imp fun _ => h.trans

theorem Answers.andThen {s : State} {r : Run} {f : State → Run} (hr : Answers r s.KeepsInputs)
    (hf : ∀ t, Answers (f t) t.KeepsInputs) : Answers (r >>= f) s.KeepsInputs :=
  hr.bind fun t h => (hf t).since h

/-- A piece that ends with a write of the working registers, the tables or the phase. -/
theorem answers_work (s : State) {regs : Regs} {tabs : Tables} {phase : Phase} :
    Answers (.ok { s with regs := regs, tabs := tabs, phase := phase }) s.KeepsInputs :=
  answers_ok.2 s.keepsInputs_engine

theorem State.goTo_answers (s : State) (ph : Phase) : Answers (.ok (s.goTo ph)) s.KeepsInputs := answers_work s

/-! ## Output -/

theorem State.emit_keepsInputs (s : State) (b : Byte) : Answers (s.emit b) s.KeepsInputs := fun _ h =>
  (State.emit_ok.1 h).2 ▸ s.putAll_keepsInputs [b]

theorem State.emitSeq_keepsInputs (s : State) (bs : Bytes) : Answers (s.emitSeq bs) s.KeepsInputs := fun _ h =>
  (State.emitSeq_ok h).2 ▸ s.putAll_keepsInputs bs

theorem State.copyHistory_keepsInputs (s : State) (off len : Nat) : Answers (s.copyHistory off len) s.KeepsInputs := by
  intro t h
  obtain ⟨bs, -, rfl⟩ := State.copyHistory_ok h
  exact s.putAll_keepsInputs bs

theorem packDrain_keepsInputs (more : Nat) (s : State) : Answers (packDrain more s) s.KeepsInputs := by
  induction more generalizing s with
  | zero => exact answers_ok.2 (.refl s)
  | succ more ih => exact (s.emit_keepsInputs _).andThen fun t => (ih _).since t.keepsInputs_engine

theorem putCode_keepsInputs (c : Nat) (s : State) : Answers (putCode c s) s.KeepsInputs :=
  ((packDrain_keepsInputs _ _).since s.keepsInputs_engine).andThen fun t => answers_work t

theorem flushBits_keepsInputs (s : State) : Answers (flushBits s) s.KeepsInputs := by
  unfold flushBits
  split
  · exact (s.emit_keepsInputs _).andThen fun t => answers_work t
  · exact answers_ok.2 (.refl s)

theorem putBit_keepsInputs (b : Bool) (s : State) : Answers (putBit b s) s.KeepsInputs := by
  unfold putBit
  split
  · exact (s.emit_keepsInputs _).andThen fun t => answers_work t
  · exact answers_work s

theorem putBits_keepsInputs (bs : List Bool) (s : State) : Answers (putBits bs s) s.KeepsInputs := by
  induction bs generalizing s with
  | nil => exact answers_ok.2 (.refl s)
  | cons b bs ih => exact (putBit_keepsInputs b s).andThen ih

/-! ## The end of an operation -/

theorem State.endOp_keepsInputs (s : State) : Answers s.endOp s.KeepsInputs := by
  unfold State.endOp
  split
  · exact answers_ok.2 s.finish_keepsInputs
  · exact answers_ok.2 s.finishArgs_keepsInputs
  · exact answers_guard (answers_ok.2 s.finishArgs_keepsInputs)

/-! ## BWT + MTF -/

theorem bwtCStart_keepsInputs (s : State) : Answers (bwtCStart s) s.KeepsInputs :=
  (s.emitSeq_keepsInputs _).andThen fun t => answers_work t

theorem bwtUnit_keepsInputs (s : State) : Answers (bwtUnit s) s.KeepsInputs :=
  (s.emitSeq_keepsInputs _).andThen fun t => answers_work t

theorem bwtDStart_keepsInputs (s : State) : Answers (bwtDStart s) s.KeepsInputs :=
  answers_guard (answers_work s)

theorem bwtHeader_keepsInputs (s : State) : Answers (bwtHeader s) s.KeepsInputs :=
  answers_guard (answers_guard (answers_guard (answers_guard (answers_work s))))

theorem mtfIdx_keepsInputs (i : Byte) (s : State) : Answers (mtfIdx i s) s.KeepsInputs := answers_work s

theorem bwtChunkEnd_keepsInputs (s : State) : Answers (bwtChunkEnd s) s.KeepsInputs :=
  ((State.emitSeq_keepsInputs _ _).since s.keepsInputs_engine).andThen fun t => answers_work t

theorem bwtDEnd_keepsInputs (s : State) : Answers (bwtDEnd s) s.KeepsInputs :=
  answers_guard s.endOp_keepsInputs

/-! ## Delta -/

theorem deltaCStart_keepsInputs (s : State) : Answers (deltaCStart s) s.KeepsInputs :=
  (s.emitSeq_keepsInputs _).andThen fun t => (t.emitSeq_keepsInputs _).andThen fun u => answers_work u

theorem deltaUnit_keepsInputs (s : State) : Answers (deltaUnit s) s.KeepsInputs :=
  (s.emitSeq_keepsInputs _).andThen fun t => answers_work t

theorem deltaDStart_keepsInputs (s : State) : Answers (deltaDStart s) s.KeepsInputs :=
  answers_guard (answers_guard (answers_guard (answers_work s)))

theorem deltaOut_keepsInputs (b : Byte) (s : State) : Answers (deltaOut b s) s.KeepsInputs :=
  (s.emit_keepsInputs b).andThen fun t => answers_work t

/-! ## LZW -/

theorem lzwCStart_keepsInputs (s : State) : Answers (lzwCStart s) s.KeepsInputs :=
  ((State.emitSeq_keepsInputs _ _).since s.keepsInputs_engine).andThen fun t => answers_work t

theorem lzwUnit_keepsInputs (s : State) : Answers (lzwUnit s) s.KeepsInputs := by
  unfold lzwUnit
  dsimp only
  split
  · exact answers_work s
  · exact (putCode_keepsInputs _ s).andThen fun t => (answers_work _).since (t.dictAdd_keepsInputs _)

theorem lzwCEnd_keepsInputs (s : State) : Answers (lzwCEnd s) s.KeepsInputs :=
  (putCode_keepsInputs _ s).andThen fun t => (flushBits_keepsInputs t).andThen fun u => u.goTo_answers _

theorem lzwDStart_keepsInputs (s : State) : Answers (lzwDStart s) s.KeepsInputs :=
  answers_guard (answers_work s)

theorem lzwCode_keepsInputs (c : BitVec 12) (s : State) : Answers (lzwCode c s) s.KeepsInputs := by
  unfold lzwCode
  split
  · exact answers_error
  · exact ((State.emitSeq_keepsInputs _ _).since (lzwLearn_keepsInputs _ s)).andThen fun t => answers_work t

theorem lzwDEnd_keepsInputs (s : State) : Answers (lzwDEnd s) s.KeepsInputs :=
  answers_guard s.endOp_keepsInputs

/-! ## Huffman -/

theorem hufCStart_keepsInputs (s : State) : Answers (hufCStart s) s.KeepsInputs :=
  ((State.emitSeq_keepsInputs _ _).since s.keepsInputs_engine).andThen fun t => answers_work t

theorem hufUnit_keepsInputs (s : State) : Answers (hufUnit s) s.KeepsInputs :=
  (putBits_keepsInputs _ s).andThen fun t => answers_work t

theorem hufCEnd_keepsInputs (s : State) : Answers (hufCEnd s) s.KeepsInputs :=
  (flushBits_keepsInputs s).andThen fun t => t.goTo_answers _

theorem hufDStart_keepsInputs (s : State) : Answers (hufDStart s) s.KeepsInputs :=
  answers_guard (answers_guard (answers_guard (answers_work s)))

theorem hufInt_keepsInputs (s : State) : Answers (hufInt s) s.KeepsInputs :=
  answers_ok.2 (s.keepsInputs_engine.trans (State.fillSlot_keepsInputs _ _ _))

theorem hufLeaf_keepsInputs (sym : Byte) (s : State) : Answers (hufLeaf sym s) s.KeepsInputs :=
  answers_ok.2 (s.keepsInputs_engine.trans (State.fillSlot_keepsInputs _ _ _))

theorem hufNull_keepsInputs (s : State) : Answers (hufNull s) s.KeepsInputs :=
  answers_ok.2 (s.keepsInputs_engine.trans (State.fillSlot_keepsInputs _ _ _))

theorem hufTreeEnd_keepsInputs (s : State) : Answers (hufTreeEnd s) s.KeepsInputs :=
  answers_guard (answers_guard (answers_work s))

theorem hufBit_keepsInputs (dir : BitVec 1) (s : State) : Answers (hufBit dir s) s.KeepsInputs := by
  unfold hufBit
  split
  · split
    · exact answers_error
    · split
      · exact (s.emit_keepsInputs _).andThen fun t => answers_work t
      · exact answers_work s
  · exact answers_error

theorem hufDEnd_keepsInputs (s : State) : Answers (hufDEnd s) s.KeepsInputs :=
  answers_guard s.endOp_keepsInputs

/-! ## LZ77 and LZSS -/

theorem lz77Unit_keepsInputs (s : State) : Answers (lz77Unit s) s.KeepsInputs :=
  (s.emitSeq_keepsInputs _).andThen fun t => answers_work t

theorem lz77Lit_keepsInputs (b : Byte) (s : State) : Answers (lz77Lit b s) s.KeepsInputs :=
  (s.emit_keepsInputs b).andThen fun t => answers_work t

theorem lz77Match_keepsInputs (len : BitVec 7) (off : BitVec 16) (s : State) :
    Answers (lz77Match len off s) s.KeepsInputs :=
  answers_guard ((s.copyHistory_keepsInputs _ _).andThen fun t => answers_work t)

theorem lzssUnit_keepsInputs (s : State) : Answers (lzssUnit s) s.KeepsInputs := answers_work s

theorem lzssCEnd_keepsInputs (s : State) : Answers (lzssCEnd s) s.KeepsInputs :=
  answers_guard ((s.emitSeq_keepsInputs _).andThen fun t => answers_work t)

theorem lzssDStart_keepsInputs (s : State) : Answers (lzssDStart s) s.KeepsInputs :=
  answers_guard (answers_guard (answers_work s))

theorem lzssLit_keepsInputs (b : Byte) (s : State) : Answers (lzssLit b s) s.KeepsInputs :=
  (s.emit_keepsInputs b).andThen fun t => answers_work t

theorem lzssMatch_keepsInputs (off : BitVec 12) (len : BitVec 4) (s : State) :
    Answers (lzssMatch off len s) s.KeepsInputs :=
  answers_guard ((s.copyHistory_keepsInputs _ _).andThen fun t => answers_work t)

theorem lzssDEnd_keepsInputs (s : State) : Answers (lzssDEnd s) s.KeepsInputs :=
  answers_guard s.endOp_keepsInputs

/-! ## RLE -/

theorem rleUnit_keepsInputs (s : State) : Answers (rleUnit s) s.KeepsInputs :=
  (s.emitSeq_keepsInputs _).andThen fun t => answers_work t

theorem rleDStart_keepsInputs (s : State) : Answers (rleDStart s) s.KeepsInputs :=
  answers_guard (s.goTo_answers _)

theorem rlePair_keepsInputs (count value : Byte) (s : State) : Answers (rlePair count value s) s.KeepsInputs :=
  (s.emitSeq_keepsInputs _).andThen fun t => answers_work t

/-! ## The start of a run -/

theorem State.checkCap_keepsInputs (s : State) : Answers s.checkCap s.KeepsInputs := by
  unfold State.checkCap
  split
  · exact answers_ok.2 (.refl s)
  · exact answers_guard (answers_ok.2 (.refl s))

theorem beginCompress_keepsInputs (a : Alg) (s : State) : Answers (beginCompress a s) s.KeepsInputs := by
  unfold beginCompress
  split
  · exact s.goTo_answers _
  · cases a with
    | rle => exact s.goTo_answers _
    | lz77 => exact s.goTo_answers _
    | huffman => exact hufCStart_keepsInputs s
    | lzw => exact lzwCStart_keepsInputs s
    | lzss => exact s.goTo_answers _
    | delta => exact deltaCStart_keepsInputs s
    | bwt => exact bwtCStart_keepsInputs s

theorem beginDecompress_keepsInputs (a : Alg) (s : State) : Answers (beginDecompress a s) s.KeepsInputs := by
  unfold beginDecompress
  split
  · exact s.goTo_answers _
  · cases a with
    | rle => exact rleDStart_keepsInputs s
    | lz77 => exact s.goTo_answers _
    | huffman => exact hufDStart_keepsInputs s
    | lzw => exact lzwDStart_keepsInputs s
    | lzss => exact lzssDStart_keepsInputs s
    | delta => exact deltaDStart_keepsInputs s
    | bwt => exact bwtDStart_keepsInputs s

theorem beginPack_keepsInputs (s : State) : Answers (beginPack s) s.KeepsInputs :=
  answers_guard ((s.emitSeq_keepsInputs _).andThen fun t => t.goTo_answers _)

theorem readHeader_keepsInputs (s : State) : Answers (readHeader s) fun x => s.KeepsInputs x.2 := by
  refine answers_guard (answers_guard ?_)
  split
  · exact answers_error
  · exact answers_ok.2 s.keepsInputs_engine

theorem beginUnpack_keepsInputs (s : State) : Answers (beginUnpack s) s.KeepsInputs :=
  (readHeader_keepsInputs s).bind fun x h => (answers_work x.2).since h

theorem beginEncode_keepsInputs (a : Alg) (s : State) : Answers (beginEncode a s) s.KeepsInputs :=
  (s.emitSeq_keepsInputs _).andThen fun t => (beginCompress_keepsInputs a _).since t.keepsInputs_engine

theorem beginDecode_keepsInputs (s : State) : Answers (beginDecode s) s.KeepsInputs :=
  (readHeader_keepsInputs s).bind fun x h =>
    (beginDecompress_keepsInputs x.1 _).since (h.trans x.2.keepsInputs_engine)

/-- The start of every command's run keeps the inputs. -/
theorem beginOf_keepsInputs {i : Instr} {b : State → Run} (h : beginOf i = some b) (s : State) :
    Answers (b s) s.KeepsInputs := by
  cases i <;> cases h
  case compressRle | compressLz77 | compressHuffman | compressLzw | compressLzss | compressDelta | compressBwt =>
    exact beginCompress_keepsInputs _ s
  case decompressRle | decompressLz77 | decompressHuffman | decompressLzw | decompressLzss | decompressDelta |
      decompressBwt =>
    exact beginDecompress_keepsInputs _ s
  case encodeRle | encodeLz77 | encodeHuffman | encodeLzw | encodeLzss | encodeDelta | encodeBwt =>
    exact beginEncode_keepsInputs _ s
  case pack => exact beginPack_keepsInputs s
  case unpack => exact beginUnpack_keepsInputs s
  case decode => exact beginDecode_keepsInputs s

theorem beginRun_keepsInputs {i : Instr} {b : State → Run} (h : beginOf i = some b) (s : State) :
    s.KeepsInputs (beginRun b s) :=
  s.settle_keepsInputs (s.checkCap_keepsInputs.andThen (beginOf_keepsInputs h))

/-! ## A unit of work -/

/-- Every token keeps the inputs. -/
theorem tokenEffect_keepsInputs (i : Instr) (s : State) : Answers (tokenEffect i s) s.KeepsInputs := by
  cases i with
  | rlePair count value => exact rlePair_keepsInputs count value s
  | deltaFirst b => exact deltaOut_keepsInputs b s
  | deltaDiff d => exact deltaOut_keepsInputs _ s
  | lz77Lit b => exact lz77Lit_keepsInputs b s
  | lz77Match len off => exact lz77Match_keepsInputs len off s
  | lzssLit b => exact lzssLit_keepsInputs b s
  | lzssMatch off len => exact lzssMatch_keepsInputs off len s
  | lzwCode c => exact lzwCode_keepsInputs c s
  | hufInt => exact hufInt_keepsInputs s
  | hufLeaf sym => exact hufLeaf_keepsInputs sym s
  | hufNull => exact hufNull_keepsInputs s
  | hufBit dir => exact hufBit_keepsInputs dir s
  | mtfIdx r => exact mtfIdx_keepsInputs r s
  | _ => exact answers_error

theorem copyUnit_keepsInputs (s : State) : Answers (copyUnit s) s.KeepsInputs :=
  (s.emit_keepsInputs _).andThen fun t => answers_work t

theorem turn_keepsInputs {s : State} {unit after : State → Run} (hu : Answers (unit s) s.KeepsInputs)
    (ha : Answers (after s) s.KeepsInputs) : Answers (turn s unit after) s.KeepsInputs := by
  unfold turn
  split
  · exact hu
  · exact ha

/-- The work between tokens keeps the inputs, wherever the operation stands. -/
theorem advance_keepsInputs (s : State) : Answers (advance s) s.KeepsInputs := by
  unfold advance
  cases s.phase with
  | off | command => exact answers_ok.2 (.refl s)
  | finished | rleD | deltaD | lz77D => exact s.endOp_keepsInputs
  | rleC => exact turn_keepsInputs (rleUnit_keepsInputs s) s.endOp_keepsInputs
  | deltaC => exact turn_keepsInputs (deltaUnit_keepsInputs s) s.endOp_keepsInputs
  | lz77C => exact turn_keepsInputs (lz77Unit_keepsInputs s) s.endOp_keepsInputs
  | lzssC => exact turn_keepsInputs (lzssUnit_keepsInputs s) (lzssCEnd_keepsInputs s)
  | lzssD => exact lzssDEnd_keepsInputs s
  | lzwC => exact turn_keepsInputs (lzwUnit_keepsInputs s) (lzwCEnd_keepsInputs s)
  | lzwD => exact lzwDEnd_keepsInputs s
  | hufC => exact turn_keepsInputs (hufUnit_keepsInputs s) (hufCEnd_keepsInputs s)
  | hufTree => exact hufTreeEnd_keepsInputs s
  | hufBits => exact hufDEnd_keepsInputs s
  | bwtC => exact turn_keepsInputs (bwtUnit_keepsInputs s) s.endOp_keepsInputs
  | bwtChunk => exact turn_keepsInputs (bwtHeader_keepsInputs s) (bwtDEnd_keepsInputs s)
  | bwtIdx => exact bwtChunkEnd_keepsInputs s
  | pack | unpack => exact turn_keepsInputs (copyUnit_keepsInputs s) s.endOp_keepsInputs

theorem unitOfWork_keepsInputs (s : State) : s.KeepsInputs (unitOfWork s) := by
  obtain ⟨i, -, h⟩ | ⟨x, -, h⟩ | ⟨-, h⟩ := unitOfWork_cases s
  · exact h ▸ s.settle_keepsInputs (tokenEffect_keepsInputs i s)
  · exact h ▸ s.raise_keepsInputs _
  · exact h ▸ s.settle_keepsInputs (advance_keepsInputs s)

theorem runUnits_keepsInputs (fuel : Nat) (s : State) : s.KeepsInputs (runUnits fuel s) :=
  runUnits_keeps (P := s.KeepsInputs) (fun t _ h => h.trans (unitOfWork_keepsInputs t)) fuel (.refl s)

/-! ## A whole operation -/

theorem operate_keepsInputs {i : Instr} {b : State → Run} (h : beginOf i = some b) (s : State) :
    s.KeepsInputs (operate b s) :=
  (s.start_keepsInputs.trans (beginRun_keepsInputs h _)).trans (runUnits_keepsInputs _ _)

/-- A command that starts a run means the whole operation. -/
theorem exec_of_beginOf {i : Instr} {b : State → Run} (h : beginOf i = some b) (s : State) :
    exec i s = .next (operate b s) := by
  cases i <;> cases h <;> rfl

/-- An instruction that is no command means its token's effect. -/
theorem exec_token {i : Instr} (h : beginOf i = none) (hc : i ≠ .clear) (s : State) :
    exec i s = .next (s.settle (tokenEffect i s)) := by
  cases i <;> cases h
  case clear => exact absurd rfl hc
  all_goals rfl

/-- Every instruction answers a next state, and keeps the inputs. -/
theorem exec_keepsInputs (i : Instr) (s : State) : ∃ t, exec i s = .next t ∧ s.KeepsInputs t := by
  cases h : beginOf i with
  | some b => exact ⟨_, exec_of_beginOf h s, operate_keepsInputs h s⟩
  | none =>
    by_cases hc : i = .clear
    · exact ⟨_, hc ▸ rfl, s.clear_keepsInputs⟩
    · exact ⟨_, exec_token h hc s, s.settle_keepsInputs (tokenEffect_keepsInputs i s)⟩

theorem beginCommand_keepsInputs (s : State) : s.KeepsInputs (beginCommand s) := by
  unfold beginCommand
  split
  · exact s.raise_keepsInputs _
  · split
    · next h => exact beginRun_keepsInputs h s
    · exact s.clear_keepsInputs

theorem tick_keepsInputs (s : State) : s.KeepsInputs (tick s) := by
  unfold tick
  split_ifs
  · exact beginCommand_keepsInputs s
  · exact unitOfWork_keepsInputs s
  · exact .refl s

/-- One step of the engine answers a next state, and keeps the inputs. -/
theorem engineStep_keepsInputs (s : State) : ∃ t, engineStep s = .next t ∧ s.KeepsInputs t := by
  unfold engineStep
  split
  · next i _ => exact exec_keepsInputs i s
  · exact ⟨_, rfl, s.raise_keepsInputs _⟩
  · refine ⟨_, rfl, ?_⟩
    split
    · exact s.settle_keepsInputs (advance_keepsInputs s)
    · exact .refl s

theorem hostWait_keepsInputs (s : State) : ∃ t, hostWait s = .next t ∧ s.KeepsInputs t := by
  unfold hostWait
  split
  · exact ⟨_, rfl, runUnits_keepsInputs _ s⟩
  · exact engineStep_keepsInputs s

/-! ## The parameters (00_scope.md R9) -/

/-- The next state, where `o` has one, has the parameters `p`. -/
def NextHasParams (o : Host.Outcome State Fault Refusal) (p : Params) : Prop := ∀ t, o = .next t → t.params = p

theorem nextHasParams_next {t : State} {p : Params} : NextHasParams (.next t) p ↔ t.params = p :=
  ⟨fun h => h t rfl, fun h _ e => Host.Outcome.next.inj e ▸ h⟩

theorem nextHasParams_fault {f : Fault} {p : Params} : NextHasParams (.fault f) p :=
  fun _ h => nomatch h

theorem nextHasParams_refused {r : Refusal} {p : Params} : NextHasParams (.refused r) p :=
  fun _ h => nomatch h

theorem nextHasParams_of_keepsInputs {s : State} {o : Host.Outcome State Fault Refusal}
    (h : ∃ t, o = .next t ∧ s.KeepsInputs t) : NextHasParams o s.params := by
  obtain ⟨t, rfl, ht⟩ := h
  exact nextHasParams_next.2 ht.params

theorem writeCsr_params (c : Csr) (v : Word64) (s : State) : NextHasParams (writeCsr c v s) s.params := by
  unfold writeCsr
  split
  · exact nextHasParams_next.2 rfl
  · cases c with
    | cmd =>
      simp only [writeCmd, execClear]
      split
      · exact nextHasParams_next.2 rfl
      · exact nextHasParams_next.2 rfl
    | status | err | inLen | outLen | argAlg | argSize => exact nextHasParams_next.2 rfl

theorem hostWriteIn_params (addr : Nat) (bytes : Bytes) (s : State) :
    NextHasParams (hostWriteIn addr bytes s) s.params := by
  unfold hostWriteIn
  split_ifs
  · exact nextHasParams_refused
  · exact nextHasParams_fault
  · exact nextHasParams_next.2 rfl

theorem hostReadOut_params (addr : Nat) (s : State) : NextHasParams (hostReadOut addr s) s.params := by
  unfold hostReadOut
  split
  · exact nextHasParams_refused
  · split
    · exact nextHasParams_fault
    · split
      · exact nextHasParams_next.2 rfl
      · exact nextHasParams_next.2 rfl

/-- Every move of the host, the reset input among them, keeps the parameters. -/
theorem hostMove_params (m : HostMove) (s : State) : NextHasParams (hostMove m s) s.params := by
  cases m with
  | writeIn addr bytes => exact hostWriteIn_params addr bytes s
  | writeCsr offset width value =>
    simp only [hostMove]
    split
    · exact writeCsr_params _ value s
    · exact nextHasParams_refused
  | readCsr offset width =>
    simp only [hostMove]
    split
    · exact nextHasParams_next.2 rfl
    · exact nextHasParams_refused
  | readOut addr => exact hostReadOut_params addr s
  | tick => exact nextHasParams_next.2 (tick_keepsInputs s).params
  | wait => exact nextHasParams_of_keepsInputs (hostWait_keepsInputs s)
  | reset => exact nextHasParams_next.2 (hostReset_params s)

theorem step_params (s : State) : NextHasParams (step s) s.params := by
  unfold step
  split
  · next m rest _ => exact hostMove_params m { s with host := rest }
  · exact nextHasParams_of_keepsInputs (engineStep_keepsInputs s)

/-- Settles O60: the engine's work keeps the inputs, the parameters among them, and no move of the host writes them. -/
theorem parametersNeverChange : Obligations.ParametersNeverChange := step_params

end Sys2Proof.Machine
end

section
/-! The state at reset, the CSR map and the fetch of tokens: O58, O1, O14 and O8. -/

namespace Sys2Proof.Machine

/-! ## The working tables at reset and at a start (10_state.md R39, R40) -/

theorem Tables.dictSeed_length : Tables.dictSeed.length = 256 := by simp [Tables.dictSeed]

theorem Tables.dictSeed_getElem? {c : Nat} (h : c < 256) : Tables.dictSeed[c]? = some [BitVec.ofNat 8 c] := by
  simp [Tables.dictSeed, h]

/-- Settles O58: outside BUSY, ERROR and DONE the clauses on a running operation and on a result are empty, and the
tables are the seeds. -/
theorem invariantHoldsAtReset : Obligations.InvariantHoldsAtReset where
  inWf := .nil
  outWf := .nil
  errSet h := nomatch h
  errClear _ := rfl
  outLenClear _ := rfl
  phaseBusy := ⟨(nomatch ·), fun h => absurd rfl h⟩
  resultThere h := nomatch h
  historyThere h := nomatch h
  outFits h := nomatch h
  resultFits h := nomatch h
  mtfPerm := .refl _
  dictSize := Tables.dictSeed_length
  dictCap := ⟨Nat.le_refl 256, by decide⟩
  dictSeed _ := Tables.dictSeed_getElem?
  notBegun h := nomatch h

/-! ## What a step takes up (log 6) -/

theorem step_of_host_cons {s : State} {m : HostMove} {rest : List HostMove} (h : s.host = m :: rest) :
    step s = hostMove m { s with host := rest } := by simp [step, h]

theorem step_of_host_nil {s : State} (h : s.host = []) : step s = engineStep s := by simp [step, h]

/-- Settles O1: by the update lemmas of the reset input. -/
theorem resetLeavesRegistersZero : Obligations.ResetLeavesRegistersZero := by
  refine ⟨⟨rfl, rfl, rfl, rfl, rfl, rfl, rfl, rfl, Memory.read_nil, Memory.read_nil⟩, fun s rest h => ?_⟩
  exact ⟨_, step_of_host_cons h, rfl, rfl, rfl, rfl, rfl, rfl, rfl, rfl, rfl, rfl, Memory.read_nil, Memory.read_nil⟩

/-! ## The CSR map (10_state.md R30) -/

/-- The offset of a register. -/
def csrOffset : Csr → Nat
  | .cmd => 0x00
  | .status => 0x08
  | .err => 0x10
  | .inLen => 0x18
  | .outLen => 0x20
  | .argAlg => 0x28
  | .argSize => 0x30

theorem csrOf_csrOffset (c : Csr) : csrOf (csrOffset c) (csrWidth c) = some c := by cases c <;> rfl

/-- An access names a register only at that register's offset and in its width. -/
theorem csrOf_eq_some {offset : Nat} {width : Width} {c : Csr} (h : csrOf offset width = some c) :
    offset = csrOffset c ∧ width = csrWidth c := by
  unfold csrOf at h
  split at h
  · next d hd =>
    split at h
    · next hw =>
      cases h
      refine ⟨?_, hw.symm⟩
      unfold csrAt at hd
      split at hd <;> cases hd <;> rfl
    · cases h
  · cases h

theorem hostMove_readCsr {offset : Nat} {width : Width} {c : Csr} (h : csrOf offset width = some c) (s : State) :
    hostMove (.readCsr offset width) s = .next { s with rdata := s.csr c } := by simp [hostMove, h]

theorem hostMove_writeCsr {offset : Nat} {width : Width} {c : Csr} (h : csrOf offset width = some c) (v : Word64)
    (s : State) : hostMove (.writeCsr offset width v) s = writeCsr c v s := by simp [hostMove, h]

/-- A write outside BUSY reaches its register. -/
theorem writeCsr_of_not_busy {s : State} (h : s.status ≠ .busy) (v : Word64) :
    writeCsr .inLen v s = .next { s with inLen := v } ∧
    writeCsr .argAlg v s = .next { s with argAlg := v.truncate 8 } ∧
    writeCsr .argSize v s = .next { s with argSize := v } := by simp [writeCsr, h]

/-- The rows of the map as a list of offsets and widths. -/
theorem csr_mem_map (c : Csr) : (csrOffset c, csrWidth c) ∈
    [(0x00, Width.w8), (0x08, .w8), (0x10, .w8), (0x18, .w64), (0x20, .w64), (0x28, .w8), (0x30, .w64)] := by
  cases c <;> decide

/-- Settles O14: by the register an access names. -/
theorem csrAccessesFollowTheMap : Obligations.CsrAccessesFollowTheMap := by
  refine ⟨fun s offset width rest v h hrow => ?_, fun s v rest hb => ?_, fun s offset width v rest hrow => ?_⟩
  · have read (c : Csr) (hc : csrOf offset width = some c) (hv : v = s.csr c) :
        step s = .next { s with host := rest, rdata := v } := by
      rw [step_of_host_cons h, hostMove_readCsr hc, hv]
      cases c <;> rfl
    simp only [List.mem_cons, Prod.mk.injEq, List.not_mem_nil, or_false] at hrow
    obtain ⟨rfl, rfl, hv⟩ | ⟨rfl, rfl, hv⟩ | ⟨rfl, rfl, hv⟩ | ⟨rfl, rfl, hv⟩ | ⟨rfl, rfl, hv⟩ | ⟨rfl, rfl, hv⟩ |
      ⟨rfl, rfl, hv⟩ := hrow
    · exact read .cmd rfl hv
    · exact read .status rfl hv
    · exact read .err rfl hv
    · exact read .inLen rfl hv
    · exact read .outLen rfl hv
    · exact read .argAlg rfl hv
    · exact read .argSize rfl hv
  · obtain ⟨hlen, halg, hsize⟩ := writeCsr_of_not_busy (s := { s with host := rest }) hb v
    refine ⟨fun h => ?_, fun h => ?_, fun h => ?_⟩
    · exact (step_of_host_cons h).trans ((hostMove_writeCsr (csrOf_csrOffset .inLen) v _).trans hlen)
    · exact (step_of_host_cons h).trans ((hostMove_writeCsr (csrOf_csrOffset .argAlg) v _).trans halg)
    · exact (step_of_host_cons h).trans ((hostMove_writeCsr (csrOf_csrOffset .argSize) v _).trans hsize)
  · have hc : csrOf offset width = none := by
      refine Option.eq_none_iff_forall_ne_some.2 fun c hc => hrow ?_
      obtain ⟨rfl, rfl⟩ := csrOf_eq_some hc
      exact csr_mem_map c
    refine ⟨fun h => ?_, fun h => ?_⟩
    · simp [step_of_host_cons h, hostMove, hc]
    · simp [step_of_host_cons h, hostMove, hc]

/-! ## The fetch of a token (30_encoding.md R80, R100) -/

theorem State.window_cons (s : State) {a hi : Nat} (h : a < hi) (len : Nat) :
    s.window a hi (len + 1) = s.inAt a :: s.window (a + 1) hi len := by
  have hmin : min (len + 1) (hi - a) = min len (hi - (a + 1)) + 1 := by omega
  rw [State.window, hmin, State.inSlice, State.window]

section fetch

variable {s : State}

theorem fetchBytes_rle (h : s.phase = .rleD) : s.fetchBytes =
    if s.regs.ip < s.regs.nIn then some (.ok (.rle, s.window s.regs.ip s.regs.nIn 2)) else none := by
  rw [State.fetchBytes, h]

theorem fetchBytes_delta (h : s.phase = .deltaD) : s.fetchBytes =
    if s.regs.ip < s.regs.nIn then
      some (.ok (if s.regs.ip = 8 then .deltaFirst else .deltaDiff, s.window s.regs.ip s.regs.nIn 1))
    else none := by
  rw [State.fetchBytes, h]
  rfl

theorem fetchBytes_lz77 (h : s.phase = .lz77D) : s.fetchBytes =
    if s.regs.ip < s.regs.nIn then some (.ok (.lz77, s.window s.regs.ip s.regs.nIn 3)) else none := by
  rw [State.fetchBytes, h]

/-- Where the flags last (44_lzss.md R185). -/
theorem fetchBytes_lzss (h : s.phase = .lzssD) (hn : s.regs.outCount < s.regs.n)
    (ht : s.regs.tok < 8 * s.regs.fc) {isMatch : Bool}
    (hf : (s.inAt (12 + s.regs.tok / 8)).getLsbD (s.regs.tok % 8) = isMatch) : s.fetchBytes =
    some (.ok (if isMatch then .lzssMatch else .lzssLit,
      s.window (12 + s.regs.fc + s.regs.dp) s.regs.nIn 2)) := by
  simp only [State.fetchBytes, h, if_pos hn, if_neg (Nat.not_le.2 ht), State.flagAt, hf]

theorem fetchBytes_lzw (h : s.phase = .lzwD) : s.fetchBytes =
    if s.regs.bp + 12 ≤ 8 * (s.regs.nIn - 8) then
      some (.ok (.lzw (s.regs.bp % 8), s.window (8 + s.regs.bp / 8) s.regs.nIn 3))
    else none := by
  rw [State.fetchBytes, h]
  rfl

theorem fetchBytes_hufTree (h : s.phase = .hufTree) : s.fetchBytes =
    if s.regs.slots ≠ [] then
      some (.ok (.hufTree, s.window (12 + s.regs.tp) (12 + s.regs.tl) 2))
    else none := by
  rw [State.fetchBytes, h]

theorem fetchBytes_hufBits (h : s.phase = .hufBits) : s.fetchBytes =
    if s.regs.outCount < s.regs.n ∧ s.regs.bp < s.regs.tb then
      some (.ok (.hufBit (s.regs.bp % 8), s.window (20 + s.regs.tl + s.regs.bp / 8) s.regs.nIn 1))
    else none := by
  rw [State.fetchBytes, h]

theorem fetchBytes_bwt (h : s.phase = .bwtIdx) : s.fetchBytes =
    if s.regs.k < s.regs.cs then
      some (.ok (.mtf, s.window (s.regs.ip + 16 + s.regs.k) s.regs.nIn 1))
    else none := by
  rw [State.fetchBytes, h]

end fetch

/-- A BUSY engine inside a frame executes the token it fetches. -/
theorem step_of_fetch {s : State} {c : Ctx} {bs : Bytes} {i : Instr} (hh : s.host = []) (hb : s.status = .busy)
    (hp : s.phase ≠ .command) (hf : s.fetchBytes = some (.ok (c, bs))) (hd : decode c bs = .ok i) :
    step s = exec i s := by
  have hn : s.nextInstr = some (.ok i) := by
    simp [State.nextInstr, hb, hp, State.nextToken, hf, bind, Except.bind, hd]
  rw [step_of_host_nil hh, engineStep, hn]

/-! ## Fields of the bit streams (00_scope.md R12) -/

theorem bitsFrom_length (bs : Bytes) (i len : Nat) : (bitsFrom bs i len).length = len := by
  induction len generalizing i with
  | zero => rfl
  | succ len ih => rw [bitsFrom, List.length_cons, ih]

theorem bitsFrom_getElem (bs : Bytes) (i len k : Nat) (h : k < (bitsFrom bs i len).length) :
    (bitsFrom bs i len)[k] = bitAt bs (i + k) := by
  induction len generalizing i k with
  | zero => cases h
  | succ len ih =>
    cases k with
    | zero => rfl
    | succ k =>
      have h' : k < (bitsFrom bs (i + 1) len).length := Nat.lt_of_succ_lt_succ h
      exact (ih (i + 1) k h').trans (by rw [Nat.add_assoc, Nat.add_comm 1 k])

theorem bitsValue_concat (bits : List Bool) (b : Bool) : bitsValue (bits ++ [b]) = 2 * bitsValue bits + b.toNat := by
  simp [bitsValue]

/-- The digits of a number are the bits it is made of, the last one at position 0. -/
theorem testBit_bitsValue (bits : List Bool) (i : Nat) : (bitsValue bits).testBit i = bits.reverse.getD i false := by
  induction bits using List.reverseRecOn generalizing i with
  | nil => simp [bitsValue]
  | append_singleton bits b ih =>
    rw [bitsValue_concat, List.reverse_append, List.reverse_singleton, List.singleton_append]
    cases i with
    | zero => cases b <;> simp [Nat.testBit_zero]
    | succ i =>
      have hdiv : (2 * bitsValue bits + b.toNat) / 2 = bitsValue bits := by cases b <;> simp; omega
      rw [Nat.testBit_succ, hdiv, ih, List.getD_cons_succ]

/-- Bit `i` of a field of `len` bits, counted from its lowest one. -/
theorem getLsbD_bitsFrom (bs : Bytes) (p len i : Nat) (h : i < len) :
    (BitVec.ofNat len (bitsValue (bitsFrom bs p len))).getLsbD i = bitAt bs (p + (len - 1 - i)) := by
  have hi : i < (bitsFrom bs p len).reverse.length := by simpa [bitsFrom_length] using h
  rw [BitVec.getLsbD_ofNat, testBit_bitsValue, decide_eq_true h, Bool.true_and, List.getD_eq_getElem _ _ hi,
    List.getElem_reverse, bitsFrom_getElem]
  simp only [bitsFrom_length]

/-- A bit of the first byte. -/
theorem bitAt_cons_of_lt (b : Byte) (bs : Bytes) {i : Nat} (h : i < 8) : bitAt (b :: bs) i = b.getLsbD (7 - i) := by
  rw [bitAt, Nat.div_eq_of_lt h, Nat.mod_eq_of_lt h, List.getD_cons_zero]

/-- A bit of a later byte. -/
theorem bitAt_cons_of_le (b : Byte) (bs : Bytes) {i : Nat} (h : 8 ≤ i) : bitAt (b :: bs) i = bitAt bs (i - 8) := by
  have hdiv : i / 8 = (i - 8) / 8 + 1 := by omega
  have hmod : i % 8 = (i - 8) % 8 := by omega
  rw [bitAt, bitAt, hdiv, hmod, List.getD_cons_succ]

/-- The code that the bits from `bit` on make, where the input holds it. -/
theorem decode_lzw {bs : Bytes} {bit : Nat} {c : BitVec 12} (hlen : bit + 12 ≤ 8 * bs.length)
    (hc : ∀ i, i < 12 → bitAt bs (bit + (11 - i)) = c.getLsbD i) : decode (.lzw bit) bs = .ok (.lzwCode c) := by
  have hcode : BitVec.ofNat 12 (bitsValue (bitsFrom bs bit Config.lzwCodeBits)) = c :=
    BitVec.eq_of_getLsbD_eq fun i hi => (getLsbD_bitsFrom bs bit 12 i hi).trans (hc i hi)
  exact (if_pos hlen).trans (by rw [hcode])

/-- An LZW code that begins with a byte (30_encoding.md R93). -/
theorem decode_lzw_first (a b : Byte) (rest : Bytes) :
    decode (.lzw 0) (a :: b :: rest) = .ok (.lzwCode (a ++ b.extractLsb' 4 4)) := by
  refine decode_lzw (by simp only [List.length_cons]; omega) fun i hi => ?_
  rw [BitVec.getLsbD_append]
  split
  · next h =>
    have hidx : 7 - (0 + (11 - i) - 8) = 4 + i := by omega
    rw [bitAt_cons_of_le _ _ (by omega), bitAt_cons_of_lt _ _ (by omega), hidx]
    simp [h]
  · next h =>
    have hidx : 7 - (0 + (11 - i)) = i - 4 := by omega
    rw [bitAt_cons_of_lt _ _ (by omega), hidx]

/-- An LZW code that begins in the middle of a byte (30_encoding.md R93). -/
theorem decode_lzw_second (a b : Byte) (rest : Bytes) :
    decode (.lzw 4) (a :: b :: rest) = .ok (.lzwCode (a.extractLsb' 0 4 ++ b)) := by
  refine decode_lzw (by simp only [List.length_cons]; omega) fun i hi => ?_
  rw [BitVec.getLsbD_append]
  split
  · next h =>
    have hidx : 7 - (4 + (11 - i) - 8) = i := by omega
    rw [bitAt_cons_of_le _ _ (by omega), bitAt_cons_of_lt _ _ (by omega), hidx]
  · next h =>
    have hidx : 7 - (4 + (11 - i)) = i - 8 := by omega
    have hlow : i - 8 < 4 := by omega
    rw [bitAt_cons_of_lt _ _ (by omega), hidx]
    simp [hlow]

/-- A bit of a Huffman payload (30_encoding.md R96). -/
theorem decode_hufBit (a : Byte) (rest : Bytes) {k : Nat} (h : k < 8) :
    decode (.hufBit k) (a :: rest) = .ok (.hufBit (a.extractLsb' (7 - k) 1)) := by
  have hlen : k < 8 * (a :: rest).length := by rw [List.length_cons]; omega
  have hbit : BitVec.ofBool (bitAt (a :: rest) k) = a.extractLsb' (7 - k) 1 := by
    refine BitVec.eq_of_getLsbD_eq fun i hi => ?_
    obtain rfl : i = 0 := by omega
    simp [bitAt_cons_of_lt _ _ h]
  simp only [decode]
  rw [if_pos hlen, hbit]

/-! ## The other tokens -/

/-- A literal of LZ77 (30_encoding.md R87). -/
theorem decode_lz77_lit (b : Byte) (rest : Bytes) : decode .lz77 (0x80 :: b :: rest) = .ok (.lz77Lit b) := rfl

/-- A match of LZ77 (30_encoding.md R88). -/
theorem decode_lz77_match {t : Byte} (h : t.toNat < 0x80) (hi lo : Byte) (rest : Bytes) :
    decode .lz77 (t :: hi :: lo :: rest) = .ok (.lz77Match (t.truncate 7) (hi ++ lo)) := by
  have hne : t ≠ Config.lz77LitFlag := by rintro rfl; exact absurd h (by decide)
  simp only [decode, decodeLz77]
  rw [if_neg hne, if_pos h]

/-- Settles O8: the place and the bytes of the next token by the phase, and the decoder's answer on them. -/
theorem tokensAreFetchedAtTheirCursors : Obligations.TokensAreFetchedAtTheirCursors := by
  intro s hh hb
  have run {c : Ctx} {bs : Bytes} {i : Instr} {p : Phase} (hp : s.phase = p) (hc : p ≠ .command)
      (hf : s.fetchBytes = some (.ok (c, bs))) (hd : decode c bs = .ok i) : step s = exec i s :=
    step_of_fetch hh hb (hp ▸ hc) hf hd
  refine ⟨fun hp h => ?rle, fun hp h h8 => ?first, fun hp h h8 => ?diff, fun hp h hl => ?lit, fun hp h hm => ?mat,
    fun hp h ht => ⟨fun hf hd => ?lzssLit, ?lzssMatch⟩, fun hp h => ⟨fun hbit => ?lzw0, fun hbit => ?lzw4⟩,
    fun hp hs h => ⟨fun ht => ?hufInt, fun ht hl => ?leaf, fun ht => ?hufNull⟩, fun hp hn ht h => ?hufBit,
    fun hp hk h => ?idx⟩
  case rle =>
    refine run hp (by decide) ((fetchBytes_rle hp).trans (if_pos (by omega))) ?_
    rw [s.window_cons (by omega), s.window_cons (by omega)]
    rfl
  case first =>
    refine run hp (by decide) ((fetchBytes_delta hp).trans (by rw [if_pos h, if_pos h8])) ?_
    rw [s.window_cons h]
    rfl
  case diff =>
    refine run hp (by decide) ((fetchBytes_delta hp).trans (by rw [if_pos h, if_neg h8])) ?_
    rw [s.window_cons h]
    rfl
  case lit =>
    refine run hp (by decide) ((fetchBytes_lz77 hp).trans (if_pos (by omega))) ?_
    rw [s.window_cons (by omega), s.window_cons (by omega), hl]
    exact decode_lz77_lit _ _
  case mat =>
    refine run hp (by decide) ((fetchBytes_lz77 hp).trans (if_pos (by omega))) ?_
    rw [s.window_cons (by omega), s.window_cons (by omega), s.window_cons (by omega)]
    exact decode_lz77_match hm _ _ _
  case lzssLit =>
    refine run hp (by decide) (fetchBytes_lzss hp h ht hf) ?_
    rw [s.window_cons (by omega)]
    rfl
  case lzssMatch =>
    rintro hf hd v rfl
    refine run hp (by decide) (fetchBytes_lzss hp h ht hf) ?_
    rw [s.window_cons (by omega), s.window_cons (by omega)]
    rfl
  case lzw0 =>
    refine run hp (by decide) ((fetchBytes_lzw hp).trans (if_pos h)) ?_
    rw [hbit, s.window_cons (by omega), s.window_cons (by omega)]
    exact decode_lzw_first _ _ _
  case lzw4 =>
    refine run hp (by decide) ((fetchBytes_lzw hp).trans (if_pos h)) ?_
    rw [hbit, s.window_cons (by omega), s.window_cons (by omega)]
    exact decode_lzw_second _ _ _
  case hufInt =>
    refine run hp (by decide) ((fetchBytes_hufTree hp).trans (if_pos hs)) ?_
    rw [s.window_cons (by omega), ht]
    rfl
  case leaf =>
    refine run hp (by decide) ((fetchBytes_hufTree hp).trans (if_pos hs)) ?_
    rw [s.window_cons (by omega), s.window_cons (by omega), ht]
    rfl
  case hufNull =>
    refine run hp (by decide) ((fetchBytes_hufTree hp).trans (if_pos hs)) ?_
    rw [s.window_cons (by omega), ht]
    rfl
  case hufBit =>
    refine run hp (by decide) ((fetchBytes_hufBits hp).trans (if_pos ⟨hn, ht⟩)) ?_
    rw [s.window_cons h]
    exact decode_hufBit _ _ (Nat.mod_lt _ (by decide))
  case idx =>
    refine run hp (by decide) ((fetchBytes_bwt hp).trans (if_pos hk)) ?_
    rw [s.window_cons h]
    rfl

end Sys2Proof.Machine
end

section
/-! The invariant of the machine (O59): what holds while an operation runs is kept by every piece of it, and from that
follow the clauses on BUSY and the clauses on an end. -/

namespace Sys2Proof.Machine

/-! ## What every piece of an operation answers -/

/-- The kinds the engine can raise (60_exceptions.md R311). -/
def ErrKind.raisable : ErrKind → Bool
  | .poolShutdown | .ioFailure => false
  | _ => true

theorem ErrKind.ne_of_raisable {k : ErrKind} (h : k.raisable) : k ≠ .poolShutdown ∧ k ≠ .ioFailure := by
  constructor <;> rintro rfl <;> cases h

/-- Every answer of `r` satisfies `P`, and a raise is of a kind the engine can raise. -/
structure Sound {α : Type} (r : Except ErrKind α) (P : α → Prop) : Prop where
  answers : Answers r P
  raises : ∀ k, r = .error k → k.raisable

section sound

variable {α β : Type} {P : α → Prop} {Q : β → Prop} {r : Except ErrKind α}

theorem sound_ok {a : α} : Sound (.ok a) P ↔ P a :=
  ⟨fun h => answers_ok.1 h.answers, fun h => ⟨answers_ok.2 h, nofun⟩⟩

theorem sound_error {k : ErrKind} : Sound (.error k) P ↔ k.raisable :=
  ⟨fun h => h.raises k rfl, fun h => ⟨answers_error, fun _ e => Except.error.inj e ▸ h⟩⟩

/-- A test that raises. -/
theorem Sound.guard {c : Prop} [Decidable c] {k : ErrKind} (hk : k.raisable) (hr : ¬ c → Sound r P) :
    Sound (if c then .error k else r) P := by
  split
  · exact sound_error.2 hk
  · next hc => exact hr hc

theorem Sound.bind {f : α → Except ErrKind β} (hr : Sound r P) (hf : ∀ a, P a → Sound (f a) Q) :
    Sound (r >>= f) Q := by
  cases r with
  | ok a => exact hf a (sound_ok.1 hr)
  | error k => exact sound_error.2 (sound_error.1 hr)

/-- What is known of the answer besides. -/
theorem Sound.and {P' : α → Prop} (hr : Sound r P) (h : Answers r P') : Sound r fun a => P a ∧ P' a :=
  ⟨fun a e => ⟨hr.answers a e, h a e⟩, hr.raises⟩

theorem Sound.imp {P' : α → Prop} (hr : Sound r P) (h : ∀ a, P a → P' a) : Sound r P' :=
  ⟨hr.answers.imp h, hr.raises⟩

end sound

/-! ## What holds while an operation runs -/

/-- What a running operation works on: its input and the fields of its container. -/
structure Source where
  nIn : Nat
  inBase : Nat
  ending : Ending
  aAlg : Byte
  aSize : Word64

def State.source (s : State) : Source where
  nIn := s.regs.nIn
  inBase := s.regs.inBase
  ending := s.regs.ending
  aAlg := s.regs.aAlg
  aSize := s.regs.aSize

/-- What the pieces of an operation keep between two places: where it stands, on what it works, and the two header
fields behind which the input is read. -/
structure Frame where
  phase : Phase
  source : Source
  tl : Nat
  fc : Nat

def State.frame (s : State) : Frame where
  phase := s.phase
  source := s.source
  tl := s.regs.tl
  fc := s.regs.fc

/-- `OUT` holds exactly the first `len` bytes, and they fit (20_memory.md R51, R56). -/
structure Emitted (m : Memory) (cap : Option Nat) (len : Nat) : Prop where
  wf : m.wf
  there : ∀ a, (m.read a).isSome ↔ a < len
  fits : ∀ c, cap = some c → len ≤ c

/-- The clauses of the invariant on `MTF` and the dictionary (10_state.md R39, R40). -/
structure Tables.Ok (t : Tables) (nextCode : Nat) : Prop where
  mtfPerm : t.mtf.Perm Tables.mtfIdentity
  dictSize : t.dict.length = nextCode
  dictCap : 256 ≤ nextCode ∧ nextCode ≤ 4096
  dictSeed : ∀ c, c < 256 → t.dict[c]? = some [BitVec.ofNat 8 c]

/-- What holds while an operation runs, in the frame `f`. -/
structure State.Work (f : Frame) (s : State) : Prop where
  frame : s.frame = f
  status : s.status = .busy
  err : s.err = 0
  outLen : s.outLen = 0
  inWf : s.inMem.wf
  out : Emitted s.outMem s.params.outCap (s.regs.outBase + s.regs.outCount)
  tables : s.tabs.Ok s.regs.nextCode

/-- The operation has begun and has not ended. -/
abbrev Frame.Begun (f : Frame) : Prop := f.phase ≠ .off ∧ f.phase ≠ .command

/-- `g` is where an operation can go on to from `f`. In the two places where the input is read behind a header's field,
the input holds what the field says (44_lzss.md R185, 46_huffman.md R235). -/
structure Frame.Next (f g : Frame) : Prop where
  source : g.source = f.source
  begun : g.Begun
  flags : g.phase = .lzssD → g = f ∨ 12 + g.fc ≤ g.source.nIn
  tree : g.phase = .hufTree → g = f ∨ 20 + g.tl ≤ g.source.nIn

theorem Frame.Begun.next {f : Frame} (h : f.Begun) : f.Next f := ⟨rfl, h, fun _ => .inl rfl, fun _ => .inl rfl⟩

/-- The operation runs on from `f`. -/
def State.Goes (f : Frame) (s : State) : Prop := ∃ g, f.Next g ∧ s.Work g

/-- The operation runs, wherever it stands. -/
def State.Runs (s : State) : Prop := ∃ f : Frame, f.Begun ∧ s.Work f

/-- No operation runs. -/
def State.Rests (s : State) : Prop := s.Inv ∧ s.status ≠ .busy

/-- What a unit of work in `f` leaves. -/
def State.After (f : Frame) (s : State) : Prop := s.Goes f ∨ s.Rests

theorem State.Goes.runs {f : Frame} {s : State} (h : s.Goes f) : s.Runs := by
  obtain ⟨g, hn, hw⟩ := h
  exact ⟨g, hn.begun, hw⟩

/-! ## The invariant and a running operation -/

theorem State.Inv.tables {s : State} (h : s.Inv) : s.tabs.Ok s.regs.nextCode :=
  ⟨h.mtfPerm, h.dictSize, h.dictCap, h.dictSeed⟩

theorem State.Inv.work {s : State} (h : s.Inv) (hb : s.status = .busy) : s.Work s.frame where
  frame := rfl
  status := hb
  err := h.errClear (by simp [hb])
  outLen := h.outLenClear (by simp [hb])
  inWf := h.inWf
  out := ⟨h.outWf, h.historyThere hb, h.outFits hb⟩
  tables := h.tables

theorem State.Work.inv {f : Frame} {s : State} (h : s.Work f) (hp : s.phase ≠ .off)
    (hc : s.phase = .command → s.regs.outBase = 0 ∧ s.regs.outCount = 0) : s.Inv where
  inWf := h.inWf
  outWf := h.out.wf
  errSet he := by simp [h.status] at he
  errClear _ := h.err
  outLenClear _ := h.outLen
  phaseBusy := ⟨fun _ => hp, fun _ => h.status⟩
  resultThere hd := by simp [h.status] at hd
  historyThere _ := h.out.there
  outFits _ := h.out.fits
  resultFits hd := by simp [h.status] at hd
  mtfPerm := h.tables.mtfPerm
  dictSize := h.tables.dictSize
  dictCap := h.tables.dictCap
  dictSeed := h.tables.dictSeed
  notBegun := hc

theorem State.Runs.inv {s : State} (h : s.Runs) : s.Inv := by
  obtain ⟨f, ⟨hoff, hcmd⟩, hw⟩ := h
  obtain rfl := hw.frame
  exact hw.inv hoff fun hc => absurd hc hcmd

/-- A state in ERROR or IDLE, with nothing in `OUT`. -/
theorem State.inv_of_empty {s : State} (hin : s.inMem.wf) (hout : s.outMem = []) (ht : s.tabs.Ok s.regs.nextCode)
    (hlen : s.outLen = 0) (hp : s.phase = .off) (hb : s.status ≠ .busy) (hd : s.status ≠ .done)
    (hs : s.status = .error → ∃ k : ErrKind, k ≠ .poolShutdown ∧ k ≠ .ioFailure ∧ s.err = errCode k)
    (hc : s.status ≠ .error → s.err = 0) : s.Inv where
  inWf := hin
  outWf := hout ▸ .nil
  errSet := hs
  errClear := hc
  outLenClear _ := hlen
  phaseBusy := ⟨fun h => absurd h hb, fun h => absurd hp h⟩
  resultThere h := absurd h hd
  historyThere h := absurd h hb
  outFits h := absurd h hb
  resultFits h := absurd h hd
  mtfPerm := ht.mtfPerm
  dictSize := ht.dictSize
  dictCap := ht.dictCap
  dictSeed := ht.dictSeed
  notBegun h := by simp [hp] at h

/-- The error entry, from any state (60_exceptions.md R320). -/
theorem State.raise_rests {s : State} (hin : s.inMem.wf) (ht : s.tabs.Ok s.regs.nextCode) {k : ErrKind}
    (hk : k.raisable) : (s.raise k).Rests :=
  have ⟨hpool, hio⟩ := ErrKind.ne_of_raisable hk
  ⟨State.inv_of_empty hin rfl ht rfl rfl (nomatch ·) (nomatch ·) (fun _ => ⟨k, hpool, hio, rfl⟩) (absurd rfl),
    (nomatch ·)⟩

theorem State.clear_rests {s : State} (hin : s.inMem.wf) (ht : s.tabs.Ok s.regs.nextCode) : s.clear.Rests :=
  ⟨State.inv_of_empty hin rfl ht rfl rfl (nomatch ·) (nomatch ·) (nomatch ·) fun _ => rfl, (nomatch ·)⟩

/-- DONE with the bytes emitted so far, whatever happens to the `ARG` registers (40_commands_contract.md R121). -/
theorem State.Work.done {f : Frame} {s : State} (h : s.Work f) (argAlg : Byte) (argSize : Word64) :
    State.Rests { s.finish with argAlg := argAlg, argSize := argSize } := by
  have hlen : (BitVec.ofNat 64 (s.regs.outBase + s.regs.outCount)).toNat ≤ s.regs.outBase + s.regs.outCount := by
    rw [BitVec.toNat_ofNat]
    exact Nat.mod_le _ _
  refine ⟨?_, (nomatch ·)⟩
  exact {
    inWf := h.inWf
    outWf := h.out.wf
    errSet := (nomatch ·)
    errClear := fun _ => h.err
    outLenClear := absurd rfl
    phaseBusy := ⟨(nomatch ·), absurd rfl⟩
    resultThere := fun _ a ha => (h.out.there a).2 (Nat.lt_of_lt_of_le ha hlen)
    historyThere := (nomatch ·)
    outFits := (nomatch ·)
    resultFits := fun _ c hc => hlen.trans (h.out.fits c hc)
    mtfPerm := h.tables.mtfPerm
    dictSize := h.tables.dictSize
    dictCap := h.tables.dictCap
    dictSeed := h.tables.dictSeed
    notBegun := (nomatch ·) }

theorem Tables.fresh_ok : Tables.fresh.Ok 256 :=
  ⟨.refl _, Tables.dictSeed_length, ⟨Nat.le_refl 256, by decide⟩, fun _ => Tables.dictSeed_getElem?⟩

theorem State.start_work {s : State} (hin : s.inMem.wf) : s.start.Work s.start.frame where
  frame := rfl
  status := rfl
  err := rfl
  outLen := rfl
  inWf := hin
  out := ⟨.nil, fun a => by simp [Regs.fresh], fun _ _ => Nat.zero_le _⟩
  tables := Tables.fresh_ok

theorem State.start_inv {s : State} (hin : s.inMem.wf) : s.start.Inv :=
  (State.start_work hin).inv nofun fun _ => ⟨rfl, rfl⟩

/-! ## Writes of the working registers and tables -/

theorem Tables.Ok.congr {t t' : Tables} {nextCode : Nat} (h : t.Ok nextCode) (hm : t'.mtf = t.mtf)
    (hd : t'.dict = t.dict) : t'.Ok nextCode :=
  ⟨hm ▸ h.mtfPerm, hd ▸ h.dictSize, h.dictCap, hd ▸ h.dictSeed⟩

/-- The part of the state that most pieces of an operation leave as it is, besides the phase. -/
def State.held (s : State) : Source × (Nat × Nat) × Nat × Bytes × List Bytes :=
  (s.source, (s.regs.outBase, s.regs.outCount), s.regs.nextCode, s.tabs.mtf, s.tabs.dict)

/-- A place at which nothing behind a header's field is read. -/
def Phase.simple : Phase → Bool
  | .off | .command | .lzssD | .hufTree => false
  | _ => true

section work

variable {f : Frame} {s : State} {regs : Regs} {tabs : Tables} {phase : Phase}

/-- A write that moves nothing of the output and leaves the tables in order. -/
theorem State.Work.setTables {g : Frame} (h : s.Work f)
    (hf : State.frame { s with regs := regs, tabs := tabs, phase := phase } = g) (ht : tabs.Ok regs.nextCode)
    (ho : (regs.outBase, regs.outCount) = (s.regs.outBase, s.regs.outCount)) :
    State.Work g { s with regs := regs, tabs := tabs, phase := phase } := by
  obtain ⟨hb, hc⟩ := Prod.mk.inj ho
  exact ⟨hf, h.status, h.err, h.outLen, h.inWf, hb ▸ hc ▸ h.out, ht⟩

/-- A write that touches neither the output nor `MTF` nor the dictionary. -/
theorem State.Work.set (h : s.Work f)
    (hk : (State.frame { s with regs := regs, tabs := tabs, phase := phase },
      State.held { s with regs := regs, tabs := tabs, phase := phase }) = (s.frame, s.held)) :
    State.Work f { s with regs := regs, tabs := tabs, phase := phase } := by
  simp only [State.held, Prod.mk.injEq] at hk
  obtain ⟨hf, -, ⟨hb, hc⟩, hn, hm, hd⟩ := hk
  exact h.setTables (hf.trans h.frame) (hn ▸ h.tables.congr hm hd) (by rw [hb, hc])

/-- From one place to another. -/
theorem State.Work.goes {g : Frame} (h : s.Work g) (hg : g.source = f.source) (hp : phase.simple)
    (hk : State.held { s with regs := regs, tabs := tabs, phase := phase } = s.held) :
    State.Goes f { s with regs := regs, tabs := tabs, phase := phase } := by
  simp only [State.held, Prod.mk.injEq] at hk
  obtain ⟨hs, ⟨hb, hc⟩, hn, hm, hd⟩ := hk
  have hbegun : phase ≠ .off ∧ phase ≠ .command := by constructor <;> rintro rfl <;> cases hp
  have hplain : phase ≠ .lzssD ∧ phase ≠ .hufTree := by constructor <;> rintro rfl <;> cases hp
  obtain rfl := h.frame
  exact ⟨_, ⟨hs.trans hg, hbegun, (absurd · hplain.1), (absurd · hplain.2)⟩,
    h.setTables rfl (hn ▸ h.tables.congr hm hd) (by rw [hb, hc])⟩

end work

/-! ## What keeps the tables in order -/

/-- Moving an entry to the front permutes the list (47_bwt_mtf.md R267, R268). -/
theorem moveToFront_perm {mtf : Bytes} {rank : Nat} (h : rank < mtf.length) :
    (moveToFront mtf rank mtf[rank]).Perm mtf := List.getElem_cons_eraseIdx_perm h

theorem mem_mtfIdentity (b : Byte) : b ∈ Tables.mtfIdentity :=
  List.mem_map.2 ⟨b.toNat, List.mem_range.2 b.isLt, by simp⟩

theorem mtfEncodeAll_perm {mtf : Bytes} (h : mtf.Perm Tables.mtfIdentity) (bs : Bytes) :
    (mtfEncodeAll mtf bs).2.Perm Tables.mtfIdentity := by
  induction bs generalizing mtf with
  | nil => exact h
  | cons b bs ih =>
    have hb : mtf.idxOf b < mtf.length := List.idxOf_lt_length_of_mem (h.mem_iff.2 (mem_mtfIdentity b))
    have hperm := moveToFront_perm hb
    rw [List.getElem_idxOf] at hperm
    exact ih (hperm.trans h)

/-- `MtfDecode` of any index permutes the list (R268). -/
theorem moveToFront_getD_perm {mtf : Bytes} (h : mtf.Perm Tables.mtfIdentity) (i : Byte) :
    (moveToFront mtf i.toNat (mtf.getD i.toNat 0)).Perm Tables.mtfIdentity := by
  have hi : i.toNat < mtf.length := by
    rw [h.length_eq, Tables.mtfIdentity, List.length_map, List.length_range]
    exact i.isLt
  rw [List.getD_eq_getElem _ _ hi]
  exact (moveToFront_perm hi).trans h

/-- The dictionary grows at its end, while it is not full (45_lzw.md R204). -/
theorem Tables.Ok.append {t : Tables} {nextCode : Nat} (h : t.Ok nextCode) (hn : nextCode < Config.lzwDictMax)
    (x : Bytes) : Tables.Ok { t with dict := t.dict ++ [x] } (nextCode + 1) where
  mtfPerm := h.mtfPerm
  dictSize := by rw [List.length_append, h.dictSize]; rfl
  dictCap := ⟨h.dictCap.1.trans (Nat.le_succ _), hn⟩
  dictSeed c hc := by
    have hlt : c < t.dict.length := by rw [h.dictSize]; exact hc.trans_le h.dictCap.1
    rw [List.getElem?_append_left hlt, h.dictSeed c hc]

/-- `t` has the same `MTF` and dictionary as `u`. -/
def Tables.SameLists (t u : Tables) : Prop := t.mtf = u.mtf ∧ t.dict = u.dict

theorem Tables.SameLists.trans {t u v : Tables} (h : t.SameLists u) (h' : u.SameLists v) : t.SameLists v :=
  ⟨h.1.trans h'.1, h.2.trans h'.2⟩

theorem buildLeaf_sameLists (freq : List Nat) (t : Tables) (sym : Nat) : (buildLeaf freq t sym).SameLists t := by
  unfold buildLeaf
  dsimp only
  split
  · exact ⟨rfl, rfl⟩
  · exact ⟨rfl, rfl⟩

theorem foldl_buildLeaf_sameLists (freq syms : List Nat) (t : Tables) :
    (syms.foldl (buildLeaf freq) t).SameLists t := by
  induction syms generalizing t with
  | nil => exact ⟨rfl, rfl⟩
  | cons sym syms ih => exact (ih _).trans (buildLeaf_sameLists freq t sym)

theorem mergeAll_sameLists (more : Nat) (t : Tables) (seq : Nat) : (mergeAll more (t, seq)).1.SameLists t := by
  induction more generalizing t seq with
  | zero => exact ⟨rfl, rfl⟩
  | succ more ih =>
    rw [mergeAll]
    split
    · exact (ih _ _).trans ⟨rfl, rfl⟩
    · exact ⟨rfl, rfl⟩

theorem oneChildRoot_sameLists (t : Tables) : (oneChildRoot t).1.SameLists t := by
  unfold oneChildRoot
  split
  · exact ⟨rfl, rfl⟩
  · exact ⟨rfl, rfl⟩

/-- `BuildTree` touches neither `MTF` nor the dictionary (46_huffman.md R222). -/
theorem buildTree_sameLists (t : Tables) : (buildTree t).1.SameLists t := by
  have hleaves := foldl_buildLeaf_sameLists t.freq (List.range Config.alphabet) { t with tree := [], pq := [] }
  unfold buildTree
  dsimp only
  generalize (List.range Config.alphabet).foldl (buildLeaf t.freq) { t with tree := [], pq := [] } = u at hleaves ⊢
  split
  · exact (oneChildRoot_sameLists u).trans hleaves
  · have hmerge := (mergeAll_sameLists u.pq.length u 256).trans hleaves
    split
    · exact hmerge
    · exact hmerge

/-! ## Output -/

theorem Emitted.write {m : Memory} {cap : Option Nat} {len : Nat} (h : Emitted m cap len)
    (hc : ∀ c, cap = some c → len + 1 ≤ c) (b : Byte) : Emitted (m.write len b) cap (len + 1) where
  wf := Memory.write_wf h.wf len b
  there a := by
    by_cases ha : a = len
    · subst ha; simp
    · rw [Memory.read_write_other m b ha, h.there]
      omega
  fits := hc

section pieces

variable {f : Frame} {s : State}

theorem State.Work.emit (h : s.Work f) (b : Byte) : Sound (s.emit b) (State.Work f) := by
  cases he : s.emit b with
  | error k => exact State.emit_error he ▸ sound_error.2 rfl
  | ok t =>
    obtain ⟨hr, rfl⟩ := State.emit_ok.1 he
    exact sound_ok.2 { h with out := h.out.write (hr.resolve_left one_ne_zero) b }

theorem State.Work.emitSeq (h : s.Work f) (bs : Bytes) : Sound (s.emitSeq bs) (State.Work f) := by
  induction bs generalizing s with
  | nil => exact sound_ok.2 h
  | cons b bs ih => exact (h.emit b).bind fun t ht => ih ht

theorem State.Work.copyHistory (h : s.Work f) (off len : Nat) : Sound (s.copyHistory off len) (State.Work f) := by
  induction len generalizing s with
  | zero => exact sound_ok.2 h
  | succ len ih => exact (h.emit _).bind fun t ht => ih ht

theorem packDrain_work (more : Nat) (h : s.Work f) : Sound (packDrain more s) (State.Work f) := by
  induction more generalizing s with
  | zero => exact sound_ok.2 h
  | succ more ih => exact (h.emit _).bind fun t ht => ih (ht.set (by rfl))

theorem putCode_work (c : Nat) (h : s.Work f) : Sound (putCode c s) (State.Work f) :=
  (packDrain_work _ (h.set (by rfl))).bind fun _ ht => sound_ok.2 (ht.set (by rfl))

theorem flushBits_work (h : s.Work f) : Sound (flushBits s) (State.Work f) := by
  unfold flushBits
  split
  · exact (h.emit _).bind fun t ht => sound_ok.2 (ht.set (by rfl))
  · exact sound_ok.2 h

theorem putBit_work (b : Bool) (h : s.Work f) : Sound (putBit b s) (State.Work f) := by
  unfold putBit
  split
  · exact (h.emit _).bind fun t ht => sound_ok.2 (ht.set (by rfl))
  · exact sound_ok.2 (h.set (by rfl))

theorem putBits_work (bs : List Bool) (h : s.Work f) : Sound (putBits bs s) (State.Work f) := by
  induction bs generalizing s with
  | nil => exact sound_ok.2 h
  | cons b bs ih => exact (putBit_work b h).bind fun t ht => ih ht

/-! ## The end of an operation -/

theorem endOp_rests (h : s.Work f) : Sound s.endOp State.Rests := by
  unfold State.endOp
  split
  · exact sound_ok.2 (h.done s.argAlg s.argSize)
  · exact sound_ok.2 (h.done s.regs.aAlg s.regs.aSize)
  · exact .guard rfl fun _ => sound_ok.2 (h.done s.regs.aAlg s.regs.aSize)

/-! ## BWT + MTF -/

theorem bwtCStart_goes (h : s.Work f) : Sound (bwtCStart s) (State.Goes f) :=
  (h.emitSeq _).bind fun _ ht => sound_ok.2 (ht.goes rfl (by rfl) (by rfl))

theorem bwtUnit_work (h : s.Work f) : Sound (bwtUnit s) (State.Work f) :=
  (h.emitSeq _).bind fun _ ht => sound_ok.2 <| ht.setTables ht.frame
    { ht.tables with mtfPerm := mtfEncodeAll_perm (.refl _) _ } rfl

theorem bwtDStart_goes (h : s.Work f) : Sound (bwtDStart s) (State.Goes f) :=
  .guard rfl fun _ => sound_ok.2 (h.goes rfl (by rfl) (by rfl))

theorem mtfInit_work (h : s.Work f) : s.mtfInit.Work f :=
  h.setTables h.frame { h.tables with mtfPerm := .refl _ } rfl

theorem bwtHeader_goes (h : s.Work f) : Sound (bwtHeader s) (State.Goes f) := by
  have ht {t : State} (ht : t.Work f) (p cs : Nat) : State.Goes f { t with
      regs := { t.regs with p := p, cs := cs, k := 0 }, tabs := { t.tabs with chunk := [] }, phase := .bwtIdx } :=
    (ht.goes rfl (by rfl) (by rfl))
  exact .guard rfl fun _ => .guard rfl fun _ => .guard rfl fun _ => .guard rfl fun _ =>
    sound_ok.2 (ht (mtfInit_work h) _ _)

theorem mtfIdx_work (h : s.Work f) (i : Byte) : Sound (mtfIdx i s) (State.Work f) :=
  sound_ok.2 (h.setTables h.frame { h.tables with mtfPerm := moveToFront_getD_perm h.tables.mtfPerm i } rfl)

theorem bwtChunkEnd_goes (h : s.Work f) : Sound (bwtChunkEnd s) (State.Goes f) :=
  (State.Work.emitSeq (h.set (by rfl)) _).bind fun _ ht => sound_ok.2 (ht.goes rfl (by rfl) (by rfl))

theorem bwtDEnd_rests (h : s.Work f) : Sound (bwtDEnd s) State.Rests := .guard rfl fun _ => endOp_rests h

/-! ## Delta -/

theorem deltaCStart_goes (h : s.Work f) : Sound (deltaCStart s) (State.Goes f) :=
  (h.emitSeq _).bind fun _ ht => (ht.emitSeq _).bind fun _ hu => sound_ok.2 (hu.goes rfl (by rfl) (by rfl))

theorem deltaUnit_work (h : s.Work f) : Sound (deltaUnit s) (State.Work f) :=
  (h.emitSeq _).bind fun _ ht => sound_ok.2 (ht.set (by rfl))

theorem deltaDStart_goes (h : s.Work f) : Sound (deltaDStart s) (State.Goes f) :=
  .guard rfl fun _ => .guard rfl fun _ => .guard rfl fun _ => sound_ok.2 (h.goes rfl (by rfl) (by rfl))

theorem deltaOut_work (h : s.Work f) (b : Byte) : Sound (deltaOut b s) (State.Work f) :=
  (h.emit b).bind fun _ ht => sound_ok.2 (ht.set (by rfl))

/-! ## LZW -/

theorem dictAdd_work (h : s.Work f) (x : Bytes) : (s.dictAdd x).Work f := by
  unfold State.dictAdd
  split
  · next hn => exact h.setTables h.frame (h.tables.append hn x) rfl
  · exact h

theorem lzwLearn_work (h : s.Work f) (x : Bytes) : (lzwLearn x s).Work f := by
  unfold lzwLearn
  split
  · exact h
  · exact dictAdd_work h _

theorem lzwSeed_work (h : s.Work f) : (lzwSeed s).Work f :=
  h.setTables h.frame { Tables.fresh_ok with mtfPerm := h.tables.mtfPerm } rfl

theorem lzwCStart_goes (h : s.Work f) : Sound (lzwCStart s) (State.Goes f) :=
  ((lzwSeed_work h).emitSeq _).bind fun _ ht => sound_ok.2 (ht.goes rfl (by rfl) (by rfl))

theorem lzwUnit_work (h : s.Work f) : Sound (lzwUnit s) (State.Work f) := by
  unfold lzwUnit
  dsimp only
  split
  · exact sound_ok.2 (h.set (by rfl))
  · exact (putCode_work _ h).bind fun _ ht =>
      have hu := dictAdd_work ht _
      sound_ok.2 (hu.set (by rfl))

theorem lzwCEnd_goes (h : s.Work f) : Sound (lzwCEnd s) (State.Goes f) :=
  (putCode_work _ h).bind fun _ ht => (flushBits_work ht).bind fun _ hu => sound_ok.2 (hu.goes rfl (by rfl) (by rfl))

theorem lzwDStart_goes (h : s.Work f) : Sound (lzwDStart s) (State.Goes f) :=
  .guard rfl fun _ =>
    have ht := lzwSeed_work h
    sound_ok.2 (ht.goes rfl (by rfl) (by rfl))

theorem lzwCode_work (h : s.Work f) (c : BitVec 12) : Sound (lzwCode c s) (State.Work f) := by
  unfold lzwCode
  split
  · exact sound_error.2 rfl
  · exact ((lzwLearn_work h _).emitSeq _).bind fun _ ht => sound_ok.2 (ht.set (by rfl))

theorem lzwDEnd_rests (h : s.Work f) : Sound (lzwDEnd s) State.Rests := .guard rfl fun _ => endOp_rests h

/-! ## Huffman -/

theorem fillSlot_work (h : s.Work f) (v : Option Nat) (more : List Slot) : (s.fillSlot v more).Work f := by
  unfold State.fillSlot
  split <;> exact h.set (by rfl)

theorem hufCStart_goes (h : s.Work f) : Sound (hufCStart s) (State.Goes f) := by
  have ht {u : Tables} (hu : u.SameLists s.tabs) (code : List (List Bool)) (seq : Nat) (root : Option Nat)
      (tl tb : Nat) : State.Work { f with tl := tl } { s with
        tabs := { u with code := code }
        regs := { s.regs with seq := seq, root := root, tl := tl, tb := tb } } :=
    h.setTables (h.frame ▸ rfl) (h.tables.congr hu.1 hu.2) rfl
  have hu := buildTree_sameLists { s.tabs with freq := freqTable s.input }
  unfold hufCStart
  dsimp only
  generalize buildTree { s.tabs with freq := freqTable s.input } = built at hu ⊢
  exact ((ht hu _ _ _ _ _).emitSeq _).bind fun _ hu => sound_ok.2 (hu.goes rfl (by rfl) (by rfl))

theorem hufUnit_work (h : s.Work f) : Sound (hufUnit s) (State.Work f) :=
  (putBits_work _ h).bind fun _ ht => sound_ok.2 (ht.set (by rfl))

theorem hufCEnd_goes (h : s.Work f) : Sound (hufCEnd s) (State.Goes f) :=
  (flushBits_work h).bind fun _ ht => sound_ok.2 (ht.goes rfl (by rfl) (by rfl))

theorem hufDStart_goes (h : s.Work f) : Sound (hufDStart s) (State.Goes f) := by
  obtain rfl := h.frame
  refine .guard rfl fun _ => .guard rfl fun _ => .guard rfl fun hlen => sound_ok.2
    ⟨_, ?_, h.setTables rfl (h.tables.congr rfl rfl) rfl⟩
  exact ⟨rfl, ⟨nofun, nofun⟩, nofun, fun _ => .inr (by show 20 + s.rdU32 8 ≤ s.regs.nIn; omega)⟩

theorem hufInt_work (h : s.Work f) : Sound (hufInt s) (State.Work f) :=
  sound_ok.2 (fillSlot_work (h.set (by rfl)) _ _)

theorem hufLeaf_work (h : s.Work f) (sym : Byte) : Sound (hufLeaf sym s) (State.Work f) :=
  sound_ok.2 (fillSlot_work (h.set (by rfl)) _ _)

theorem hufNull_work (h : s.Work f) : Sound (hufNull s) (State.Work f) :=
  sound_ok.2 (fillSlot_work (h.set (by rfl)) _ _)

theorem hufTreeEnd_goes (h : s.Work f) : Sound (hufTreeEnd s) (State.Goes f) :=
  .guard rfl fun _ => .guard rfl fun _ => sound_ok.2 (h.goes rfl (by rfl) (by rfl))

theorem hufBit_work (h : s.Work f) (dir : BitVec 1) : Sound (hufBit dir s) (State.Work f) := by
  unfold hufBit
  split
  · split
    · exact sound_error.2 rfl
    · split
      · exact (h.emit _).bind fun _ ht => sound_ok.2 (ht.set (by rfl))
      · exact sound_ok.2 (h.set (by rfl))
  · exact sound_error.2 rfl

theorem hufDEnd_rests (h : s.Work f) : Sound (hufDEnd s) State.Rests := .guard rfl fun _ => endOp_rests h

/-! ## LZ77 and LZSS -/

theorem lz77Unit_work (h : s.Work f) : Sound (lz77Unit s) (State.Work f) := by
  unfold lz77Unit
  dsimp only
  generalize findMatch s s.regs.ip Config.lz77Window Config.lz77MaxMatch = m
  exact (h.emitSeq _).bind fun _ ht => sound_ok.2 (ht.set (by rfl))

theorem lz77Lit_work (h : s.Work f) (b : Byte) : Sound (lz77Lit b s) (State.Work f) :=
  (h.emit b).bind fun _ ht => sound_ok.2 (ht.set (by rfl))

theorem lz77Match_work (h : s.Work f) (len : BitVec 7) (off : BitVec 16) :
    Sound (lz77Match len off s) (State.Work f) :=
  .guard rfl fun _ => (h.copyHistory _ _).bind fun _ ht => sound_ok.2 (ht.set (by rfl))

theorem lzssUnit_work (h : s.Work f) : Sound (lzssUnit s) (State.Work f) := by
  have ht (m : Match) (i : Instr × Nat) (flags : Bytes) : State.Work f { s with
      tabs := { s.tabs with flags := flags, data := s.tabs.data ++ encode i.1 }
      regs := { s.regs.withMatch m with ip := s.regs.ip + i.2, tok := s.regs.tok + 1 } } := h.set (by rfl)
  exact sound_ok.2 (ht _ _ _)

theorem lzssCEnd_goes (h : s.Work f) : Sound (lzssCEnd s) (State.Goes f) :=
  .guard rfl fun _ => (h.emitSeq _).bind fun _ ht => sound_ok.2 (ht.goes rfl (by rfl) (by rfl))

theorem lzssDStart_goes (h : s.Work f) : Sound (lzssDStart s) (State.Goes f) := by
  obtain rfl := h.frame
  refine .guard rfl fun _ => .guard rfl fun hlen => sound_ok.2 ⟨_, ?_, h.setTables rfl h.tables rfl⟩
  exact ⟨rfl, ⟨nofun, nofun⟩, fun _ => .inr (Nat.le_of_not_lt hlen), nofun⟩

theorem lzssLit_work (h : s.Work f) (b : Byte) : Sound (lzssLit b s) (State.Work f) :=
  (h.emit b).bind fun _ ht => sound_ok.2 (ht.set (by rfl))

theorem lzssMatch_work (h : s.Work f) (off : BitVec 12) (len : BitVec 4) :
    Sound (lzssMatch off len s) (State.Work f) :=
  .guard rfl fun _ => (h.copyHistory _ _).bind fun _ ht => sound_ok.2 (ht.set (by rfl))

theorem lzssDEnd_rests (h : s.Work f) : Sound (lzssDEnd s) State.Rests := .guard rfl fun _ => endOp_rests h

/-! ## RLE -/

theorem rleUnit_work (h : s.Work f) : Sound (rleUnit s) (State.Work f) :=
  (h.emitSeq _).bind fun _ ht => sound_ok.2 (ht.set (by rfl))

theorem rleDStart_goes (h : s.Work f) : Sound (rleDStart s) (State.Goes f) :=
  .guard rfl fun _ => sound_ok.2 (h.goes rfl (by rfl) (by rfl))

theorem rlePair_work (h : s.Work f) (count value : Byte) : Sound (rlePair count value s) (State.Work f) :=
  (h.emitSeq _).bind fun _ ht => sound_ok.2 (ht.set (by rfl))

/-! ## The start of a run -/

theorem beginCompress_goes (a : Alg) (h : s.Work f) : Sound (beginCompress a s) (State.Goes f) := by
  unfold beginCompress
  split
  · exact sound_ok.2 (h.goes rfl (by rfl) (by rfl))
  · cases a with
    | rle => exact sound_ok.2 (h.goes rfl (by rfl) (by rfl))
    | lz77 => exact sound_ok.2 (h.goes rfl (by rfl) (by rfl))
    | huffman => exact hufCStart_goes h
    | lzw => exact lzwCStart_goes h
    | lzss => exact sound_ok.2 (h.goes rfl (by rfl) (by rfl))
    | delta => exact deltaCStart_goes h
    | bwt => exact bwtCStart_goes h

theorem beginDecompress_goes (a : Alg) (h : s.Work f) : Sound (beginDecompress a s) (State.Goes f) := by
  unfold beginDecompress
  split
  · exact sound_ok.2 (h.goes rfl (by rfl) (by rfl))
  · cases a with
    | rle => exact rleDStart_goes h
    | lz77 => exact sound_ok.2 (h.goes rfl (by rfl) (by rfl))
    | huffman => exact hufDStart_goes h
    | lzw => exact lzwDStart_goes h
    | lzss => exact lzssDStart_goes h
    | delta => exact deltaDStart_goes h
    | bwt => exact bwtDStart_goes h

theorem beginPack_goes (h : s.Work f) : Sound (beginPack s) (State.Goes f) :=
  .guard rfl fun _ => (h.emitSeq _).bind fun _ ht => sound_ok.2 (ht.goes rfl (by rfl) (by rfl))

/-- The frame after a container's header has been read (48_container.md R292, R295). -/
def Frame.withHeader (f : Frame) (s : State) : Frame :=
  { f with source := { f.source with aAlg := s.inAt 1, aSize := BitVec.ofNat 64 (s.rdU64 2) } }

theorem readHeader_work (h : s.Work f) : Sound (readHeader s) fun x => x.2.Work (f.withHeader s) := by
  refine .guard rfl fun _ => .guard rfl fun _ => ?_
  split
  · exact sound_error.2 rfl
  · exact sound_ok.2 (h.setTables (h.frame ▸ rfl) h.tables rfl)

/-- The frame of UNPACK's loop. -/
def Frame.unpacking (f : Frame) (s : State) : Frame :=
  { f.withHeader s with source := { (f.withHeader s).source with ending := .unpack } }

theorem beginUnpack_goes (h : s.Work f) : Sound (beginUnpack s) (State.Goes (f.unpacking s)) := by
  refine (readHeader_work h).bind fun _ hx => sound_ok.2 ⟨_, ?_, hx.setTables rfl hx.tables rfl⟩
  exact ⟨by rw [Frame.unpacking, ← hx.frame]; rfl, ⟨nofun, nofun⟩, nofun, nofun⟩

/-- The frame in which DECODE begins the codec: its input is the payload (R295). -/
def Frame.decoding (f : Frame) (s : State) : Frame :=
  { f.withHeader s with source := { (f.withHeader s).source with
      inBase := Config.contHdr, nIn := f.source.nIn - Config.contHdr, ending := .decode } }

theorem beginDecode_goes (h : s.Work f) : Sound (beginDecode s) (State.Goes (f.decoding s)) :=
  (readHeader_work h).bind fun x hx => beginDecompress_goes x.1 <|
    hx.setTables (by
      have hn : x.2.regs.nIn = f.source.nIn := congrArg (fun g => g.source.nIn) hx.frame
      rw [Frame.decoding, ← hn, ← hx.frame]
      rfl) hx.tables rfl

theorem containerHeader_length (magic alg : Byte) (size : Nat) : (containerHeader magic alg size).length = 10 := by
  simp [containerHeader, u64le]

/-- ENCODE emits the header where nothing has been emitted, and the codec's output counts from 0 behind it (R294). -/
theorem beginEncode_goes (a : Alg) (h : s.Work f) (hb : s.regs.outBase = 0) (hc : s.regs.outCount = 0) :
    Sound (beginEncode a s) (State.Goes f) := by
  have hput := (h.emitSeq (containerHeader s.params.magic (BitVec.ofNat 8 (algId a)) s.regs.nIn)).and
    (P' := fun t => t.regs.outBase + t.regs.outCount = Config.contHdr + 0) fun t e => by
      rw [(State.emitSeq_ok e).2]
      simp [State.putAll, hb, hc, containerHeader_length, Config.contHdr]
  refine hput.bind fun t ⟨ht, hout⟩ => beginCompress_goes a ?_
  exact ⟨ht.frame, ht.status, ht.err, ht.outLen, ht.inWf, hout ▸ ht.out, ht.tables⟩

/-- A start check, and then the start of the run. -/
theorem sound_checkCap {b : State → Run} {Q : State → Prop} (h : Sound (b s) Q) : Sound (s.checkCap >>= b) Q := by
  unfold State.checkCap
  split
  · exact h
  · split
    · exact sound_error.2 rfl
    · exact h

theorem State.Work.sound_settle {Q : State → Prop} {r : Run} (h : s.Work f) (hr : Sound r Q)
    (hQ : ∀ t : State, t.Rests → Q t) : Q (s.settle r) := by
  cases r with
  | ok t => exact sound_ok.1 hr
  | error k => exact hQ _ (State.raise_rests h.inWf h.tables (sound_error.1 hr))

/-- Every command that starts a run starts it well, where nothing has been emitted. -/
theorem beginOf_runs {i : Instr} {b : State → Run} (hi : beginOf i = some b) (h : s.Work f) (hb : s.regs.outBase = 0)
    (hc : s.regs.outCount = 0) : Sound (b s) State.Runs := by
  cases i <;> cases hi
  case compressRle | compressLz77 | compressHuffman | compressLzw | compressLzss | compressDelta | compressBwt =>
    exact (beginCompress_goes _ h).imp fun _ => State.Goes.runs
  case decompressRle | decompressLz77 | decompressHuffman | decompressLzw | decompressLzss | decompressDelta |
      decompressBwt =>
    exact (beginDecompress_goes _ h).imp fun _ => State.Goes.runs
  case encodeRle | encodeLz77 | encodeHuffman | encodeLzw | encodeLzss | encodeDelta | encodeBwt =>
    exact (beginEncode_goes _ h hb hc).imp fun _ => State.Goes.runs
  case pack => exact (beginPack_goes h).imp fun _ => State.Goes.runs
  case unpack => exact (beginUnpack_goes h).imp fun _ => State.Goes.runs
  case decode => exact (beginDecode_goes h).imp fun _ => State.Goes.runs

/-! ## A unit of work -/

theorem tokenEffect_work (i : Instr) (h : s.Work f) : Sound (tokenEffect i s) (State.Work f) := by
  cases i with
  | rlePair count value => exact rlePair_work h count value
  | deltaFirst b => exact deltaOut_work h b
  | deltaDiff d => exact deltaOut_work h _
  | lz77Lit b => exact lz77Lit_work h b
  | lz77Match len off => exact lz77Match_work h len off
  | lzssLit b => exact lzssLit_work h b
  | lzssMatch off len => exact lzssMatch_work h off len
  | lzwCode c => exact lzwCode_work h c
  | hufInt => exact hufInt_work h
  | hufLeaf sym => exact hufLeaf_work h sym
  | hufNull => exact hufNull_work h
  | hufBit dir => exact hufBit_work h dir
  | mtfIdx r => exact mtfIdx_work h r
  | _ => exact sound_error.2 rfl

theorem copyUnit_work (h : s.Work f) : Sound (copyUnit s) (State.Work f) :=
  (h.emit _).bind fun _ ht => sound_ok.2 (ht.set (by rfl))

theorem State.Work.after (hf : f.Begun) (h : s.Work f) : s.After f := .inl ⟨f, hf.next, h⟩

theorem turn_sound {Q : State → Prop} {unit after : State → Run} (hu : Sound (unit s) Q) (ha : Sound (after s) Q) :
    Sound (turn s unit after) Q := by
  unfold turn
  split
  · exact hu
  · exact ha

/-- The work between tokens, wherever the operation stands. -/
theorem advance_after (hf : f.Begun) (h : s.Work f) : Sound (advance s) (State.After f) := by
  have stays {r : Run} (hr : Sound r (State.Work f)) : Sound r (State.After f) := hr.imp fun _ => State.Work.after hf
  have goes {r : Run} (hr : Sound r (State.Goes f)) : Sound r (State.After f) := hr.imp fun _ => .inl
  have ends {r : Run} (hr : Sound r State.Rests) : Sound r (State.After f) := hr.imp fun _ => .inr
  have hend := ends (endOp_rests h)
  obtain ⟨hoff, hcmd⟩ := hf
  obtain rfl := h.frame
  unfold advance
  cases hp : s.phase with
  | off => exact absurd hp hoff
  | command => exact absurd hp hcmd
  | finished | rleD | deltaD | lz77D => exact hend
  | rleC => exact turn_sound (stays (rleUnit_work h)) hend
  | deltaC => exact turn_sound (stays (deltaUnit_work h)) hend
  | lz77C => exact turn_sound (stays (lz77Unit_work h)) hend
  | lzssC => exact turn_sound (stays (lzssUnit_work h)) (goes (lzssCEnd_goes h))
  | lzssD => exact ends (lzssDEnd_rests h)
  | lzwC => exact turn_sound (stays (lzwUnit_work h)) (goes (lzwCEnd_goes h))
  | lzwD => exact ends (lzwDEnd_rests h)
  | hufC => exact turn_sound (stays (hufUnit_work h)) (goes (hufCEnd_goes h))
  | hufTree => exact goes (hufTreeEnd_goes h)
  | hufBits => exact ends (hufDEnd_rests h)
  | bwtC => exact turn_sound (stays (bwtUnit_work h)) hend
  | bwtChunk => exact turn_sound (goes (bwtHeader_goes h)) (ends (bwtDEnd_rests h))
  | bwtIdx => exact goes (bwtChunkEnd_goes h)
  | pack | unpack => exact turn_sound (stays (copyUnit_work h)) hend

theorem rejectKind_raisable (x : Reject) : (rejectKind x).raisable := by cases x <;> rfl

theorem unitOfWork_after (hf : f.Begun) (h : s.Work f) : (unitOfWork s).After f := by
  obtain ⟨i, -, e⟩ | ⟨x, -, e⟩ | ⟨-, e⟩ := unitOfWork_cases s
  · exact e ▸ h.sound_settle ((tokenEffect_work i h).imp fun _ => State.Work.after hf) fun _ => .inr
  · exact e ▸ .inr (State.raise_rests h.inWf h.tables (rejectKind_raisable x))
  · exact e ▸ h.sound_settle (advance_after hf h) fun _ => .inr

end pieces

/-! ## Whole operations -/

/-- An operation runs well, or none runs. -/
def State.Lives (s : State) : Prop := s.Runs ∨ s.Rests

theorem State.Lives.inv {s : State} (h : s.Lives) : s.Inv := h.elim State.Runs.inv And.left

theorem State.After.lives {f : Frame} {s : State} (h : s.After f) : s.Lives := h.imp_left State.Goes.runs

theorem unitOfWork_lives {s : State} (hb : s.status = .busy) (h : s.Lives) : (unitOfWork s).Lives := by
  obtain ⟨f, hf, hw⟩ | hr := h
  · exact (unitOfWork_after hf hw).lives
  · exact absurd hb hr.2

theorem runUnits_lives (fuel : Nat) {s : State} (h : s.Lives) : (runUnits fuel s).Lives :=
  runUnits_keeps (fun _ => unitOfWork_lives) fuel h

theorem beginRun_lives {i : Instr} {b : State → Run} (hi : beginOf i = some b) {f : Frame} {s : State} (h : s.Work f)
    (hb : s.regs.outBase = 0) (hc : s.regs.outCount = 0) : (beginRun b s).Lives :=
  h.sound_settle ((sound_checkCap (beginOf_runs hi h hb hc)).imp fun _ => .inl) fun _ => .inr

theorem operate_lives {i : Instr} {b : State → Run} (hi : beginOf i = some b) {s : State} (hin : s.inMem.wf) :
    (operate b s).Lives :=
  runUnits_lives _ (beginRun_lives hi (State.start_work hin) rfl rfl)

/-- A running operation whose command has been fetched. -/
theorem State.Inv.runs {s : State} (h : s.Inv) (hb : s.status = .busy) (hp : s.phase ≠ .command) : s.Runs :=
  ⟨s.frame, ⟨h.phaseBusy.1 hb, hp⟩, h.work hb⟩

/-- A byte of `CMD` decodes to a command. -/
theorem decodeCommand_begins {v : Byte} {i : Instr} (h : decodeCommand v = .ok i) : beginOf i ≠ none ∨ i = .clear := by
  have alg {n : Nat} {g : Alg → Instr} (e : withAlg n g = .ok i) (hg : ∀ a, beginOf (g a) ≠ none) :
      beginOf i ≠ none ∨ i = .clear := by
    unfold withAlg at e
    split at e
    · cases e; exact .inl (hg _)
    · cases e
  have zero {n : Nat} {c : Instr} (e : withZero n c = .ok i) (hc : beginOf c ≠ none ∨ c = .clear) :
      beginOf i ≠ none ∨ i = .clear := by
    unfold withZero at e
    split at e
    · cases e; exact hc
    · cases e
  unfold decodeCommand at h
  dsimp only at h
  split at h
  · exact alg h fun a => by cases a <;> exact Option.some_ne_none _
  · exact alg h fun a => by cases a <;> exact Option.some_ne_none _
  · exact zero h (.inl (Option.some_ne_none _))
  · exact zero h (.inl (Option.some_ne_none _))
  · exact alg h fun a => by cases a <;> exact Option.some_ne_none _
  · exact zero h (.inl (Option.some_ne_none _))
  · exact zero h (.inr rfl)
  · cases h

/-! ## One step -/

/-- The next state, where `o` has one, meets the invariant. -/
def NextHasInv (o : Host.Outcome State Fault Refusal) : Prop := ∀ t, o = .next t → t.Inv

theorem nextHasInv_next {t : State} : NextHasInv (.next t) ↔ t.Inv :=
  ⟨fun h => h t rfl, fun h _ e => Host.Outcome.next.inj e ▸ h⟩

theorem nextHasInv_fault {r : Fault} : NextHasInv (.fault r) := fun _ h => nomatch h

theorem nextHasInv_refused {r : Refusal} : NextHasInv (.refused r) := fun _ h => nomatch h

theorem exec_inv {s : State} (h : s.Inv) (hb : s.status = .busy) {i : Instr}
    (hi : s.phase = .command → beginOf i ≠ none ∨ i = .clear) : NextHasInv (exec i s) := by
  cases hbegin : beginOf i with
  | some b => exact exec_of_beginOf hbegin s ▸ nextHasInv_next.2 (operate_lives hbegin h.inWf).inv
  | none =>
    by_cases hc : i = .clear
    · exact hc ▸ nextHasInv_next.2 (State.clear_rests h.inWf h.tables).1
    · have hp : s.phase ≠ .command := fun hp => (hi hp).elim (absurd hbegin) hc
      obtain ⟨f, hf, hw⟩ := h.runs hb hp
      have hafter := hw.sound_settle (Q := State.After f)
        ((tokenEffect_work i hw).imp fun _ => State.Work.after hf) fun _ => .inr
      exact exec_token hbegin hc s ▸ nextHasInv_next.2 hafter.lives.inv

theorem beginCommand_inv {s : State} (h : s.Inv) (hb : s.status = .busy) (hp : s.phase = .command) :
    (beginCommand s).Inv := by
  unfold beginCommand
  split
  · exact (State.raise_rests h.inWf h.tables (rejectKind_raisable _)).1
  · split
    · next hi => exact (beginRun_lives hi (h.work hb) (h.notBegun hp).1 (h.notBegun hp).2).inv
    · exact (State.clear_rests h.inWf h.tables).1

theorem tick_inv {s : State} (h : s.Inv) : (tick s).Inv := by
  by_cases hb : s.status = .busy
  · by_cases hp : s.phase = .command
    · rw [tick, if_pos hb, if_pos hp]
      exact beginCommand_inv h hb hp
    · rw [tick_unit hb hp]
      exact (unitOfWork_lives hb (.inl (h.runs hb hp))).inv
  · rwa [tick_not_busy hb]

theorem engineStep_inv {s : State} (h : s.Inv) : NextHasInv (engineStep s) := by
  by_cases hb : s.status = .busy
  · by_cases hp : s.phase = .command
    · have hn : s.nextInstr = some (decodeCommand s.cmd) := by simp [State.nextInstr, hb, hp, decode]
      rw [engineStep, hn]
      cases hd : decodeCommand s.cmd with
      | ok i => exact exec_inv h hb fun _ => decodeCommand_begins hd
      | error x => exact nextHasInv_next.2 (State.raise_rests h.inWf h.tables (rejectKind_raisable x)).1
    · unfold engineStep
      split
      · exact exec_inv h hb (absurd · hp)
      · exact nextHasInv_next.2 (State.raise_rests h.inWf h.tables (rejectKind_raisable _)).1
      · rw [if_pos hb]
        obtain ⟨f, hf, hw⟩ := h.runs hb hp
        have hafter := hw.sound_settle (advance_after hf hw) fun _ => .inr
        exact nextHasInv_next.2 hafter.lives.inv
  · simpa [engineStep, State.nextInstr, hb] using nextHasInv_next.2 h

theorem hostWait_inv {s : State} (h : s.Inv) : NextHasInv (hostWait s) := by
  unfold hostWait
  split
  · next hc => exact nextHasInv_next.2 (runUnits_lives _ (.inl (h.runs hc.1 hc.2))).inv
  · exact engineStep_inv h

/-- The invariant says nothing of the registers that only the host writes, of `IN` beyond its form, and of the model's
own fields outside the engine. -/
theorem State.Inv.outside {s : State} (h : s.Inv) {inMem : Memory} (hin : inMem.wf) (cmd argAlg : Byte)
    (inLen argSize rdata : Word64) (host : List HostMove) (epoch draws : Nat) :
    State.Inv { s with
      cmd := cmd, inLen := inLen, argAlg := argAlg, argSize := argSize, inMem := inMem, host := host, rdata := rdata
      epoch := epoch, draws := draws } :=
  { h with inWf := hin }

theorem writeCsr_inv {s : State} (h : s.Inv) (c : Csr) (v : Word64) : NextHasInv (writeCsr c v s) := by
  unfold writeCsr
  split
  · exact nextHasInv_next.2 h
  · cases c with
    | cmd =>
      simp only [writeCmd, execClear]
      split
      · exact nextHasInv_next.2 (State.clear_rests (s := { s with cmd := v.truncate 8 }) h.inWf h.tables).1
      · exact nextHasInv_next.2 (State.start_inv (s := { s with cmd := v.truncate 8 }) h.inWf)
    | status | err | outLen => exact nextHasInv_next.2 h
    | inLen | argAlg | argSize => exact nextHasInv_next.2 (h.outside h.inWf _ _ _ _ _ _ _ _)

theorem hostWriteIn_inv {s : State} (h : s.Inv) (addr : Nat) (bytes : Bytes) :
    NextHasInv (hostWriteIn addr bytes s) := by
  unfold hostWriteIn
  split_ifs
  · exact nextHasInv_refused
  · exact nextHasInv_fault
  · exact nextHasInv_next.2 (h.outside (Memory.writeAll_wf h.inWf addr bytes) _ _ _ _ _ _ _ _)

theorem hostReadOut_inv {s : State} (h : s.Inv) (addr : Nat) : NextHasInv (hostReadOut addr s) := by
  unfold hostReadOut
  split
  · exact nextHasInv_refused
  · split
    · exact nextHasInv_fault
    · split
      · exact nextHasInv_next.2 (h.outside h.inWf _ _ _ _ _ _ _ _)
      · exact nextHasInv_next.2 (h.outside h.inWf _ _ _ _ _ _ _ _)

theorem hostReset_inv (s : State) : (hostReset s).Inv :=
  State.inv_of_empty .nil rfl Tables.fresh_ok rfl rfl nofun nofun nofun fun _ => rfl

/-- Every move of the host keeps the invariant. -/
theorem hostMove_inv {s : State} (h : s.Inv) (m : HostMove) : NextHasInv (hostMove m s) := by
  cases m with
  | writeIn addr bytes => exact hostWriteIn_inv h addr bytes
  | writeCsr offset width value =>
    simp only [hostMove]
    split
    · exact writeCsr_inv h _ value
    · exact nextHasInv_refused
  | readCsr offset width =>
    simp only [hostMove]
    split
    · exact nextHasInv_next.2 (h.outside h.inWf _ _ _ _ _ _ _ _)
    · exact nextHasInv_refused
  | readOut addr => exact hostReadOut_inv h addr
  | tick => exact nextHasInv_next.2 (tick_inv h)
  | wait => exact hostWait_inv h
  | reset => exact nextHasInv_next.2 (hostReset_inv s)

/-- Settles O59: a host's move by its kind, the engine's step by the invariant of a running operation. -/
theorem everyStepKeepsTheInvariant : Obligations.EveryStepKeepsTheInvariant := by
  intro s t h
  cases hh : s.host with
  | nil => exact step_of_host_nil hh ▸ engineStep_inv h t
  | cons m rest => exact step_of_host_cons hh ▸ hostMove_inv (h.outside h.inWf _ _ _ _ _ _ _ _) m t

end Sys2Proof.Machine
end

section
/-! Nothing persists between operations (O22): two states of one operation that agree on its input run alike. The second
state is the first one with another value in every place that no rule reads; each piece of an operation is shown to
commute with that exchange, and the end sequence to give both states the same result. -/

namespace Sys2Proof.Machine

/-! ## What two states of the same operation may differ in -/

/-- The registers and buffers in which two states of one operation may differ: those that no rule of it reads, and `IN`,
of which only the input is read. `aAlg` and `aSize` are read by PACK and by the end of UNPACK and DECODE only. -/
structure Other where
  cmd : Byte
  argAlg : Byte
  argSize : Word64
  inMem : Memory
  host : List HostMove
  rdata : Word64
  epoch : Nat
  draws : Nat
  aAlg : Byte
  aSize : Word64

/-- `s` with the values `w` in those places. -/
def State.swap (s : State) (w : Other) : State :=
  { s with
    cmd := w.cmd, argAlg := w.argAlg, argSize := w.argSize, inMem := w.inMem, host := w.host, rdata := w.rdata
    epoch := w.epoch, draws := w.draws, regs := { s.regs with aAlg := w.aAlg, aSize := w.aSize } }

/-- The two states read the same input. -/
def State.Reads (s : State) (w : Other) : Prop := ∀ i, i < s.regs.nIn → (s.swap w).inAt i = s.inAt i

/-- A piece of an operation with the exchange made in its answer. -/
def swapRun (w : Other) : Run → Run
  | .ok t => .ok (t.swap w)
  | .error k => .error k

section pieces

variable {w : Other} {s : State}

theorem bind_swap {r r' : Run} {g g' : State → Run} (hr : r' = swapRun w r)
    (hg : ∀ t, r = .ok t → g' (t.swap w) = swapRun w (g t)) : (r' >>= g') = swapRun w (r >>= g) := by
  subst hr
  cases r with
  | ok t => exact hg t rfl
  | error k => rfl

theorem if_swap {c : Prop} [Decidable c] {a a' b b' : Run} (ha : c → a' = swapRun w a) (hb : ¬ c → b' = swapRun w b) :
    (if c then a' else b') = swapRun w (if c then a else b) := by
  split
  · next hc => exact ha hc
  · next hc => exact hb hc

theorem guard_swap {c : Prop} [Decidable c] {k : ErrKind} {r r' : Run} (h : ¬ c → r' = swapRun w r) :
    (if c then .error k else r') = swapRun w (if c then .error k else r) := if_swap (fun _ => rfl) h

/-! ## Reads of the input -/

theorem inSlice_swap (hr : s.Reads w) {a len : Nat} (h : a + len ≤ s.regs.nIn) :
    (s.swap w).inSlice a len = s.inSlice a len := by
  induction len generalizing a with
  | zero => rfl
  | succ len ih => rw [State.inSlice, State.inSlice, hr a (by omega), ih (by omega)]

theorem rdU64_swap (hr : s.Reads w) {p : Nat} (h : p + 8 ≤ s.regs.nIn) : (s.swap w).rdU64 p = s.rdU64 p :=
  congrArg valueLE (inSlice_swap hr h)

theorem rdU32_swap (hr : s.Reads w) {p : Nat} (h : p + 4 ≤ s.regs.nIn) : (s.swap w).rdU32 p = s.rdU32 p :=
  congrArg valueLE (inSlice_swap hr h)

theorem window_swap (hr : s.Reads w) {a hi len : Nat} (h : hi ≤ s.regs.nIn) :
    (s.swap w).window a hi len = s.window a hi len := by
  rw [State.window, State.window]
  by_cases ha : a < hi
  · exact inSlice_swap hr (by omega)
  · rw [Nat.sub_eq_zero_of_le (Nat.le_of_not_lt ha), Nat.min_zero]
    rfl

/-! ## Output -/

theorem emit_swap (s : State) (b : Byte) : (s.swap w).emit b = swapRun w (s.emit b) := guard_swap fun _ => rfl

theorem emitSeq_swap (s : State) (bs : Bytes) : (s.swap w).emitSeq bs = swapRun w (s.emitSeq bs) := by
  induction bs generalizing s with
  | nil => rfl
  | cons b bs ih => exact bind_swap (emit_swap s b) fun t _ => ih t

/-- The history that is there is the same in both states. -/
theorem outAt_swap {f : Frame} (h : s.Work f) {k : Nat} (hk : k < s.regs.outCount) :
    (s.swap w).outAt k = s.outAt k := by
  obtain ⟨b, hb⟩ := Option.isSome_iff_exists.1 ((h.out.there (s.regs.outBase + k)).2 (Nat.add_lt_add_left hk _))
  have hb' : (s.swap w).outMem.read ((s.swap w).regs.outBase + k) = some b := hb
  rw [State.outAt, State.outAt, hb, hb']
  rfl

theorem copyHistory_swap {f : Frame} (h : s.Work f) {off : Nat} (hoff : 0 < off) (hle : off ≤ s.regs.outCount)
    (len : Nat) : (s.swap w).copyHistory off len = swapRun w (s.copyHistory off len) := by
  induction len generalizing s with
  | zero => rfl
  | succ len ih =>
    have hb : (s.swap w).outAt ((s.swap w).regs.outCount - off) = s.outAt (s.regs.outCount - off) :=
      outAt_swap h (by show s.regs.outCount - off < s.regs.outCount; omega)
    rw [State.copyHistory, State.copyHistory, hb]
    refine bind_swap (emit_swap s _) fun t ht => ih ((h.emit _).answers t ht) ?_
    obtain ⟨-, rfl⟩ := State.emit_ok.1 ht
    exact hle.trans (Nat.le_succ _)

theorem packDrain_swap (more : Nat) (s : State) : packDrain more (s.swap w) = swapRun w (packDrain more s) := by
  induction more generalizing s with
  | zero => rfl
  | succ more ih =>
    exact bind_swap (emit_swap s _) fun t _ => ih { t with regs := { t.regs with nacc := t.regs.nacc - 8 } }

theorem putCode_swap (c : Nat) (s : State) : putCode c (s.swap w) = swapRun w (putCode c s) :=
  bind_swap (packDrain_swap _ { s with regs := { s.regs with
    code := c, acc := s.regs.acc * 2 ^ Config.lzwCodeBits + c, nacc := s.regs.nacc + Config.lzwCodeBits } })
    fun _ _ => rfl

theorem flushBits_swap (s : State) : flushBits (s.swap w) = swapRun w (flushBits s) :=
  if_swap (fun _ => bind_swap (emit_swap s _) fun _ _ => rfl) fun _ => rfl

theorem putBit_swap (b : Bool) (s : State) : putBit b (s.swap w) = swapRun w (putBit b s) :=
  if_swap (fun _ => bind_swap (emit_swap s _) fun _ _ => rfl) fun _ => rfl

theorem putBits_swap (bs : List Bool) (s : State) : putBits bs (s.swap w) = swapRun w (putBits bs s) := by
  induction bs generalizing s with
  | nil => rfl
  | cons b bs ih => exact bind_swap (putBit_swap b s) fun t _ => ih t

theorem State.Reads.putAll (hr : s.Reads w) (bs : Bytes) : (s.putAll bs).Reads w := hr

/-! ## BWT + MTF -/

theorem bwtCStart_swap (s : State) : bwtCStart (s.swap w) = swapRun w (bwtCStart s) :=
  bind_swap (emitSeq_swap s _) fun _ _ => rfl

theorem bwtUnit_swap (hr : s.Reads w) (h : s.regs.ip < s.regs.nIn) : bwtUnit (s.swap w) = swapRun w (bwtUnit s) := by
  have hchunk : (s.swap w).inSlice (s.swap w).regs.ip
        (min Config.bwtChunkMax ((s.swap w).regs.nIn - (s.swap w).regs.ip)) =
      s.inSlice s.regs.ip (min Config.bwtChunkMax (s.regs.nIn - s.regs.ip)) :=
    inSlice_swap hr (by show s.regs.ip + min Config.bwtChunkMax (s.regs.nIn - s.regs.ip) ≤ s.regs.nIn; omega)
  unfold bwtUnit
  dsimp only
  rw [hchunk]
  exact bind_swap (emitSeq_swap s _) fun _ _ => rfl

theorem bwtDStart_swap (hr : s.Reads w) : bwtDStart (s.swap w) = swapRun w (bwtDStart s) := by
  refine guard_swap fun (h : ¬ s.regs.nIn < 8) => ?_
  rw [rdU64_swap hr (by omega)]
  rfl

theorem bwtHeader_swap (hr : s.Reads w) : bwtHeader (s.swap w) = swapRun w (bwtHeader s) := by
  refine guard_swap fun (h : ¬ s.regs.nIn < s.regs.ip + 16) => ?_
  have hp : (s.swap w).rdU64 (s.swap w).regs.ip = s.rdU64 s.regs.ip := 
    rdU64_swap (p := s.regs.ip) hr (by omega)
  have hcs : (s.swap w).rdU64 ((s.swap w).regs.ip + 8) = s.rdU64 (s.regs.ip + 8) :=
    rdU64_swap (p := s.regs.ip + 8) hr (by omega)
  rw [hp, hcs]
  exact guard_swap fun _ => guard_swap fun _ => guard_swap fun _ => rfl

theorem mtfIdx_swap (i : Byte) (s : State) : mtfIdx i (s.swap w) = swapRun w (mtfIdx i s) := rfl

theorem bwtChunkEnd_swap (s : State) : bwtChunkEnd (s.swap w) = swapRun w (bwtChunkEnd s) :=
  bind_swap (emitSeq_swap s.inverseBwt _) fun _ _ => rfl

/-! ## Delta -/

theorem deltaCStart_swap (hr : s.Reads w) (hn : 0 < s.regs.nIn) :
    deltaCStart (s.swap w) = swapRun w (deltaCStart s) := by
  refine bind_swap (emitSeq_swap s _) fun t ht => ?_
  obtain ⟨-, rfl⟩ := State.emitSeq_ok ht
  rw [hr.putAll _ 0 hn]
  refine bind_swap (emitSeq_swap _ _) fun u hu => ?_
  obtain ⟨-, rfl⟩ := State.emitSeq_ok hu
  rw [(hr.putAll _).putAll _ 0 hn]
  rfl

theorem deltaUnit_swap (hr : s.Reads w) (h : s.regs.ip < s.regs.nIn) :
    deltaUnit (s.swap w) = swapRun w (deltaUnit s) := by
  have hcur : (s.swap w).inAt (s.swap w).regs.ip = s.inAt s.regs.ip := hr _ h
  unfold deltaUnit
  rw [hcur]
  exact bind_swap (emitSeq_swap s _) fun _ _ => rfl

theorem deltaDStart_swap (hr : s.Reads w) : deltaDStart (s.swap w) = swapRun w (deltaDStart s) := by
  refine guard_swap fun (h : ¬ s.regs.nIn < 8) => ?_
  rw [rdU64_swap hr (by omega)]
  exact guard_swap fun _ => guard_swap fun _ => rfl

theorem deltaOut_swap (b : Byte) (s : State) : deltaOut b (s.swap w) = swapRun w (deltaOut b s) :=
  bind_swap (emit_swap s b) fun _ _ => rfl

/-! ## LZW -/

theorem dictAdd_swap (s : State) (x : Bytes) : (s.swap w).dictAdd x = (s.dictAdd x).swap w := by
  unfold State.dictAdd
  show (if s.regs.nextCode < Config.lzwDictMax then _ else _) = _
  split
  · rfl
  · rfl

theorem lzwLearn_swap (x : Bytes) (s : State) : lzwLearn x (s.swap w) = (lzwLearn x s).swap w := by
  cases hp : s.regs.prevCode with
  | none =>
    have hp' : (s.swap w).regs.prevCode = none := hp
    simp only [lzwLearn, hp, hp']
  | some pc =>
    have hp' : (s.swap w).regs.prevCode = some pc := hp
    simp only [lzwLearn, hp, hp']
    exact dictAdd_swap s _

theorem lzwCStart_swap (hr : s.Reads w) (hn : 0 < s.regs.nIn) : lzwCStart (s.swap w) = swapRun w (lzwCStart s) := by
  refine bind_swap (emitSeq_swap (lzwSeed s) _) fun t ht => ?_
  obtain ⟨-, rfl⟩ := State.emitSeq_ok ht
  have hseed : (lzwSeed s).Reads w := hr
  rw [hseed.putAll _ 0 hn]
  rfl

theorem lzwUnit_swap (hr : s.Reads w) (h : s.regs.ip < s.regs.nIn) : lzwUnit (s.swap w) = swapRun w (lzwUnit s) := by
  have hcur : (s.swap w).inAt (s.swap w).regs.ip = s.inAt s.regs.ip := hr _ h
  unfold lzwUnit
  dsimp only
  rw [hcur]
  cases he : s.dictFind (s.dictOf s.regs.w ++ [s.inAt s.regs.ip]) with
  | some c =>
    have he' : (s.swap w).dictFind ((s.swap w).dictOf (s.swap w).regs.w ++ [s.inAt s.regs.ip]) = some c := he
    rw [he']
    rfl
  | none =>
    have he' : (s.swap w).dictFind ((s.swap w).dictOf (s.swap w).regs.w ++ [s.inAt s.regs.ip]) = none := he
    rw [he']
    refine bind_swap (putCode_swap _ s) fun t _ => ?_
    rw [dictAdd_swap]
    rfl

theorem lzwCEnd_swap (s : State) : lzwCEnd (s.swap w) = swapRun w (lzwCEnd s) :=
  bind_swap (putCode_swap _ s) fun t _ => bind_swap (flushBits_swap t) fun _ _ => rfl

theorem lzwDStart_swap (hr : s.Reads w) : lzwDStart (s.swap w) = swapRun w (lzwDStart s) := by
  refine guard_swap fun (h : ¬ s.regs.nIn < 8) => ?_
  rw [rdU64_swap hr (by omega)]
  rfl

theorem lzwCode_swap (c : BitVec 12) (s : State) : lzwCode c (s.swap w) = swapRun w (lzwCode c s) := by
  have hx' : lzwString c.toNat (s.swap w) = lzwString c.toNat s := rfl
  unfold lzwCode
  rw [hx']
  cases lzwString c.toNat s with
  | none => rfl
  | some x =>
    dsimp only
    rw [lzwLearn_swap]
    exact bind_swap (emitSeq_swap _ _) fun _ _ => rfl

/-! ## Huffman -/

theorem hufCStart_swap (hr : s.Reads w) : hufCStart (s.swap w) = swapRun w (hufCStart s) := by
  have hin : (s.swap w).input = s.input := inSlice_swap hr (Nat.le_of_eq (Nat.zero_add _))
  have htabs : (s.swap w).tabs = s.tabs := rfl
  have emit {t u : State} (e : t = u.swap w) (bs : Bytes) : t.emitSeq bs = swapRun w (u.emitSeq bs) :=
    e ▸ emitSeq_swap u bs
  unfold hufCStart
  dsimp only
  rw [hin, htabs]
  generalize buildTree { s.tabs with freq := freqTable s.input } = built
  exact bind_swap (emit (by rfl) _) fun _ _ => rfl

theorem hufUnit_swap (hr : s.Reads w) (h : s.regs.ip < s.regs.nIn) : hufUnit (s.swap w) = swapRun w (hufUnit s) := by
  have hcur : (s.swap w).inAt (s.swap w).regs.ip = s.inAt s.regs.ip := hr _ h
  unfold hufUnit
  rw [hcur]
  exact bind_swap (putBits_swap _ s) fun _ _ => rfl

theorem hufCEnd_swap (s : State) : hufCEnd (s.swap w) = swapRun w (hufCEnd s) :=
  bind_swap (flushBits_swap s) fun _ _ => rfl

theorem hufDStart_swap (hr : s.Reads w) : hufDStart (s.swap w) = swapRun w (hufDStart s) := by
  refine guard_swap fun (h : ¬ s.regs.nIn < 12) => ?_
  rw [rdU32_swap hr (by omega), rdU64_swap hr (by omega)]
  exact guard_swap fun _ => guard_swap fun _ => rfl

theorem fillSlot_swap (s : State) (v : Option Nat) (more : List Slot) :
    (s.swap w).fillSlot v more = (s.fillSlot v more).swap w := by
  have hs' : (s.swap w).regs.slots = s.regs.slots := rfl
  unfold State.fillSlot
  rw [hs']
  split <;> rfl

theorem hufInt_swap (s : State) : hufInt (s.swap w) = swapRun w (hufInt s) :=
  congrArg Except.ok (fillSlot_swap (s.newRec (.internal none none) 1) _ _)

theorem hufLeaf_swap (sym : Byte) (s : State) : hufLeaf sym (s.swap w) = swapRun w (hufLeaf sym s) :=
  congrArg Except.ok (fillSlot_swap (s.newRec (.leaf sym) 2) _ _)

theorem hufNull_swap (s : State) : hufNull (s.swap w) = swapRun w (hufNull s) :=
  congrArg Except.ok (fillSlot_swap { s with regs := { s.regs with tp := s.regs.tp + 1 } } _ _)

theorem hufTreeEnd_swap (hr : s.Reads w) (h : 20 + s.regs.tl ≤ s.regs.nIn) :
    hufTreeEnd (s.swap w) = swapRun w (hufTreeEnd s) := by
  have htb : (s.swap w).rdU64 (12 + (s.swap w).regs.tl) = s.rdU64 (12 + s.regs.tl) :=
    rdU64_swap (p := 12 + s.regs.tl) hr (by omega)
  unfold hufTreeEnd
  rw [htb]
  exact guard_swap fun _ => guard_swap fun _ => rfl

theorem hufBit_swap (dir : BitVec 1) (s : State) : hufBit dir (s.swap w) = swapRun w (hufBit dir s) := by
  have hn' : (s.swap w).regs.node.bind ((s.swap w).tabs.tree[·]?) = s.regs.node.bind (s.tabs.tree[·]?) := rfl
  have ht' : (s.swap w).tabs.tree = s.tabs.tree := rfl
  unfold hufBit
  rw [hn']
  split
  · split
    · rfl
    · rw [ht']
      split
      · exact bind_swap (emit_swap s _) fun _ _ => rfl
      · rfl
  · rfl

/-! ## LZ77 and LZSS -/

/-- Within the input, and with the candidate behind `i`. -/
theorem matchLen_swap (hr : s.Reads w) {i j : Nat} (hj : j ≤ i) (more len : Nat) :
    matchLen (s.swap w) i j more len = matchLen s i j more len := by
  induction more generalizing len with
  | zero => rfl
  | succ more ih =>
    have hc : i + len < s.regs.nIn ∧ (s.swap w).inAt (j + len) = (s.swap w).inAt (i + len) ↔
        i + len < s.regs.nIn ∧ s.inAt (j + len) = s.inAt (i + len) :=
      and_congr_right fun h => by rw [hr (i + len) h, hr (j + len) (by omega)]
    rw [matchLen, matchLen, ih]
    exact if_congr hc rfl rfl

theorem matchScan_swap (hr : s.Reads w) {i maxLen : Nat} (more : Nat) (m : Match) (hm : m.j + more ≤ i) :
    matchScan (s.swap w) i maxLen more m = matchScan s i maxLen more m := by
  induction more generalizing m with
  | zero => rfl
  | succ more ih =>
    have hc : matchCandidate (s.swap w) i maxLen m = matchCandidate s i maxLen m := by
      rw [matchCandidate, matchCandidate, matchLen_swap hr (by omega)]
    have hj : (matchCandidate s i maxLen m).j = m.j + 1 := by
      unfold matchCandidate
      dsimp only
      split <;> rfl
    rw [matchScan, matchScan, hc, ih _ (by rw [hj]; omega)]

theorem findMatch_swap (hr : s.Reads w) (i window maxLen : Nat) :
    findMatch (s.swap w) i window maxLen = findMatch s i window maxLen :=
  matchScan_swap hr _ _ (by show i - window + (i - (i - window)) ≤ i; omega)

theorem lz77Unit_swap (hr : s.Reads w) (h : s.regs.ip < s.regs.nIn) : lz77Unit (s.swap w) = swapRun w (lz77Unit s) := by
  have hcur : (s.swap w).inAt (s.swap w).regs.ip = s.inAt s.regs.ip := hr _ h
  have hfind : findMatch (s.swap w) (s.swap w).regs.ip Config.lz77Window Config.lz77MaxMatch =
      findMatch s s.regs.ip Config.lz77Window Config.lz77MaxMatch := findMatch_swap hr _ _ _
  unfold lz77Unit
  dsimp only
  rw [hcur, hfind]
  generalize findMatch s s.regs.ip Config.lz77Window Config.lz77MaxMatch = m
  exact bind_swap (emitSeq_swap s _) fun _ _ => rfl

theorem lz77Lit_swap (b : Byte) (s : State) : lz77Lit b (s.swap w) = swapRun w (lz77Lit b s) :=
  bind_swap (emit_swap s b) fun _ _ => rfl

theorem lz77Match_swap {f : Frame} (h : s.Work f) (len : BitVec 7) (off : BitVec 16) :
    lz77Match len off (s.swap w) = swapRun w (lz77Match len off s) := by
  refine guard_swap fun (ho : ¬ (off.toNat = 0 ∨ s.regs.outCount < off.toNat)) => ?_
  exact bind_swap (copyHistory_swap h (by omega) (by omega) _) fun _ _ => rfl

theorem lzssUnit_swap (hr : s.Reads w) (h : s.regs.ip < s.regs.nIn) : lzssUnit (s.swap w) = swapRun w (lzssUnit s) := by
  have hcur : (s.swap w).inAt (s.swap w).regs.ip = s.inAt s.regs.ip := hr _ h
  have hfind : findMatch (s.swap w) (s.swap w).regs.ip Config.lzssWindow Config.lzssLookahead =
      findMatch s s.regs.ip Config.lzssWindow Config.lzssLookahead := findMatch_swap hr _ _ _
  have write (m : Match) (i : Instr × Nat) (flags : Bytes) : Except.ok { s.swap w with
      tabs := { s.tabs with flags := flags, data := s.tabs.data ++ encode i.1 }
      regs := { (s.swap w).regs.withMatch m with ip := s.regs.ip + i.2, tok := s.regs.tok + 1 } } =
    swapRun w (.ok { s with
      tabs := { s.tabs with flags := flags, data := s.tabs.data ++ encode i.1 }
      regs := { s.regs.withMatch m with ip := s.regs.ip + i.2, tok := s.regs.tok + 1 } }) := rfl
  unfold lzssUnit
  dsimp only
  rw [hcur, hfind]
  exact write _ _ _

theorem lzssCEnd_swap (s : State) : lzssCEnd (s.swap w) = swapRun w (lzssCEnd s) :=
  guard_swap fun _ => bind_swap (emitSeq_swap s _) fun _ _ => rfl

theorem lzssDStart_swap (hr : s.Reads w) : lzssDStart (s.swap w) = swapRun w (lzssDStart s) := by
  refine guard_swap fun (h : ¬ s.regs.nIn < 12) => ?_
  rw [rdU32_swap hr (by omega), rdU64_swap hr (by omega)]
  exact guard_swap fun _ => rfl

theorem lzssLit_swap (b : Byte) (s : State) : lzssLit b (s.swap w) = swapRun w (lzssLit b s) :=
  bind_swap (emit_swap s b) fun _ _ => rfl

theorem lzssMatch_swap {f : Frame} (h : s.Work f) (off : BitVec 12) (len : BitVec 4) :
    lzssMatch off len (s.swap w) = swapRun w (lzssMatch off len s) := by
  refine guard_swap fun (ho : ¬ s.regs.outCount < off.toNat + 1) => ?_
  exact bind_swap (copyHistory_swap h (by omega) (by omega) _) fun _ _ => rfl

/-! ## RLE -/

theorem rleRun_swap (hr : s.Reads w) (b : Byte) (more run : Nat) :
    rleRun (s.swap w) b more run = rleRun s b more run := by
  induction more generalizing run with
  | zero => rfl
  | succ more ih =>
    have hc : s.regs.ip + run < s.regs.nIn ∧ (s.swap w).inAt (s.regs.ip + run) = b ↔
        s.regs.ip + run < s.regs.nIn ∧ s.inAt (s.regs.ip + run) = b :=
      and_congr_right fun h => by rw [hr _ h]
    rw [rleRun, rleRun, ih]
    exact if_congr hc rfl rfl

theorem rleUnit_swap (hr : s.Reads w) (h : s.regs.ip < s.regs.nIn) : rleUnit (s.swap w) = swapRun w (rleUnit s) := by
  have hcur : (s.swap w).inAt (s.swap w).regs.ip = s.inAt s.regs.ip := hr _ h
  unfold rleUnit
  dsimp only
  rw [hcur, rleRun_swap hr]
  exact bind_swap (emitSeq_swap s _) fun _ _ => rfl

theorem rlePair_swap (count value : Byte) (s : State) :
    rlePair count value (s.swap w) = swapRun w (rlePair count value s) :=
  bind_swap (emitSeq_swap s _) fun _ _ => rfl

theorem copyUnit_swap (hr : s.Reads w) (h : s.regs.ip < s.regs.nIn) : copyUnit (s.swap w) = swapRun w (copyUnit s) := by
  have hcur : (s.swap w).inAt (s.swap w).regs.ip = s.inAt s.regs.ip := hr _ h
  unfold copyUnit
  rw [hcur]
  exact bind_swap (emit_swap s _) fun _ _ => rfl

/-! ## The start of a run -/

theorem rleDStart_swap (s : State) : rleDStart (s.swap w) = swapRun w (rleDStart s) := guard_swap fun _ => rfl

theorem beginCompress_swap (a : Alg) (hr : s.Reads w) : beginCompress a (s.swap w) = swapRun w (beginCompress a s) := by
  refine if_swap (fun _ => rfl) fun (hn : ¬ s.regs.nIn = 0) => ?_
  cases a with
  | rle | lz77 | lzss => rfl
  | huffman => exact hufCStart_swap hr
  | lzw => exact lzwCStart_swap hr (Nat.pos_of_ne_zero hn)
  | delta => exact deltaCStart_swap hr (Nat.pos_of_ne_zero hn)
  | bwt => exact bwtCStart_swap s

theorem beginDecompress_swap (a : Alg) (hr : s.Reads w) :
    beginDecompress a (s.swap w) = swapRun w (beginDecompress a s) := by
  refine if_swap (fun _ => rfl) fun _ => ?_
  cases a with
  | rle => exact rleDStart_swap s
  | lz77 => rfl
  | huffman => exact hufDStart_swap hr
  | lzw => exact lzwDStart_swap hr
  | lzss => exact lzssDStart_swap hr
  | delta => exact deltaDStart_swap hr
  | bwt => exact bwtDStart_swap hr

theorem beginEncode_swap (a : Alg) (hr : s.Reads w) : beginEncode a (s.swap w) = swapRun w (beginEncode a s) := by
  have codec {t : State} (ht : t.Reads w) :
      beginCompress a { t.swap w with regs := { (t.swap w).regs with outBase := Config.contHdr, outCount := 0 } } =
        swapRun w (beginCompress a { t with regs := { t.regs with outBase := Config.contHdr, outCount := 0 } }) :=
    beginCompress_swap a (s := { t with regs := { t.regs with outBase := Config.contHdr, outCount := 0 } }) ht
  refine bind_swap (emitSeq_swap s _) fun t ht => ?_
  obtain ⟨-, rfl⟩ := State.emitSeq_ok ht
  exact codec (hr.putAll _)

/-- PACK reads the fields that come from the `ARG` registers. -/
theorem beginPack_swap (ha : w.aAlg = s.regs.aAlg) (hz : w.aSize = s.regs.aSize) :
    beginPack (s.swap w) = swapRun w (beginPack s) := by
  have ha' : (s.swap w).regs.aAlg = s.regs.aAlg := ha
  have hz' : (s.swap w).regs.aSize = s.regs.aSize := hz
  unfold beginPack
  rw [ha', hz']
  exact guard_swap fun _ => bind_swap (emitSeq_swap s _) fun _ _ => rfl

/-- The state after a container's header has been read (48_container.md R292, R295). -/
def State.readFields (s : State) : State :=
  { s with regs := { s.regs with aAlg := s.inAt 1, aSize := BitVec.ofNat 64 (s.rdU64 2) } }

/-- After the header, both states hold its fields. -/
def Other.withHeader (w : Other) (s : State) : Other :=
  { w with aAlg := s.inAt 1, aSize := BitVec.ofNat 64 (s.rdU64 2) }

theorem readHeader_swap (hr : s.Reads w) :
    (∃ k, readHeader s = .error k ∧ readHeader (s.swap w) = .error k) ∨
    ∃ a, readHeader s = .ok (a, s.readFields) ∧
      readHeader (s.swap w) = .ok (a, s.readFields.swap (w.withHeader s)) := by
  by_cases hlen : s.regs.nIn < 10
  · exact .inl ⟨_, if_pos hlen, if_pos hlen⟩
  · have hmagic : (s.swap w).inAt 0 = s.inAt 0 := hr 0 (by omega)
    have halg : (s.swap w).inAt 1 = s.inAt 1 := hr 1 (by omega)
    have hsize : (s.swap w).rdU64 2 = s.rdU64 2 := rdU64_swap hr (by omega)
    unfold readHeader
    rw [hmagic, halg, hsize, if_neg (show ¬ s.regs.nIn < Config.contHdr from hlen),
      if_neg (show ¬ (s.swap w).regs.nIn < Config.contHdr from hlen)]
    by_cases hm : s.inAt 0 ≠ s.params.magic
    · exact .inl ⟨_, if_pos hm, if_pos hm⟩
    · rw [if_neg hm, if_neg (show ¬ s.inAt 0 ≠ (s.swap w).params.magic from hm)]
      cases algOfId (s.inAt 1).toNat with
      | none => exact .inl ⟨_, rfl, rfl⟩
      | some a => exact .inr ⟨a, rfl, rfl⟩

theorem beginUnpack_swap (hr : s.Reads w) :
    beginUnpack (s.swap w) = swapRun (w.withHeader s) (beginUnpack s) := by
  unfold beginUnpack
  obtain ⟨k, h, h'⟩ | ⟨a, h, h'⟩ := readHeader_swap hr
  · rw [h, h']
    rfl
  · rw [h, h']
    rfl

/-- The payload behind a container's header is part of the input. -/
theorem State.Reads.payload (hr : s.Reads w) (hb : s.regs.inBase = 0) {i : Nat} (hi : i < s.regs.nIn - Config.contHdr) :
    (s.swap w).inByteAt (Config.contHdr + i) = s.inByteAt (Config.contHdr + i) := by
  have hread : (s.swap w).inByteAt (s.regs.inBase + (Config.contHdr + i)) =
      s.inByteAt (s.regs.inBase + (Config.contHdr + i)) := hr _ (Nat.add_lt_of_lt_sub' hi)
  rwa [hb, Nat.zero_add] at hread

theorem beginDecode_swap (hr : s.Reads w) (hb : s.regs.inBase = 0) :
    beginDecode (s.swap w) = swapRun (w.withHeader s) (beginDecode s) := by
  unfold beginDecode
  obtain ⟨k, h, h'⟩ | ⟨a, h, h'⟩ := readHeader_swap hr
  · rw [h, h']
    rfl
  · rw [h, h']
    exact beginDecompress_swap a (s := { s.readFields with regs := { s.readFields.regs with
      inBase := Config.contHdr, nIn := s.regs.nIn - Config.contHdr, ending := .decode } }) fun i hi => hr.payload hb hi

/-! ## A unit of work -/

/-- Where the input is read behind a header's field, it holds what the field says. -/
structure Frame.Bounded (f : Frame) : Prop where
  flags : f.phase = .lzssD → 12 + f.fc ≤ f.source.nIn
  tree : f.phase = .hufTree → 20 + f.tl ≤ f.source.nIn

theorem Frame.Next.bounded {f g : Frame} (h : f.Next g) (hf : f.Bounded) : g.Bounded where
  flags hp := (h.flags hp).elim (fun e => e ▸ hf.flags (e ▸ hp)) id
  tree hp := (h.tree hp).elim (fun e => e ▸ hf.tree (e ▸ hp)) id

/-- Both states fetch the same token. -/
theorem fetchBytes_swap {f : Frame} (h : s.Work f) (hf : f.Bounded) (hr : s.Reads w) :
    (s.swap w).fetchBytes = s.fetchBytes := by
  obtain rfl := h.frame
  have hall {a len : Nat} : (s.swap w).window a (s.swap w).regs.nIn len = s.window a s.regs.nIn len :=
    window_swap hr (Nat.le_refl _)
  have hp' : (s.swap w).phase = s.phase := rfl
  cases hp : s.phase with
  | rleD => rw [fetchBytes_rle (hp'.trans hp), fetchBytes_rle hp, hall]; rfl
  | deltaD => rw [fetchBytes_delta (hp'.trans hp), fetchBytes_delta hp, hall]; rfl
  | lz77D => rw [fetchBytes_lz77 (hp'.trans hp), fetchBytes_lz77 hp, hall]; rfl
  | lzwD => rw [fetchBytes_lzw (hp'.trans hp), fetchBytes_lzw hp, hall]; rfl
  | hufTree =>
    have htree : 20 + s.regs.tl ≤ s.regs.nIn := hf.tree hp
    have hwin : (s.swap w).window (12 + (s.swap w).regs.tp) (12 + (s.swap w).regs.tl) 2 =
        s.window (12 + s.regs.tp) (12 + s.regs.tl) 2 := window_swap hr (by show 12 + s.regs.tl ≤ _; omega)
    rw [fetchBytes_hufTree (hp'.trans hp), fetchBytes_hufTree hp, hwin]
    rfl
  | hufBits => rw [fetchBytes_hufBits (hp'.trans hp), fetchBytes_hufBits hp, hall]; rfl
  | bwtIdx => rw [fetchBytes_bwt (hp'.trans hp), fetchBytes_bwt hp, hall]; rfl
  | lzssD =>
    have hflags : 12 + s.regs.fc ≤ s.regs.nIn := hf.flags hp
    have hflag (ht : ¬ 8 * s.regs.fc ≤ s.regs.tok) :
        (s.swap w).flagAt 12 (s.swap w).regs.tok = s.flagAt 12 s.regs.tok :=
      congrArg (fun b => b.getLsbD (s.regs.tok % 8)) (hr (12 + s.regs.tok / 8) (by omega))
    unfold State.fetchBytes
    rw [hp', hp]
    dsimp only
    by_cases ht : 8 * s.regs.fc ≤ s.regs.tok
    · have ht' : 8 * (s.swap w).regs.fc ≤ (s.swap w).regs.tok := ht
      rw [if_pos ht, if_pos ht']
      rfl
    · have ht' : ¬ 8 * (s.swap w).regs.fc ≤ (s.swap w).regs.tok := ht
      rw [if_neg ht, if_neg ht', hflag ht, hall]
      rfl
  | _ =>
    unfold State.fetchBytes
    rw [hp', hp]

theorem nextToken_swap {f : Frame} (h : s.Work f) (hf : f.Bounded) (hr : s.Reads w) :
    (s.swap w).nextToken = s.nextToken := by rw [State.nextToken, State.nextToken, fetchBytes_swap h hf hr]

/-- No token reads the input: its operands came with it. -/
theorem tokenEffect_swap {f : Frame} (h : s.Work f) (i : Instr) :
    tokenEffect i (s.swap w) = swapRun w (tokenEffect i s) := by
  cases i with
  | rlePair count value => exact rlePair_swap count value s
  | deltaFirst b => exact deltaOut_swap b s
  | deltaDiff d => exact deltaOut_swap _ s
  | lz77Lit b => exact lz77Lit_swap b s
  | lz77Match len off => exact lz77Match_swap h len off
  | lzssLit b => exact lzssLit_swap b s
  | lzssMatch off len => exact lzssMatch_swap h off len
  | lzwCode c => exact lzwCode_swap c s
  | hufInt => exact hufInt_swap s
  | hufLeaf sym => exact hufLeaf_swap sym s
  | hufNull => exact hufNull_swap s
  | hufBit dir => exact hufBit_swap dir s
  | mtfIdx r => exact mtfIdx_swap r s
  | _ => rfl

end pieces

/-! ## Ends with the same result -/

/-- What the host sees of an end is the same in both states; of the `ARG` registers where `p` says so. -/
structure SameResult (p : Prop) (t u : State) : Prop where
  status : t.status = u.status
  err : t.err = u.err
  outLen : t.outLen = u.outLen
  outMem : t.outMem = u.outMem
  args : p → t.status = .done → t.argAlg = u.argAlg ∧ t.argSize = u.argSize

/-- Two runs of a piece: both go on, and the exchange is still all they differ in; or both end with the same result; or
both raise the same kind. -/
inductive Alike (p : Prop) (w : Other) (f : Frame) : Run → Run → Prop
  | goes {t : State} (h : t.Goes f) : Alike p w f (.ok t) (.ok (t.swap w))
  | ends {t u : State} (h : t.status ≠ .busy) (hr : SameResult p t u) : Alike p w f (.ok t) (.ok u)
  | raises (k : ErrKind) : Alike p w f (.error k) (.error k)

/-- Where the end sequence writes the `ARG` registers, both states hold the same values for them; elsewhere `p` is
false. -/
def Other.Ends (w : Other) (p : Prop) (src : Source) : Prop :=
  (src.ending = .plain ∧ ¬ p) ∨ (src.ending ≠ .plain ∧ w.aAlg = src.aAlg ∧ w.aSize = src.aSize)

section alike

variable {p : Prop} {w : Other} {f : Frame} {s : State} {r r' : Run}

theorem Alike.guard {c : Prop} [Decidable c] {k : ErrKind} (h : Alike p w f r r') :
    Alike p w f (if c then .error k else r) (if c then .error k else r') := by
  split
  · exact .raises k
  · exact h

theorem alike_of_swap (hs : Sound r (State.Goes f)) (e : r' = swapRun w r) : Alike p w f r r' := by
  subst e
  cases r with
  | ok t => exact .goes (sound_ok.1 hs)
  | error k => exact .raises k

theorem endOp_alike (h : s.Work f) (he : w.Ends p f.source) : Alike p w f s.endOp (s.swap w).endOp := by
  obtain rfl := h.frame
  have he' : (s.swap w).regs.ending = s.regs.ending := rfl
  unfold State.endOp
  rw [he']
  obtain ⟨hplain, hp⟩ | ⟨hne, ha, hz⟩ := he
  · have hplain : s.regs.ending = .plain := hplain
    rw [hplain]
    exact .ends (by simp) ⟨rfl, rfl, rfl, rfl, fun h _ => absurd h hp⟩
  · have hsize : (s.swap w).regs.aSize = s.regs.aSize := hz
    have hend : Alike p w s.frame (.ok s.finishArgs) (.ok (s.swap w).finishArgs) :=
      .ends (by simp) ⟨rfl, rfl, rfl, rfl, fun _ _ => ⟨ha.symm, hz.symm⟩⟩
    cases hk : s.regs.ending with
    | plain => exact absurd hk hne
    | unpack => exact hend
    | decode =>
      dsimp only
      rw [hsize]
      exact hend.guard

theorem turn_alike {unit after : State → Run}
    (hu : s.regs.ip < s.regs.nIn → Alike p w f (unit s) (unit (s.swap w)))
    (ha : Alike p w f (after s) (after (s.swap w))) : Alike p w f (turn s unit after) (turn (s.swap w) unit after) := by
  by_cases hc : s.regs.ip < s.regs.nIn
  · have hc' : (s.swap w).regs.ip < (s.swap w).regs.nIn := hc
    rw [turn, turn, if_pos hc, if_pos hc']
    exact hu hc
  · have hc' : ¬ (s.swap w).regs.ip < (s.swap w).regs.nIn := hc
    rw [turn, turn, if_neg hc, if_neg hc']
    exact ha

/-- The work between tokens in both states, wherever the operation stands. -/
theorem advance_alike (hb : f.Begun) (h : s.Work f) (hf : f.Bounded) (hr : s.Reads w) (he : w.Ends p f.source) :
    Alike p w f (advance s) (advance (s.swap w)) := by
  have stays {r r' : Run} (hs : Sound r (State.Work f)) (e : r' = swapRun w r) : Alike p w f r r' :=
    alike_of_swap (hs.imp fun t ht => ⟨f, hb.next, ht⟩) e
  have hend : Alike p w f s.endOp (s.swap w).endOp := endOp_alike h he
  have hp' : (s.swap w).phase = s.phase := rfl
  obtain rfl := h.frame
  unfold advance
  rw [hp']
  cases hp : s.phase with
  | off => exact absurd hp hb.1
  | command => exact absurd hp hb.2
  | finished | rleD | deltaD | lz77D => exact hend
  | rleC => exact turn_alike (fun hi => stays (rleUnit_work h) (rleUnit_swap hr hi)) hend
  | deltaC => exact turn_alike (fun hi => stays (deltaUnit_work h) (deltaUnit_swap hr hi)) hend
  | lz77C => exact turn_alike (fun hi => stays (lz77Unit_work h) (lz77Unit_swap hr hi)) hend
  | lzssC =>
    exact turn_alike (fun hi => stays (lzssUnit_work h) (lzssUnit_swap hr hi))
      (alike_of_swap (lzssCEnd_goes h) (lzssCEnd_swap s))
  | lzwC =>
    exact turn_alike (fun hi => stays (lzwUnit_work h) (lzwUnit_swap hr hi))
      (alike_of_swap (lzwCEnd_goes h) (lzwCEnd_swap s))
  | hufC =>
    exact turn_alike (fun hi => stays (hufUnit_work h) (hufUnit_swap hr hi))
      (alike_of_swap (hufCEnd_goes h) (hufCEnd_swap s))
  | bwtC => exact turn_alike (fun hi => stays (bwtUnit_work h) (bwtUnit_swap hr hi)) hend
  | lzssD | lzwD | hufBits => exact hend.guard
  | hufTree => exact alike_of_swap (hufTreeEnd_goes h) (hufTreeEnd_swap hr (hf.tree hp))
  | bwtChunk => exact turn_alike (fun _ => alike_of_swap (bwtHeader_goes h) (bwtHeader_swap hr)) hend.guard
  | bwtIdx => exact alike_of_swap (bwtChunkEnd_goes h) (bwtChunkEnd_swap s)
  | pack | unpack => exact turn_alike (fun hi => stays (copyUnit_work h) (copyUnit_swap hr hi)) hend

/-- Two states after a piece: both run on, or both have ended. -/
def AlikeStates (p : Prop) (w : Other) (f : Frame) (t u : State) : Prop :=
  (t.Goes f ∧ u = t.swap w) ∨ (t.status ≠ .busy ∧ SameResult p t u)

theorem raise_alike (s u : State) (k : ErrKind) : AlikeStates p w f (s.raise k) (u.raise k) :=
  .inr ⟨nofun, rfl, rfl, rfl, rfl, nofun⟩

theorem settle_alike (s u : State) (h : Alike p w f r r') : AlikeStates p w f (s.settle r) (u.settle r') := by
  cases h with
  | goes h => exact .inl ⟨h, rfl⟩
  | ends h hr => exact .inr ⟨h, hr⟩
  | raises k => exact raise_alike s u k

theorem unitOfWork_alike (hb : f.Begun) (h : s.Work f) (hf : f.Bounded) (hr : s.Reads w) (he : w.Ends p f.source) :
    AlikeStates p w f (unitOfWork s) (unitOfWork (s.swap w)) := by
  unfold unitOfWork
  rw [nextToken_swap h hf hr]
  split
  · next i _ =>
    exact settle_alike _ _ <|
      alike_of_swap ((tokenEffect_work i h).imp fun t ht => ⟨f, hb.next, ht⟩) (tokenEffect_swap h i)
  · exact raise_alike _ _ _
  · exact settle_alike _ _ (advance_alike hb h hf hr he)

end alike

/-! ## Whole operations -/

/-- Over the source `src`, the state reads the same input with the exchange and without it. -/
def Other.Shows (w : Other) (s : State) (src : Source) : Prop :=
  ∀ i, i < src.nIn → (s.swap w).inByteAt (src.inBase + i) = s.inByteAt (src.inBase + i)

/-- What an operation keeps of `IN` it reads as before. -/
theorem Other.Shows.keep {w : Other} {s t : State} {src : Source} (h : w.Shows s src) (hk : s.KeepsInputs t) :
    w.Shows t src := by
  intro i hi
  have ht : t.inByteAt (src.inBase + i) = s.inByteAt (src.inBase + i) := by
    rw [State.inByteAt, State.inByteAt, hk.inMem, hk.epoch]
  exact (h i hi).trans ht.symm

theorem Other.Shows.reads {w : Other} {s : State} {f : Frame} (h : w.Shows s f.source) (hw : s.Work f) : s.Reads w := by
  obtain rfl := hw.frame
  exact h

/-- Two states of one operation run to the same result. -/
theorem runUnits_same {p : Prop} {w : Other} (fuel : Nat) {f : Frame} {s : State} (hb : f.Begun) (h : s.Work f)
    (hf : f.Bounded) (hr : w.Shows s f.source) (he : w.Ends p f.source) :
    SameResult p (runUnits fuel s) (runUnits fuel (s.swap w)) := by
  induction fuel generalizing f s with
  | zero => exact ⟨rfl, rfl, rfl, rfl, fun _ hd => absurd (h.status.symm.trans hd) nofun⟩
  | succ fuel ih =>
    rw [runUnits_busy h.status, runUnits_busy (s := s.swap w) h.status]
    have hk := unitOfWork_keepsInputs s
    obtain ⟨⟨g, hn, hw⟩, e⟩ | ⟨hend, hsame⟩ := unitOfWork_alike hb h hf (hr.reads h) he
    · rw [e]
      exact ih hn.begun hw (hn.bounded hf) (hn.source ▸ hr.keep hk) (hn.source ▸ he)
    · rwa [runUnits_ended hend, runUnits_ended (hsame.status ▸ hend)]

/-- The start check is the same in both states. -/
theorem checkCap_alike {p : Prop} {w w' : Other} {f : Frame} {s : State} {b : State → Run}
    (h : Alike p w' f (b s) (b (s.swap w))) : Alike p w' f (s.checkCap >>= b) ((s.swap w).checkCap >>= b) := by
  have hparams : (s.swap w).params = s.params := rfl
  unfold State.checkCap
  rw [hparams]
  split
  · exact h
  · next c _ =>
    by_cases hc : c < s.regs.nIn
    · have hc' : c < (s.swap w).regs.nIn := hc
      rw [if_pos hc, if_pos hc']
      exact .raises _
    · have hc' : ¬ c < (s.swap w).regs.nIn := hc
      rw [if_neg hc, if_neg hc']
      exact h

/-- What `u` holds in the places in which two states of one operation may differ. -/
def State.other (u : State) : Other where
  cmd := u.cmd
  argAlg := u.argAlg
  argSize := u.argSize
  inMem := u.inMem
  host := u.host
  rdata := u.rdata
  epoch := u.epoch
  draws := u.draws
  aAlg := u.argAlg
  aSize := u.argSize

/-- Nothing but those places tells two starts of an operation apart (40_commands_contract.md R121). -/
theorem start_eq_swap {s u : State} (hparams : u.params = s.params) (hlen : u.inLen = s.inLen) :
    u.start = s.start.swap u.other := by
  obtain ⟨⟩ := s
  obtain ⟨⟩ := u
  cases hparams
  cases hlen
  rfl

/-- The start of a command's run in both states: what they may differ in after it, and where they stand. -/
theorem beginOf_alike {i : Instr} {b : State → Run} (hi : beginOf i = some b) {s : State} (hin : s.inMem.wf) {w : Other}
    (hr : s.start.Reads w) (hargs : i = .pack → w.aAlg = s.argAlg ∧ w.aSize = s.argSize) :
    ∃ w' f, Alike (i = .unpack ∨ i = .decode) w' f (b s.start) (b (s.start.swap w)) ∧ f.Bounded ∧
      w'.Shows s.start f.source ∧ w'.Ends (i = .unpack ∨ i = .decode) f.source := by
  have h := State.start_work hin
  have place {f : Frame} (hp : f.phase = .command) : f.Bounded := ⟨by simp [hp], by simp [hp]⟩
  have plain {r r' : Run} {p : Prop} (hs : Sound r (State.Goes s.start.frame)) (e : r' = swapRun w r) (hp : ¬ p) :
      ∃ w' f, Alike p w' f r r' ∧ f.Bounded ∧ w'.Shows s.start f.source ∧ w'.Ends p f.source :=
    ⟨w, _, alike_of_swap hs e, place rfl, hr, .inl ⟨rfl, hp⟩⟩
  cases i <;> cases hi
  case compressRle | compressLz77 | compressHuffman | compressLzw | compressLzss | compressDelta | compressBwt =>
    exact plain (beginCompress_goes _ h) (beginCompress_swap _ hr) (by simp)
  case decompressRle | decompressLz77 | decompressHuffman | decompressLzw | decompressLzss | decompressDelta |
      decompressBwt =>
    exact plain (beginDecompress_goes _ h) (beginDecompress_swap _ hr) (by simp)
  case encodeRle | encodeLz77 | encodeHuffman | encodeLzw | encodeLzss | encodeDelta | encodeBwt =>
    exact plain (beginEncode_goes _ h rfl rfl) (beginEncode_swap _ hr) (by simp)
  case pack => exact plain (beginPack_goes h) (beginPack_swap (hargs rfl).1 (hargs rfl).2) (by simp)
  case unpack =>
    exact ⟨_, _, alike_of_swap (beginUnpack_goes h) (beginUnpack_swap hr), place rfl, hr, .inr ⟨nofun, rfl, rfl⟩⟩
  case decode =>
    exact ⟨_, _, alike_of_swap (beginDecode_goes h) (beginDecode_swap hr rfl), place rfl,
      fun i hi => hr.payload rfl hi, .inr ⟨nofun, rfl, rfl⟩⟩

/-- Two states that agree on the input of an operation end it with the same result. -/
theorem operate_same {i : Instr} {b : State → Run} (hi : beginOf i = some b) {s u : State} (hin : s.inMem.wf)
    (hparams : u.params = s.params) (hlen : u.inLen = s.inLen)
    (hbytes : ∀ a, a < s.inLen.toNat → u.inByteAt a = s.inByteAt a)
    (hargs : i = .pack → u.argAlg = s.argAlg ∧ u.argSize = s.argSize) :
    SameResult (i = .unpack ∨ i = .decode) (operate b s) (operate b u) := by
  have hr : s.start.Reads u.other := fun a ha => by
    have hbyte := hbytes a ha
    rwa [← Nat.zero_add a] at hbyte
  obtain ⟨w, f, halike, hf, hshows, hends⟩ := beginOf_alike hi hin hr hargs
  have hfuel : u.fuel = s.fuel := by rw [State.fuel, State.fuel, hlen]
  rw [operate, operate, hfuel, start_eq_swap hparams hlen]
  have hk := beginRun_keepsInputs hi s.start
  obtain ⟨⟨g, hn, hw⟩, e⟩ | ⟨hend, hsame⟩ := settle_alike s.start (s.start.swap u.other) (checkCap_alike halike)
  · rw [beginRun, beginRun, e]
    exact runUnits_same _ hn.begun hw (hn.bounded hf) (hn.source ▸ hshows.keep hk) (hn.source ▸ hends)
  · rw [beginRun, beginRun, runUnits_ended hend, runUnits_ended (hsame.status ▸ hend)]
    exact hsame

/-- `s` with its input in canonical form, as the invariant asks, and no other byte in `IN`. -/
def State.withInputOnly (s : State) : State := { s with inMem := Memory.writeAll [] 0 s.inputBytes }

theorem withInputOnly_wf (s : State) : s.withInputOnly.inMem.wf := Memory.writeAll_wf .nil _ _

theorem withInputOnly_inByteAt (s : State) {a : Nat} (h : a < s.inLen.toNat) :
    s.withInputOnly.inByteAt a = s.inByteAt a := by
  have hlen : a < s.inputBytes.length := by simpa [State.inputBytes] using h
  have hread := Memory.read_writeAll_same [] 0 s.inputBytes hlen
  rw [Nat.zero_add] at hread
  rw [State.inByteAt, State.withInputOnly, hread]
  simp [State.inputBytes]

/-- A command that starts no run is CLEAR. -/
theorem eq_clear_of_beginOf {i : Instr} (hc : i.ctx = .command) (h : beginOf i = none) : i = .clear := by
  cases i <;> cases h
  case clear => rfl
  all_goals nomatch hc

/-- Settles O22: both states end as the one that holds nothing but the input does. -/
theorem nothingPersistsBetweenOperations : Obligations.NothingPersistsBetweenOperations := by
  intro s u s' u' i hctx hparams hlen hbytes hargs hs hu
  cases hi : beginOf i with
  | none =>
    obtain rfl := eq_clear_of_beginOf hctx hi
    cases hs
    cases hu
    exact ⟨rfl, rfl, rfl, fun _ _ => rfl, fun h => by simp at h⟩
  | some b =>
    obtain rfl := Host.Outcome.next.inj ((exec_of_beginOf hi s).symm.trans hs)
    obtain rfl := Host.Outcome.next.inj ((exec_of_beginOf hi u).symm.trans hu)
    have hin {a : Nat} (ha : a < s.inLen.toNat) := withInputOnly_inByteAt s ha
    have h1 := operate_same hi (withInputOnly_wf s) (u := s) rfl rfl (fun a ha => (hin ha).symm) fun _ => ⟨rfl, rfl⟩
    have h2 := operate_same hi (withInputOnly_wf s) (u := u) hparams.symm hlen.symm
      (fun a ha => (hbytes a ha).symm.trans (hin ha).symm) fun h => ⟨(hargs h).1.symm, (hargs h).2.symm⟩
    refine ⟨h1.status.symm.trans h2.status, h1.err.symm.trans h2.err, h1.outLen.symm.trans h2.outLen, fun a _ => ?_,
      fun hp hd => ?_⟩
    · rw [← h1.outMem, h2.outMem]
    · have hd' := h1.status.trans hd
      obtain ⟨ha1, hz1⟩ := h1.args hp hd'
      obtain ⟨ha2, hz2⟩ := h2.args hp hd'
      exact ⟨ha1.symm.trans ha2, hz1.symm.trans hz2⟩

end Sys2Proof.Machine
end

section
/-! The `ARG` registers through an operation (O17): what commutes with the exchange of their values does not write them,
and an operation's end sequence is all that does not commute. -/

namespace Sys2Proof.Machine

/-! ## `KeepsArgs` as a relation between states -/

theorem State.KeepsArgs.trans {s t u : State} (h : s.KeepsArgs t) (h' : t.KeepsArgs u) : s.KeepsArgs u :=
  ⟨h'.argAlg.trans h.argAlg, h'.argSize.trans h.argSize⟩

theorem State.start_keepsArgs (s : State) : s.KeepsArgs s.start := ⟨rfl, rfl⟩

theorem State.raise_keepsArgs (s : State) (k : ErrKind) : s.KeepsArgs (s.raise k) := ⟨rfl, rfl⟩

theorem State.clear_keepsArgs (s : State) : s.KeepsArgs s.clear := ⟨rfl, rfl⟩

theorem swap_keepsArgs (w : Other) (s t : State) : (s.swap w).KeepsArgs (t.swap w) := ⟨rfl, rfl⟩

theorem State.settle_keepsArgs {s : State} {r : Run} (h : Answers r s.KeepsArgs) : s.KeepsArgs (s.settle r) := by
  cases r with
  | ok t => exact answers_ok.1 h
  | error k => exact s.raise_keepsArgs k

/-- From `s` to `t`, at or before the end of an operation with the end sequence `e`: only the successful end of UNPACK or
DECODE writes the `ARG` registers (40_commands_contract.md R121). -/
def State.KeepsArgsUntilEnd (s : State) (e : Ending) (t : State) : Prop :=
  s.KeepsArgs t ∨ (e ≠ .plain ∧ t.status = .done)

theorem State.KeepsArgs.untilEnd {s t u : State} {e : Ending} (h : s.KeepsArgs t) (h' : t.KeepsArgsUntilEnd e u) :
    s.KeepsArgsUntilEnd e u := h'.imp_left h.trans

theorem State.KeepsArgsUntilEnd.plain {s t : State} (h : s.KeepsArgsUntilEnd .plain t) : s.KeepsArgs t :=
  h.resolve_right fun hend => hend.1 rfl

theorem State.KeepsArgsUntilEnd.not_done {s t : State} {e : Ending} (h : s.KeepsArgsUntilEnd e t)
    (hd : t.status ≠ .done) : s.KeepsArgs t := h.resolve_right fun hend => hd hend.2

/-! ## A unit of work -/

theorem State.endOp_keepsArgs (s : State) : Answers s.endOp (s.KeepsArgsUntilEnd s.regs.ending) := by
  unfold State.endOp
  cases s.regs.ending with
  | plain => exact answers_ok.2 (.inl ⟨rfl, rfl⟩)
  | unpack => exact answers_ok.2 (.inr ⟨nofun, rfl⟩)
  | decode => exact answers_guard (answers_ok.2 (.inr ⟨nofun, rfl⟩))

/-- A piece of an operation that commutes with the exchange keeps the values that were exchanged for the old ones. -/
theorem keepsArgs_of_swap {s : State} {w : Other} {r r' : Run} (e : r' = swapRun w r) (ha : w.argAlg = s.argAlg)
    (hz : w.argSize = s.argSize) : Answers r' s.KeepsArgs := by
  subst e
  cases r with
  | ok t => exact answers_ok.2 ⟨ha, hz⟩
  | error k => exact answers_error

theorem turn_answers {P : State → Prop} {s : State} {unit after : State → Run}
    (hu : s.regs.ip < s.regs.nIn → Answers (unit s) P) (ha : Answers (after s) P) : Answers (turn s unit after) P := by
  unfold turn
  split
  · next hi => exact hu hi
  · exact ha

section pieces

variable {w : Other} {f : Frame} {s : State}

/-- The work between tokens commutes with the exchange, or it is the end sequence, wherever the operation stands. -/
theorem advance_keepsArgs (hf : f.Bounded) (h : s.Work f) (hr : s.Reads w) :
    Answers (advance (s.swap w)) ((s.swap w).KeepsArgsUntilEnd f.source.ending) := by
  obtain rfl := h.frame
  have hend : Answers (s.swap w).endOp ((s.swap w).KeepsArgsUntilEnd s.regs.ending) := (s.swap w).endOp_keepsArgs
  have stays {r r' : Run} (e : r' = swapRun w r) : Answers r' ((s.swap w).KeepsArgsUntilEnd s.regs.ending) :=
    (keepsArgs_of_swap (s := s.swap w) e rfl rfl).imp fun _ => .inl
  have hp' : (s.swap w).phase = s.phase := rfl
  unfold advance
  rw [hp']
  cases hp : s.phase with
  | off | command => exact answers_ok.2 (.inl (swap_keepsArgs w s s))
  | finished | rleD | deltaD | lz77D => exact hend
  | rleC => exact turn_answers (fun hi => stays (rleUnit_swap hr hi)) hend
  | deltaC => exact turn_answers (fun hi => stays (deltaUnit_swap hr hi)) hend
  | lz77C => exact turn_answers (fun hi => stays (lz77Unit_swap hr hi)) hend
  | lzssC => exact turn_answers (fun hi => stays (lzssUnit_swap hr hi)) (stays (lzssCEnd_swap s))
  | lzwC => exact turn_answers (fun hi => stays (lzwUnit_swap hr hi)) (stays (lzwCEnd_swap s))
  | hufC => exact turn_answers (fun hi => stays (hufUnit_swap hr hi)) (stays (hufCEnd_swap s))
  | bwtC => exact turn_answers (fun hi => stays (bwtUnit_swap hr hi)) hend
  | lzssD | lzwD | hufBits => exact answers_guard hend
  | hufTree => exact stays (hufTreeEnd_swap hr (hf.tree hp))
  | bwtChunk => exact turn_answers (fun _ => stays (bwtHeader_swap hr)) (answers_guard hend)
  | bwtIdx => exact stays (bwtChunkEnd_swap s)
  | pack | unpack => exact turn_answers (fun hi => stays (copyUnit_swap hr hi)) hend

theorem unitOfWork_keepsArgs (hf : f.Bounded) (h : s.Work f) (hr : s.Reads w) :
    (s.swap w).KeepsArgsUntilEnd f.source.ending (unitOfWork (s.swap w)) := by
  obtain ⟨i, -, e⟩ | ⟨x, -, e⟩ | ⟨-, e⟩ := unitOfWork_cases (s.swap w)
  · exact e ▸ .inl (State.settle_keepsArgs (keepsArgs_of_swap (tokenEffect_swap h i) rfl rfl))
  · exact e ▸ .inl ((s.swap w).raise_keepsArgs _)
  · rw [e]
    cases hadv : advance (s.swap w) with
    | ok t => exact advance_keepsArgs hf h hr t hadv
    | error k => exact .inl ((s.swap w).raise_keepsArgs k)

end pieces

/-- As long as the operation runs the exchanged values stay where they are, and its last unit of work is its end. -/
theorem runUnits_keepsArgs {p : Prop} {w : Other} (fuel : Nat) {f : Frame} {s : State} (hb : f.Begun) (h : s.Work f)
    (hf : f.Bounded) (hr : w.Shows s f.source) (he : w.Ends p f.source) :
    (s.swap w).KeepsArgsUntilEnd f.source.ending (runUnits fuel (s.swap w)) := by
  induction fuel generalizing f s with
  | zero => exact .inl (swap_keepsArgs w s s)
  | succ fuel ih =>
    rw [runUnits_busy (s := s.swap w) h.status]
    have hunit := unitOfWork_keepsArgs hf h (hr.reads h)
    obtain ⟨⟨g, hn, hw⟩, e⟩ | ⟨hend, hsame⟩ := unitOfWork_alike hb h hf (hr.reads h) he
    · have hrest := ih hn.begun hw (hn.bounded hf) (hn.source ▸ hr.keep (unitOfWork_keepsInputs s)) (hn.source ▸ he)
      rw [e]
      exact (swap_keepsArgs w s _).untilEnd (hn.source ▸ hrest)
    · rwa [runUnits_ended (hsame.status ▸ hend)]

/-! ## The start of a run -/

/-- The start of every command's run keeps the `ARG` registers: an exchange of their values for themselves changes
nothing. -/
theorem beginOf_keepsArgs {i : Instr} {b : State → Run} (hi : beginOf i = some b) (s : State) :
    Answers (b s.start) s.start.KeepsArgs := by
  have hself : s.start = s.start.swap s.other := start_eq_swap rfl rfl
  have hr : s.start.Reads s.other := fun _ _ => rfl
  rw [hself]
  cases i <;> cases hi
  case compressRle | compressLz77 | compressHuffman | compressLzw | compressLzss | compressDelta | compressBwt =>
    exact keepsArgs_of_swap (beginCompress_swap _ hr) rfl rfl
  case decompressRle | decompressLz77 | decompressHuffman | decompressLzw | decompressLzss | decompressDelta |
      decompressBwt =>
    exact keepsArgs_of_swap (beginDecompress_swap _ hr) rfl rfl
  case encodeRle | encodeLz77 | encodeHuffman | encodeLzw | encodeLzss | encodeDelta | encodeBwt =>
    exact keepsArgs_of_swap (beginEncode_swap _ hr) rfl rfl
  case pack => exact keepsArgs_of_swap (beginPack_swap rfl rfl) rfl rfl
  case unpack => exact keepsArgs_of_swap (beginUnpack_swap hr) rfl rfl
  case decode => exact keepsArgs_of_swap (beginDecode_swap hr rfl) rfl rfl

/-- The start check answers no other state than the one it is made in. -/
theorem State.checkCap_answers (s : State) : Answers s.checkCap (· = s) := by
  unfold State.checkCap
  split
  · exact answers_ok.2 rfl
  · exact answers_guard (answers_ok.2 rfl)

theorem beginRun_keepsArgs {i : Instr} {b : State → Run} (hi : beginOf i = some b) (s : State) :
    s.start.KeepsArgs (beginRun b s.start) :=
  State.settle_keepsArgs (s.start.checkCap_answers.bind fun _ e => e ▸ beginOf_keepsArgs hi s)

/-- The run of every command but UNPACK and DECODE goes on from its start with the same source, and so with the plain end
sequence. -/
theorem beginOf_goes {i : Instr} {b : State → Run} (hi : beginOf i = some b) (hu : i ≠ .unpack) (hd : i ≠ .decode)
    {f : Frame} {s : State} (h : s.Work f) (hb : s.regs.outBase = 0) (hc : s.regs.outCount = 0) :
    Sound (b s) (State.Goes f) := by
  cases i <;> cases hi
  case compressRle | compressLz77 | compressHuffman | compressLzw | compressLzss | compressDelta | compressBwt =>
    exact beginCompress_goes _ h
  case decompressRle | decompressLz77 | decompressHuffman | decompressLzw | decompressLzss | decompressDelta |
      decompressBwt =>
    exact beginDecompress_goes _ h
  case encodeRle | encodeLz77 | encodeHuffman | encodeLzw | encodeLzss | encodeDelta | encodeBwt =>
    exact beginEncode_goes _ h hb hc
  case pack => exact beginPack_goes h
  case unpack => exact absurd rfl hu
  case decode => exact absurd rfl hd

theorem beginRun_ending {i : Instr} {b : State → Run} (hi : beginOf i = some b) (hu : i ≠ .unpack) (hd : i ≠ .decode)
    {s : State} (hin : s.inMem.wf) {g : Frame} (hw : (beginRun b s.start).Work g) : g.source.ending = .plain := by
  have h := State.start_work hin
  obtain ⟨k, hn, hk⟩ | hrest : (beginRun b s.start).After s.start.frame :=
    h.sound_settle ((sound_checkCap (beginOf_goes hi hu hd h rfl rfl)).imp fun _ => .inl) fun _ => .inr
  · rw [← hw.frame, hk.frame, hn.source]
    rfl
  · exact absurd hw.status hrest.2

/-! ## A whole operation -/

/-- What an operation does to the `ARG` registers, and which commands have the plain end sequence. The state beside it
holds the same input in canonical form, so that a run of it is well, and its run goes alike. -/
theorem operate_keepsArgs {i : Instr} {b : State → Run} (hi : beginOf i = some b) (s : State) :
    ∃ e, s.KeepsArgsUntilEnd e (operate b s) ∧ (i ≠ .unpack → i ≠ .decode → e = .plain) := by
  have hin := withInputOnly_wf s
  have hr : s.withInputOnly.start.Reads s.other := fun a ha => by
    have hbyte := withInputOnly_inByteAt s ha
    rw [← Nat.zero_add a] at hbyte
    exact hbyte.symm
  have hstart : s.start = s.withInputOnly.start.swap s.other := start_eq_swap rfl rfl
  have hbegin : s.KeepsArgs (beginRun b s.start) := s.start_keepsArgs.trans (beginRun_keepsArgs hi s)
  have hk := beginRun_keepsInputs hi s.withInputOnly.start
  obtain ⟨w, f, halike, hf, hshows, hends⟩ := beginOf_alike hi hin hr fun _ => ⟨rfl, rfl⟩
  obtain ⟨⟨g, hn, hw⟩, e⟩ | ⟨hend, hsame⟩ :=
    settle_alike s.withInputOnly.start (s.withInputOnly.start.swap s.other) (checkCap_alike halike)
  · refine ⟨g.source.ending, hbegin.untilEnd ?_, fun hu hd => beginRun_ending hi hu hd hin hw⟩
    rw [operate, hstart, beginRun, e]
    exact runUnits_keepsArgs _ hn.begun hw (hn.bounded hf) (hn.source ▸ hshows.keep hk) (hn.source ▸ hends)
  · refine ⟨.plain, .inl ?_, fun _ _ => rfl⟩
    have hstop : (beginRun b s.start).status ≠ .busy := by
      rw [hstart]
      exact hsame.status ▸ hend
    rwa [operate, runUnits_ended hstop]

/-- Settles O17: CLEAR writes none of these, and of a command that starts a run only the end sequence of UNPACK and DECODE
writes the `ARG` registers. -/
theorem operationsKeepTheirInputs : Obligations.OperationsKeepTheirInputs := by
  intro s t i hctx ht
  obtain ⟨t', ht', hinputs⟩ := exec_keepsInputs i s
  obtain rfl := Host.Outcome.next.inj (ht'.symm.trans ht)
  refine ⟨hinputs, ?_⟩
  cases hi : beginOf i with
  | none =>
    obtain rfl := eq_clear_of_beginOf hctx hi
    cases ht
    exact ⟨fun _ _ => s.clear_keepsArgs, fun _ => s.clear_keepsArgs⟩
  | some b =>
    obtain rfl := Host.Outcome.next.inj ((exec_of_beginOf hi s).symm.trans ht)
    obtain ⟨e, hargs, hplain⟩ := operate_keepsArgs hi s
    exact ⟨fun hu hd => (hplain hu hd ▸ hargs).plain, hargs.not_done⟩

end Sys2Proof.Machine
end

section
/-! Decoding and encoding (30_encoding.md): the commands by their two fields and the tokens by their bytes; O2, O3,
O4, O5 and O6. -/

namespace Sys2Proof.Machine

/-! ## The commands (30_encoding.md R81, R82) -/

theorem algOfId_algId (a : Alg) : algOfId (algId a) = some a := by cases a <;> rfl

theorem algOfId_eq_some {n : Nat} {a : Alg} (h : algOfId n = some a) : n = algId a := by
  unfold algOfId at h
  split at h <;> cases h <;> rfl

theorem algId_le (a : Alg) : algId a ≤ 6 := by cases a <;> decide

/-- The ids 0 to 6 name the algorithms. -/
theorem exists_algId_eq {n : Nat} (h : n ≤ 6) : ∃ a, algId a = n := by
  interval_cases n
  exacts [⟨.rle, rfl⟩, ⟨.lz77, rfl⟩, ⟨.huffman, rfl⟩, ⟨.lzw, rfl⟩, ⟨.lzss, rfl⟩, ⟨.delta, rfl⟩, ⟨.bwt, rfl⟩]

theorem withAlg_algId (a : Alg) (g : Alg → Instr) : withAlg (algId a) g = .ok (g a) := by
  rw [withAlg, algOfId_algId]

theorem withAlg_of_ge {n : Nat} (h : 7 ≤ n) (g : Alg → Instr) : withAlg n g = .error .unknownAlgorithm := by
  cases ha : algOfId n with
  | none => rw [withAlg, ha]
  | some a =>
    have hle := algId_le a
    rw [← algOfId_eq_some ha] at hle
    omega

/-- `i` is the command whose `CMD` byte has the fields `op` and `alg`. -/
def IsCommand (op alg : Nat) (i : Instr) : Prop := i.ctx = .command ∧ encode i = commandByte op alg

theorem commandByte_fields (v : Byte) : commandByte (v.toNat / 16) (v.toNat % 16) = [v] := by
  rw [commandByte, Nat.div_add_mod, BitVec.ofNat_toNat, BitVec.setWidth_eq]

section command

variable {v : Byte}

/-- COMPRESS, DECOMPRESS and ENCODE, whose ALG field names an algorithm. -/
theorem decodeCommand_eq_withAlg (h : v.toNat / 16 ∈ [1, 2, 5]) :
    ∃ g, decodeCommand v = withAlg (v.toNat % 16) g ∧ ∀ a, IsCommand (v.toNat / 16) (algId a) (g a) := by
  simp only [List.mem_cons, List.not_mem_nil, or_false] at h
  obtain h | h | h := h
  · exact ⟨compressOf, by simp [decodeCommand, h], fun a => h ▸ by cases a <;> exact ⟨rfl, rfl⟩⟩
  · exact ⟨decompressOf, by simp [decodeCommand, h], fun a => h ▸ by cases a <;> exact ⟨rfl, rfl⟩⟩
  · exact ⟨encodeOf, by simp [decodeCommand, h], fun a => h ▸ by cases a <;> exact ⟨rfl, rfl⟩⟩

/-- PACK, UNPACK, DECODE and CLEAR, whose ALG field is 0. -/
theorem decodeCommand_eq_withZero (h : v.toNat / 16 ∈ [3, 4, 6, 15]) :
    ∃ i, decodeCommand v = withZero (v.toNat % 16) i ∧ IsCommand (v.toNat / 16) 0 i := by
  simp only [List.mem_cons, List.not_mem_nil, or_false] at h
  obtain h | h | h | h := h
  · exact ⟨.pack, by simp [decodeCommand, h], h ▸ ⟨rfl, rfl⟩⟩
  · exact ⟨.unpack, by simp [decodeCommand, h], h ▸ ⟨rfl, rfl⟩⟩
  · exact ⟨.decode, by simp [decodeCommand, h], h ▸ ⟨rfl, rfl⟩⟩
  · exact ⟨.clear, by simp [decodeCommand, h], h ▸ ⟨rfl, rfl⟩⟩

theorem decodeCommand_of_other_op (h : v.toNat / 16 ∉ [1, 2, 3, 4, 5, 6, 15]) :
    decodeCommand v = .error .illegalCommand := by
  simp only [List.mem_cons, List.not_mem_nil, or_false, not_or] at h
  unfold decodeCommand
  dsimp only
  split
  case h_8 => rfl
  all_goals omega

theorem decodeCommand_of_alg_le (h : v.toNat / 16 ∈ [1, 2, 5]) (ha : v.toNat % 16 ≤ 6) :
    ∃ i, decodeCommand v = .ok i ∧ IsCommand (v.toNat / 16) (v.toNat % 16) i := by
  obtain ⟨g, hg, hcmd⟩ := decodeCommand_eq_withAlg h
  obtain ⟨a, ha⟩ := exists_algId_eq ha
  rw [hg, ← ha]
  exact ⟨g a, withAlg_algId a g, hcmd a⟩

theorem decodeCommand_of_alg_ge (h : v.toNat / 16 ∈ [1, 2, 5]) (ha : 7 ≤ v.toNat % 16) :
    decodeCommand v = .error .unknownAlgorithm := by
  obtain ⟨g, hg, -⟩ := decodeCommand_eq_withAlg h
  rw [hg, withAlg_of_ge ha]

theorem decodeCommand_of_alg_eq_zero (h : v.toNat / 16 ∈ [3, 4, 6, 15]) (ha : v.toNat % 16 = 0) :
    ∃ i, decodeCommand v = .ok i ∧ IsCommand (v.toNat / 16) (v.toNat % 16) i := by
  obtain ⟨i, hi, hcmd⟩ := decodeCommand_eq_withZero h
  rw [hi, ha]
  exact ⟨i, if_pos rfl, hcmd⟩

theorem decodeCommand_of_alg_ne_zero (h : v.toNat / 16 ∈ [3, 4, 6, 15]) (ha : v.toNat % 16 ≠ 0) :
    decodeCommand v = .error .illegalCommand := by
  obtain ⟨i, hi, -⟩ := decodeCommand_eq_withZero h
  rw [hi, withZero, if_neg ha]

theorem IsCommand.encode_eq {i : Instr} (h : IsCommand (v.toNat / 16) (v.toNat % 16) i) : encode i = [v] :=
  h.2.trans (commandByte_fields v)

/-- A byte is read as no other command than the one it encodes. -/
theorem decodeCommand_ok {i : Instr} (h : decodeCommand v = .ok i) : i.ctx = .command ∧ encode i = [v] := by
  have hcmd : ∃ j, decodeCommand v = .ok j ∧ IsCommand (v.toNat / 16) (v.toNat % 16) j := by
    by_cases hop : v.toNat / 16 ∈ [1, 2, 5]
    · refine decodeCommand_of_alg_le hop (not_lt.1 fun ha => ?_)
      exact nomatch (decodeCommand_of_alg_ge hop ha).symm.trans h
    · by_cases hop' : v.toNat / 16 ∈ [3, 4, 6, 15]
      · refine decodeCommand_of_alg_eq_zero hop' (not_not.1 fun ha => ?_)
        exact nomatch (decodeCommand_of_alg_ne_zero hop' ha).symm.trans h
      · refine nomatch (decodeCommand_of_other_op ?_).symm.trans h
        simp only [List.mem_cons, List.not_mem_nil, or_false, not_or] at hop hop' ⊢
        omega
  obtain ⟨j, hj, hcmd⟩ := hcmd
  obtain rfl := Except.ok.inj (hj.symm.trans h)
  exact ⟨hcmd.1, hcmd.encode_eq⟩

end command

/-- Settles O5: each clause is one of the branches of the decoder. -/
theorem commandValuesAreClassified : Obligations.CommandValuesAreClassified := fun _ =>
  ⟨fun hop ha => (decodeCommand_of_alg_le hop ha).imp fun _ => And.imp_right IsCommand.encode_eq,
    decodeCommand_of_alg_ge,
    fun hop ha => (decodeCommand_of_alg_eq_zero hop ha).imp fun _ => And.imp_right IsCommand.encode_eq,
    decodeCommand_of_alg_ne_zero, decodeCommand_of_other_op⟩

/-! ## Encoding and then decoding -/

theorem ctx_atBit0 (i : Instr) : i.ctx.atBit0 = i.ctx := by cases i <;> rfl

/-- The first byte of an LZ77 match is its length, under the flag bit 0 (30_encoding.md R88). -/
theorem toNat_lz77_flag_append (len : BitVec 7) : (0#1 ++ len).toNat = len.toNat :=
  (BitVec.toNat_append 0#1 len).trans (by simp)

theorem decode_encode_lz77Match (len : BitVec 7) (off : BitVec 16) (rest : Bytes) :
    decode .lz77 (encode (.lz77Match len off) ++ rest) = .ok (.lz77Match len off) := by
  have hflag : (0#1 ++ len).toNat < 0x80 := (toNat_lz77_flag_append len).trans_lt len.isLt
  refine (decode_lz77_match hflag _ _ rest).trans ?_
  have hlen : (0#1 ++ len).truncate 7 = len := BitVec.setWidth_append_eq_right
  have hoff : off.extractLsb' 8 8 ++ off.extractLsb' 0 8 = off := BitVec.extractLsb'_append_extractLsb'
  rw [hlen, hoff]

theorem decode_encode_lzssMatch (off : BitVec 12) (len : BitVec 4) (rest : Bytes) :
    decode .lzssMatch (encode (.lzssMatch off len) ++ rest) = .ok (.lzssMatch off len) := by
  have hword : (off ++ len).extractLsb' 8 8 ++ (off ++ len).extractLsb' 0 8 = off ++ len :=
    BitVec.extractLsb'_append_extractLsb'
  have hoff : (off ++ len).extractLsb' 4 12 = off := BitVec.extractLsb'_append_eq_left
  have hlen : (off ++ len).extractLsb' 0 4 = len := BitVec.extractLsb'_append_eq_right
  simp only [encode, List.cons_append, decode, lzssMatchOf]
  rw [hword, hoff, hlen]

/-- The first of two codes, whatever the low half of the byte they share (30_encoding.md R93). -/
theorem decode_lzw_high (c : BitVec 12) (low : BitVec 4) (rest : Bytes) :
    decode (.lzw 0) (c.extractLsb' 4 8 :: (c.extractLsb' 0 4 ++ low) :: rest) = .ok (.lzwCode c) := by
  have hlow : (c.extractLsb' 0 4 ++ low).extractLsb' 4 4 = c.extractLsb' 0 4 := BitVec.extractLsb'_append_eq_left
  have hcode : c.extractLsb' 4 8 ++ c.extractLsb' 0 4 = c := BitVec.extractLsb'_append_extractLsb'
  rw [decode_lzw_first, hlow, hcode]

/-- The second of two codes, whatever the high half of the byte they share (30_encoding.md R93). -/
theorem decode_lzw_low (high : BitVec 4) (c : BitVec 12) (rest : Bytes) :
    decode (.lzw 4) ((high ++ c.extractLsb' 8 4) :: c.extractLsb' 0 8 :: rest) = .ok (.lzwCode c) := by
  have hhigh : (high ++ c.extractLsb' 8 4).extractLsb' 0 4 = c.extractLsb' 8 4 := BitVec.extractLsb'_append_eq_right
  have hcode : c.extractLsb' 8 4 ++ c.extractLsb' 0 8 = c := BitVec.extractLsb'_append_extractLsb'
  rw [decode_lzw_second, hhigh, hcode]

theorem decode_encode_hufBit (d : BitVec 1) (rest : Bytes) :
    decode (.hufBit 0) (encode (.hufBit d) ++ rest) = .ok (.hufBit d) := by
  have hbit : (d ++ 0#7).extractLsb' 7 1 = d := BitVec.extractLsb'_append_eq_left
  refine (decode_hufBit (d ++ 0#7) rest (by decide)).trans ?_
  rw [hbit]

/-- A command and a token of whole fields are read back by computation, a token of packed fields by its own lemma. -/
theorem decode_encode (i : Instr) (rest : Bytes) : decode i.ctx (encode i ++ rest) = .ok i := by
  cases i with
  | lz77Match len off => exact decode_encode_lz77Match len off rest
  | lzssMatch off len => exact decode_encode_lzssMatch off len rest
  | lzwCode c => exact decode_lzw_high c 0#4 rest
  | hufBit d => exact decode_encode_hufBit d rest
  | _ => rfl

/-- Settles O2: by `decode_encode`, at the instruction's own place. -/
theorem decodeInvertsEncode : Obligations.DecodeInvertsEncode := by
  intro i rest hwf
  exact ⟨by simp [Instr.WellFormedAt, hwf, ctx_atBit0], decode_encode i rest⟩

/-- Settles O4: each code by the half byte it shares, each bit by its place in the byte. -/
theorem bitStreamsAreReadHighestBitFirst : Obligations.BitStreamsAreReadHighestBitFirst :=
  ⟨fun a b rest => ⟨decode_lzw_high a _ _, decode_lzw_low _ b rest⟩, fun x _ rest hk => decode_hufBit x rest hk⟩

/-- Settles O6: by evaluation of the decoder on each word. -/
theorem writtenWordsDecode : Obligations.WrittenWordsDecode := by
  unfold Obligations.WrittenWordsDecode
  decide

/-! ## Decoding and then encoding -/

/-- The bytes `bs` at the place `c` begin with the encoding of `i`, which belongs there. -/
def BeginsWith (c : Ctx) (bs : Bytes) (i : Instr) : Prop := i.ctx = c ∧ ∃ rest, bs = encode i ++ rest

theorem lz77_flag_append_truncate {t : Byte} (h : t.toNat < 0x80) : 0#1 ++ t.truncate 7 = t :=
  BitVec.eq_of_toNat_eq ((toNat_lz77_flag_append _).trans (by simpa using Nat.mod_eq_of_lt h))

theorem encode_lz77Match {t : Byte} (h : t.toNat < 0x80) (hi lo : Byte) :
    encode (.lz77Match (t.truncate 7) (hi ++ lo)) = [t, hi, lo] := by
  have hhi : (hi ++ lo).extractLsb' 8 8 = hi := BitVec.extractLsb'_append_eq_left
  have hlo : (hi ++ lo).extractLsb' 0 8 = lo := BitVec.extractLsb'_append_eq_right
  rw [encode, lz77_flag_append_truncate h, hhi, hlo]

theorem encode_lzssMatchOf (hi lo : Byte) : encode (lzssMatchOf (hi ++ lo)) = [hi, lo] := by
  have hword : (hi ++ lo).extractLsb' 4 12 ++ (hi ++ lo).extractLsb' 0 4 = hi ++ lo :=
    BitVec.extractLsb'_append_extractLsb'
  have hhi : (hi ++ lo).extractLsb' 8 8 = hi := BitVec.extractLsb'_append_eq_left
  have hlo : (hi ++ lo).extractLsb' 0 8 = lo := BitVec.extractLsb'_append_eq_right
  rw [lzssMatchOf, encode, hword, hhi, hlo]

theorem decodeLz77_ok {bs : Bytes} {i : Instr} (h : decodeLz77 bs = .ok i) : BeginsWith .lz77 bs i := by
  unfold decodeLz77 at h
  split at h
  · cases h
  · split_ifs at h with hflag hlt
    · split at h
      · cases h
        exact ⟨rfl, _, by rw [hflag]; rfl⟩
      · cases h
    · split at h
      · cases h
        exact ⟨rfl, _, by rw [encode_lz77Match hlt]; rfl⟩
      · cases h

theorem decodeHufTree_ok {bs : Bytes} {i : Instr} (h : decodeHufTree bs = .ok i) : BeginsWith .hufTree bs i := by
  unfold decodeHufTree at h
  split at h
  · cases h
  · split_ifs at h with hint hleaf hnull
    · cases h
      exact ⟨rfl, _, by rw [hint]; rfl⟩
    · split at h
      · cases h
        exact ⟨rfl, _, by rw [hleaf]; rfl⟩
      · cases h
    · cases h
      exact ⟨rfl, _, by rw [hnull]; rfl⟩

/-- Settles O3: along the branches of the decoder. -/
theorem decodedBytesAreTheEncoding : Obligations.DecodedBytesAreTheEncoding := by
  intro c bs i hlzw hhuf h
  cases c with
  | command =>
    match bs, h with
    | v :: rest, h =>
      obtain ⟨hctx, henc⟩ := decodeCommand_ok h
      exact ⟨hctx, rest, by rw [henc]; rfl⟩
  | rle =>
    match bs, h with
    | _ :: _ :: rest, h => cases h; exact ⟨rfl, rest, rfl⟩
  | deltaFirst | deltaDiff | lzssLit | mtf =>
    match bs, h with
    | _ :: rest, h => cases h; exact ⟨rfl, rest, rfl⟩
  | lzssMatch =>
    match bs, h with
    | hi :: lo :: rest, h =>
      cases h
      exact ⟨rfl, rest, by rw [encode_lzssMatchOf]; rfl⟩
  | lz77 => exact decodeLz77_ok h
  | hufTree => exact decodeHufTree_ok h
  | lzw bit => exact absurd rfl hlzw
  | hufBit bit => exact absurd rfl hhuf

end Sys2Proof.Machine
end

section
/-! What a step makes of the instruction it takes up, and of bytes that are none: O7, O9 and O10. -/

namespace Sys2Proof.Machine

/-! ## The next instruction (30_encoding.md R80, R82, R101) -/

section step

variable {s : State}

theorem nextInstr_command (hb : s.status = .busy) (hp : s.phase = .command) :
    s.nextInstr = some (decodeCommand s.cmd) := by
  rw [State.nextInstr, if_pos hb, if_pos hp, decode]

theorem nextInstr_frame (hb : s.status = .busy) (hp : s.phase ≠ .command) : s.nextInstr = s.nextToken := by
  rw [State.nextInstr, if_pos hb, if_neg hp]

theorem step_of_nextInstr {i : Instr} (hh : s.host = []) (hn : s.nextInstr = some (.ok i)) : step s = exec i s := by
  rw [step_of_host_nil hh, engineStep, hn]

theorem State.raise_failed (k : ErrKind) : (s.raise k).Failed k := ⟨rfl, rfl, rfl, Memory.read_nil⟩

/-- What is no instruction raises the kind of its refusal. -/
theorem stepFails_of_reject {x : Reject} (hh : s.host = []) (hn : s.nextInstr = some (.error x)) :
    StepFails s (rejectKind x) :=
  ⟨s.raise (rejectKind x), by rw [step_of_host_nil hh, engineStep, hn], s.raise_failed _, s.raise_keepsInputs _,
    s.raise_keepsArgs _⟩

theorem stepFails_of_command {x : Reject} (hh : s.host = []) (hb : s.status = .busy) (hp : s.phase = .command)
    (hd : decodeCommand s.cmd = .error x) : StepFails s (rejectKind x) :=
  stepFails_of_reject hh ((nextInstr_command hb hp).trans (by rw [hd]))

/-- A place without a token. -/
theorem stepFails_of_no_place {x : Reject} (hh : s.host = []) (hb : s.status = .busy) (hp : s.phase ≠ .command)
    (hf : s.fetchBytes = some (.error x)) : StepFails s (rejectKind x) :=
  stepFails_of_reject hh ((nextInstr_frame hb hp).trans (by rw [State.nextToken, hf]; rfl))

/-- A place whose bytes are no token. -/
theorem stepFails_of_fetch {c : Ctx} {bs : Bytes} {x : Reject} (hh : s.host = []) (hb : s.status = .busy)
    (hp : s.phase ≠ .command) (hf : s.fetchBytes = some (.ok (c, bs))) (hd : decode c bs = .error x) :
    StepFails s (rejectKind x) :=
  stepFails_of_reject hh ((nextInstr_frame hb hp).trans (by
    rw [State.nextToken, hf]
    exact congrArg some hd))

end step

/-- Settles O7: the command by the byte in `CMD`, the token by what is fetched. -/
theorem stepRunsTheDecodedInstruction : Obligations.StepRunsTheDecodedInstruction := by
  intro s i hh hb
  refine ⟨fun hp hd => ?_, fun hp c bs => step_of_fetch hh hb hp⟩
  exact step_of_nextInstr hh ((nextInstr_command hb hp).trans (congrArg some hd))

/-- Settles O10: the decoder refuses each of these values, and the step raises the kind of the refusal. -/
theorem illegalCommandsFailAtOnce : Obligations.IllegalCommandsFailAtOnce := by
  intro s hh hb hp
  refine ⟨fun hop ha => stepFails_of_command hh hb hp (decodeCommand_of_alg_ge hop ha), ?_⟩
  rintro (hop | ⟨hop, ha⟩)
  · exact stepFails_of_command hh hb hp (decodeCommand_of_other_op hop)
  · exact stepFails_of_command hh hb hp (decodeCommand_of_alg_ne_zero hop ha)

/-! ## Bytes that are no token (30_encoding.md R101) -/

theorem State.window_of_le (s : State) {a hi : Nat} (h : hi ≤ a) (len : Nat) : s.window a hi len = [] := by
  rw [State.window, Nat.sub_eq_zero_of_le h, Nat.min_zero, State.inSlice]

theorem ne_lz77LitFlag {t : Byte} (h : t.toNat ≠ 0x80) : t ≠ Config.lz77LitFlag := by
  rintro rfl
  exact h rfl

theorem decode_lz77_badFlag {t : Byte} (h : 0x80 < t.toNat) (rest : Bytes) :
    decode .lz77 (t :: rest) = .error .badFlag := by
  simp only [decode, decodeLz77]
  rw [if_neg (ne_lz77LitFlag h.ne'), if_neg (by omega)]

theorem decode_lz77_flag_only {t : Byte} (h : t.toNat ≤ 0x80) : decode .lz77 [t] = .error .cutShort := by
  simp only [decode, decodeLz77]
  split_ifs with hlit hmatch
  · rfl
  · rfl
  · exact absurd (BitVec.eq_of_toNat_eq (y := Config.lz77LitFlag) (le_antisymm h (not_lt.1 hmatch))) hlit

theorem decode_lz77_match_cutShort {t : Byte} (h : t.toNat < 0x80) (b : Byte) :
    decode .lz77 [t, b] = .error .cutShort := by
  simp only [decode, decodeLz77]
  rw [if_neg (ne_lz77LitFlag h.ne), if_pos h]

theorem decode_hufTree_badTag {tag : Byte} (h : 2 < tag.toNat) (rest : Bytes) :
    decode .hufTree (tag :: rest) = .error .badTag := by
  have hne {v : Byte} (hv : v.toNat ≤ 2) : tag ≠ v := by rintro rfl; omega
  simp only [decode, decodeHufTree]
  rw [if_neg (hne (by decide)), if_neg (hne (by decide)), if_neg (hne (by decide))]

/-- Past the flags there is no place for a token (44_lzss.md R185). -/
theorem fetchBytes_lzss_outOfFlags {s : State} (h : s.phase = .lzssD) (hn : s.regs.outCount < s.regs.n)
    (ht : 8 * s.regs.fc ≤ s.regs.tok) : s.fetchBytes = some (.error .outOfFlags) := by
  simp only [State.fetchBytes, h, if_pos hn, if_pos ht]

section illegal

variable {s : State}

/-- 43_lz77.md R165. -/
theorem lz77_illegal_fails (hh : s.host = []) (hb : s.status = .busy) (hp : s.phase = .lz77D)
    (h : (s.regs.ip < s.regs.nIn ∧ 0x80 < (s.inAt s.regs.ip).toNat) ∨ s.regs.ip + 1 = s.regs.nIn ∨
      (s.regs.ip + 2 = s.regs.nIn ∧ (s.inAt s.regs.ip).toNat < 0x80)) : StepFails s .corruptPayload := by
  have hi : s.regs.ip < s.regs.nIn := by omega
  have fails {x : Reject} (hd : decode .lz77 (s.inAt s.regs.ip :: s.window (s.regs.ip + 1) s.regs.nIn 2) = .error x) :
      StepFails s (rejectKind x) :=
    stepFails_of_fetch hh hb (hp ▸ nofun) ((fetchBytes_lz77 hp).trans (if_pos hi)) (by rwa [s.window_cons hi])
  by_cases hflag : 0x80 < (s.inAt s.regs.ip).toNat
  · exact fails (decode_lz77_badFlag hflag _)
  · obtain ⟨-, hbad⟩ | hend | ⟨hend, hmatch⟩ := h
    · exact absurd hbad hflag
    · refine fails (x := .cutShort) ?_
      rw [s.window_of_le (by omega)]
      exact decode_lz77_flag_only (not_lt.1 hflag)
    · refine fails (x := .cutShort) ?_
      rw [s.window_cons (by omega), s.window_of_le (by omega)]
      exact decode_lz77_match_cutShort hmatch _

/-- 44_lzss.md R185. -/
theorem lzss_illegal_fails (hh : s.host = []) (hb : s.status = .busy) (hp : s.phase = .lzssD)
    (hn : s.regs.outCount < s.regs.n)
    (h : 8 * s.regs.fc ≤ s.regs.tok ∨
      (s.regs.tok < 8 * s.regs.fc ∧ s.regs.nIn < 12 + s.regs.fc + s.regs.dp + 1) ∨
      (s.regs.tok < 8 * s.regs.fc ∧ (s.inAt (12 + s.regs.tok / 8)).getLsbD (s.regs.tok % 8) = true ∧
        s.regs.nIn < 12 + s.regs.fc + s.regs.dp + 2)) : StepFails s .corruptPayload := by
  have hc : s.phase ≠ .command := hp ▸ nofun
  obtain hflags | ⟨hflags, hend⟩ | ⟨hflags, hmatch, hend⟩ := h
  · exact stepFails_of_no_place hh hb hc (fetchBytes_lzss_outOfFlags hp hn hflags)
  · refine stepFails_of_fetch (x := .cutShort) hh hb hc (fetchBytes_lzss hp hn hflags rfl) ?_
    rw [s.window_of_le (by omega)]
    split_ifs
    · rfl
    · rfl
  · refine stepFails_of_fetch (x := .cutShort) hh hb hc (fetchBytes_lzss hp hn hflags hmatch) ?_
    by_cases hlast : 12 + s.regs.fc + s.regs.dp < s.regs.nIn
    · rw [s.window_cons hlast, s.window_of_le (by omega)]
      rfl
    · rw [s.window_of_le (not_lt.1 hlast)]
      rfl

/-- 46_huffman.md R236. -/
theorem hufTree_illegal_fails (hh : s.host = []) (hb : s.status = .busy) (hp : s.phase = .hufTree)
    (hs : s.regs.slots ≠ [])
    (h : s.regs.tl ≤ s.regs.tp ∨ (s.regs.tp < s.regs.tl ∧ 2 < (s.inAt (12 + s.regs.tp)).toNat) ∨
      (s.regs.tp + 1 = s.regs.tl ∧ s.inAt (12 + s.regs.tp) = 1)) : StepFails s .corruptPayload := by
  have fails {x : Reject} (hd : decode .hufTree (s.window (12 + s.regs.tp) (12 + s.regs.tl) 2) = .error x) :
      StepFails s (rejectKind x) :=
    stepFails_of_fetch hh hb (hp ▸ nofun) ((fetchBytes_hufTree hp).trans (if_pos hs)) hd
  obtain hend | ⟨hlt, htag⟩ | ⟨hlast, hleaf⟩ := h
  · refine fails (x := .cutShort) ?_
    rw [s.window_of_le (by omega)]
    rfl
  · refine fails (x := .badTag) ?_
    rw [s.window_cons (by omega)]
    exact decode_hufTree_badTag htag _
  · refine fails (x := .cutShort) ?_
    rw [s.window_cons (by omega), s.window_of_le (by omega), hleaf]
    rfl

end illegal

/-- Settles O9: codec by codec. -/
theorem illegalTokensRaiseCorruptPayload : Obligations.IllegalTokensRaiseCorruptPayload := by
  intro s hh hb h
  obtain ⟨hp, h⟩ | ⟨hp, h⟩ | ⟨hp, h⟩ | ⟨hp, hn, h⟩ | ⟨hp, hn, h⟩ | ⟨hp, hn, h⟩ | ⟨hp, hs, h⟩ | ⟨hp, hs, h⟩ |
    ⟨hp, hs, h⟩ := h
  · exact lz77_illegal_fails hh hb hp (.inl h)
  · exact lz77_illegal_fails hh hb hp (.inr (.inl h))
  · exact lz77_illegal_fails hh hb hp (.inr (.inr h))
  · exact lzss_illegal_fails hh hb hp hn (.inl h)
  · exact lzss_illegal_fails hh hb hp hn (.inr (.inl h))
  · exact lzss_illegal_fails hh hb hp hn (.inr (.inr h))
  · exact hufTree_illegal_fails hh hb hp hs (.inl h)
  · exact hufTree_illegal_fails hh hb hp hs (.inr (.inl h))
  · exact hufTree_illegal_fails hh hb hp hs (.inr (.inr h))

end Sys2Proof.Machine
end

section
/-! COMPRESS and DECOMPRESS as a run of units of work that each append bytes (40_commands_contract.md R121, R122): what
holds in the middle of such an operation, what one unit makes of it, and the end that a whole run comes to. -/

namespace Sys2Proof.Machine

/-! ## Output with and without room -/

theorem State.emitSeq_of_no_room {s : State} {bs : Bytes} (h : ¬ s.room bs.length) :
    s.emitSeq bs = .error .capacityExceeded := by
  cases he : s.emitSeq bs with
  | ok t => exact absurd (State.emitSeq_ok he).1 h
  | error k => rw [State.emitSeq_error he]

theorem State.outHolds.mono {s : State} {m n : Nat} (h : s.outHolds n) (hmn : m ≤ n) : s.outHolds m :=
  fun c hc => hmn.trans (h c hc)

/-! ## The input of an operation -/

@[simp] theorem State.inputBytes_length (s : State) : s.inputBytes.length = s.inLen.toNat := by
  simp [State.inputBytes]

theorem State.inputBytes_drop_of_lt (s : State) {i : Nat} (h : i < s.inLen.toNat) :
    s.inputBytes.drop i = s.inByteAt i :: s.inputBytes.drop (i + 1) := by
  rw [List.drop_eq_getElem_cons (by simpa using h)]
  simp [State.inputBytes]

theorem State.KeepsInputs.inByteAt {s t : State} (h : s.KeepsInputs t) (a : Nat) : t.inByteAt a = s.inByteAt a := by
  rw [State.inByteAt, State.inByteAt, h.inMem, h.epoch]

/-! ## The middle of an operation -/

/-- `t` is the engine in the middle of a COMPRESS or DECOMPRESS over the input of `s`, with the bytes `out` emitted. -/
structure State.Running (s t : State) (out : Bytes) : Prop where
  inputs : s.KeepsInputs t
  source : t.source = s.start.source
  status : t.status = .busy
  err : t.err = 0
  outBase : t.regs.outBase = 0
  outCount : t.regs.outCount = out.length
  emitted : ∀ k (h : k < out.length), t.outMem.read k = some out[k]
  fits : s.outHolds out.length

/-- `t` is the end of an operation of `s` whose whole output is `y`: in DONE with `y` where `OUT` holds it, and
CapacityExceeded where it does not (40_commands_contract.md R122). -/
structure State.EndsWithin (s : State) (y : Bytes) (t : State) : Prop where
  result : s.outHolds y.length → t.Result y
  failed : ¬ s.outHolds y.length → t.Failed .capacityExceeded

theorem State.start_running (s : State) (ph : Phase) : s.Running (s.start.goTo ph) [] where
  inputs := s.keepsInputs_engine
  source := rfl
  status := rfl
  err := rfl
  outBase := rfl
  outCount := rfl
  emitted := nofun
  fits := fun _ _ => Nat.zero_le _

section running

variable {s t : State} {out : Bytes}

theorem State.Running.nIn (h : s.Running t out) : t.regs.nIn = s.inLen.toNat := congrArg Source.nIn h.source

theorem State.Running.ending (h : s.Running t out) : t.regs.ending = .plain := congrArg Source.ending h.source

theorem State.Running.inAt (h : s.Running t out) (i : Nat) : t.inAt i = s.inByteAt i := by
  have hbase : t.regs.inBase = 0 := congrArg Source.inBase h.source
  rw [State.inAt, hbase, Nat.zero_add, h.inputs.inByteAt]

theorem State.Running.of_drop_nil (h : s.Running t out) {i : Nat} (hd : s.inputBytes.drop i = []) :
    ¬ i < t.regs.nIn := by
  simpa [h.nIn] using List.drop_eq_nil_iff.1 hd

/-- The next byte of the input and what follows it. -/
theorem State.Running.of_drop_cons (h : s.Running t out) {i : Nat} {b : Byte} {xs : Bytes}
    (hd : s.inputBytes.drop i = b :: xs) : i < t.regs.nIn ∧ t.inAt i = b ∧ s.inputBytes.drop (i + 1) = xs := by
  have hi : i < s.inLen.toNat := by
    by_contra hle
    simp [List.drop_of_length_le (l := s.inputBytes) (i := i) (by simpa using hle)] at hd
  obtain ⟨hb, hxs⟩ := List.cons.inj ((s.inputBytes_drop_of_lt hi).symm.trans hd)
  exact ⟨h.nIn ▸ hi, (h.inAt i).trans hb, hxs⟩

theorem State.Running.room_iff (h : s.Running t out) (bs : Bytes) :
    t.room bs.length ↔ s.outHolds (out ++ bs).length := by
  simp only [State.room, State.outHolds, h.inputs.params, h.outBase, h.outCount, Nat.zero_add, List.length_append]
  refine or_iff_right_of_imp fun hz c hc => ?_
  have := h.fits c hc
  omega

theorem State.Running.putAll (h : s.Running t out) {bs : Bytes} (hf : s.outHolds (out ++ bs).length) :
    s.Running (t.putAll bs) (out ++ bs) where
  inputs := h.inputs.trans (t.putAll_keepsInputs bs)
  source := h.source
  status := h.status
  err := h.err
  outBase := h.outBase
  outCount := by rw [(t.putAll_appends bs).outCount, h.outCount, List.length_append]
  emitted k hk := by
    have hpos : t.regs.outBase + t.regs.outCount = out.length := by rw [h.outBase, h.outCount, Nat.zero_add]
    by_cases hlt : k < out.length
    · rw [(t.putAll_appends bs).old k (.inl (by omega)), h.emitted k hlt, List.getElem_append_left hlt]
    · have hnew := (t.putAll_appends bs).new (k - out.length) (by rw [List.length_append] at hk; omega)
      rw [hpos, Nat.add_sub_cancel' (not_lt.1 hlt)] at hnew
      rw [hnew, List.getElem_append_right (not_lt.1 hlt)]
  fits := hf

/-- A successful end holds the bytes emitted, when their number fits `OUT_LEN`. -/
theorem State.Running.finish_result (h : s.Running t out) (hlen : out.length < 2 ^ 64) : t.finish.Result out where
  status := rfl
  err := h.err
  outLen := by
    rw [State.finish_outLen, h.outBase, h.outCount, Nat.zero_add, BitVec.toNat_ofNat, Nat.mod_eq_of_lt hlen]
  out := h.emitted

/-! ## One unit of work -/

theorem unitOfWork_of_token {t : State} {i : Instr} (h : t.nextToken = some (.ok i)) :
    unitOfWork t = t.settle (tokenEffect i t) := by
  rw [unitOfWork, h]

/-- The unit of work that ends the operation. -/
theorem State.Running.runUnits_endOp (h : s.Running t out) (hlen : out.length < 2 ^ 64)
    (hu : unitOfWork t = t.settle t.endOp) (fuel : Nat) : s.EndsWithin out (runUnits (fuel + 1) t) := by
  have hend : t.endOp = .ok t.finish := by rw [State.endOp, h.ending]
  rw [runUnits_busy h.status, hu, hend, State.settle_ok, runUnits_ended (by simp)]
  exact ⟨fun _ => h.finish_result hlen, fun hno => absurd h.fits hno⟩

/-- A unit of work that emits `bs`: the operation goes on after it, or there is no room. -/
theorem State.Running.runUnits_emitSeq (h : s.Running t out) {bs ys : Bytes} {g : State → State} {fuel : Nat}
    (hu : unitOfWork t = t.settle (t.emitSeq bs >>= fun u => .ok (g u)))
    (hnext : s.Running (t.putAll bs) (out ++ bs) →
      s.EndsWithin (out ++ bs ++ ys) (runUnits fuel (g (t.putAll bs)))) :
    s.EndsWithin (out ++ (bs ++ ys)) (runUnits (fuel + 1) t) := by
  rw [runUnits_busy h.status, hu, ← List.append_assoc]
  by_cases hf : s.outHolds (out ++ bs).length
  · rw [State.emitSeq_of_room ((h.room_iff bs).2 hf)]
    exact hnext (h.putAll hf)
  · rw [State.emitSeq_of_no_room (mt (h.room_iff bs).1 hf)]
    have hstop : s.EndsWithin (out ++ bs ++ ys) (t.raise .capacityExceeded) :=
      ⟨fun hy => absurd (hy.mono (by simp)) hf, fun _ => t.raise_failed _⟩
    exact (runUnits_ended (s := t.raise .capacityExceeded) (by simp) fuel).symm ▸ hstop

end running

/-! ## From the run of a command to its statement -/

theorem State.start_checkCap {s : State} (h : s.inputFits) : s.start.checkCap = .ok s.start := by
  unfold State.checkCap
  split
  · rfl
  · next c hc => exact if_neg (Nat.not_lt.2 (h c hc))

/-- What a command whose input fits does: the start of its run, and then units of work. -/
theorem operate_of_inputFits {s : State} (h : s.inputFits) (b : State → Run) :
    operate b s = runUnits s.fuel (s.start.settle (b s.start)) := by
  rw [operate, beginRun, State.start_checkCap h]
  rfl

section command

variable {i : Instr} {b : State → Run} {s : State}

/-- A COMPRESS, DECOMPRESS, PACK or ENCODE keeps its inputs and the `ARG` registers. -/
theorem operate_keeps (hi : beginOf i = some b) (hc : i.ctx = .command) (hu : i ≠ .unpack) (hd : i ≠ .decode)
    (s : State) : s.KeepsInputs (operate b s) ∧ s.KeepsArgs (operate b s) :=
  have ⟨hinputs, hargs, _⟩ := operationsKeepTheirInputs s _ i hc (exec_of_beginOf hi s)
  ⟨hinputs, hargs hu hd⟩

theorem givesWithinCap_of_operate (hi : beginOf i = some b) (hc : i.ctx = .command) (hu : i ≠ .unpack)
    (hd : i ≠ .decode) {y : Bytes} (h : s.EndsWithin y (operate b s)) : GivesWithinCap i s y :=
  have ⟨hinputs, hargs⟩ := operate_keeps hi hc hu hd s
  ⟨fun hy => ⟨_, exec_of_beginOf hi s, h.result hy, hinputs, hargs⟩,
    fun hy => ⟨_, exec_of_beginOf hi s, h.failed hy, hinputs, hargs⟩⟩

/-- A test at the start of the run that raises. -/
theorem fails_of_begin (hi : beginOf i = some b) (hc : i.ctx = .command) (hu : i ≠ .unpack) (hd : i ≠ .decode)
    (hf : s.inputFits) {k : ErrKind} (h : b s.start = .error k) : Fails i s k := by
  obtain ⟨hinputs, hargs⟩ := operate_keeps hi hc hu hd s
  refine ⟨_, exec_of_beginOf hi s, ?_, hinputs, hargs⟩
  rw [operate_of_inputFits hf, h, State.settle_error, runUnits_ended (by simp)]
  exact s.start.raise_failed k

end command

/-! ## The empty input (40_commands_contract.md R127) -/

theorem unitOfWork_finished {t : State} (hp : t.phase = .finished) : unitOfWork t = t.settle t.endOp := by
  simp [unitOfWork, State.nextToken, State.fetchBytes, advance, hp]

/-- Over the empty input every start of a run goes to the end at once. -/
theorem operate_empty {s : State} (hf : s.inputFits) (h0 : s.inLen.toNat = 0) {b : State → Run}
    (hb : b s.start = .ok (s.start.goTo .finished)) : s.EndsWithin [] (operate b s) := by
  have hfuel : s.fuel = 15 + 1 := by rw [State.fuel, h0]
  rw [operate_of_inputFits hf, hb, State.settle_ok, hfuel]
  exact (s.start_running .finished).runUnits_endOp (by simp) (unitOfWork_finished rfl) 15

end Sys2Proof.Machine
end

section
/-! RLE (41_rle.md): the pair (O23), the decoder over a sequence of pairs (O25), and the encoder, which writes the pairs
of the maximal runs, with the round trip (O24). -/

namespace Sys2Proof.Machine

/-! ## The pair (R143) -/

/-- Settles O23: by whether there is room for the copies, and by the fetch at `ip` (O8). -/
theorem rlePairAppendsCopies : Obligations.RlePairAppendsCopies := by
  intro count value s
  have hexec : exec (.rlePair count value) s = .next (s.settle (rlePair count value s)) :=
    exec_token (i := .rlePair count value) rfl nofun s
  have hlen : (List.replicate count.toNat value).length = count.toNat := List.length_replicate
  refine ⟨fun hroom => ?copies, fun hfull => ?noRoom, ?fetched⟩
  case copies =>
    have happ := s.putAll_appends (List.replicate count.toNat value)
    refine ⟨_, hexec, ?_⟩
    rw [rlePair, State.emitSeq_of_room (hlen.symm ▸ hroom)]
    refine ⟨⟨happ.outCount, happ.outBase, happ.new, happ.old⟩, ?_, rfl, ?_⟩
    · exact ⟨s.keepsInputs_engine, ⟨rfl, rfl⟩, rfl, rfl, rfl, rfl⟩
    · simp [State.settle, State.putAll, bind, Except.bind]
  case noRoom =>
    refine ⟨_, hexec, ?_⟩
    rw [rlePair, State.emitSeq_of_no_room (hlen.symm ▸ hfull)]
    exact ⟨s.raise_failed _, s.raise_keepsInputs _, s.raise_keepsArgs _⟩
  case fetched =>
    rintro hh hb hp hin rfl rfl
    exact (tokensAreFetchedAtTheirCursors s hh hb).1 hp hin

/-! ## Sequences of pairs -/

/-- The frame of a sequence of pairs (30_encoding.md R84). -/
def rleFrame (pairs : List (Byte × Byte)) : Bytes := pairs.flatMap fun p => [p.1, p.2]

/-- What a sequence of pairs stands for (R143). -/
def rleExpand (pairs : List (Byte × Byte)) : Bytes := pairs.flatMap fun p => List.replicate p.1.toNat p.2

theorem rleFrame_cons (p : Byte × Byte) (ps : List (Byte × Byte)) :
    rleFrame (p :: ps) = p.1 :: p.2 :: rleFrame ps := rfl

theorem rleExpand_cons (p : Byte × Byte) (ps : List (Byte × Byte)) :
    rleExpand (p :: ps) = List.replicate p.1.toNat p.2 ++ rleExpand ps := rfl

theorem rleFrame_length (pairs : List (Byte × Byte)) : (rleFrame pairs).length = 2 * pairs.length := by
  induction pairs with
  | nil => rfl
  | cons p ps ih => rw [rleFrame_cons, List.length_cons, List.length_cons, List.length_cons, ih]; omega

theorem rleExpand_length_le (pairs : List (Byte × Byte)) : (rleExpand pairs).length ≤ 255 * pairs.length := by
  induction pairs with
  | nil => rfl
  | cons p ps ih =>
    rw [rleExpand_cons, List.length_append, List.length_replicate, List.length_cons]
    have := p.1.isLt
    omega

/-! ## The decoder (R142) -/

theorem unitOfWork_rleD_end {t : State} (hp : t.phase = .rleD) (h : ¬ t.regs.ip < t.regs.nIn) :
    unitOfWork t = t.settle t.endOp := by
  have hn : t.nextToken = none := by rw [State.nextToken, fetchBytes_rle hp, if_neg h]; rfl
  simp [unitOfWork, hn, advance, hp]

theorem decode_rle (count value : Byte) (rest : Bytes) :
    decode .rle (count :: value :: rest) = .ok (.rlePair count value) := rfl

/-- A unit of work at a pair is the pair's effect. -/
theorem unitOfWork_rleD_pair {t : State} (hp : t.phase = .rleD) (h : t.regs.ip + 1 < t.regs.nIn) :
    unitOfWork t = t.settle (rlePair (t.inAt t.regs.ip) (t.inAt (t.regs.ip + 1)) t) := by
  refine unitOfWork_of_token (i := .rlePair _ _) ?_
  rw [State.nextToken, fetchBytes_rle hp, if_pos (by omega), t.window_cons (by omega), t.window_cons h]
  exact congrArg some (decode_rle _ _ (t.window (t.regs.ip + 1 + 1) t.regs.nIn 0))

/-- The loop of the decoder over the pairs that are left. -/
theorem runUnits_rleD {s : State} (pairs : List (Byte × Byte)) {t : State} {out : Bytes} {fuel : Nat}
    (h : s.Running t out) (hp : t.phase = .rleD) (hin : s.inputBytes.drop t.regs.ip = rleFrame pairs)
    (hlen : (out ++ rleExpand pairs).length < 2 ^ 64) :
    s.EndsWithin (out ++ rleExpand pairs) (runUnits (pairs.length + 1 + fuel) t) := by
  induction pairs generalizing t out with
  | nil =>
    have hu := unitOfWork_rleD_end hp (h.of_drop_nil hin)
    rw [rleExpand, List.flatMap_nil, List.append_nil] at *
    rw [List.length_nil, Nat.zero_add, Nat.add_comm]
    exact h.runUnits_endOp hlen hu fuel
  | cons p ps ih =>
    obtain ⟨-, hcount, hin⟩ := h.of_drop_cons (hin.trans (rleFrame_cons p ps))
    obtain ⟨hlt, hvalue, hin⟩ := h.of_drop_cons hin
    have hu := unitOfWork_rleD_pair hp hlt
    rw [hcount, hvalue] at hu
    have hfuel : (p :: ps).length + 1 + fuel = ps.length + 1 + fuel + 1 := by rw [List.length_cons]; omega
    rw [rleExpand_cons, ← List.append_assoc] at hlen
    rw [hfuel, rleExpand_cons]
    refine h.runUnits_emitSeq hu fun hnext => ?_
    exact ih { hnext with inputs := hnext.inputs.trans (State.keepsInputs_engine _) } hp hin hlen

/-- DECOMPRESS.RLE over a sequence of pairs. -/
theorem givesWithinCap_decompressRle {s : State} (hf : s.inputFits) {pairs : List (Byte × Byte)}
    (hin : s.inputBytes = rleFrame pairs) (hlen : (rleExpand pairs).length < 2 ^ 64) :
    GivesWithinCap .decompressRle s (rleExpand pairs) := by
  have hlenIn : s.inLen.toNat = 2 * pairs.length := by rw [← s.inputBytes_length, hin, rleFrame_length]
  refine givesWithinCap_of_operate (i := .decompressRle) rfl rfl nofun nofun ?_
  cases pairs with
  | nil => exact operate_empty hf hlenIn (if_pos hlenIn)
  | cons p ps =>
    have hbegin : beginDecompress .rle s.start = .ok (s.start.goTo .rleD) := by
      have h0 : s.start.regs.nIn ≠ 0 := fun h0 => by simp [hlenIn] at h0
      have heven : ¬ s.start.regs.nIn % 2 = 1 := by simp [hlenIn]
      rw [beginDecompress, if_neg h0, rleDStart, if_neg heven]
    obtain ⟨fuel, hfuel⟩ : ∃ fuel, s.fuel = (p :: ps).length + 1 + fuel :=
      Nat.exists_eq_add_of_le (by rw [State.fuel]; omega)
    rw [operate_of_inputFits hf, hbegin, State.settle_ok, hfuel]
    exact runUnits_rleD (p :: ps) (s.start_running .rleD) rfl hin hlen

/-- Settles O25: the test at the start, and the loop over the pairs. -/
theorem rleDecompressExpandsPairs : Obligations.RleDecompressExpandsPairs := by
  intro s hf
  refine ⟨fun hodd => fails_of_begin (i := .decompressRle) rfl rfl nofun nofun hf ?_, fun pairs hlt hin => ?_⟩
  · have h0 : s.start.regs.nIn ≠ 0 := fun h0 => by
      rw [show s.inLen.toNat = 0 from h0] at hodd
      exact absurd hodd (by decide)
    rw [beginDecompress, if_neg h0, rleDStart]
    exact if_pos hodd
  · have hlenIn : s.inLen.toNat = 2 * pairs.length := by
      rw [← s.inputBytes_length, hin]
      exact rleFrame_length pairs
    have := rleExpand_length_le pairs
    exact givesWithinCap_decompressRle hf hin (by omega)

/-! ## Maximal runs -/

/-- How many of the first `more` bytes of `xs` are `b`s in a row from the front. -/
def rleRunLength (b : Byte) : Nat → Bytes → Nat
  | more + 1, x :: xs => if x = b then rleRunLength b more xs + 1 else 0
  | _, _ => 0

theorem rleRunLength_le (b : Byte) (more : Nat) (xs : Bytes) : rleRunLength b more xs ≤ more := by
  induction more generalizing xs with
  | zero => cases xs <;> exact Nat.le_refl 0
  | succ more ih =>
    cases xs with
    | nil => exact Nat.zero_le _
    | cons x xs =>
      rw [rleRunLength]
      split
      · exact Nat.succ_le_succ (ih xs)
      · exact Nat.zero_le _

/-- The run is made of `b`s. -/
theorem rleRunLength_split (b : Byte) (more : Nat) (xs : Bytes) :
    List.replicate (rleRunLength b more xs) b ++ xs.drop (rleRunLength b more xs) = xs := by
  induction more generalizing xs with
  | zero => cases xs <;> rfl
  | succ more ih =>
    cases xs with
    | nil => rfl
    | cons x xs =>
      rw [rleRunLength]
      split
      · next hx => rw [List.replicate_succ, List.drop_succ_cons, List.cons_append, ih, hx]
      · rfl

/-- The run is maximal: where a `b` follows it, it is as long as a run may be. -/
theorem rleRunLength_maximal {b : Byte} {more : Nat} {xs : Bytes}
    (h : (xs.drop (rleRunLength b more xs)).head? = some b) : rleRunLength b more xs = more := by
  induction more generalizing xs with
  | zero => cases xs <;> rfl
  | succ more ih =>
    cases xs with
    | nil => simp at h
    | cons x xs =>
      rw [rleRunLength] at h ⊢
      split at h
      · next hx => rw [if_pos hx, ih h]
      · next hx => exact absurd (Option.some.inj h) hx

/-- The pairs of the maximal runs, each at most 255 long, of a byte sequence (R141). -/
def rlePairs : Bytes → List (Byte × Byte)
  | [] => []
  | b :: xs => (BitVec.ofNat 8 (1 + rleRunLength b 254 xs), b) :: rlePairs (xs.drop (rleRunLength b 254 xs))
termination_by xs => xs.length
decreasing_by rw [List.length_drop, List.length_cons]; omega

theorem rlePairs_nil : rlePairs [] = [] := by rw [rlePairs]

theorem rlePairs_cons (b : Byte) (xs : Bytes) : rlePairs (b :: xs) =
    (BitVec.ofNat 8 (1 + rleRunLength b 254 xs), b) :: rlePairs (xs.drop (rleRunLength b 254 xs)) := by
  rw [rlePairs]

/-- The count of a pair is the length of its run. -/
theorem toNat_rleCount (b : Byte) (xs : Bytes) :
    (BitVec.ofNat 8 (1 + rleRunLength b 254 xs)).toNat = 1 + rleRunLength b 254 xs := by
  have := rleRunLength_le b 254 xs
  rw [BitVec.toNat_ofNat, Nat.mod_eq_of_lt (by omega)]

theorem rleExpand_rlePairs (xs : Bytes) : rleExpand (rlePairs xs) = xs := by
  induction xs using rlePairs.induct with
  | case1 => rw [rlePairs_nil]; rfl
  | case2 b xs ih =>
    rw [rlePairs_cons, rleExpand_cons, ih, toNat_rleCount, Nat.add_comm, List.replicate_succ, List.cons_append,
      rleRunLength_split]

theorem rlePairs_length_le (xs : Bytes) : (rlePairs xs).length ≤ xs.length := by
  induction xs using rlePairs.induct with
  | case1 => rw [rlePairs_nil, List.length_nil, List.length_nil]
  | case2 b xs ih =>
    rw [List.length_drop] at ih
    rw [rlePairs_cons, List.length_cons, List.length_cons]
    omega

theorem rlePairs_count_ne_zero (xs : Bytes) : ∀ p ∈ rlePairs xs, p.1 ≠ 0 := by
  induction xs using rlePairs.induct with
  | case1 => simp [rlePairs_nil]
  | case2 b xs ih =>
    rw [rlePairs_cons]
    refine List.forall_mem_cons.2 ⟨fun h0 => ?_, ih⟩
    have hcount := congrArg BitVec.toNat h0
    rw [toNat_rleCount] at hcount
    exact absurd hcount (by simp)

/-- The first pair stands for the first byte. -/
theorem value_of_mem_head?_rlePairs {xs : Bytes} {p : Byte × Byte} (h : p ∈ (rlePairs xs).head?) :
    xs.head? = some p.2 := by
  cases xs with
  | nil => simp [rlePairs_nil] at h
  | cons b xs =>
    rw [rlePairs_cons] at h
    cases h
    rfl

/-- Two neighbouring pairs stand for one longer run only where the first is full. -/
theorem rlePairs_isChain (xs : Bytes) : (rlePairs xs).IsChain fun p q => p.2 = q.2 → p.1 = 255 := by
  induction xs using rlePairs.induct with
  | case1 => rw [rlePairs_nil]; exact .nil
  | case2 b xs ih =>
    rw [rlePairs_cons]
    refine List.isChain_cons.2 ⟨fun q hq hb => ?_, ih⟩
    have hhead := value_of_mem_head?_rlePairs hq
    rw [← show b = q.2 from hb] at hhead
    exact congrArg (fun more => BitVec.ofNat 8 (1 + more)) (rleRunLength_maximal hhead)

/-! ## The encoder (R141) -/

/-- The inner loop finds the run at the front of what is left of the input. -/
theorem State.Running.rleRun {s t : State} {out : Bytes} (h : s.Running t out) (b : Byte) (more run : Nat) :
    rleRun t b more run = run + rleRunLength b more (s.inputBytes.drop (t.regs.ip + run)) := by
  induction more generalizing run with
  | zero => cases s.inputBytes.drop (t.regs.ip + run) <;> rfl
  | succ more ih =>
    rw [Machine.rleRun]
    cases hd : s.inputBytes.drop (t.regs.ip + run) with
    | nil => exact if_neg fun hc => h.of_drop_nil hd hc.1
    | cons x xs =>
      obtain ⟨hlt, hx, hxs⟩ := h.of_drop_cons hd
      rw [rleRunLength, hx, ih, ← Nat.add_assoc, hxs]
      by_cases hb : x = b
      · rw [if_pos ⟨hlt, hb⟩, if_pos hb]; omega
      · rw [if_neg fun hc => hb hc.2, if_neg hb, Nat.add_zero]

theorem unitOfWork_rleC {t : State} (hp : t.phase = .rleC) :
    unitOfWork t = t.settle (turn t rleUnit State.endOp) := by
  simp [unitOfWork, State.nextToken, State.fetchBytes, advance, hp]

/-- The loop of the encoder over what is left of the input. -/
theorem runUnits_rleC {s : State} (xs : Bytes) {t : State} {out : Bytes} {fuel : Nat} (h : s.Running t out)
    (hp : t.phase = .rleC) (hin : s.inputBytes.drop t.regs.ip = xs)
    (hlen : (out ++ rleFrame (rlePairs xs)).length < 2 ^ 64) :
    s.EndsWithin (out ++ rleFrame (rlePairs xs)) (runUnits ((rlePairs xs).length + 1 + fuel) t) := by
  induction xs using rlePairs.induct generalizing t out with
  | case1 =>
    have hu := unitOfWork_rleC hp
    rw [turn, if_neg (h.of_drop_nil hin)] at hu
    rw [rlePairs_nil, rleFrame, List.flatMap_nil, List.append_nil] at *
    rw [List.length_nil, Nat.zero_add, Nat.add_comm]
    exact h.runUnits_endOp hlen hu fuel
  | case2 b xs ih =>
    obtain ⟨hlt, hb, hxs⟩ := h.of_drop_cons hin
    have hrun : rleRun t b 254 1 = 1 + rleRunLength b 254 xs := by rw [h.rleRun, hxs]
    have hu : unitOfWork t = t.settle (rleUnit t) := by rw [unitOfWork_rleC hp, turn, if_pos hlt]
    rw [rleUnit, hb, show Config.rleMaxRun - 1 = 254 from rfl, hrun] at hu
    have hrest : s.inputBytes.drop (t.regs.ip + (1 + rleRunLength b 254 xs)) = xs.drop (rleRunLength b 254 xs) := by
      rw [← Nat.add_assoc, ← List.drop_drop, hxs]
    rw [rlePairs_cons, rleFrame_cons] at hlen ⊢
    have hemit (n : Byte) : encode (.rlePair n b) = [n, b] := rfl
    rw [hemit] at hu
    have hfuel : ∀ n, n + 1 + 1 + fuel = n + 1 + fuel + 1 := by omega
    rw [List.length_cons, hfuel]
    refine h.runUnits_emitSeq hu fun hnext => ?_
    exact ih { hnext with inputs := hnext.inputs.trans (State.keepsInputs_engine _) } hp hrest (by simpa using hlen)

/-- The result of COMPRESS.RLE. -/
theorem compressRle_endsWithin {s : State} (hf : s.inputFits) (hlt : s.inLen.toNat < 2 ^ 56) :
    s.EndsWithin (rleFrame (rlePairs s.inputBytes)) (operate (beginCompress .rle) s) := by
  have hle := rlePairs_length_le s.inputBytes
  rw [s.inputBytes_length] at hle
  by_cases h0 : s.inLen.toNat = 0
  · have hnil : s.inputBytes = [] := List.length_eq_zero_iff.1 (s.inputBytes_length.trans h0)
    rw [hnil, rlePairs_nil]
    exact operate_empty hf h0 (if_pos h0)
  · obtain ⟨fuel, hfuel⟩ : ∃ fuel, s.fuel = (rlePairs s.inputBytes).length + 1 + fuel :=
      Nat.exists_eq_add_of_le (by rw [State.fuel]; omega)
    have hbegin : beginCompress .rle s.start = .ok (s.start.goTo .rleC) := if_neg h0
    rw [operate_of_inputFits hf, hbegin, State.settle_ok, hfuel]
    refine runUnits_rleC _ (s.start_running .rleC) rfl rfl ?_
    rw [List.nil_append, rleFrame_length]
    omega

/-- COMPRESS.RLE and then DECOMPRESS.RLE (R144): the pairs of the maximal runs expand to the input. -/
theorem rle_roundTrips : RoundTrips .compressRle .decompressRle (2 ^ 56) := by
  intro s hf hlt
  refine ⟨rleFrame (rlePairs s.inputBytes), fun cap hcap => ?_, fun u hu huf hin => ?_⟩
  · have hend := compressRle_endsWithin ((s.withOutCap_inputFits cap).2 hf) hlt
    exact ⟨_, exec_of_beginOf rfl _, hend.result hcap⟩
  · have hexpand := rleExpand_rlePairs s.inputBytes
    have hlen : (rleExpand (rlePairs s.inputBytes)).length = s.inLen.toNat := by rw [hexpand, s.inputBytes_length]
    have hgives := (givesWithinCap_decompressRle huf hin (by omega)).1 (hlen ▸ hu)
    rwa [hexpand] at hgives

/-- Settles O24: the pairs are those of the maximal runs. -/
theorem rleCompressWritesMaximalRuns : Obligations.RleCompressWritesMaximalRuns := by
  refine ⟨fun s hf hlt => ?_, rle_roundTrips⟩
  refine ⟨rlePairs s.inputBytes, ?_, ?_, rlePairs_count_ne_zero _, rlePairs_isChain _⟩
  · exact givesWithinCap_of_operate (i := .compressRle) rfl rfl nofun nofun (compressRle_endsWithin hf hlt)
  · exact (rleExpand_rlePairs s.inputBytes).symm

end Sys2Proof.Machine
end

section
/-! Delta (42_delta.md): the two tokens (O26), the decoder, which sums the differences (O28), and the encoder, which
writes them, with the round trip (O27). -/

namespace Sys2Proof.Machine

/-! ## A run that begins with output -/

theorem State.emitSeq_singleton (s : State) (b : Byte) : s.emitSeq [b] = s.emit b := by
  rw [State.emitSeq]
  cases s.emit b <;> rfl

/-- A piece of the start of a run that emits `bs` before it goes on: it does so, or there is no room. The state `r` in
which the start began is the one that a raise is about. -/
theorem State.Running.settle_emitSeq {s t r : State} {out : Bytes} (h : s.Running t out) {bs ys : Bytes}
    {f : State → Run} {fuel : Nat}
    (hnext : s.Running (t.putAll bs) (out ++ bs) →
      s.EndsWithin (out ++ bs ++ ys) (runUnits fuel (r.settle (f (t.putAll bs))))) :
    s.EndsWithin (out ++ (bs ++ ys)) (runUnits fuel (r.settle (t.emitSeq bs >>= f))) := by
  rw [← List.append_assoc]
  by_cases hf : s.outHolds (out ++ bs).length
  · rw [State.emitSeq_of_room ((h.room_iff bs).2 hf)]
    exact hnext (h.putAll hf)
  · rw [State.emitSeq_of_no_room (mt (h.room_iff bs).1 hf)]
    have hstop : s.EndsWithin (out ++ bs ++ ys) (r.raise .capacityExceeded) :=
      ⟨fun hy => absurd (hy.mono (by simp)) hf, fun _ => r.raise_failed _⟩
    exact (runUnits_ended (s := r.raise .capacityExceeded) (by simp) fuel).symm ▸ hstop

/-- A slice that the input holds. -/
theorem State.Running.inSlice {s t : State} {out : Bytes} (h : s.Running t out) {a len : Nat}
    (hle : a + len ≤ s.inLen.toNat) : t.inSlice a len = (s.inputBytes.drop a).take len := by
  induction len generalizing a with
  | zero => rfl
  | succ len ih =>
    rw [State.inSlice, ih (by omega), s.inputBytes_drop_of_lt (i := a) (by omega), List.take_succ_cons, h.inAt]

/-! ## The byte that a token leaves behind (R151, R153) -/

/-- What both loops do after their `Emit`: `c` is the byte the next one is related to. -/
def State.deltaNext (s : State) (c : Byte) : State :=
  { s with regs := { s.regs with cur := c, prev := c, ip := s.regs.ip + 1 } }

theorem State.Running.deltaNext {s t : State} {out : Bytes} (h : s.Running t out) (c : Byte) :
    s.Running (t.deltaNext c) out :=
  { h with inputs := h.inputs.trans t.keepsInputs_engine }

theorem deltaOut_eq (c : Byte) (s : State) :
    deltaOut c s = s.emitSeq [c] >>= fun t => .ok (t.deltaNext c) := by
  rw [State.emitSeq_singleton]
  rfl

theorem deltaUnit_eq (s : State) :
    deltaUnit s = s.emitSeq [s.inAt s.regs.ip - s.regs.prev] >>= fun t => .ok (t.deltaNext (s.inAt s.regs.ip)) := rfl

/-! ## The tokens (R153) -/

theorem deltaOut_of_room {s : State} (h : s.room 1) (c : Byte) :
    deltaOut c s = .ok ((s.putAll [c]).deltaNext c) := by
  rw [deltaOut_eq, State.emitSeq_of_room h]
  rfl

theorem deltaOut_of_no_room {s : State} (h : ¬ s.room 1) (c : Byte) : deltaOut c s = .error .capacityExceeded := by
  rw [deltaOut_eq, State.emitSeq_of_no_room h]
  rfl

/-- With room, a token appends its byte and keeps everything but the registers of the token. -/
theorem deltaOut_appends {s : State} (h : s.room 1) (c : Byte) :
    s.Appends (s.settle (deltaOut c s)) [c] ∧ s.KeepsOutside (s.settle (deltaOut c s)) ∧
      (s.settle (deltaOut c s)).tabs = s.tabs ∧
      (s.settle (deltaOut c s)).regs = { s.regs with
        cur := c, prev := c, ip := s.regs.ip + 1, outCount := s.regs.outCount + 1 } := by
  rw [deltaOut_of_room h, State.settle_ok]
  have happ := s.putAll_appends [c]
  exact ⟨⟨happ.outCount, happ.outBase, happ.new, happ.old⟩,
    ⟨s.keepsInputs_engine, ⟨rfl, rfl⟩, rfl, rfl, rfl, rfl⟩, rfl, rfl⟩

theorem deltaOut_fails {s : State} (h : ¬ s.room 1) (c : Byte) :
    (s.settle (deltaOut c s)).Failed .capacityExceeded ∧ s.KeepsInputs (s.settle (deltaOut c s)) ∧
      s.KeepsArgs (s.settle (deltaOut c s)) := by
  rw [deltaOut_of_no_room h, State.settle_error]
  exact ⟨s.raise_failed _, s.raise_keepsInputs _, s.raise_keepsArgs _⟩

theorem exec_deltaFirst (b : Byte) (s : State) : exec (.deltaFirst b) s = .next (s.settle (deltaOut b s)) :=
  exec_token (i := .deltaFirst b) rfl nofun s

theorem exec_deltaDiff (d : Byte) (s : State) :
    exec (.deltaDiff d) s = .next (s.settle (deltaOut (s.regs.prev + d) s)) :=
  exec_token (i := .deltaDiff d) rfl nofun s

/-- Settles O26: by whether there is room for the byte, and by the fetch at `ip` (O8). -/
theorem deltaTokensAppendTheSum : Obligations.DeltaTokensAppendTheSum := by
  intro b s
  refine ⟨fun hroom => ?appended, fun hfull => ?noRoom, ?fetched⟩
  case appended =>
    exact ⟨⟨_, exec_deltaFirst b s, deltaOut_appends hroom _⟩, ⟨_, exec_deltaDiff b s, deltaOut_appends hroom _⟩⟩
  case noRoom =>
    exact ⟨⟨_, exec_deltaFirst b s, deltaOut_fails hfull _⟩, ⟨_, exec_deltaDiff b s, deltaOut_fails hfull _⟩⟩
  case fetched =>
    rintro hh hb hp hin rfl
    obtain ⟨-, hfirst, hdiff, -⟩ := tokensAreFetchedAtTheirCursors s hh hb
    split
    · next h8 => exact hfirst hp hin h8
    · next h8 => exact hdiff hp hin h8

/-! ## Differences and running sums -/

/-- Each byte minus the one before it, with `prev` before the first (R151). -/
def deltaDiffs (prev : Byte) (xs : Bytes) : Bytes := List.zipWith (fun cur prev => cur - prev) xs (prev :: xs)

/-- The running sum from `prev` on (R153). -/
def deltaSums : Byte → Bytes → Bytes
  | _, [] => []
  | prev, d :: ds => (prev + d) :: deltaSums (prev + d) ds

theorem deltaDiffs_nil (prev : Byte) : deltaDiffs prev [] = [] := rfl

theorem deltaDiffs_cons (prev x : Byte) (xs : Bytes) : deltaDiffs prev (x :: xs) = (x - prev) :: deltaDiffs x xs := rfl

@[simp] theorem deltaDiffs_length (prev : Byte) (xs : Bytes) : (deltaDiffs prev xs).length = xs.length := by
  simp [deltaDiffs]

@[simp] theorem deltaSums_length (prev : Byte) (ds : Bytes) : (deltaSums prev ds).length = ds.length := by
  induction ds generalizing prev with
  | nil => rfl
  | cons d ds ih => rw [deltaSums, List.length_cons, ih, List.length_cons]

/-- The sums of the differences are the bytes themselves (R154). -/
theorem deltaSums_deltaDiffs (prev : Byte) (xs : Bytes) : deltaSums prev (deltaDiffs prev xs) = xs := by
  induction xs generalizing prev with
  | nil => rfl
  | cons x xs ih =>
    have hx : prev + (x - prev) = x := by rw [BitVec.add_comm, BitVec.sub_add_cancel]
    rw [deltaDiffs_cons, deltaSums, hx, ih]

/-- Each sum is the one before it plus its difference. -/
theorem deltaSums_getD (prev : Byte) (ds : Bytes) {i : Nat} (h : i < ds.length) :
    (deltaSums prev ds).getD i 0 = (if i = 0 then prev else (deltaSums prev ds).getD (i - 1) 0) + ds.getD i 0 := by
  induction ds generalizing prev i with
  | nil => exact absurd h (Nat.not_lt_zero i)
  | cons d ds ih =>
    cases i with
    | zero => rfl
    | succ i =>
      rw [deltaSums, List.getD_cons_succ, List.getD_cons_succ, ih _ (Nat.lt_of_succ_lt_succ h), if_neg i.succ_ne_zero]
      cases i <;> rfl

/-! ## The decoder (R152) -/

/-- What the operand at the cursor of the decoder is added to: FIRST, at frame offset 8, has no byte before it. -/
def State.deltaBase (s : State) : Byte := if s.regs.ip = 8 then 0 else s.regs.prev

theorem State.deltaBase_deltaNext {s : State} (h : 8 ≤ s.regs.ip) (c : Byte) : (s.deltaNext c).deltaBase = c :=
  if_neg (show s.regs.ip + 1 ≠ 8 by omega)

theorem unitOfWork_deltaD_end {t : State} (hp : t.phase = .deltaD) (h : ¬ t.regs.ip < t.regs.nIn) :
    unitOfWork t = t.settle t.endOp := by
  have hn : t.nextToken = none := by rw [State.nextToken, fetchBytes_delta hp, if_neg h]; rfl
  simp [unitOfWork, hn, advance, hp]

/-- A unit of work at a byte of the frame is the running sum, with FIRST and with DIFF. -/
theorem unitOfWork_deltaD_token {t : State} (hp : t.phase = .deltaD) (h : t.regs.ip < t.regs.nIn) :
    unitOfWork t = t.settle (deltaOut (t.deltaBase + t.inAt t.regs.ip) t) := by
  have hfetch := fetchBytes_delta hp
  rw [if_pos h, t.window_cons h] at hfetch
  by_cases h8 : t.regs.ip = 8
  · rw [if_pos h8] at hfetch
    rw [State.deltaBase, if_pos h8, show 0 + t.inAt t.regs.ip = t.inAt t.regs.ip from BitVec.zero_add _]
    exact unitOfWork_of_token (i := .deltaFirst _) (by rw [State.nextToken, hfetch]; rfl)
  · rw [if_neg h8] at hfetch
    rw [State.deltaBase, if_neg h8]
    exact unitOfWork_of_token (i := .deltaDiff _) (by rw [State.nextToken, hfetch]; rfl)

/-- The loop of the decoder over what is left of the frame. -/
theorem runUnits_deltaD {s : State} (ds : Bytes) {t : State} {out : Bytes} {fuel : Nat} (h : s.Running t out)
    (hp : t.phase = .deltaD) (h8 : 8 ≤ t.regs.ip) (hin : s.inputBytes.drop t.regs.ip = ds)
    (hlen : out.length + ds.length < 2 ^ 64) :
    s.EndsWithin (out ++ deltaSums t.deltaBase ds) (runUnits (ds.length + 1 + fuel) t) := by
  induction ds generalizing t out with
  | nil =>
    rw [deltaSums, List.append_nil, List.length_nil, Nat.zero_add, Nat.add_comm]
    exact h.runUnits_endOp hlen (unitOfWork_deltaD_end hp (h.of_drop_nil hin)) fuel
  | cons d ds ih =>
    obtain ⟨hlt, hd, hin⟩ := h.of_drop_cons hin
    have hu := unitOfWork_deltaD_token hp hlt
    rw [hd, deltaOut_eq] at hu
    have hfuel : (d :: ds).length + 1 + fuel = ds.length + 1 + fuel + 1 := by rw [List.length_cons]; omega
    rw [hfuel]
    refine h.runUnits_emitSeq (bs := [t.deltaBase + d]) hu fun hnext => ?_
    have hbase := State.deltaBase_deltaNext (s := t.putAll [t.deltaBase + d]) h8 (t.deltaBase + d)
    have hrest := ih (hnext.deltaNext (t.deltaBase + d)) hp (Nat.le_succ_of_le h8) hin
      (by simp only [List.length_append, List.length_cons, List.length_nil] at *; omega)
    rwa [hbase] at hrest

/-- The recorded length, as the tests at the start read it. -/
theorem rdU64_start {s : State} (h : 8 ≤ s.inLen.toNat) : s.start.rdU64 0 = valueLE (s.inputBytes.take 8) :=
  congrArg valueLE ((s.start_running .command).inSlice (a := 0) (by omega))

theorem beginDecompress_delta {s : State} (h : s.inLen.toNat ≠ 0) :
    beginDecompress .delta s.start = deltaDStart s.start := if_neg h

/-- The decoder past its tests, with the recorded length `n`. -/
def State.deltaDBegin (s : State) (n : Nat) : State :=
  { s with regs := { s.regs with n := n, ip := 8 }, phase := .deltaD }

theorem State.Running.deltaDBegin {s t : State} {out : Bytes} (h : s.Running t out) (n : Nat) :
    s.Running (t.deltaDBegin n) out :=
  { h with inputs := h.inputs.trans t.keepsInputs_engine }

/-- The tests of R152 on a frame that is long enough to hold its header. -/
theorem deltaDStart_of_header {s : State} (h : 8 ≤ s.inLen.toNat) :
    deltaDStart s.start =
      if 0 < valueLE (s.inputBytes.take 8) ∧ s.inLen.toNat < 9 then .error .corruptPayload
      else if s.inLen.toNat - 8 ≠ valueLE (s.inputBytes.take 8) then .error .sizeMismatch
      else .ok (s.start.deltaDBegin (valueLE (s.inputBytes.take 8))) := by
  rw [← rdU64_start h]
  exact if_neg (Nat.not_lt.2 h)

/-- A frame whose length is the recorded one is summed up. -/
theorem givesWithinCap_decompressDelta {s : State} (hf : s.inputFits) (h : 8 ≤ s.inLen.toNat)
    (hn : s.inLen.toNat - 8 = valueLE (s.inputBytes.take 8)) :
    GivesWithinCap .decompressDelta s (deltaSums 0 (s.inputBytes.drop 8)) := by
  have hlen : (s.inputBytes.drop 8).length = s.inLen.toNat - 8 := by rw [List.length_drop, s.inputBytes_length]
  have hlt := s.inLen.isLt
  obtain ⟨fuel, hfuel⟩ : ∃ fuel, s.fuel = (s.inputBytes.drop 8).length + 1 + fuel :=
    Nat.exists_eq_add_of_le (by rw [State.fuel]; omega)
  refine givesWithinCap_of_operate (i := .decompressDelta) rfl rfl nofun nofun ?_
  rw [operate_of_inputFits hf, beginDecompress_delta (by omega), deltaDStart_of_header h, if_neg (by omega),
    if_neg (not_not.2 hn), State.settle_ok, hfuel]
  have hstart := (s.start_running .command).deltaDBegin (valueLE (s.inputBytes.take 8))
  exact runUnits_deltaD (s.inputBytes.drop 8) hstart rfl (Nat.le_refl 8) rfl (by rw [hlen, List.length_nil]; omega)

theorem fails_decompressDelta {s : State} (hf : s.inputFits) (h0 : s.inLen.toNat ≠ 0) {k : ErrKind}
    (h : deltaDStart s.start = .error k) : Fails .decompressDelta s k :=
  fails_of_begin (i := .decompressDelta) rfl rfl nofun nofun hf ((beginDecompress_delta h0).trans h)

/-- Settles O28: the tests at the start in their order, and the loop over the rest of the frame. -/
theorem deltaDecompressChecksAndSums : Obligations.DeltaDecompressChecksAndSums := by
  rintro s n hf rfl
  refine ⟨fun h1 h7 => ?short, fun h8 hn => ?noFirst, fun h8 h0 hne => ?mismatch, fun h8 hn => ?summed⟩
  case short => exact fails_decompressDelta hf (by omega) (if_pos (Nat.lt_succ_of_le h7))
  case noFirst =>
    refine fails_decompressDelta hf (by omega) ?_
    rw [deltaDStart_of_header h8.ge, if_pos ⟨hn, by omega⟩]
  case mismatch =>
    refine fails_decompressDelta hf (by omega) ?_
    rw [deltaDStart_of_header h8, if_neg (by omega), if_pos hne]
  case summed =>
    have hlen : (s.inputBytes.drop 8).length = s.inLen.toNat - 8 := by rw [List.length_drop, s.inputBytes_length]
    refine ⟨_, givesWithinCap_decompressDelta hf h8 hn, by rw [deltaSums_length, hlen, hn], fun i hi => ?_⟩
    have hbyte : (s.inputBytes.drop 8).getD i 0 = s.inByteAt (8 + i) := by
      rw [List.getD_eq_getElem _ _ (by omega)]
      simp [State.inputBytes]
    rw [deltaSums_getD _ _ (by omega), hbyte]

/-! ## The encoder (R151) -/

/-- The frame of a byte sequence; of none, no byte (R127). -/
def deltaFrame : Bytes → Bytes
  | [] => []
  | b :: rest => u64le (b :: rest).length ++ b :: deltaDiffs b rest

theorem unitOfWork_deltaC {t : State} (hp : t.phase = .deltaC) :
    unitOfWork t = t.settle (turn t deltaUnit State.endOp) := by
  simp [unitOfWork, State.nextToken, State.fetchBytes, advance, hp]

/-- The loop of the encoder over what is left of the input. -/
theorem runUnits_deltaC {s : State} (xs : Bytes) {t : State} {out : Bytes} {fuel : Nat} (h : s.Running t out)
    (hp : t.phase = .deltaC) (hin : s.inputBytes.drop t.regs.ip = xs) (hlen : out.length + xs.length < 2 ^ 64) :
    s.EndsWithin (out ++ deltaDiffs t.regs.prev xs) (runUnits (xs.length + 1 + fuel) t) := by
  induction xs generalizing t out with
  | nil =>
    have hu := unitOfWork_deltaC hp
    rw [turn, if_neg (h.of_drop_nil hin)] at hu
    rw [deltaDiffs_nil, List.append_nil, List.length_nil, Nat.zero_add, Nat.add_comm]
    exact h.runUnits_endOp hlen hu fuel
  | cons x xs ih =>
    obtain ⟨hlt, hx, hin⟩ := h.of_drop_cons hin
    have hu := unitOfWork_deltaC hp
    rw [turn, if_pos hlt, deltaUnit_eq, hx] at hu
    have hfuel : (x :: xs).length + 1 + fuel = xs.length + 1 + fuel + 1 := by rw [List.length_cons]; omega
    rw [hfuel, deltaDiffs_cons]
    refine h.runUnits_emitSeq (bs := [x - t.regs.prev]) hu fun hnext => ?_
    exact ih (hnext.deltaNext x) hp hin
      (by simp only [List.length_append, List.length_cons, List.length_nil] at *; omega)

/-- The encoder past the first byte `b`. -/
def State.deltaCBegin (s : State) (b : Byte) : State :=
  { s with regs := { s.regs with prev := b, ip := 1 }, phase := .deltaC }

theorem State.Running.deltaCBegin {s t : State} {out : Bytes} (h : s.Running t out) (b : Byte) :
    s.Running (t.deltaCBegin b) out :=
  { h with inputs := h.inputs.trans t.keepsInputs_engine }

theorem beginCompress_delta {s : State} (h : s.inLen.toNat ≠ 0) :
    beginCompress .delta s.start = s.start.emitSeq (u64le s.inLen.toNat) >>= fun t =>
      t.emitSeq [t.inAt 0] >>= fun u => .ok (u.deltaCBegin (u.inAt 0)) := if_neg h

/-- The run of the encoder over an input that is not empty: the header, the first byte, and the loop. -/
theorem compressDelta_endsWithin_cons {s : State} (hf : s.inputFits) (hlt : s.inLen.toNat < 2 ^ 56) {b : Byte}
    {rest : Bytes} (hin : s.inputBytes = b :: rest) :
    s.EndsWithin (deltaFrame (b :: rest)) (operate (beginCompress .delta) s) := by
  have hlen : rest.length + 1 = s.inLen.toNat := by rw [← s.inputBytes_length, hin, List.length_cons]
  obtain ⟨fuel, hfuel⟩ : ∃ fuel, s.fuel = rest.length + 1 + fuel :=
    Nat.exists_eq_add_of_le (by rw [State.fuel]; omega)
  have hstart : s.Running s.start [] := s.start_running .command
  rw [deltaFrame, List.length_cons, hlen, operate_of_inputFits hf, beginCompress_delta (by omega), hfuel]
  obtain ⟨-, hb, hrest⟩ := hstart.of_drop_cons (i := 0) hin
  rw [hstart.inAt] at hb
  refine hstart.settle_emitSeq (bs := u64le s.inLen.toNat) fun hheader => ?_
  rw [hheader.inAt, hb]
  refine hheader.settle_emitSeq (bs := [b]) fun hfirst => ?_
  rw [hfirst.inAt, hb]
  refine runUnits_deltaC rest (hfirst.deltaCBegin b) rfl hrest ?_
  have hheaderLen : (u64le s.inLen.toNat).length = 8 := bytesLE_length 8 _
  simp only [List.length_append, List.length_cons, List.length_nil, hheaderLen]
  omega

/-- The result of COMPRESS.DELTA. -/
theorem compressDelta_endsWithin {s : State} (hf : s.inputFits) (hlt : s.inLen.toNat < 2 ^ 56) :
    s.EndsWithin (deltaFrame s.inputBytes) (operate (beginCompress .delta) s) := by
  cases hin : s.inputBytes with
  | nil =>
    have h0 : s.inLen.toNat = 0 := by rw [← s.inputBytes_length, hin, List.length_nil]
    exact operate_empty hf h0 (if_pos h0)
  | cons b rest => exact compressDelta_endsWithin_cons hf hlt hin

/-- DECOMPRESS.DELTA over the frame of `xs`. -/
theorem givesWithinCap_decompressDelta_deltaFrame {s : State} (hf : s.inputFits) {xs : Bytes}
    (hin : s.inputBytes = deltaFrame xs) (hlt : xs.length < 2 ^ 64) : GivesWithinCap .decompressDelta s xs := by
  have hlen := s.inputBytes_length
  rw [hin] at hlen
  cases xs with
  | nil =>
    have h0 : s.inLen.toNat = 0 := hlen.symm
    exact givesWithinCap_of_operate (i := .decompressDelta) rfl rfl nofun nofun (operate_empty hf h0 (if_pos h0))
  | cons b rest =>
    have hheader : (u64le (b :: rest).length).length = 8 := bytesLE_length 8 _
    have htake : s.inputBytes.take 8 = u64le (b :: rest).length := by
      rw [hin]
      exact List.take_left' hheader
    have hdrop : s.inputBytes.drop 8 = deltaDiffs 0 (b :: rest) := by
      rw [hin, deltaDiffs_cons, show b - 0 = b from BitVec.sub_zero b]
      exact List.drop_left' hheader
    have hsize : 8 + (b :: rest).length = s.inLen.toNat := by
      rw [← hlen, deltaFrame, List.length_append, hheader, List.length_cons, List.length_cons, deltaDiffs_length]
    have hgives := givesWithinCap_decompressDelta hf (by omega)
      (by rw [htake, valueLE_u64le hlt, ← hsize, Nat.add_sub_cancel_left])
    rwa [hdrop, deltaSums_deltaDiffs] at hgives

/-- COMPRESS.DELTA and then DECOMPRESS.DELTA (R154): the sums of the differences are the input. -/
theorem delta_roundTrips : RoundTrips .compressDelta .decompressDelta (2 ^ 56) := by
  intro s hf hlt
  refine ⟨deltaFrame s.inputBytes, fun cap hcap => ?_, fun u hu huf hin => ?_⟩
  · have hend := compressDelta_endsWithin ((s.withOutCap_inputFits cap).2 hf) hlt
    exact ⟨_, exec_of_beginOf rfl _, hend.result hcap⟩
  · have hlen := s.inputBytes_length
    exact (givesWithinCap_decompressDelta_deltaFrame huf hin (by omega)).1 (hlen ▸ hu)

/-- Settles O27: the header, the first byte and the loop over the rest of the input. -/
theorem deltaCompressWritesDifferences : Obligations.DeltaCompressWritesDifferences := by
  refine ⟨fun s b rest hf hlt hin => ?_, delta_roundTrips⟩
  have hend := compressDelta_endsWithin_cons hf hlt hin
  rw [deltaFrame, ← hin, s.inputBytes_length] at hend
  exact givesWithinCap_of_operate (i := .compressDelta) rfl rfl nofun nofun hend

end Sys2Proof.Machine
end

section
/-! The match finder (43_lz77.md R161), which LZ77 and LZSS share: the match it gives is a longest one of the window,
and of the longest the farthest (O29). -/

namespace Sys2Proof.Machine

/-! ## The match with one candidate -/

/-- The input holds `len` more bytes from `i` on, and they are those from `j` on. -/
def State.Agree (s : State) (i j len : Nat) : Prop :=
  ∀ k, k < len → i + k < s.regs.nIn ∧ s.inAt (j + k) = s.inAt (i + k)

theorem State.Agree.le {s : State} {i j len : Nat} (h : s.Agree i j len) (hpos : 0 < len) :
    i + len ≤ s.regs.nIn := by
  have hlast := (h _ (Nat.sub_lt hpos one_pos)).1
  omega

/-- The inner loop stops at the first byte that does not agree, or at its limit. -/
theorem le_matchLen_from_iff (s : State) (i j more len n : Nat) :
    n ≤ matchLen s i j more len ↔ n ≤ len + more ∧
      ∀ k, len ≤ k → k < n → i + k < s.regs.nIn ∧ s.inAt (j + k) = s.inAt (i + k) := by
  induction more generalizing len with
  | zero =>
    rw [matchLen, Nat.add_zero]
    exact ⟨fun hn => ⟨hn, fun k hk hkn => absurd hkn (by omega)⟩, And.left⟩
  | succ more ih =>
    rw [matchLen]
    split
    · next hagree =>
      rw [ih, Nat.add_right_comm, Nat.add_assoc]
      refine and_congr_right fun _ => ⟨fun h k hk hkn => ?_, fun h k hk => h k (Nat.le_of_succ_le hk)⟩
      obtain rfl | hlt := hk.eq_or_lt
      · exact hagree
      · exact h k hlt hkn
    · next hstop =>
      refine ⟨fun hn => ⟨by omega, fun k hk hkn => absurd hkn (by omega)⟩, fun ⟨_, h⟩ => ?_⟩
      by_contra hn
      exact hstop (h len (Nat.le_refl len) (by omega))

/-- The match with a candidate is the longest agreement, up to the maximum. -/
theorem le_matchLen_iff {s : State} {i j maxLen n : Nat} :
    n ≤ matchLen s i j maxLen 0 ↔ n ≤ maxLen ∧ s.Agree i j n := by
  simp [le_matchLen_from_iff, State.Agree]

/-! ## The scan of the window -/

/-- What the scan of the candidates from `lo` up to `m.j` has found, where the match with the candidate `j` has `L j`
bytes. -/
structure Match.BestOf (L : Nat → Nat) (i lo : Nat) (m : Match) : Prop where
  found : m.bestLen = 0 ∧ m.bestOff = 0 ∨ ∃ j, lo ≤ j ∧ j < m.j ∧ 0 < L j ∧ m.bestLen = L j ∧ m.bestOff = i - j
  longest : ∀ j, lo ≤ j → j < m.j → L j ≤ m.bestLen
  farthest : ∀ j, lo ≤ j → j < m.j → 0 < L j → L j = m.bestLen → i - m.bestOff ≤ j

theorem Match.bestOf_start (L : Nat → Nat) (i lo : Nat) : Match.BestOf L i lo ⟨0, 0, lo, 0⟩ where
  found := .inl ⟨rfl, rfl⟩
  longest _ hlo hj := absurd hj (Nat.not_lt.2 hlo)
  farthest _ hlo hj := absurd hj (Nat.not_lt.2 hlo)

section candidate

variable {L : Nat → Nat} {i lo : Nat} {m : Match}

/-- The start of the best match, where there is one, is behind the next candidate. -/
theorem Match.BestOf.start_lt (h : m.BestOf L i lo) (hi : m.j < i) (hpos : 0 < m.bestLen) : i - m.bestOff < m.j := by
  obtain ⟨h0, -⟩ | ⟨j, -, hj, -, -, hoff⟩ := h.found
  · exact absurd h0 hpos.ne'
  · omega

/-- A strictly longer match replaces the best. -/
theorem Match.BestOf.replace (h : m.BestOf L i lo) (hlo : lo ≤ m.j) (hi : m.j < i) (hlonger : m.bestLen < L m.j) :
    Match.BestOf L i lo ⟨L m.j, i - m.j, m.j + 1, L m.j⟩ where
  found := .inr ⟨m.j, hlo, Nat.lt_succ_self _, Nat.zero_lt_of_lt hlonger, rfl, rfl⟩
  longest j hj hlt := by
    obtain hlt | rfl := Nat.lt_succ_iff_lt_or_eq.1 hlt
    · exact (h.longest j hj hlt).trans hlonger.le
    · exact Nat.le_refl _
  farthest j hj hlt _ heq := by
    obtain hlt | rfl := Nat.lt_succ_iff_lt_or_eq.1 hlt
    · exact absurd heq ((h.longest j hj hlt).trans_lt hlonger).ne
    · exact (Nat.sub_sub_self hi.le).le

/-- Any other match leaves the best as it is. -/
theorem Match.BestOf.keep (h : m.BestOf L i lo) (hi : m.j < i) (hshort : L m.j ≤ m.bestLen) (len : Nat) :
    Match.BestOf L i lo { m with j := m.j + 1, len := len } where
  found := h.found.imp_right fun ⟨j, hj, hlt, rest⟩ => ⟨j, hj, Nat.lt_succ_of_lt hlt, rest⟩
  longest j hj hlt := by
    obtain hlt | rfl := Nat.lt_succ_iff_lt_or_eq.1 hlt
    · exact h.longest j hj hlt
    · exact hshort
  farthest j hj hlt hpos heq := by
    obtain hlt | rfl := Nat.lt_succ_iff_lt_or_eq.1 hlt
    · exact h.farthest j hj hlt hpos heq
    · exact (h.start_lt hi (heq ▸ hpos)).le

end candidate

theorem matchCandidate_j (s : State) (i maxLen : Nat) (m : Match) : (matchCandidate s i maxLen m).j = m.j + 1 := by
  rw [matchCandidate]
  split <;> rfl

theorem matchCandidate_bestOf {s : State} {i maxLen lo : Nat} {m : Match}
    (h : m.BestOf (matchLen s i · maxLen 0) i lo) (hlo : lo ≤ m.j) (hi : m.j < i) :
    (matchCandidate s i maxLen m).BestOf (matchLen s i · maxLen 0) i lo := by
  rw [matchCandidate]
  split
  · next hlonger => exact h.replace hlo hi hlonger
  · next hshort => exact h.keep hi (Nat.not_lt.1 hshort) _

theorem matchScan_bestOf {s : State} {i maxLen lo : Nat} (more : Nat) {m : Match}
    (h : m.BestOf (matchLen s i · maxLen 0) i lo) (hlo : lo ≤ m.j) (hi : m.j + more = i) :
    (matchScan s i maxLen more m).BestOf (matchLen s i · maxLen 0) i lo ∧ (matchScan s i maxLen more m).j = i := by
  induction more generalizing m with
  | zero => exact ⟨h, hi⟩
  | succ more ih =>
    have hj := matchCandidate_j s i maxLen m
    exact ih (matchCandidate_bestOf h hlo (by omega)) (by omega) (by omega)

/-- The scan ends with the best of all candidates of the window. -/
theorem findMatch_bestOf (s : State) (i window maxLen : Nat) :
    (findMatch s i window maxLen).BestOf (matchLen s i · maxLen 0) i (i - window) ∧
      (findMatch s i window maxLen).j = i :=
  matchScan_bestOf _ (Match.bestOf_start _ _ _) (Nat.le_refl _) (Nat.add_sub_cancel' (Nat.sub_le i window))

/-- What `FindMatch` finds is a match. -/
theorem findMatch_agrees {s : State} {i window maxLen : Nat} (h : 0 < (findMatch s i window maxLen).bestLen) :
    0 < (findMatch s i window maxLen).bestOff ∧ (findMatch s i window maxLen).bestOff ≤ i ∧
      (findMatch s i window maxLen).bestOff ≤ window ∧ (findMatch s i window maxLen).bestLen ≤ maxLen ∧
      s.Agree i (i - (findMatch s i window maxLen).bestOff) (findMatch s i window maxLen).bestLen := by
  obtain ⟨hbest, hend⟩ := findMatch_bestOf s i window maxLen
  obtain ⟨h0, -⟩ | ⟨j, hlo, hj, -, hlen, hoff⟩ := hbest.found
  · exact absurd h0 h.ne'
  · have hstart : i - (i - j) = j := by omega
    rw [hoff, hstart]
    exact ⟨by omega, by omega, by omega, le_matchLen_iff.1 hlen.le⟩

/-- Settles O29: what the scan has found once its next candidate is `i` itself. -/
theorem findMatchFindsTheFarthestLongest : Obligations.FindMatchFindsTheFarthestLongest := by
  intro s i window maxLen _
  obtain ⟨hbest, hend⟩ := findMatch_bestOf s i window maxLen
  refine ⟨?found, fun j len hj hwindow hmax hin hagree => ?best⟩
  case found =>
    obtain hnone | hpos := Nat.eq_zero_or_pos (findMatch s i window maxLen).bestLen
    · refine .inl (hbest.found.resolve_right ?_)
      rintro ⟨j, -, -, hlen, heq, -⟩
      omega
    · obtain ⟨hoff, hle, hwindow, hmax, hagree⟩ := findMatch_agrees hpos
      exact .inr ⟨hpos, hoff, hle, hwindow, hmax, hagree.le hpos, fun k hk => (hagree k hk).2⟩
  case best =>
    have hlen : len ≤ matchLen s i j maxLen 0 :=
      le_matchLen_iff.2 ⟨hmax, fun k hk => ⟨by omega, hagree k hk⟩⟩
    have hlongest := hbest.longest j (by omega) (by omega)
    exact ⟨hlen.trans hlongest, fun hpos heq => hbest.farthest j (by omega) (by omega) (by omega) (by omega)⟩

end Sys2Proof.Machine
end

section
/-! What a token that emits bytes and then moves its cursors does, with and without room; and with it the literals
(O33), the history copy of LZ77.MATCH (O34) and the greedy turn of LZ77.C (O30). -/

namespace Sys2Proof.Machine

/-! ## Output and then a write of the working registers -/

/-- `EmitSeq(bs)` and then `f` on the working registers: the form of every token and every turn that emits. -/
def State.emitThen (s : State) (bs : Bytes) (f : Regs → Regs) : Run :=
  s.emitSeq bs >>= fun t => .ok { t with regs := f t.regs }

/-- `t` is `s` with the bytes `bs` appended and the working registers `r`, and nothing else changed. -/
structure State.Writes (s t : State) (bs : Bytes) (r : Regs) : Prop where
  appends : s.Appends t bs
  outside : s.KeepsOutside t
  tabs : t.tabs = s.tabs
  regs : t.regs = r

section emitThen

variable {s : State} {bs : Bytes} {f : Regs → Regs}

theorem State.emitThen_of_room (h : s.room bs.length) (f : Regs → Regs) :
    s.emitThen bs f = .ok { s.putAll bs with regs := f (s.putAll bs).regs } := by
  rw [State.emitThen, State.emitSeq_of_room h]
  rfl

theorem State.emitThen_of_no_room (h : ¬ s.room bs.length) (f : Regs → Regs) :
    s.emitThen bs f = .error .capacityExceeded := by
  rw [State.emitThen, State.emitSeq_of_no_room h]
  rfl

/-- A raise in the terms of the statements. -/
theorem State.raise_fails (s : State) (k : ErrKind) :
    (s.raise k).Failed k ∧ s.KeepsInputs (s.raise k) ∧ s.KeepsArgs (s.raise k) :=
  ⟨s.raise_failed k, s.raise_keepsInputs k, s.raise_keepsArgs k⟩

variable {o : Host.Outcome State Fault Refusal} {n : Nat}

/-- With room for its output, where `f` leaves the place of the output as it is. -/
theorem writes_of_emitThen (ho : o = .next (s.settle (s.emitThen bs f))) (hn : bs.length = n) (h : s.room n)
    (hc : ∀ r, (f r).outCount = r.outCount) (hb : ∀ r, (f r).outBase = r.outBase) :
    ∃ t, o = .next t ∧ s.Writes t bs (f { s.regs with outCount := s.regs.outCount + n }) := by
  subst hn
  refine ⟨_, ho, ?_⟩
  rw [State.emitThen_of_room h, State.settle_ok]
  have happ := s.putAll_appends bs
  exact ⟨⟨(hc _).trans happ.outCount, (hb _).trans happ.outBase, happ.new, happ.old⟩,
    ⟨s.keepsInputs_engine, ⟨rfl, rfl⟩, rfl, rfl, rfl, rfl⟩, rfl, rfl⟩

/-- Without room for its output. -/
theorem fails_of_emitThen (ho : o = .next (s.settle (s.emitThen bs f))) (hn : bs.length = n) (h : ¬ s.room n) :
    ∃ t, o = .next t ∧ t.Failed .capacityExceeded ∧ s.KeepsInputs t ∧ s.KeepsArgs t := by
  subst hn
  refine ⟨_, ho, ?_⟩
  rw [State.emitThen_of_no_room h, State.settle_error]
  exact s.raise_fails _

end emitThen

/-! ## The literals (43_lz77.md R164, 44_lzss.md R184) -/

theorem lz77Lit_eq (b : Byte) (s : State) : lz77Lit b s = s.emitThen [b] fun r => { r with ip := r.ip + 2 } := by
  rw [State.emitThen, State.emitSeq_singleton]
  rfl

theorem lzssLit_eq (b : Byte) (s : State) :
    lzssLit b s = s.emitThen [b] fun r => { r with dp := r.dp + 1, tok := r.tok + 1 } := by
  rw [State.emitThen, State.emitSeq_singleton]
  rfl

theorem exec_lz77Lit (b : Byte) (s : State) :
    exec (.lz77Lit b) s = .next (s.settle (s.emitThen [b] fun r => { r with ip := r.ip + 2 })) := by
  rw [← lz77Lit_eq]
  exact exec_token (i := .lz77Lit b) rfl nofun s

theorem exec_lzssLit (b : Byte) (s : State) :
    exec (.lzssLit b) s = .next (s.settle (s.emitThen [b] fun r => { r with dp := r.dp + 1, tok := r.tok + 1 })) := by
  rw [← lzssLit_eq]
  exact exec_token (i := .lzssLit b) rfl nofun s

/-- Settles O33: by whether there is room for the byte. -/
theorem literalsAppendTheirByte : Obligations.LiteralsAppendTheirByte := by
  intro b s
  refine ⟨fun hroom => ⟨?lz77, ?lzss⟩, fun hfull => ?noRoom⟩
  case lz77 =>
    obtain ⟨t, ht, happ, hout, htabs, hregs⟩ :=
      writes_of_emitThen (exec_lz77Lit b s) rfl hroom (fun _ => rfl) fun _ => rfl
    exact ⟨t, ht, happ, hout, htabs, hregs⟩
  case lzss =>
    obtain ⟨t, ht, happ, hout, htabs, hregs⟩ :=
      writes_of_emitThen (exec_lzssLit b s) rfl hroom (fun _ => rfl) fun _ => rfl
    exact ⟨t, ht, happ, hout, htabs, hregs⟩
  case noRoom => exact ⟨fails_of_emitThen (exec_lz77Lit b s) rfl hfull, fails_of_emitThen (exec_lzssLit b s) rfl hfull⟩

/-! ## The history copy (20_memory.md R61) -/

/-- The bytes of a history copy: each is the one `off` places before it, which may be one of the copy's own. -/
def State.historyBytes (s : State) (off : Nat) : Nat → Bytes
  | 0 => []
  | len + 1 =>
    s.outAt (s.regs.outCount - off) :: (s.put (s.outAt (s.regs.outCount - off))).historyBytes off len

@[simp] theorem State.historyBytes_length (s : State) (off len : Nat) : (s.historyBytes off len).length = len := by
  induction len generalizing s with
  | zero => rfl
  | succ len ih => rw [State.historyBytes, List.length_cons, ih]

/-- A history copy emits its bytes. -/
theorem State.copyHistory_eq_emitSeq (s : State) (off len : Nat) :
    s.copyHistory off len = s.emitSeq (s.historyBytes off len) := by
  induction len generalizing s with
  | zero => rfl
  | succ len ih =>
    rw [State.copyHistory, State.historyBytes, State.emitSeq]
    cases he : s.emit (s.outAt (s.regs.outCount - off)) with
    | error k => rfl
    | ok t =>
      obtain ⟨-, rfl⟩ := State.emit_ok.1 he
      exact ih _

theorem State.outAt_put_same (s : State) (b : Byte) : (s.put b).outAt s.regs.outCount = b := by
  simp [State.outAt]

theorem State.outAt_put_other (s : State) (b : Byte) {k : Nat} (h : k ≠ s.regs.outCount) :
    (s.put b).outAt k = s.outAt k := by
  have hplace : s.regs.outBase + k ≠ s.regs.outBase + s.regs.outCount := by omega
  exact congrArg (fun o => o.getD (Config.outByte s.draws (s.regs.outBase + k)))
    (s.outMem.read_write_other b hplace)

theorem State.outAt_putAll_of_lt (s : State) (bs : Bytes) {k : Nat} (h : k < s.regs.outCount) :
    (s.putAll bs).outAt k = s.outAt k := by
  have hold := (s.putAll_appends bs).old (s.regs.outBase + k) (.inl (by omega))
  exact congrArg (fun o => o.getD (Config.outByte s.draws (s.regs.outBase + k))) hold

/-- In the output after a history copy, each of its bytes is the one `off` places before it. -/
theorem State.outAt_historyBytes {s : State} {off len k : Nat} (h1 : 1 ≤ off) (hle : off ≤ s.regs.outCount)
    (hk : k < len) :
    (s.putAll (s.historyBytes off len)).outAt (s.regs.outCount + k) =
      (s.putAll (s.historyBytes off len)).outAt (s.regs.outCount + k - off) := by
  induction len generalizing s k with
  | zero => exact absurd hk (Nat.not_lt_zero k)
  | succ len ih =>
    rw [State.historyBytes, State.putAll_cons]
    generalize hb : s.outAt (s.regs.outCount - off) = b
    have hcount : (s.put b).regs.outCount = s.regs.outCount + 1 := rfl
    cases k with
    | zero =>
      rw [State.outAt_putAll_of_lt _ _ (by omega), State.outAt_putAll_of_lt _ _ (by omega), Nat.add_zero,
        State.outAt_put_same, State.outAt_put_other _ _ (by omega), hb]
    | succ k =>
      have hrest := ih (s := s.put b) (k := k) (by omega) (Nat.lt_of_succ_lt_succ hk)
      rwa [hcount, Nat.add_assoc, Nat.add_comm 1 k] at hrest

/-! ## LZ77.MATCH (43_lz77.md R165, R166) -/

/-- What MATCH does to the working registers after its copy. -/
def Regs.afterLz77Match (len : BitVec 7) (off : BitVec 16) (r : Regs) : Regs :=
  { r with len := len.toNat, off := off.toNat, ip := r.ip + 3 }

theorem lz77Match_of_offset {s : State} {off : BitVec 16} (h1 : 1 ≤ off.toNat) (hle : off.toNat ≤ s.regs.outCount)
    (len : BitVec 7) :
    lz77Match len off s = s.emitThen (s.historyBytes off.toNat len.toNat) (Regs.afterLz77Match len off) := by
  rw [lz77Match, if_neg (by omega), State.copyHistory_eq_emitSeq]
  rfl

theorem exec_lz77Match (len : BitVec 7) (off : BitVec 16) (s : State) :
    exec (.lz77Match len off) s = .next (s.settle (lz77Match len off s)) :=
  exec_token (i := .lz77Match len off) rfl nofun s

/-- Settles O34: by the test of the offset, and then by whether there is room for the copy. -/
theorem lz77MatchCopiesHistory : Obligations.Lz77MatchCopiesHistory := by
  intro len off s
  have hexec := exec_lz77Match len off s
  have hlen := s.historyBytes_length off.toNat len.toNat
  refine ⟨fun h1 hle hroom => ?copied, fun h1 hle hfull => ?noRoom, fun hbad => ?badOffset⟩
  case copied =>
    rw [lz77Match_of_offset h1 hle] at hexec
    obtain ⟨t, ht, happ, hout, htabs, hregs⟩ := writes_of_emitThen hexec hlen hroom (fun _ => rfl) fun _ => rfl
    refine ⟨t, _, ht, hlen, happ, hout, htabs, hregs, fun k hk => ?_⟩
    rw [State.emitThen_of_room (hlen.symm ▸ hroom), State.settle_ok] at hexec
    cases ht.symm.trans hexec
    exact State.outAt_historyBytes h1 hle hk
  case noRoom =>
    rw [lz77Match_of_offset h1 hle] at hexec
    exact fails_of_emitThen hexec hlen hfull
  case badOffset =>
    rw [lz77Match, if_pos hbad, State.settle_error] at hexec
    exact ⟨_, hexec, s.raise_fails _⟩

/-! ## The greedy turn (43_lz77.md R162) -/

/-- The token of a turn that finds the match `m` at the byte `b`, and how many bytes of the input it stands for. -/
def lz77Token (m : Match) (b : Byte) : Instr × Nat :=
  if 3 ≤ m.bestLen then (.lz77Match (BitVec.ofNat 7 m.bestLen) (BitVec.ofNat 16 m.bestOff), m.bestLen)
  else (.lz77Lit b, 1)

theorem lz77Token_match {m : Match} (h : 3 ≤ m.bestLen) (b : Byte) :
    lz77Token m b = (.lz77Match (BitVec.ofNat 7 m.bestLen) (BitVec.ofNat 16 m.bestOff), m.bestLen) := if_pos h

theorem lz77Token_lit {m : Match} (h : m.bestLen < 3) (b : Byte) : lz77Token m b = (.lz77Lit b, 1) :=
  if_neg (Nat.not_le.2 h)

/-- What a turn does to the working registers after its output, where its token stands for `n` bytes. -/
def Regs.afterLz77Turn (m : Match) (n : Nat) (r : Regs) : Regs := { r.withMatch m with ip := r.ip + n }

theorem lz77Unit_eq {s : State} {m : Match} (hm : findMatch s s.regs.ip 1024 32 = m) : lz77Unit s =
    s.emitThen (encode (lz77Token m (s.inAt s.regs.ip)).1)
      (Regs.afterLz77Turn m (lz77Token m (s.inAt s.regs.ip)).2) := by
  rw [lz77Unit, Config.lz77Window, Config.lz77MaxMatch, hm]
  rfl

theorem unitOfWork_lz77C {t : State} (hp : t.phase = .lz77C) :
    unitOfWork t = t.settle (turn t lz77Unit State.endOp) := by
  simp [unitOfWork, State.nextToken, State.fetchBytes, advance, hp]

theorem step_lz77C {s : State} (hh : s.host = []) (hb : s.status = .busy) (hp : s.phase = .lz77C)
    (hlt : s.regs.ip < s.regs.nIn) : step s = .next (s.settle (lz77Unit s)) := by
  have hn : s.nextInstr = none := by
    rw [nextInstr_frame hb (hp ▸ nofun), State.nextToken, State.fetchBytes, hp]
    rfl
  have ha : advance s = lz77Unit s := by
    rw [advance, hp]
    exact if_pos hlt
  rw [step_of_host_nil hh, engineStep, hn]
  dsimp only
  rw [if_pos hb, ha]

/-- Settles O30: by the token of the turn, and then by whether there is room for it. -/
theorem lz77CompressorIsGreedy : Obligations.Lz77CompressorIsGreedy := by
  intro s hh hb hp hlt
  have hstep := step_lz77C hh hb hp hlt
  generalize hm : findMatch s s.regs.ip 1024 32 = m
  rw [lz77Unit_eq hm] at hstep
  refine ⟨fun h3 hroom => ?_, fun h3 hfull => ?_, fun h3 hroom => ?_, fun h3 hfull => ?_⟩
  · rw [lz77Token_match h3] at hstep
    obtain ⟨t, ht, happ, hout, htabs, hregs⟩ := writes_of_emitThen hstep rfl hroom (fun _ => rfl) fun _ => rfl
    exact ⟨t, ht, happ, hregs, hout, htabs⟩
  · rw [lz77Token_match h3] at hstep
    exact fails_of_emitThen hstep rfl hfull
  · rw [lz77Token_lit h3] at hstep
    obtain ⟨t, ht, happ, hout, htabs, hregs⟩ := writes_of_emitThen hstep rfl hroom (fun _ => rfl) fun _ => rfl
    exact ⟨t, ht, happ, hregs, hout, htabs⟩
  · rw [lz77Token_lit h3] at hstep
    exact fails_of_emitThen hstep rfl hfull

end Sys2Proof.Machine
end

section
/-! The round trip of LZ77 (43_lz77.md R167): the tokens of the greedy parse spell the input, and the decoder gives what
the tokens of its frame spell (O36). -/

namespace Sys2Proof.Machine

/-! ## Frames of tokens -/

/-- The frame of a sequence of tokens (30_encoding.md R87, R88). -/
def lz77Frame (ts : List Instr) : Bytes := ts.flatMap encode

theorem encode_lz77Lit_length (b : Byte) : (encode (.lz77Lit b)).length = 2 := rfl

theorem encode_lz77Match_length (len : BitVec 7) (off : BitVec 16) : (encode (.lz77Match len off)).length = 3 := rfl

theorem lz77Frame_cons (i : Instr) (ts : List Instr) : lz77Frame (i :: ts) = encode i ++ lz77Frame ts := rfl

/-- The tokens `ts` spell `x` from the place `p` to its end, where `x` up to `p` is the history of the first of them. -/
inductive Lz77Spells (x : Bytes) : Nat → List Instr → Prop
  | done : Lz77Spells x x.length []
  | lit {p : Nat} {b : Byte} {ts : List Instr} (hb : x[p]? = some b) (hts : Lz77Spells x (p + 1) ts) :
      Lz77Spells x p (.lz77Lit b :: ts)
  | copy {p : Nat} {len : BitVec 7} {off : BitVec 16} {ts : List Instr} (hpos : 1 ≤ off.toNat) (hoff : off.toNat ≤ p)
      (hlen : p + len.toNat ≤ x.length) (hx : ∀ k, k < len.toNat → x[p + k]? = x[p - off.toNat + k]?)
      (hts : Lz77Spells x (p + len.toNat) ts) : Lz77Spells x p (.lz77Match len off :: ts)

theorem Lz77Spells.length_frame {x : Bytes} {p : Nat} {ts : List Instr} (h : Lz77Spells x p ts) :
    ts.length ≤ (lz77Frame ts).length ∧ (lz77Frame ts).length ≤ 3 * ts.length := by
  induction h with
  | done => exact ⟨Nat.le_refl 0, Nat.le_refl 0⟩
  | lit =>
    rw [lz77Frame_cons, List.length_append, List.length_cons, encode_lz77Lit_length]
    omega
  | copy =>
    rw [lz77Frame_cons, List.length_append, List.length_cons, encode_lz77Match_length]
    omega

/-! ## The decoder (R165) -/

theorem unitOfWork_lz77D_end {t : State} (hp : t.phase = .lz77D) (h : ¬ t.regs.ip < t.regs.nIn) :
    unitOfWork t = t.settle t.endOp := by
  have hn : t.nextToken = none := by rw [State.nextToken, fetchBytes_lz77 hp, if_neg h]; rfl
  simp [unitOfWork, hn, advance, hp]

section decoder

variable {s t : State} {out : Bytes}

/-- The decoder reads a token of the frame back, whatever follows it. -/
theorem State.Running.nextToken_lz77 (h : s.Running t out) (hp : t.phase = .lz77D) {i : Instr} {rest : Bytes}
    (hin : s.inputBytes.drop t.regs.ip = encode i ++ rest) (hc : i.ctx = .lz77) (hpos : 0 < (encode i).length)
    (hle : (encode i).length ≤ 3) : t.nextToken = some (.ok i) := by
  have hlen := congrArg List.length hin
  rw [List.length_drop, s.inputBytes_length, ← h.nIn, List.length_append] at hlen
  have hwindow : t.window t.regs.ip t.regs.nIn 3 =
      encode i ++ rest.take (min 3 (t.regs.nIn - t.regs.ip) - (encode i).length) := by
    rw [State.window, h.inSlice (by rw [← h.nIn]; omega), hin, List.take_append, List.take_of_length_le (by omega)]
  rw [State.nextToken, fetchBytes_lz77 hp, if_pos (by omega), hwindow]
  have hdecode := decode_encode i (rest.take (min 3 (t.regs.nIn - t.regs.ip) - (encode i).length))
  rw [hc] at hdecode
  exact congrArg some hdecode

theorem State.Running.getElem?_eq_outAt (h : s.Running t out) {k : Nat} (hk : k < out.length) :
    out[k]? = some (t.outAt k) := by
  rw [List.getElem?_eq_getElem hk, State.outAt, h.outBase, Nat.zero_add, h.emitted k hk, Option.getD_some]

/-- A history copy over a beginning of `x` gives the bytes of `x` that follow, where these are the ones `off` places
before. -/
theorem State.historyBytes_eq_take_drop {t : State} {x : Bytes} {off len : Nat}
    (hout : ∀ k, k < t.regs.outCount → x[k]? = some (t.outAt k)) (hpos : 1 ≤ off) (hoff : off ≤ t.regs.outCount)
    (hx : ∀ k, k < len → x[t.regs.outCount + k]? = x[t.regs.outCount - off + k]?) :
    t.historyBytes off len = (x.drop t.regs.outCount).take len := by
  induction len generalizing t with
  | zero => rfl
  | succ len ih =>
    have hhead : x[t.regs.outCount]? = some (t.outAt (t.regs.outCount - off)) :=
      (hx 0 (Nat.succ_pos len)).trans (hout _ (by omega))
    rw [State.historyBytes]
    generalize t.outAt (t.regs.outCount - off) = b at hhead
    have hcount : (t.put b).regs.outCount = t.regs.outCount + 1 := rfl
    have hrest : (t.put b).historyBytes off len = (x.drop (t.regs.outCount + 1)).take len := by
      refine ih (t := t.put b) (fun k hk => ?_) (by omega) fun k hk => ?_
      · obtain hlt | rfl := Nat.lt_succ_iff_lt_or_eq.1 hk
        · rw [State.outAt_put_other _ _ hlt.ne, hout k hlt]
        · rw [State.outAt_put_same, hhead]
      · have hshift := hx (k + 1) (Nat.succ_lt_succ hk)
        have hplace : t.regs.outCount + 1 - off + k = t.regs.outCount - off + (k + 1) := by omega
        rwa [hcount, hplace, Nat.add_assoc, Nat.add_comm 1 k]
    obtain ⟨hlt, hb⟩ := List.getElem?_eq_some_iff.1 hhead
    rw [List.drop_eq_getElem_cons hlt, List.take_succ_cons, hb, hrest]

/-- A unit of work that emits the next `n` bytes of `x`: the operation goes on after it, or there is no room. -/
theorem State.Running.runUnits_piece {x : Bytes} {p n fuel : Nat} {f : Regs → Regs} (h : s.Running t (x.take p))
    (hu : unitOfWork t = t.settle (t.emitThen ((x.drop p).take n) f))
    (hnext : s.Running (t.putAll ((x.drop p).take n)) (x.take (p + n)) →
      s.EndsWithin x (runUnits fuel { t.putAll ((x.drop p).take n) with
        regs := f (t.putAll ((x.drop p).take n)).regs })) :
    s.EndsWithin x (runUnits (fuel + 1) t) := by
  have hsplit : x.take p ++ ((x.drop p).take n ++ x.drop (p + n)) = x := by
    rw [← List.drop_drop, List.take_append_drop, List.take_append_drop]
  have hunit := h.runUnits_emitSeq (ys := x.drop (p + n)) hu (fuel := fuel)
  rw [hsplit, ← List.take_add, List.take_append_drop] at hunit
  exact hunit hnext

/-- The loop of the decoder over the tokens that are left. -/
theorem runUnits_lz77D {x : Bytes} {p : Nat} {ts : List Instr} (hx : Lz77Spells x p ts) {t : State} {fuel : Nat}
    (h : s.Running t (x.take p)) (hp : t.phase = .lz77D) (hin : s.inputBytes.drop t.regs.ip = lz77Frame ts)
    (hlen : x.length < 2 ^ 64) : s.EndsWithin x (runUnits (ts.length + 1 + fuel) t) := by
  induction hx generalizing t with
  | done =>
    rw [List.take_length] at h
    rw [List.length_nil, Nat.zero_add, Nat.add_comm]
    exact h.runUnits_endOp hlen (unitOfWork_lz77D_end hp (h.of_drop_nil hin)) fuel
  | @lit p b ts hb hts ih =>
    have htoken := h.nextToken_lz77 (i := .lz77Lit b) hp hin rfl (Nat.succ_pos 1) (Nat.le_succ 2)
    obtain ⟨hlt, hb⟩ := List.getElem?_eq_some_iff.1 hb
    have hpiece : (x.drop p).take 1 = [b] := by rw [List.drop_eq_getElem_cons hlt, hb]; rfl
    have hu : unitOfWork t = t.settle (lz77Lit b t) := unitOfWork_of_token htoken
    rw [lz77Lit_eq, ← hpiece] at hu
    rw [List.length_cons, Nat.add_right_comm _ 1 1, Nat.add_right_comm _ 1 fuel]
    refine h.runUnits_piece hu fun hnext => ih ?_ hp ?_
    · exact { hnext with inputs := hnext.inputs.trans (State.keepsInputs_engine _) }
    · exact (List.drop_drop ..).symm.trans (congrArg (List.drop 2) hin)
  | @copy p len off ts hpos hoff hle hagree hts ih =>
    have htoken := h.nextToken_lz77 (i := .lz77Match len off) hp hin rfl (Nat.succ_pos 2) (Nat.le_refl 3)
    have hcount : t.regs.outCount = p := h.outCount.trans (List.length_take_of_le (by omega))
    have hbytes : t.historyBytes off.toNat len.toNat = (x.drop p).take len.toNat := by
      rw [← hcount] at hoff hagree ⊢
      refine State.historyBytes_eq_take_drop (fun k hk => ?_) hpos hoff hagree
      rw [← h.getElem?_eq_outAt (h.outCount ▸ hk), List.getElem?_take_of_lt (hcount ▸ hk)]
    have hu : unitOfWork t = t.settle (lz77Match len off t) := unitOfWork_of_token htoken
    rw [lz77Match_of_offset hpos (hcount.symm ▸ hoff), hbytes] at hu
    rw [List.length_cons, Nat.add_right_comm _ 1 1, Nat.add_right_comm _ 1 fuel]
    refine h.runUnits_piece hu fun hnext => ih ?_ hp ?_
    · exact { hnext with inputs := hnext.inputs.trans (State.keepsInputs_engine _) }
    · exact (List.drop_drop ..).symm.trans (congrArg (List.drop 3) hin)

end decoder

/-- DECOMPRESS.LZ77 over the frame of tokens that spell `x`. -/
theorem givesWithinCap_decompressLz77 {s : State} (hf : s.inputFits) {x : Bytes} {ts : List Instr}
    (hx : Lz77Spells x 0 ts) (hin : s.inputBytes = lz77Frame ts) (hlen : x.length < 2 ^ 64) :
    GivesWithinCap .decompressLz77 s x := by
  have hlenIn : (lz77Frame ts).length = s.inLen.toNat := by rw [← hin, s.inputBytes_length]
  have htokens := hx.length_frame.1
  refine givesWithinCap_of_operate (i := .decompressLz77) rfl rfl nofun nofun ?_
  by_cases h0 : s.inLen.toNat = 0
  · obtain rfl : ts = [] := List.length_eq_zero_iff.1 (by omega)
    obtain rfl : x = [] := by
      generalize hp : 0 = p at hx
      cases hx
      exact List.length_eq_zero_iff.1 hp.symm
    exact operate_empty hf h0 (if_pos h0)
  · have hbegin : beginDecompress .lz77 s.start = .ok (s.start.goTo .lz77D) := if_neg h0
    obtain ⟨fuel, hfuel⟩ : ∃ fuel, s.fuel = ts.length + 1 + fuel := Nat.exists_eq_add_of_le (by rw [State.fuel]; omega)
    rw [operate_of_inputFits hf, hbegin, State.settle_ok, hfuel]
    exact runUnits_lz77D hx (s.start_running .lz77D) rfl hin hlen

/-! ## The match finder over the same input -/

/-- `t` has the input of `r`. -/
def State.SameInput (r t : State) : Prop := t.regs.nIn = r.regs.nIn ∧ ∀ i, t.inAt i = r.inAt i

theorem State.SameInput.trans {r s t : State} (h : r.SameInput s) (h' : s.SameInput t) : r.SameInput t :=
  ⟨h'.1.trans h.1, fun i => (h'.2 i).trans (h.2 i)⟩

theorem State.Running.sameInput {s t : State} {out : Bytes} (h : s.Running t out) : s.start.SameInput t :=
  ⟨h.nIn, fun i => (h.inAt i).trans ((s.start_running .command).inAt i).symm⟩

section congr

variable {r t : State}

theorem matchLen_congr (h : r.SameInput t) (i j more len : Nat) :
    matchLen t i j more len = matchLen r i j more len := by
  induction more generalizing len with
  | zero => rfl
  | succ more ih => rw [matchLen, matchLen, h.1, h.2, h.2, ih]

theorem matchCandidate_congr (h : r.SameInput t) (i maxLen : Nat) (m : Match) :
    matchCandidate t i maxLen m = matchCandidate r i maxLen m := by
  rw [matchCandidate, matchCandidate, matchLen_congr h]

theorem matchScan_congr (h : r.SameInput t) (i maxLen more : Nat) (m : Match) :
    matchScan t i maxLen more m = matchScan r i maxLen more m := by
  induction more generalizing m with
  | zero => rfl
  | succ more ih => rw [matchScan, matchScan, matchCandidate_congr h, ih]

theorem findMatch_congr (h : r.SameInput t) (i window maxLen : Nat) :
    findMatch t i window maxLen = findMatch r i window maxLen := matchScan_congr h i maxLen _ _

end congr

/-! ## The greedy parse (R162) -/

/-- The token of the turn at `i`, and how many bytes of the input it stands for. -/
def State.lz77TokenAt (s : State) (i : Nat) : Instr × Nat := lz77Token (findMatch s i 1024 32) (s.inAt i)

theorem lz77Token_pos (m : Match) (b : Byte) : 0 < (lz77Token m b).2 := by
  rw [lz77Token]
  split
  · exact Nat.zero_lt_of_lt ‹3 ≤ m.bestLen›
  · exact Nat.one_pos

theorem State.lz77TokenAt_pos (s : State) (i : Nat) : 0 < (s.lz77TokenAt i).2 := lz77Token_pos _ _

theorem lz77TokenAt_congr {r t : State} (h : r.SameInput t) (i : Nat) : t.lz77TokenAt i = r.lz77TokenAt i := by
  rw [State.lz77TokenAt, State.lz77TokenAt, findMatch_congr h, h.2]

/-- The tokens of the turns from `i` on. -/
def State.lz77Tokens (s : State) (i : Nat) : List Instr :=
  if i < s.regs.nIn then (s.lz77TokenAt i).1 :: s.lz77Tokens (i + (s.lz77TokenAt i).2) else []
termination_by s.regs.nIn - i
decreasing_by have := s.lz77TokenAt_pos i; omega

theorem State.lz77Tokens_of_lt {s : State} {i : Nat} (h : i < s.regs.nIn) :
    s.lz77Tokens i = (s.lz77TokenAt i).1 :: s.lz77Tokens (i + (s.lz77TokenAt i).2) := by
  rw [State.lz77Tokens, if_pos h]

theorem State.lz77Tokens_of_le {s : State} {i : Nat} (h : ¬ i < s.regs.nIn) : s.lz77Tokens i = [] := by
  rw [State.lz77Tokens, if_neg h]

theorem State.lz77Tokens_length_le (s : State) (i : Nat) : (s.lz77Tokens i).length ≤ s.regs.nIn - i := by
  induction i using State.lz77Tokens.induct (s := s) with
  | case1 i hlt ih =>
    have hpos := s.lz77TokenAt_pos i
    rw [State.lz77Tokens_of_lt hlt, List.length_cons]
    omega
  | case2 i hle => rw [State.lz77Tokens_of_le hle]; exact Nat.zero_le _

theorem State.input_getElem? (s : State) {i : Nat} (h : i < s.regs.nIn) : s.input[i]? = some (s.inAt i) := by
  have hlen : i < s.input.length := by rwa [State.input, State.inSlice_length]
  have hbyte : s.input[i] = s.inAt (0 + i) := s.inSlice_get 0 s.regs.nIn hlen
  rw [List.getElem?_eq_getElem hlen, hbyte, Nat.zero_add]

/-- A match inside the input is spelled by its token, where its fields hold it. -/
theorem Lz77Spells.of_agree {s : State} {i : Nat} {m : Match} (hpos : 0 < m.bestOff) (hoff : m.bestOff ≤ i)
    (hwindow : m.bestOff ≤ 1024) (hmax : m.bestLen ≤ 32) (hle : i + m.bestLen ≤ s.regs.nIn)
    (hagree : s.Agree i (i - m.bestOff) m.bestLen) {ts : List Instr}
    (hts : Lz77Spells s.input (i + m.bestLen) ts) :
    Lz77Spells s.input i (.lz77Match (BitVec.ofNat 7 m.bestLen) (BitVec.ofNat 16 m.bestOff) :: ts) := by
  have hlenField : (BitVec.ofNat 7 m.bestLen).toNat = m.bestLen := Nat.mod_eq_of_lt (by omega)
  have hoffField : (BitVec.ofNat 16 m.bestOff).toNat = m.bestOff := Nat.mod_eq_of_lt (by omega)
  refine .copy (hoffField.symm ▸ hpos) (hoffField.symm ▸ hoff) ?_ (fun k hk => ?_) (hlenField.symm ▸ hts)
  · rwa [hlenField, State.input, State.inSlice_length]
  · obtain ⟨hin, hbyte⟩ := hagree k (hlenField ▸ hk)
    rw [hoffField, s.input_getElem? hin, s.input_getElem? (by omega), hbyte]

/-- The token of a turn stays inside the input and spells what it stands for. -/
theorem State.lz77TokenAt_spells {s : State} {i : Nat} (h : i < s.regs.nIn) :
    i + (s.lz77TokenAt i).2 ≤ s.regs.nIn ∧ ∀ ts, Lz77Spells s.input (i + (s.lz77TokenAt i).2) ts →
      Lz77Spells s.input i ((s.lz77TokenAt i).1 :: ts) := by
  have hmatch := findMatch_agrees (s := s) (i := i) (window := 1024) (maxLen := 32)
  rw [State.lz77TokenAt]
  generalize findMatch s i 1024 32 = m at hmatch ⊢
  by_cases h3 : 3 ≤ m.bestLen
  · obtain ⟨hpos, hoff, hwindow, hmax, hagree⟩ := hmatch (Nat.zero_lt_of_lt h3)
    have hle := hagree.le (Nat.zero_lt_of_lt h3)
    rw [lz77Token_match h3]
    exact ⟨hle, fun ts hts => .of_agree hpos hoff hwindow hmax hle hagree hts⟩
  · rw [lz77Token_lit (Nat.not_le.1 h3)]
    exact ⟨h, fun ts hts => .lit (s.input_getElem? h) hts⟩

/-- The greedy parse spells the input. -/
theorem State.lz77Tokens_spells (s : State) (i : Nat) (h : i ≤ s.regs.nIn) :
    Lz77Spells s.input i (s.lz77Tokens i) := by
  induction i using State.lz77Tokens.induct (s := s) with
  | case1 i hlt ih =>
    obtain ⟨hle, hspells⟩ := State.lz77TokenAt_spells hlt
    rw [State.lz77Tokens_of_lt hlt]
    exact hspells _ (ih hle)
  | case2 i hge =>
    obtain rfl : i = s.input.length := by rw [State.input, State.inSlice_length]; omega
    rw [State.lz77Tokens_of_le hge]
    exact .done

/-! ## The compressor (R162) -/

theorem unitOfWork_lz77C_end {t : State} (hp : t.phase = .lz77C) (h : ¬ t.regs.ip < t.regs.nIn) :
    unitOfWork t = t.settle t.endOp := by
  rw [unitOfWork_lz77C hp, turn, if_neg h]

/-- A unit of work inside the input, which is the input of `r`: the token of the turn, and a move of the cursor behind
what it stands for. -/
theorem unitOfWork_lz77C_turn {r t : State} (hr : r.SameInput t) (hp : t.phase = .lz77C)
    (h : t.regs.ip < t.regs.nIn) : ∃ m, unitOfWork t = t.settle (t.emitThen (encode (r.lz77TokenAt t.regs.ip).1)
      (Regs.afterLz77Turn m (r.lz77TokenAt t.regs.ip).2)) :=
  ⟨_, by rw [unitOfWork_lz77C hp, turn, if_pos h, lz77Unit_eq rfl, ← lz77TokenAt_congr hr, State.lz77TokenAt]⟩

/-- The loop of the compressor over what is left of the input, which is the input of `r`. -/
theorem runUnits_lz77C {r s : State} (hr : r.SameInput s.start) (i : Nat) {t : State} {out : Bytes} {fuel : Nat}
    (h : s.Running t out) (hp : t.phase = .lz77C) (hi : t.regs.ip = i)
    (hlen : (out ++ lz77Frame (r.lz77Tokens i)).length < 2 ^ 64) :
    s.EndsWithin (out ++ lz77Frame (r.lz77Tokens i)) (runUnits ((r.lz77Tokens i).length + 1 + fuel) t) := by
  induction i using State.lz77Tokens.induct (s := r) generalizing t out with
  | case1 i hlt ih =>
    have hsame := hr.trans h.sameInput
    obtain ⟨m, hu⟩ := unitOfWork_lz77C_turn hsame hp (by rwa [hi, hsame.1])
    rw [hi] at hu
    rw [State.lz77Tokens_of_lt hlt, lz77Frame_cons] at hlen ⊢
    rw [List.length_cons, Nat.add_right_comm _ 1 1, Nat.add_right_comm _ 1 fuel]
    generalize r.lz77TokenAt i = token at *
    refine h.runUnits_emitSeq hu fun hnext => ih ?_ hp ?_ (by rwa [List.append_assoc])
    · exact { hnext with inputs := hnext.inputs.trans (State.keepsInputs_engine _) }
    · exact congrArg (· + _) hi
  | case2 i hge =>
    have hu := unitOfWork_lz77C_end hp (by rwa [hi, (hr.trans h.sameInput).1])
    rw [State.lz77Tokens_of_le hge, lz77Frame, List.flatMap_nil, List.append_nil] at *
    rw [List.length_nil, Nat.zero_add, Nat.add_comm]
    exact h.runUnits_endOp hlen hu fuel

/-- The result of COMPRESS.LZ77. -/
theorem compressLz77_endsWithin {r s : State} (hr : r.SameInput s.start) (hf : s.inputFits)
    (hlt : s.inLen.toNat < 2 ^ 56) :
    s.EndsWithin (lz77Frame (r.lz77Tokens 0)) (operate (beginCompress .lz77) s) := by
  have hn : s.inLen.toNat = r.regs.nIn := hr.1
  have htokens := r.lz77Tokens_length_le 0
  have hframe := (r.lz77Tokens_spells 0 (Nat.zero_le _)).length_frame.2
  by_cases h0 : s.inLen.toNat = 0
  · rw [State.lz77Tokens_of_le (by omega)]
    exact operate_empty hf h0 (if_pos h0)
  · have hbegin : beginCompress .lz77 s.start = .ok (s.start.goTo .lz77C) := if_neg h0
    obtain ⟨fuel, hfuel⟩ : ∃ fuel, s.fuel = (r.lz77Tokens 0).length + 1 + fuel :=
      Nat.exists_eq_add_of_le (by rw [State.fuel]; omega)
    rw [operate_of_inputFits hf, hbegin, State.settle_ok, hfuel]
    exact runUnits_lz77C hr 0 (s.start_running .lz77C) rfl rfl (by rw [List.nil_append]; omega)

theorem State.start_input (s : State) : s.start.input = s.inputBytes := by
  exact ((s.start_running .command).inSlice (a := 0) (Nat.zero_add _).le).trans
    (List.take_of_length_le s.inputBytes_length.le)

/-- Settles O36: the tokens of the greedy parse spell the input. -/
theorem lz77RoundTrip : Obligations.Lz77RoundTrip := by
  intro s hf hlt
  have hspells := s.start.lz77Tokens_spells 0 (Nat.zero_le _)
  rw [s.start_input] at hspells
  refine ⟨lz77Frame (s.start.lz77Tokens 0), fun cap hcap => ?_, fun u hu huf hin => ?_⟩
  · have hsame : s.start.SameInput (s.withOutCap cap).start := ⟨rfl, fun _ => rfl⟩
    have hend := compressLz77_endsWithin hsame ((s.withOutCap_inputFits cap).2 hf) hlt
    exact ⟨_, exec_of_beginOf rfl _, hend.result hcap⟩
  · have hlen := s.inputBytes_length
    exact (givesWithinCap_decompressLz77 huf hspells hin (by omega)).1 (hlen ▸ hu)

end Sys2Proof.Machine
end

section
/-! The LZSS match (44_lzss.md R185, R187; O35), and the turns and the end of the loop of LZSS.C (R181; O31). -/

namespace Sys2Proof.Machine

/-! ## LZSS.MATCH (44_lzss.md R185, R187) -/

/-- What MATCH does to the working registers after its copy. -/
def Regs.afterLzssMatch (o : BitVec 12) (l : BitVec 4) (r : Regs) : Regs :=
  { r with len := l.toNat + 3, off := o.toNat + 1, dp := r.dp + 2, tok := r.tok + 1 }

theorem lzssMatch_of_offset {s : State} {o : BitVec 12} (h : o.toNat < s.regs.outCount) (l : BitVec 4) :
    lzssMatch o l s = s.emitThen (s.historyBytes (o.toNat + 1) (l.toNat + 3)) (Regs.afterLzssMatch o l) := by
  rw [lzssMatch, if_neg (Nat.not_lt.2 h), State.copyHistory_eq_emitSeq]
  rfl

theorem lzssMatch_of_bad_offset {s : State} {o : BitVec 12} (h : s.regs.outCount ≤ o.toNat) (l : BitVec 4) :
    lzssMatch o l s = .error .corruptPayload := if_pos (Nat.lt_succ_of_le h)

theorem exec_lzssMatch (o : BitVec 12) (l : BitVec 4) (s : State) :
    exec (.lzssMatch o l) s = .next (s.settle (lzssMatch o l s)) :=
  exec_token (i := .lzssMatch o l) rfl nofun s

/-- Settles O35: by the test of the offset, and then by whether there is room for the copy. -/
theorem lzssMatchCopiesHistory : Obligations.LzssMatchCopiesHistory := by
  intro o l s
  have hexec := exec_lzssMatch o l s
  have hlen := s.historyBytes_length (o.toNat + 1) (l.toNat + 3)
  refine ⟨fun hoff hroom => ?copied, fun hoff hfull => ?noRoom, fun hbad => ?badOffset⟩
  case copied =>
    rw [lzssMatch_of_offset hoff] at hexec
    obtain ⟨t, ht, happ, hout, htabs, hregs⟩ := writes_of_emitThen hexec hlen hroom (fun _ => rfl) fun _ => rfl
    refine ⟨t, _, ht, hlen, happ, hout, htabs, hregs, fun k hk => ?_⟩
    rw [State.emitThen_of_room (hlen.symm ▸ hroom), State.settle_ok] at hexec
    cases ht.symm.trans hexec
    exact State.outAt_historyBytes (Nat.succ_pos _) hoff hk
  case noRoom =>
    rw [lzssMatch_of_offset hoff] at hexec
    exact fails_of_emitThen hexec hlen hfull
  case badOffset =>
    rw [lzssMatch_of_bad_offset hbad, State.settle_error] at hexec
    exact ⟨_, hexec, s.raise_fails _⟩

/-! ## The token of a turn (44_lzss.md R181) -/

/-- The flag of a token (30_encoding.md R90). -/
def lzssFlag (i : Instr) : Bool := decide (i.ctx = .lzssMatch)

/-- The token of a turn that finds the match `m` at the byte `b`, and how many bytes of the input it stands for. -/
def lzssToken (m : Match) (b : Byte) : Instr × Nat :=
  if 3 ≤ m.bestLen then (.lzssMatch (BitVec.ofNat 12 (m.bestOff - 1)) (BitVec.ofNat 4 (m.bestLen - 3)), m.bestLen)
  else (.lzssLit b, 1)

theorem lzssToken_match {m : Match} (h : 3 ≤ m.bestLen) (b : Byte) : lzssToken m b =
    (.lzssMatch (BitVec.ofNat 12 (m.bestOff - 1)) (BitVec.ofNat 4 (m.bestLen - 3)), m.bestLen) := if_pos h

theorem lzssToken_lit {m : Match} (h : ¬ 3 ≤ m.bestLen) (b : Byte) : lzssToken m b = (.lzssLit b, 1) := if_neg h

/-- The bytes of a match are its two fields as one number, high byte first (30_encoding.md R91). -/
theorem encode_lzssMatch_ofNat {o l : Nat} (ho : o < 4096) (hl : l < 16) :
    encode (.lzssMatch (BitVec.ofNat 12 o) (BitVec.ofNat 4 l)) =
      [BitVec.ofNat 8 ((o * 16 + l) / 256), BitVec.ofNat 8 (o * 16 + l)] := by
  have hv : (BitVec.ofNat 12 o ++ BitVec.ofNat 4 l).toNat = o * 16 + l := by
    rw [BitVec.toNat_append, BitVec.toNat_ofNat, BitVec.toNat_ofNat, Nat.mod_eq_of_lt ho, Nat.mod_eq_of_lt hl,
      ← Nat.shiftLeft_add_eq_or_of_lt hl, Nat.shiftLeft_eq]
  rw [encode, BitVec.extractLsb', BitVec.extractLsb', hv, Nat.shiftRight_eq_div_pow]
  rfl

/-- What `FindMatch` finds lies in its window, and is no longer than its maximum. -/
theorem findMatch_le (s : State) (i window maxLen : Nat) :
    (findMatch s i window maxLen).bestOff ≤ window ∧ (findMatch s i window maxLen).bestLen ≤ maxLen := by
  obtain ⟨hlen, hoff⟩ | ⟨j, hlo, hj, -, hlen, hoff⟩ := (findMatch_bestOf s i window maxLen).1.found
  · rw [hlen, hoff]
    exact ⟨Nat.zero_le _, Nat.zero_le _⟩
  · exact ⟨by omega, (le_matchLen_iff.1 hlen.le).1⟩

theorem lzssFlag_lzssToken (m : Match) (b : Byte) : lzssFlag (lzssToken m b).1 = decide (3 ≤ m.bestLen) := by
  by_cases h3 : 3 ≤ m.bestLen
  · rw [lzssToken_match h3, decide_eq_true h3]
    rfl
  · rw [lzssToken_lit h3, decide_eq_false h3]
    rfl

theorem lzssToken_size (m : Match) (b : Byte) : (lzssToken m b).2 = if 3 ≤ m.bestLen then m.bestLen else 1 :=
  apply_ite Prod.snd _ _ _

/-- The bytes of a turn's token, where the match is one that the fields hold. -/
theorem encode_lzssToken {m : Match} (hoff : m.bestOff ≤ 4096) (hlen : m.bestLen ≤ 18) (b : Byte) :
    encode (lzssToken m b).1 =
      if 3 ≤ m.bestLen then
        [BitVec.ofNat 8 (((m.bestOff - 1) * 16 + (m.bestLen - 3)) / 256),
          BitVec.ofNat 8 ((m.bestOff - 1) * 16 + (m.bestLen - 3))]
      else [b] := by
  by_cases h3 : 3 ≤ m.bestLen
  · rw [lzssToken_match h3, if_pos h3]
    exact encode_lzssMatch_ofNat (by omega) (by omega)
  · rw [lzssToken_lit h3, if_neg h3]
    rfl

/-- The state after a turn whose token is `i`. -/
def State.afterLzssTurn (s : State) (m : Match) (i : Instr × Nat) : State :=
  { s with
    tabs := { s.tabs with
      flags := flagsWith s.tabs.flags s.regs.tok (lzssFlag i.1)
      data := s.tabs.data ++ encode i.1 }
    regs := { s.regs.withMatch m with ip := s.regs.ip + i.2, tok := s.regs.tok + 1 } }

theorem State.afterLzssTurn_keepsOut (s : State) (m : Match) (i : Instr × Nat) : s.KeepsOut (s.afterLzssTurn m i) :=
  fun _ => rfl

theorem State.afterLzssTurn_keepsOutside (s : State) (m : Match) (i : Instr × Nat) :
    s.KeepsOutside (s.afterLzssTurn m i) :=
  ⟨s.keepsInputs_engine, ⟨rfl, rfl⟩, rfl, rfl, rfl, rfl⟩

theorem lzssUnit_eq {s : State} {m : Match} (hm : findMatch s s.regs.ip 4096 18 = m) :
    lzssUnit s = .ok (s.afterLzssTurn m (lzssToken m (s.inAt s.regs.ip))) := by
  rw [lzssUnit, Config.lzssWindow, Config.lzssLookahead, Config.lzssMinMatch, hm]
  by_cases h3 : 3 ≤ m.bestLen
  · rw [lzssToken_match h3, decide_eq_true h3]
    rfl
  · rw [lzssToken_lit h3, decide_eq_false h3]
    rfl

/-! ## The flags (00_scope.md R12, 44_lzss.md R181) -/

/-- The flag of token `j`: bits are numbered from the lowest of each byte. -/
def flagBit (flags : Bytes) (j : Nat) : Bool := (flags.getD (j / 8) 0).getLsbD (j % 8)

/-- A new flag byte is opened with all bits 0. -/
theorem flagBit_append_zero (flags : Bytes) (j : Nat) : flagBit (flags ++ [0x00]) j = flagBit flags j := by
  rw [flagBit, flagBit]
  obtain hlt | hge := Nat.lt_or_ge (j / 8) flags.length
  · rw [List.getD_append _ _ _ _ hlt]
  · rw [List.getD_append_right _ _ _ _ hge, List.getD_eq_default _ _ hge]
    cases j / 8 - flags.length <;> rfl

/-- Setting the bit of token `tok` sets no other. -/
theorem flagBit_modify {flags : Bytes} {tok : Nat} (h : tok / 8 < flags.length) (j : Nat) :
    flagBit (flags.modify (tok / 8) fun f => f ||| BitVec.ofNat 8 (2 ^ (tok % 8))) j =
      (flagBit flags j || decide (j = tok)) := by
  have hmod := Nat.mod_lt j (show 8 > 0 by decide)
  rw [flagBit, flagBit, List.getD_eq_getElem?_getD, List.getD_eq_getElem?_getD]
  by_cases hbyte : tok / 8 = j / 8
  · have hsame : tok % 8 = j % 8 ↔ j = tok := by omega
    rw [← hbyte, List.getElem?_modify_eq, List.getElem?_eq_getElem h]
    simp only [Option.map_eq_map, Option.map_some, Option.getD_some, BitVec.getLsbD_or, BitVec.getLsbD_ofNat,
      Nat.testBit_two_pow, hsame, hmod, decide_true, Bool.true_and]
  · have hne : j ≠ tok := by rintro rfl; exact hbyte rfl
    rw [List.getElem?_modify_ne _ _ hbyte, decide_eq_false hne, Bool.or_false]

/-- `FLAGS` with a byte for the flag of token `tok`. -/
def openFlags (flags : Bytes) (tok : Nat) : Bytes := if tok % 8 = 0 then flags ++ [0x00] else flags

theorem openFlags_length {flags : Bytes} {tok : Nat} (h : flags.length = (tok + 7) / 8) :
    (openFlags flags tok).length = tok / 8 + 1 := by
  rw [openFlags]
  split
  · rw [List.length_append, List.length_singleton]; omega
  · omega

theorem flagBit_openFlags (flags : Bytes) (tok j : Nat) : flagBit (openFlags flags tok) j = flagBit flags j := by
  rw [openFlags]
  split
  · exact flagBit_append_zero flags j
  · rfl

theorem flagsWith_true (flags : Bytes) (tok : Nat) : flagsWith flags tok true =
    (openFlags flags tok).modify (tok / 8) fun f => f ||| BitVec.ofNat 8 (2 ^ (tok % 8)) := rfl

theorem flagsWith_false (flags : Bytes) (tok : Nat) : flagsWith flags tok false = openFlags flags tok := rfl

theorem flagsWith_length {flags : Bytes} {tok : Nat} (h : flags.length = (tok + 7) / 8) (isMatch : Bool) :
    (flagsWith flags tok isMatch).length = (tok + 1 + 7) / 8 := by
  have hopen : (flagsWith flags tok isMatch).length = (openFlags flags tok).length := by
    cases isMatch with
    | false => rw [flagsWith_false]
    | true => rw [flagsWith_true, List.length_modify]
  rw [hopen, openFlags_length h]
  omega

/-- The flag of token `tok`, which is clear before, is written and no other is changed. -/
theorem flagBit_flagsWith {flags : Bytes} {tok : Nat} (h : flags.length = (tok + 7) / 8)
    (hbit : flagBit flags tok = false) (isMatch : Bool) (j : Nat) :
    flagBit (flagsWith flags tok isMatch) j = if j = tok then isMatch else flagBit flags j := by
  have hplace : tok / 8 < (openFlags flags tok).length := by rw [openFlags_length h]; omega
  cases isMatch with
  | false =>
    rw [flagsWith_false, flagBit_openFlags]
    split
    · next hj => rw [hj, hbit]
    · rfl
  | true =>
    rw [flagsWith_true, flagBit_modify hplace, flagBit_openFlags]
    split
    · next hj => rw [decide_eq_true hj, Bool.or_true]
    · next hj => rw [decide_eq_false hj, Bool.or_false]

/-! ## The turn and the end of the loop (44_lzss.md R181) -/

/-- A BUSY engine that stands at no instruction goes on otherwise. -/
theorem step_of_no_token {s : State} (hh : s.host = []) (hb : s.status = .busy) (hp : s.phase ≠ .command)
    (hn : s.nextToken = none) : step s = .next (s.settle (advance s)) := by
  rw [step_of_host_nil hh, engineStep, nextInstr_frame hb hp, hn]
  dsimp only
  rw [if_pos hb]

theorem nextToken_lzssC {s : State} (hp : s.phase = .lzssC) : s.nextToken = none := by
  rw [State.nextToken, State.fetchBytes, hp]
  rfl

theorem advance_lzssC {s : State} (hp : s.phase = .lzssC) : advance s = turn s lzssUnit lzssCEnd := by
  rw [advance, hp]

theorem step_lzssC {s : State} (hh : s.host = []) (hb : s.status = .busy) (hp : s.phase = .lzssC) :
    step s = .next (s.settle (turn s lzssUnit lzssCEnd)) := by
  rw [step_of_no_token hh hb (hp ▸ nofun) (nextToken_lzssC hp), advance_lzssC hp]

/-- The state after the frame is emitted, whose flags have `fc` bytes. -/
def State.lzssEmitted (s : State) (fc : Nat) : State :=
  { s with regs := { s.regs with fc := fc }, phase := .finished }

/-- The frame of an input of `n` bytes: the header, the flags and the data. -/
def lzssFrame (n : Nat) (flags data : Bytes) : Bytes := u64le n ++ u32le flags.length ++ flags ++ data

theorem lzssFrame_length (n : Nat) (flags data : Bytes) :
    (lzssFrame n flags data).length = 12 + flags.length + data.length := by
  rw [lzssFrame, u64le, u32le]
  simp only [List.length_append, bytesLE_length]

theorem lzssCEnd_of_fits {s : State} (h : s.tabs.flags.length < 2 ^ 32) :
    lzssCEnd s = s.emitSeq (lzssFrame s.regs.nIn s.tabs.flags s.tabs.data) >>= fun t =>
      .ok (t.lzssEmitted s.tabs.flags.length) := by
  rw [lzssCEnd, if_neg (Nat.not_le.2 h)]
  rfl

/-- The end of the loop without room for the frame. -/
theorem lzssCEnd_of_no_room {s : State}
    (h : ¬ s.room (12 + s.tabs.flags.length + s.tabs.data.length)) : lzssCEnd s = .error .capacityExceeded := by
  obtain hbig | hfits := Nat.lt_or_ge s.tabs.flags.length (2 ^ 32)
  · rw [← lzssFrame_length s.regs.nIn] at h
    rw [lzssCEnd_of_fits hbig, State.emitSeq_of_no_room h]
    rfl
  · exact if_pos hfits

/-- The operation begins with its loop. -/
theorem tick_compressLzss {s : State} (hs : s.JustStarted) (hc : s.cmd = 0x14) (hf : s.inputFits) (h0 : s.inLen ≠ 0) :
    tick s = s.goTo .lzssC := by
  have hbegin : beginCommand s = beginRun (beginCompress .lzss) s := by
    rw [beginCommand, hc]
    rfl
  have hlen : s.inLen.toNat ≠ 0 := mt (BitVec.eq_of_toNat_eq (y := 0)) h0
  have hstart : beginCompress .lzss s.start = .ok (s.start.goTo .lzssC) := if_neg hlen
  rw [tick, if_pos (hs ▸ rfl), if_pos (hs ▸ rfl), hbegin, beginRun, hs, State.start_checkCap hf]
  exact congrArg s.start.settle hstart

/-- Settles O31: the start of the operation, the turn by the match it finds, and the end by the size of the frame. -/
theorem lzssCompressorIsGreedy : Obligations.LzssCompressorIsGreedy := by
  refine ⟨fun s => tick_compressLzss, fun s hh hb hp => ?_⟩
  have hstep := step_lzssC hh hb hp
  have hfields := findMatch_le s s.regs.ip 4096 18
  generalize hm : findMatch s s.regs.ip 4096 18 = m at hfields ⊢
  refine ⟨fun hlt hlen hbit => ?turn, fun hge hbig => ?tooMany, fun hge hfits hroom => ?frame, fun hge hfull => ?noRoom⟩
  case turn =>
    obtain ⟨hoff, hmax⟩ := hfields
    rw [turn, if_pos hlt, lzssUnit_eq hm, State.settle_ok] at hstep
    rw [← encode_lzssToken hoff hmax, ← lzssToken_size m (s.inAt s.regs.ip), ← lzssFlag_lzssToken m (s.inAt s.regs.ip)]
    exact ⟨_, hstep, s.afterLzssTurn_keepsOut m _, s.afterLzssTurn_keepsOutside m _, flagsWith_length hlen _,
      flagBit_flagsWith hlen hbit _, rfl, rfl⟩
  case tooMany =>
    have hend : lzssCEnd s = .error .capacityExceeded := if_pos hbig
    rw [turn, if_neg (Nat.not_lt.2 hge), hend, State.settle_error] at hstep
    exact ⟨_, hstep, s.raise_fails _⟩
  case frame =>
    rw [← lzssFrame_length s.regs.nIn] at hroom
    rw [turn, if_neg (Nat.not_lt.2 hge), lzssCEnd_of_fits hfits, State.emitSeq_of_room hroom] at hstep
    have happ := s.putAll_appends (lzssFrame s.regs.nIn s.tabs.flags s.tabs.data)
    exact ⟨_, hstep, rfl, hb, s.keepsInputs_engine, ⟨rfl, rfl⟩, happ.outCount, happ.outBase, happ.new, happ.old⟩
  case noRoom =>
    rw [turn, if_neg (Nat.not_lt.2 hge), lzssCEnd_of_no_room hfull, State.settle_error] at hstep
    exact ⟨_, hstep, s.raise_fails _⟩

end Sys2Proof.Machine
end

section
/-! DECOMPRESS.LZSS (44_lzss.md R185): its header tests, the test after its loop, and the length of a success (O32). -/

namespace Sys2Proof.Machine

/-! ## The header (44_lzss.md R185) -/

/-- The flag count, as the tests at the start read it. -/
theorem rdU32_start {s : State} (h : 12 ≤ s.inLen.toNat) : s.start.rdU32 8 = valueLE ((s.inputBytes.drop 8).take 4) :=
  congrArg valueLE ((s.start_running .command).inSlice (a := 8) h)

theorem beginDecompress_lzss {s : State} (h : s.inLen.toNat ≠ 0) :
    beginDecompress .lzss s.start = lzssDStart s.start := if_neg h

/-- The decoder past its header tests, with the recorded length `n` and the flag count `fc`. -/
def State.lzssDBegin (s : State) (n fc : Nat) : State :=
  { s with regs := { s.regs with n := n, fc := fc, tok := 0, dp := 0, ip := 12 }, phase := .lzssD }

theorem State.Running.lzssDBegin {s t : State} {out : Bytes} (h : s.Running t out) (n fc : Nat) :
    s.Running (t.lzssDBegin n fc) out :=
  { h with inputs := h.inputs.trans t.keepsInputs_engine }

/-- The second test of R185 on a frame that is long enough to hold its header. -/
theorem lzssDStart_of_header {s : State} (h : 12 ≤ s.inLen.toNat) :
    lzssDStart s.start =
      if s.inLen.toNat < 12 + valueLE ((s.inputBytes.drop 8).take 4) then .error .corruptPayload
      else .ok (s.start.lzssDBegin (valueLE (s.inputBytes.take 8)) (valueLE ((s.inputBytes.drop 8).take 4))) := by
  rw [← rdU64_start (by omega), ← rdU32_start h]
  exact if_neg (Nat.not_lt.2 h)

/-! ## The end of the loop (44_lzss.md R185) -/

theorem nextToken_lzssD_end {t : State} (hp : t.phase = .lzssD) (h : t.regs.n ≤ t.regs.outCount) :
    t.nextToken = none := by
  simp only [State.nextToken, State.fetchBytes, hp, if_neg (Nat.not_lt.2 h), Option.map_none]

theorem advance_lzssD {t : State} (hp : t.phase = .lzssD) : advance t = lzssDEnd t := by
  rw [advance, hp]

theorem unitOfWork_lzssD_end {t : State} (hp : t.phase = .lzssD) (h : t.regs.outCount = t.regs.n) :
    unitOfWork t = t.settle t.endOp := by
  rw [unitOfWork, nextToken_lzssD_end hp h.ge]
  dsimp only
  rw [advance_lzssD hp, lzssDEnd, if_neg (not_not.2 h)]

theorem lzssDEnd_of_ne {s : State} (h : s.regs.outCount ≠ s.regs.n) : lzssDEnd s = .error .sizeMismatch := if_pos h

theorem lzssDEnd_of_eq {s : State} (h : s.regs.outCount = s.regs.n) (hplain : s.regs.ending = .plain) :
    lzssDEnd s = .ok s.finish := by
  rw [lzssDEnd, if_neg (not_not.2 h), State.endOp, hplain]

theorem step_lzssD_end {s : State} (hh : s.host = []) (hb : s.status = .busy) (hp : s.phase = .lzssD)
    (h : s.regs.n ≤ s.regs.outCount) : step s = .next (s.settle (lzssDEnd s)) := by
  rw [step_of_no_token hh hb (hp ▸ nofun) (nextToken_lzssD_end hp h), advance_lzssD hp]

/-! ## The loop keeps the recorded length -/

/-- `s` is inside the loop of R185, outside DECODE, with the recorded length `n`. -/
structure State.LzssDecodes (n : Nat) (s : State) : Prop where
  status : s.status = .busy
  phase : s.phase = .lzssD
  ending : s.regs.ending = .plain
  outBase : s.regs.outBase = 0
  recorded : s.regs.n = n

/-- A unit of work of the loop goes on in it, raises, or ends the operation with as many bytes as are recorded. -/
def State.LzssAfter (n : Nat) (s : State) : Prop :=
  s.LzssDecodes n ∨ s.status = .error ∨ s.status = .done ∧ s.outLen = BitVec.ofNat 64 n

theorem State.raise_lzssAfter (s : State) (k : ErrKind) (n : Nat) : (s.raise k).LzssAfter n := .inr (.inl rfl)

theorem decode_lzssLit_ok {bs : Bytes} {i : Instr} (h : decode .lzssLit bs = .ok i) : ∃ b, i = .lzssLit b := by
  cases bs with
  | nil => cases h
  | cons b rest => exact ⟨b, (Except.ok.inj h).symm⟩

theorem decode_lzssMatch_ok {bs : Bytes} {i : Instr} (h : decode .lzssMatch bs = .ok i) :
    ∃ o l, i = .lzssMatch o l := by
  match bs, h with
  | _ :: _ :: _, h => exact ⟨_, _, (Except.ok.inj h).symm⟩

/-- The token of a place in the loop is one of the two of LZSS. -/
theorem nextToken_lzssD_cases {s : State} {i : Instr} (hp : s.phase = .lzssD) (h : s.nextToken = some (.ok i)) :
    (∃ b, i = .lzssLit b) ∨ ∃ o l, i = .lzssMatch o l := by
  by_cases hn : s.regs.n ≤ s.regs.outCount
  · rw [nextToken_lzssD_end hp hn] at h
    cases h
  by_cases ht : 8 * s.regs.fc ≤ s.regs.tok
  · rw [State.nextToken, fetchBytes_lzss_outOfFlags hp (Nat.not_le.1 hn) ht] at h
    cases h
  rw [State.nextToken, fetchBytes_lzss hp (Nat.not_le.1 hn) (Nat.not_le.1 ht) rfl] at h
  split at h
  · exact .inr (decode_lzssMatch_ok (Option.some.inj h))
  · exact .inl (decode_lzssLit_ok (Option.some.inj h))

section decodes

variable {n : Nat} {s : State}

theorem State.LzssDecodes.answers_emitThen (h : s.LzssDecodes n) (bs : Bytes) {f : Regs → Regs}
    (he : ∀ r, (f r).ending = r.ending) (hb : ∀ r, (f r).outBase = r.outBase) (hn : ∀ r, (f r).n = r.n) :
    Answers (s.emitThen bs f) (State.LzssDecodes n) := by
  refine Answers.bind (P := (· = s.putAll bs)) (fun _ ht => (State.emitSeq_ok ht).2) fun _ ht => answers_ok.2 ?_
  subst ht
  exact ⟨h.status, h.phase, (he _).trans h.ending, (hb _).trans h.outBase, (hn _).trans h.recorded⟩

theorem State.LzssDecodes.answers_lzssLit (h : s.LzssDecodes n) (b : Byte) :
    Answers (lzssLit b s) (State.LzssDecodes n) := by
  rw [lzssLit_eq]
  exact h.answers_emitThen _ (fun _ => rfl) (fun _ => rfl) fun _ => rfl

theorem State.LzssDecodes.answers_lzssMatch (h : s.LzssDecodes n) (o : BitVec 12) (l : BitVec 4) :
    Answers (lzssMatch o l s) (State.LzssDecodes n) := by
  by_cases hoff : o.toNat < s.regs.outCount
  · rw [lzssMatch_of_offset hoff]
    exact h.answers_emitThen _ (fun _ => rfl) (fun _ => rfl) fun _ => rfl
  · rw [lzssMatch_of_bad_offset (Nat.not_lt.1 hoff)]
    exact answers_error

theorem State.LzssDecodes.answers_lzssDEnd (h : s.LzssDecodes n) : Answers (lzssDEnd s) (State.LzssAfter n) := by
  by_cases hn : s.regs.outCount = s.regs.n
  · rw [lzssDEnd_of_eq hn h.ending, answers_ok]
    refine .inr (.inr ⟨rfl, ?_⟩)
    rw [State.finish_outLen, h.outBase, Nat.zero_add, hn, h.recorded]
  · rw [lzssDEnd_of_ne hn]
    exact answers_error

theorem State.settle_lzssAfter {r : Run} (h : Answers r (State.LzssAfter n)) : (s.settle r).LzssAfter n := by
  obtain ⟨t, ht, e⟩ | ⟨k, e⟩ := s.settle_cases r
  · exact e ▸ h t ht
  · exact e ▸ s.raise_lzssAfter k n

theorem State.LzssDecodes.unit_lzssAfter (h : s.LzssDecodes n) : (unitOfWork s).LzssAfter n := by
  obtain ⟨i, hi, e⟩ | ⟨x, -, e⟩ | ⟨-, e⟩ := unitOfWork_cases s
  · refine e ▸ State.settle_lzssAfter (Answers.imp (P := State.LzssDecodes n) ?_ fun _ => .inl)
    obtain ⟨b, rfl⟩ | ⟨o, l, rfl⟩ := nextToken_lzssD_cases h.phase hi
    · exact h.answers_lzssLit b
    · exact h.answers_lzssMatch o l
  · exact e ▸ s.raise_lzssAfter _ n
  · rw [e, advance_lzssD h.phase]
    exact State.settle_lzssAfter h.answers_lzssDEnd

theorem State.LzssDecodes.run_lzssAfter (h : s.LzssDecodes n) (fuel : Nat) : (runUnits fuel s).LzssAfter n := by
  refine runUnits_keeps (fun t hb ht => ?_) fuel (.inl h)
  obtain hd | he | ⟨hd, -⟩ := ht
  · exact hd.unit_lzssAfter
  · exact nomatch he.symm.trans hb
  · exact nomatch hd.symm.trans hb

end decodes

theorem State.Running.lzssDecodes {s t : State} {out : Bytes} (h : s.Running t out) (n fc : Nat) :
    (t.lzssDBegin n fc).LzssDecodes n where
  status := h.status
  phase := rfl
  ending := h.ending
  outBase := h.outBase
  recorded := rfl

/-! ## The whole operation -/

theorem valueLE_lt (bs : Bytes) : valueLE bs < 256 ^ bs.length := by
  induction bs with
  | nil => exact Nat.one_pos
  | cons b bs ih =>
    have hb := b.isLt
    rw [valueLE, List.length_cons, Nat.pow_succ]
    omega

section operation

variable {s : State}

theorem operate_decompressLzss (hf : s.inputFits) (h0 : s.inLen.toNat ≠ 0) :
    operate (beginDecompress .lzss) s = runUnits s.fuel (s.start.settle (lzssDStart s.start)) := by
  rw [operate_of_inputFits hf, beginDecompress_lzss h0]

theorem fails_decompressLzss (hf : s.inputFits) (h0 : s.inLen.toNat ≠ 0) {k : ErrKind}
    (h : lzssDStart s.start = .error k) : Fails .decompressLzss s k :=
  fails_of_begin (i := .decompressLzss) rfl rfl nofun nofun hf ((beginDecompress_lzss h0).trans h)

/-- The tests at the start pass, and the loop begins with the recorded length; or they raise. -/
theorem lzssDStart_cases (s : State) : (∃ k, lzssDStart s.start = .error k) ∨
    ∃ fc, lzssDStart s.start = .ok (s.start.lzssDBegin (valueLE (s.inputBytes.take 8)) fc) := by
  by_cases h : 12 ≤ s.inLen.toNat
  · rw [lzssDStart_of_header h]
    split
    · exact .inl ⟨_, rfl⟩
    · exact .inr ⟨_, rfl⟩
  · exact .inl ⟨_, if_pos (Nat.not_le.1 h)⟩

/-- A success gives as many bytes as the frame records. -/
theorem decompressLzss_outLen {t : State} (hf : s.inputFits) (h0 : s.inLen.toNat ≠ 0)
    (ht : exec .decompressLzss s = .next t) (hd : t.status = .done) :
    t.outLen.toNat = valueLE (s.inputBytes.take 8) := by
  have hfits : valueLE (s.inputBytes.take 8) < 256 ^ 8 :=
    (valueLE_lt _).trans_le (Nat.pow_le_pow_right (by decide) (List.length_take_le 8 _))
  have hend : t.LzssAfter (valueLE (s.inputBytes.take 8)) := by
    rw [← Host.Outcome.next.inj ((exec_of_beginOf rfl s).symm.trans ht), operate_decompressLzss hf h0]
    obtain ⟨k, hk⟩ | ⟨fc, hfc⟩ := lzssDStart_cases s
    · rw [hk, State.settle_error, runUnits_ended (by simp)]
      exact s.start.raise_lzssAfter k _
    · rw [hfc, State.settle_ok]
      exact ((s.start_running .command).lzssDecodes _ fc).run_lzssAfter _
  obtain hrun | herr | ⟨-, hlen⟩ := hend
  · exact nomatch hrun.status.symm.trans hd
  · exact nomatch herr.symm.trans hd
  · rw [hlen, BitVec.toNat_ofNat, Nat.mod_eq_of_lt (by omega)]

/-- A frame that records no byte. -/
theorem gives_decompressLzss_nil (hf : s.inputFits) (h : 12 ≤ s.inLen.toNat)
    (hfc : 12 + valueLE ((s.inputBytes.drop 8).take 4) ≤ s.inLen.toNat) (hn : valueLE (s.inputBytes.take 8) = 0) :
    Gives .decompressLzss s [] := by
  have hend : s.EndsWithin [] (operate (beginDecompress .lzss) s) := by
    obtain ⟨fuel, hfuel⟩ : ∃ fuel, s.fuel = fuel + 1 := ⟨16 * s.inLen.toNat + 15, rfl⟩
    rw [operate_decompressLzss hf (by omega), lzssDStart_of_header h, if_neg (Nat.not_lt.2 hfc), hn, State.settle_ok,
      hfuel]
    have hstart := (s.start_running .command).lzssDBegin 0 (valueLE ((s.inputBytes.drop 8).take 4))
    exact hstart.runUnits_endOp (by simp) (unitOfWork_lzssD_end rfl rfl) fuel
  exact (givesWithinCap_of_operate (i := .decompressLzss) rfl rfl nofun nofun hend).1 fun _ _ => Nat.zero_le _

end operation

/-- Settles O32: the tests at the start in their order, the length of a success, and the test after the loop. -/
theorem lzssDecompressTestsItsFrame : Obligations.LzssDecompressTestsItsFrame := by
  refine ⟨?header, fun s hh hb hp hn => ⟨fun hne => ?mismatch, fun heq hplain => ?ends⟩⟩
  case header =>
    rintro s n fc hf h1 rfl rfl
    have h0 : s.inLen.toNat ≠ 0 := Nat.ne_of_gt h1
    refine ⟨fun hshort => ?_, fun h hcut => ?_, fun h => gives_decompressLzss_nil hf h,
      fun t => decompressLzss_outLen hf h0⟩
    · exact fails_decompressLzss hf h0 (if_pos hshort)
    · exact fails_decompressLzss hf h0 ((lzssDStart_of_header h).trans (if_pos hcut))
  case mismatch =>
    have hstep := step_lzssD_end hh hb hp hn
    rw [lzssDEnd_of_ne hne, State.settle_error] at hstep
    exact ⟨_, hstep, s.raise_fails _⟩
  case ends =>
    have hstep := step_lzssD_end hh hb hp hn
    rw [lzssDEnd_of_eq heq hplain, State.settle_ok] at hstep
    exact ⟨_, hstep, rfl, rfl, rfl, fun _ => rfl, s.finish_keepsInputs, rfl, rfl⟩

end Sys2Proof.Machine
end

section
/-! The round trip of LZSS (44_lzss.md R188): the tokens of the greedy parse spell the input, the compressor's frame
holds their flags and their data, and the decoder gives what the tokens of its frame spell (O37). -/

namespace Sys2Proof.Machine

/-! ## The flags and the data of tokens (30_encoding.md R90, R91) -/

/-- `FLAGS` after the turns of the tokens `ts`. -/
def lzssFlags (ts : List Instr) : Bytes := ts.zipIdx.foldl (fun flags i => flagsWith flags i.2 (lzssFlag i.1)) []

/-- `DATA` after the turns of the tokens `ts`. -/
def lzssData (ts : List Instr) : Bytes := ts.flatMap encode

theorem lzssFlags_concat (ts : List Instr) (i : Instr) :
    lzssFlags (ts ++ [i]) = flagsWith (lzssFlags ts) ts.length (lzssFlag i) := by
  rw [lzssFlags, List.zipIdx_append, List.foldl_append, Nat.zero_add]
  rfl

theorem lzssData_cons (i : Instr) (ts : List Instr) : lzssData (i :: ts) = encode i ++ lzssData ts := rfl

theorem lzssData_concat (ts : List Instr) (i : Instr) : lzssData (ts ++ [i]) = lzssData ts ++ encode i := by
  rw [lzssData, List.flatMap_append, List.flatMap_singleton, lzssData]

/-- The flags are as many bytes as the tokens need, and hold the flag of every token; the others are clear. -/
theorem lzssFlags_holds (ts : List Instr) : (lzssFlags ts).length = (ts.length + 7) / 8 ∧
    ∀ j, flagBit (lzssFlags ts) j = (ts[j]?.map lzssFlag).getD false := by
  induction ts using List.reverseRecOn with
  | nil => exact ⟨rfl, fun j => by simp [lzssFlags, flagBit]⟩
  | append_singleton ts i ih =>
    obtain ⟨hlen, hbits⟩ := ih
    have hclear : flagBit (lzssFlags ts) ts.length = false := by
      rw [hbits, List.getElem?_eq_none (Nat.le_refl _)]
      rfl
    rw [lzssFlags_concat, List.length_append, List.length_singleton]
    refine ⟨flagsWith_length hlen _, fun j => ?_⟩
    rw [flagBit_flagsWith hlen hclear, hbits]
    obtain hlt | rfl | hgt := Nat.lt_trichotomy j ts.length
    · rw [if_neg hlt.ne, List.getElem?_append_left hlt]
    · rw [if_pos rfl, List.getElem?_concat_length]
      rfl
    · rw [if_neg hgt.ne', List.getElem?_eq_none hgt.le, List.getElem?_eq_none (by simpa using hgt)]

theorem flagBit_lzssFlags {ts : List Instr} {k : Nat} (h : k < ts.length) :
    flagBit (lzssFlags ts) k = lzssFlag ts[k] := by
  rw [(lzssFlags_holds ts).2, List.getElem?_eq_getElem h]
  rfl

/-! ## The frame (44_lzss.md R181) -/

section frame

variable (n : Nat) (flags data : Bytes)

theorem u64le_length : (u64le n).length = 8 := bytesLE_length 8 n

theorem u32le_length : (u32le n).length = 4 := bytesLE_length 4 n

theorem lzssFrame_size : (lzssFrame n flags data).take 8 = u64le n := by
  rw [lzssFrame, List.append_assoc, List.append_assoc]
  exact List.take_left' (u64le_length n)

theorem lzssFrame_count : ((lzssFrame n flags data).drop 8).take 4 = u32le flags.length := by
  rw [lzssFrame, List.append_assoc, List.append_assoc, List.drop_left' (u64le_length n)]
  exact List.take_left' (u32le_length _)

theorem lzssFrame_body : (lzssFrame n flags data).drop 12 = flags ++ data := by
  rw [lzssFrame, List.append_assoc]
  exact List.drop_left' (by rw [List.length_append, u64le_length, u32le_length])

end frame

/-! ## What tokens spell -/

/-- The tokens `ts` spell `x` from the place `p` to its end, where `x` up to `p` is the history of the first of them. -/
inductive LzssSpells (x : Bytes) : Nat → List Instr → Prop
  | done : LzssSpells x x.length []
  | lit {p : Nat} {b : Byte} {ts : List Instr} (hb : x[p]? = some b) (hts : LzssSpells x (p + 1) ts) :
      LzssSpells x p (.lzssLit b :: ts)
  | copy {p : Nat} {o : BitVec 12} {l : BitVec 4} {ts : List Instr} (hoff : o.toNat < p)
      (hlen : p + (l.toNat + 3) ≤ x.length)
      (hx : ∀ k, k < l.toNat + 3 → x[p + k]? = x[p - (o.toNat + 1) + k]?)
      (hts : LzssSpells x (p + (l.toNat + 3)) ts) : LzssSpells x p (.lzssMatch o l :: ts)

theorem encode_lzssLit_length (b : Byte) : (encode (.lzssLit b)).length = 1 := rfl

theorem encode_lzssMatch_length (o : BitVec 12) (l : BitVec 4) : (encode (.lzssMatch o l)).length = 2 := rfl

theorem LzssSpells.length_data {x : Bytes} {p : Nat} {ts : List Instr} (h : LzssSpells x p ts) :
    ts.length ≤ (lzssData ts).length ∧ (lzssData ts).length ≤ 2 * ts.length := by
  induction h with
  | done => exact ⟨Nat.le_refl 0, Nat.le_refl 0⟩
  | lit =>
    rw [lzssData_cons, List.length_append, List.length_cons, encode_lzssLit_length]
    omega
  | copy =>
    rw [lzssData_cons, List.length_append, List.length_cons, encode_lzssMatch_length]
    omega

/-! ## The decoder (44_lzss.md R185) -/

/-- `t` is the decoder over the input of `s`, with the recorded length `n`, before the tokens `ts`: their flags come
next among the flags, and their bytes are the rest of the data. -/
structure State.LzssBefore (s t : State) (n : Nat) (ts : List Instr) : Prop where
  phase : t.phase = .lzssD
  recorded : t.regs.n = n
  flags : ∀ k (h : k < ts.length), t.regs.tok + k < 8 * t.regs.fc ∧
    (s.inByteAt (12 + (t.regs.tok + k) / 8)).getLsbD ((t.regs.tok + k) % 8) = lzssFlag ts[k]
  data : s.inputBytes.drop (12 + t.regs.fc + t.regs.dp) = lzssData ts

/-- Past its first token. -/
theorem State.LzssBefore.next {s t u : State} {n : Nat} {i : Instr} {ts : List Instr}
    (h : s.LzssBefore t n (i :: ts)) (hp : u.phase = t.phase) (hn : u.regs.n = t.regs.n)
    (hfc : u.regs.fc = t.regs.fc) (htok : u.regs.tok = t.regs.tok + 1)
    (hdp : u.regs.dp = t.regs.dp + (encode i).length) : s.LzssBefore u n ts where
  phase := hp.trans h.phase
  recorded := hn.trans h.recorded
  flags k hk := by
    rw [htok, hfc, Nat.add_assoc, Nat.add_comm 1 k]
    exact h.flags (k + 1) (Nat.succ_lt_succ hk)
  data := by
    rw [hfc, hdp, ← Nat.add_assoc, ← List.drop_drop, h.data, lzssData_cons, List.drop_left]

section decoder

variable {s t : State} {out : Bytes}

/-- The bytes at a place of the input are in the window there, with whatever follows them. -/
theorem State.Running.window_eq (h : s.Running t out) {a len : Nat} {bs rest : Bytes}
    (hin : s.inputBytes.drop a = bs ++ rest) (hpos : 0 < bs.length) (hle : bs.length ≤ len) :
    ∃ more, t.window a t.regs.nIn len = bs ++ more := by
  have hlen := congrArg List.length hin
  rw [List.length_drop, s.inputBytes_length, ← h.nIn, List.length_append] at hlen
  refine ⟨rest.take (min len (t.regs.nIn - a) - bs.length), ?_⟩
  rw [State.window, h.inSlice (by rw [← h.nIn]; omega), hin, List.take_append, List.take_of_length_le (by omega)]

/-- The decoder reads the next token back by its flag and its bytes. -/
theorem State.Running.nextToken_lzss (h : s.Running t out) {n : Nat} {i : Instr} {ts : List Instr}
    (hb : s.LzssBefore t n (i :: ts)) (hlt : out.length < n)
    (hc : i.ctx = if lzssFlag i then .lzssMatch else .lzssLit) (hpos : 0 < (encode i).length)
    (hle : (encode i).length ≤ 2) : t.nextToken = some (.ok i) := by
  obtain ⟨htok, hflag⟩ := hb.flags 0 (Nat.succ_pos _)
  rw [Nat.add_zero] at htok hflag
  rw [← h.inAt] at hflag
  obtain ⟨more, hwindow⟩ := h.window_eq hb.data hpos hle
  rw [State.nextToken, fetchBytes_lzss hb.phase (by rwa [h.outCount, hb.recorded]) htok hflag, hwindow]
  have hdecode := decode_encode i more
  rw [hc] at hdecode
  exact congrArg some hdecode

/-- The loop of the decoder over the tokens that are left. -/
theorem runUnits_lzssD {x : Bytes} {p : Nat} {ts : List Instr} (hx : LzssSpells x p ts) {t : State} {fuel : Nat}
    (h : s.Running t (x.take p)) (hb : s.LzssBefore t x.length ts) (hlen : x.length < 2 ^ 64) :
    s.EndsWithin x (runUnits (ts.length + 1 + fuel) t) := by
  induction hx generalizing t with
  | done =>
    rw [List.take_length] at h
    rw [List.length_nil, Nat.zero_add, Nat.add_comm]
    exact h.runUnits_endOp hlen (unitOfWork_lzssD_end hb.phase (h.outCount.trans hb.recorded.symm)) fuel
  | @lit p b ts hbyte hts ih =>
    obtain ⟨hlt, hbyte⟩ := List.getElem?_eq_some_iff.1 hbyte
    have htoken := h.nextToken_lzss hb (by rwa [List.length_take_of_le hlt.le]) rfl Nat.one_pos (Nat.le_succ 1)
    have hpiece : (x.drop p).take 1 = [b] := by rw [List.drop_eq_getElem_cons hlt, hbyte]; rfl
    have hu : unitOfWork t = t.settle (lzssLit b t) := unitOfWork_of_token htoken
    rw [lzssLit_eq, ← hpiece] at hu
    rw [List.length_cons, Nat.add_right_comm _ 1 1, Nat.add_right_comm _ 1 fuel]
    refine h.runUnits_piece hu fun hnext => ih ?_ (hb.next rfl rfl rfl rfl rfl)
    exact { hnext with inputs := hnext.inputs.trans (State.keepsInputs_engine _) }
  | @copy p o l ts hoff hle hagree hts ih =>
    have hout : (x.take p).length = p := List.length_take_of_le (by omega)
    have htoken := h.nextToken_lzss hb (by omega) rfl Nat.two_pos (Nat.le_refl 2)
    have hcount : t.regs.outCount = p := h.outCount.trans hout
    have hbytes : t.historyBytes (o.toNat + 1) (l.toNat + 3) = (x.drop p).take (l.toNat + 3) := by
      rw [← hcount] at hoff hagree ⊢
      refine State.historyBytes_eq_take_drop (fun k hk => ?_) (Nat.succ_pos _) hoff hagree
      rw [← h.getElem?_eq_outAt (h.outCount ▸ hk), List.getElem?_take_of_lt (hcount ▸ hk)]
    have hu : unitOfWork t = t.settle (lzssMatch o l t) := unitOfWork_of_token htoken
    rw [lzssMatch_of_offset (hcount.symm ▸ hoff), hbytes] at hu
    rw [List.length_cons, Nat.add_right_comm _ 1 1, Nat.add_right_comm _ 1 fuel]
    refine h.runUnits_piece hu fun hnext => ih ?_ (hb.next rfl rfl rfl rfl rfl)
    exact { hnext with inputs := hnext.inputs.trans (State.keepsInputs_engine _) }

end decoder

theorem State.inputBytes_getElem? (s : State) {i : Nat} (h : i < s.inLen.toNat) :
    s.inputBytes[i]? = some (s.inByteAt i) := by
  simp [State.inputBytes, h]

/-- The decoder past the header of the frame of the tokens `ts` stands before them. -/
theorem State.lzssBefore_start {s t : State} {n : Nat} {ts : List Instr}
    (hin : s.inputBytes = lzssFrame n (lzssFlags ts) (lzssData ts)) :
    s.LzssBefore (t.lzssDBegin n (lzssFlags ts).length) n ts where
  phase := rfl
  recorded := rfl
  flags k hk := by
    have hcount := (lzssFlags_holds ts).1
    have hplace : k / 8 < (lzssFlags ts).length := by omega
    have hlen := congrArg List.length hin
    rw [s.inputBytes_length, lzssFrame_length] at hlen
    have hbyte : (lzssFlags ts).getD (k / 8) 0 = s.inByteAt (12 + k / 8) := by
      have hget := s.inputBytes_getElem? (i := 12 + k / 8) (by omega)
      rw [← List.getElem?_drop, hin, lzssFrame_body, List.getElem?_append_left hplace] at hget
      rw [List.getD_eq_getElem?_getD, hget, Option.getD_some]
    have hbit := flagBit_lzssFlags hk
    rw [flagBit, hbyte] at hbit
    show 0 + k < 8 * (lzssFlags ts).length ∧ (s.inByteAt (12 + (0 + k) / 8)).getLsbD ((0 + k) % 8) = _
    rw [Nat.zero_add]
    exact ⟨by omega, hbit⟩
  data := by
    show s.inputBytes.drop (12 + (lzssFlags ts).length + 0) = _
    rw [Nat.add_zero, ← List.drop_drop, hin, lzssFrame_body, List.drop_left]

/-- DECOMPRESS.LZSS over the frame of tokens that spell `x`. -/
theorem givesWithinCap_decompressLzss {s : State} (hf : s.inputFits) {x : Bytes} {ts : List Instr}
    (hx : LzssSpells x 0 ts) (hin : s.inputBytes = lzssFrame x.length (lzssFlags ts) (lzssData ts))
    (hlen : x.length < 2 ^ 64) (hfc : (lzssFlags ts).length < 2 ^ 32) : GivesWithinCap .decompressLzss s x := by
  have hsize := congrArg List.length hin
  rw [s.inputBytes_length, lzssFrame_length] at hsize
  have hdata := hx.length_data.1
  have hn : valueLE (s.inputBytes.take 8) = x.length := by rw [hin, lzssFrame_size, valueLE_u64le hlen]
  have hcount : valueLE ((s.inputBytes.drop 8).take 4) = (lzssFlags ts).length := by
    rw [hin, lzssFrame_count, valueLE_u32le hfc]
  obtain ⟨fuel, hfuel⟩ : ∃ fuel, s.fuel = ts.length + 1 + fuel := Nat.exists_eq_add_of_le (by rw [State.fuel]; omega)
  refine givesWithinCap_of_operate (i := .decompressLzss) rfl rfl nofun nofun ?_
  rw [operate_decompressLzss hf (by omega), lzssDStart_of_header (by omega), if_neg (by omega), hn, hcount,
    State.settle_ok, hfuel]
  exact runUnits_lzssD hx ((s.start_running .command).lzssDBegin _ _) (State.lzssBefore_start hin) hlen

/-! ## The greedy parse (44_lzss.md R181) -/

/-- The token of the turn at `i`, and how many bytes of the input it stands for. -/
def State.lzssTokenAt (s : State) (i : Nat) : Instr × Nat := lzssToken (findMatch s i 4096 18) (s.inAt i)

theorem State.lzssTokenAt_pos (s : State) (i : Nat) : 0 < (s.lzssTokenAt i).2 := by
  rw [State.lzssTokenAt, lzssToken_size]
  split
  · exact Nat.zero_lt_of_lt ‹3 ≤ _›
  · exact Nat.one_pos

theorem lzssTokenAt_congr {r t : State} (h : r.SameInput t) (i : Nat) : t.lzssTokenAt i = r.lzssTokenAt i := by
  rw [State.lzssTokenAt, State.lzssTokenAt, findMatch_congr h, h.2]

/-- The tokens of the turns from `i` on. -/
def State.lzssTokens (s : State) (i : Nat) : List Instr :=
  if i < s.regs.nIn then (s.lzssTokenAt i).1 :: s.lzssTokens (i + (s.lzssTokenAt i).2) else []
termination_by s.regs.nIn - i
decreasing_by have := s.lzssTokenAt_pos i; omega

theorem State.lzssTokens_of_lt {s : State} {i : Nat} (h : i < s.regs.nIn) :
    s.lzssTokens i = (s.lzssTokenAt i).1 :: s.lzssTokens (i + (s.lzssTokenAt i).2) := by
  rw [State.lzssTokens, if_pos h]

theorem State.lzssTokens_of_le {s : State} {i : Nat} (h : ¬ i < s.regs.nIn) : s.lzssTokens i = [] := by
  rw [State.lzssTokens, if_neg h]

theorem State.lzssTokens_length_le (s : State) (i : Nat) : (s.lzssTokens i).length ≤ s.regs.nIn - i := by
  induction i using State.lzssTokens.induct (s := s) with
  | case1 i hlt ih =>
    have hpos := s.lzssTokenAt_pos i
    rw [State.lzssTokens_of_lt hlt, List.length_cons]
    omega
  | case2 i hle => rw [State.lzssTokens_of_le hle]; exact Nat.zero_le _

/-- A match inside the input is spelled by its token, where its fields hold it. -/
theorem LzssSpells.of_agree {s : State} {i : Nat} {m : Match} (h3 : 3 ≤ m.bestLen) (hpos : 0 < m.bestOff)
    (hoff : m.bestOff ≤ i) (hwindow : m.bestOff ≤ 4096) (hmax : m.bestLen ≤ 18)
    (hagree : s.Agree i (i - m.bestOff) m.bestLen) {ts : List Instr}
    (hts : LzssSpells s.input (i + m.bestLen) ts) :
    LzssSpells s.input i (.lzssMatch (BitVec.ofNat 12 (m.bestOff - 1)) (BitVec.ofNat 4 (m.bestLen - 3)) :: ts) := by
  have hoffField : (BitVec.ofNat 12 (m.bestOff - 1)).toNat = m.bestOff - 1 := Nat.mod_eq_of_lt (by omega)
  have hlenField : (BitVec.ofNat 4 (m.bestLen - 3)).toNat + 3 = m.bestLen :=
    (congrArg (· + 3) (Nat.mod_eq_of_lt (by omega))).trans (Nat.sub_add_cancel h3)
  have hle := hagree.le (Nat.zero_lt_of_lt h3)
  refine .copy (by omega) ?_ (fun k hk => ?_) (hlenField.symm ▸ hts)
  · rwa [hlenField, State.input, State.inSlice_length]
  · obtain ⟨hin, hbyte⟩ := hagree k (hlenField ▸ hk)
    rw [hoffField, Nat.sub_add_cancel hpos, s.input_getElem? hin, s.input_getElem? (by omega), hbyte]

/-- The token of a turn stays inside the input and spells what it stands for. -/
theorem lzssToken_spells {s : State} {i : Nat} {m : Match} (h : i < s.regs.nIn)
    (hmatch : 3 ≤ m.bestLen → 0 < m.bestOff ∧ m.bestOff ≤ i ∧ m.bestOff ≤ 4096 ∧ m.bestLen ≤ 18 ∧
      s.Agree i (i - m.bestOff) m.bestLen) :
    i + (lzssToken m (s.inAt i)).2 ≤ s.regs.nIn ∧ ∀ ts, LzssSpells s.input (i + (lzssToken m (s.inAt i)).2) ts →
      LzssSpells s.input i ((lzssToken m (s.inAt i)).1 :: ts) := by
  by_cases h3 : 3 ≤ m.bestLen
  · obtain ⟨hpos, hoff, hwindow, hmax, hagree⟩ := hmatch h3
    rw [lzssToken_match h3]
    exact ⟨hagree.le (Nat.zero_lt_of_lt h3), fun ts hts => .of_agree h3 hpos hoff hwindow hmax hagree hts⟩
  · rw [lzssToken_lit h3]
    exact ⟨h, fun ts hts => .lit (s.input_getElem? h) hts⟩

/-- The greedy parse spells the input. -/
theorem State.lzssTokens_spells (s : State) (i : Nat) (h : i ≤ s.regs.nIn) :
    LzssSpells s.input i (s.lzssTokens i) := by
  induction i using State.lzssTokens.induct (s := s) with
  | case1 i hlt ih =>
    obtain ⟨hle, hspells⟩ := lzssToken_spells (m := findMatch s i 4096 18) hlt fun h3 =>
      findMatch_agrees (Nat.zero_lt_of_lt h3)
    rw [State.lzssTokens_of_lt hlt]
    exact hspells _ (ih hle)
  | case2 i hge =>
    obtain rfl : i = s.input.length := by rw [State.input, State.inSlice_length]; omega
    rw [State.lzssTokens_of_le hge]
    exact .done

/-! ## The compressor (44_lzss.md R181) -/

/-- `t` is the compressor after the turns of the tokens `ts`. -/
structure State.LzssPacked (t : State) (ts : List Instr) : Prop where
  phase : t.phase = .lzssC
  flags : t.tabs.flags = lzssFlags ts
  data : t.tabs.data = lzssData ts
  tok : t.regs.tok = ts.length

theorem State.LzssPacked.afterLzssTurn {t : State} {ts : List Instr} (h : t.LzssPacked ts) (m : Match) (i : Instr × Nat) :
    (t.afterLzssTurn m i).LzssPacked (ts ++ [i.1]) where
  phase := h.phase
  flags := by rw [lzssFlags_concat, ← h.flags, ← h.tok]; rfl
  data := by rw [lzssData_concat, ← h.data]; rfl
  tok := by rw [List.length_append, List.length_singleton, ← h.tok]; rfl

theorem unitOfWork_lzssC {t : State} (hp : t.phase = .lzssC) :
    unitOfWork t = t.settle (turn t lzssUnit lzssCEnd) := by
  rw [unitOfWork, nextToken_lzssC hp]
  dsimp only
  rw [advance_lzssC hp]

/-- A unit of work inside the input, which is the input of `r`. -/
theorem unitOfWork_lzssC_turn {r t : State} (hr : r.SameInput t) (hp : t.phase = .lzssC)
    (h : t.regs.ip < t.regs.nIn) : ∃ m, unitOfWork t = t.afterLzssTurn m (r.lzssTokenAt t.regs.ip) :=
  ⟨_, by rw [unitOfWork_lzssC hp, turn, if_pos h, lzssUnit_eq rfl, ← lzssTokenAt_congr hr, State.lzssTokenAt,
    State.settle_ok]⟩

theorem State.Running.afterLzssTurn {s t : State} {out : Bytes} (h : s.Running t out) (m : Match)
    (i : Instr × Nat) : s.Running (t.afterLzssTurn m i) out :=
  { h with inputs := h.inputs.trans t.keepsInputs_engine }

/-- The end of the loop: the frame is emitted, and then the operation ends. -/
theorem State.Running.runUnits_lzssCEnd {s t : State} {ts : List Instr} {fuel : Nat} (h : s.Running t [])
    (hpk : t.LzssPacked ts) (hend : ¬ t.regs.ip < t.regs.nIn) (hlen : ts.length < 2 ^ 34)
    (hdata : (lzssData ts).length ≤ 2 * ts.length) :
    s.EndsWithin (lzssFrame s.inLen.toNat (lzssFlags ts) (lzssData ts)) (runUnits (fuel + 2) t) := by
  have hcount := (lzssFlags_holds ts).1
  have hu := unitOfWork_lzssC hpk.phase
  rw [turn, if_neg hend, lzssCEnd_of_fits (by rw [hpk.flags]; omega), hpk.flags, hpk.data, h.nIn] at hu
  have hsize := lzssFrame_length s.inLen.toNat (lzssFlags ts) (lzssData ts)
  generalize lzssFrame s.inLen.toNat (lzssFlags ts) (lzssData ts) = y at *
  have hrun := h.runUnits_emitSeq (ys := []) (fuel := fuel + 1) hu fun hnext => ?_
  · rwa [List.append_nil, List.nil_append] at hrun
  · have hfin : s.Running ((t.putAll y).lzssEmitted (lzssFlags ts).length) y :=
      { hnext with inputs := hnext.inputs.trans (State.keepsInputs_engine _) }
    rw [List.nil_append, List.append_nil]
    exact hfin.runUnits_endOp (by omega) (unitOfWork_finished rfl) fuel

/-- The loop of the compressor over what is left of the input, which is the input of `r`. -/
theorem runUnits_lzssC {r s : State} (hr : r.SameInput s.start) (i : Nat) {t : State} {ts : List Instr} {fuel : Nat}
    (h : s.Running t []) (hpk : t.LzssPacked ts) (hi : t.regs.ip = i)
    (hlen : (ts ++ r.lzssTokens i).length < 2 ^ 34)
    (hdata : (lzssData (ts ++ r.lzssTokens i)).length ≤ 2 * (ts ++ r.lzssTokens i).length) :
    s.EndsWithin (lzssFrame s.inLen.toNat (lzssFlags (ts ++ r.lzssTokens i)) (lzssData (ts ++ r.lzssTokens i)))
      (runUnits ((r.lzssTokens i).length + 2 + fuel) t) := by
  induction i using State.lzssTokens.induct (s := r) generalizing t ts with
  | case1 i hlt ih =>
    have hsame := hr.trans h.sameInput
    obtain ⟨m, hu⟩ := unitOfWork_lzssC_turn hsame hpk.phase (by rwa [hi, hsame.1])
    rw [hi] at hu
    rw [State.lzssTokens_of_lt hlt, List.append_cons] at hlen hdata ⊢
    rw [List.length_cons, Nat.add_right_comm _ 1 2, Nat.add_right_comm _ 1 fuel, runUnits_busy h.status, hu]
    generalize r.lzssTokenAt i = token at *
    exact ih (h.afterLzssTurn m _) (hpk.afterLzssTurn m _) (congrArg (· + _) hi) hlen hdata
  | case2 i hge =>
    rw [State.lzssTokens_of_le hge, List.append_nil] at *
    rw [List.length_nil, Nat.zero_add, Nat.add_comm]
    exact h.runUnits_lzssCEnd hpk (by rwa [hi, (hr.trans h.sameInput).1]) hlen hdata

/-- The result of COMPRESS.LZSS where the tokens of its input of `n` bytes are `ts` (40_commands_contract.md R127 for
the empty input). -/
def lzssOutput (n : Nat) (ts : List Instr) : Bytes :=
  if n = 0 then [] else lzssFrame n (lzssFlags ts) (lzssData ts)

/-- COMPRESS.LZSS over the input of `r`. -/
theorem compressLzss_endsWithin {r s : State} (hr : r.SameInput s.start) (hf : s.inputFits)
    (hlt : s.inLen.toNat < 2 ^ 34) :
    s.EndsWithin (lzssOutput s.inLen.toNat (r.lzssTokens 0)) (operate (beginCompress .lzss) s) := by
  have hn : s.inLen.toNat = r.regs.nIn := hr.1
  have htokens := r.lzssTokens_length_le 0
  have hdata := (r.lzssTokens_spells 0 (Nat.zero_le _)).length_data.2
  by_cases h0 : s.inLen.toNat = 0
  · rw [lzssOutput, if_pos h0]
    exact operate_empty hf h0 (if_pos h0)
  · have hbegin : beginCompress .lzss s.start = .ok (s.start.goTo .lzssC) := if_neg h0
    obtain ⟨fuel, hfuel⟩ : ∃ fuel, s.fuel = (r.lzssTokens 0).length + 2 + fuel :=
      Nat.exists_eq_add_of_le (by rw [State.fuel]; omega)
    have hstart : (s.start.goTo .lzssC).LzssPacked [] := ⟨rfl, rfl, rfl, rfl⟩
    rw [lzssOutput, if_neg h0, operate_of_inputFits hf, hbegin, State.settle_ok, hfuel]
    have hrun := runUnits_lzssC (fuel := fuel) hr 0 (s.start_running .lzssC) hstart rfl
    rw [List.nil_append] at hrun
    exact hrun (by omega) hdata

/-- DECOMPRESS.LZSS over the result of COMPRESS.LZSS. -/
theorem givesWithinCap_decompressLzss_lzssOutput {s : State} (hf : s.inputFits) {x : Bytes} {ts : List Instr}
    (hx : LzssSpells x 0 ts) (hin : s.inputBytes = lzssOutput x.length ts) (hlen : x.length < 2 ^ 64)
    (hfc : (lzssFlags ts).length < 2 ^ 32) : GivesWithinCap .decompressLzss s x := by
  by_cases h0 : x.length = 0
  · obtain rfl : x = [] := List.length_eq_zero_iff.1 h0
    have hempty : s.inLen.toNat = 0 := by rw [← s.inputBytes_length, hin]; rfl
    exact givesWithinCap_of_operate (i := .decompressLzss) rfl rfl nofun nofun (operate_empty hf hempty (if_pos hempty))
  · rw [lzssOutput, if_neg h0] at hin
    exact givesWithinCap_decompressLzss hf hx hin hlen hfc

/-- Settles O37: the tokens of the greedy parse spell the input. -/
theorem lzssRoundTrip : Obligations.LzssRoundTrip := by
  intro s hf hlt
  have hspells := s.start.lzssTokens_spells 0 (Nat.zero_le _)
  rw [s.start_input] at hspells
  refine ⟨lzssOutput s.inLen.toNat (s.start.lzssTokens 0), fun cap hcap => ?_, fun u hu huf hin => ?_⟩
  · have hsame : s.start.SameInput (s.withOutCap cap).start := ⟨rfl, fun _ => rfl⟩
    have hend := compressLzss_endsWithin hsame ((s.withOutCap_inputFits cap).2 hf) hlt
    exact ⟨_, exec_of_beginOf rfl _, hend.result hcap⟩
  · have hlen := s.inputBytes_length
    have htokens : (s.start.lzssTokens 0).length ≤ s.inLen.toNat := s.start.lzssTokens_length_le 0
    have hcount := (lzssFlags_holds (s.start.lzssTokens 0)).1
    rw [← hlen] at hin hu
    exact (givesWithinCap_decompressLzss_lzssOutput huf hspells hin (by omega) (by omega)).1 hu

end Sys2Proof.Machine
end

section
/-! LZW (45_lzw.md): the bit packer and the turns of LZW.C (O40), and the code token (O38). -/

namespace Sys2Proof.Machine

/-! ## Output and then any write -/

/-- `EmitSeq(bs)` and then the write `g`, which may be one of the tables or the phase too. -/
def State.emitGo (s : State) (bs : Bytes) (g : State → State) : Run := s.emitSeq bs >>= fun t => .ok (g t)

/-- The write `g` touches nothing that output reads or writes. -/
structure Silent (g : State → State) : Prop where
  room : ∀ s n, (g s).room n ↔ s.room n
  putAll : ∀ s bs, (g s).putAll bs = g (s.putAll bs)

section emitGo

variable {s : State} {bs : Bytes} {g : State → State}

theorem State.emitGo_of_room (h : s.room bs.length) (g : State → State) : s.emitGo bs g = .ok (g (s.putAll bs)) := by
  rw [State.emitGo, State.emitSeq_of_room h]
  rfl

theorem State.emitGo_of_no_room (h : ¬ s.room bs.length) (g : State → State) :
    s.emitGo bs g = .error .capacityExceeded := by
  rw [State.emitGo, State.emitSeq_of_no_room h]
  rfl

theorem Silent.emitSeq (hg : Silent g) (s : State) (bs : Bytes) : (g s).emitSeq bs = s.emitGo bs g := by
  by_cases h : s.room bs.length
  · rw [State.emitSeq_of_room ((hg.room s _).2 h), State.emitGo_of_room h, hg.putAll]
  · rw [State.emitSeq_of_no_room (mt (hg.room s _).1 h), State.emitGo_of_no_room h]

theorem State.emitSeq_append (s : State) (as bs : Bytes) :
    s.emitSeq (as ++ bs) = s.emitSeq as >>= fun t => t.emitSeq bs := by
  induction as generalizing s with
  | nil => rfl
  | cons a as ih =>
    rw [List.cons_append, State.emitSeq, State.emitSeq]
    cases s.emit a with
    | error k => rfl
    | ok t => exact ih t

/-- What follows an output follows it in the one state that the output can answer. -/
theorem State.emitSeq_bind_congr {f f' : State → Run} (h : f (s.putAll bs) = f' (s.putAll bs)) :
    s.emitSeq bs >>= f = s.emitSeq bs >>= f' := by
  cases hs : s.emitSeq bs with
  | error k => rfl
  | ok t =>
    obtain rfl := (State.emitSeq_ok hs).2
    exact h

/-- Two outputs with a write after each are one output. -/
theorem Silent.emitGo_append (hg : Silent g) (s : State) (as bs : Bytes) (g' : State → State) :
    (s.emitGo as g >>= fun t => t.emitGo bs g') = s.emitGo (as ++ bs) (g' ∘ g) := by
  rw [State.emitGo, State.emitGo, State.emitSeq_append, bind_assoc, bind_assoc]
  refine State.emitSeq_bind_congr ?_
  show (g (s.putAll as)).emitGo bs g' = _
  rw [State.emitGo, hg.emitSeq, State.emitGo, bind_assoc]
  rfl

/-- Without room for its output. -/
theorem fails_of_emitGo {o : Host.Outcome State Fault Refusal} (ho : o = .next (s.settle (s.emitGo bs g)))
    (h : ¬ s.room bs.length) : ∃ t, o = .next t ∧ t.Failed .capacityExceeded ∧ s.KeepsInputs t ∧ s.KeepsArgs t := by
  rw [State.emitGo_of_no_room h, State.settle_error] at ho
  exact ⟨_, ho, s.raise_fails _⟩

end emitGo

/-! ## The bit packer (R203) -/

/-- The bytes that leave the accumulator `acc`, of which `nacc` bits wait. -/
def drainBytes (acc : Nat) : Nat → Nat → Bytes
  | 0, _ => []
  | more + 1, nacc => BitVec.ofNat 8 (acc / 2 ^ (nacc - 8)) :: drainBytes acc more (nacc - 8)

/-- `acc` and `nacc` written. -/
def State.withBits (s : State) (acc nacc : Nat) : State := { s with regs := { s.regs with acc := acc, nacc := nacc } }

theorem silent_withBits (acc nacc : Nat) : Silent (State.withBits · acc nacc) := ⟨fun _ _ => .rfl, fun _ _ => rfl⟩

theorem packDrain_eq (more : Nat) (s : State) : packDrain more s =
    s.emitGo (drainBytes s.regs.acc more s.regs.nacc) (State.withBits · s.regs.acc (s.regs.nacc - 8 * more)) := by
  induction more generalizing s with
  | zero => rfl
  | succ more ih =>
    have hunit : packDrain (more + 1) s =
        s.emitGo [BitVec.ofNat 8 (s.regs.acc / 2 ^ (s.regs.nacc - 8))]
          (State.withBits · s.regs.acc (s.regs.nacc - 8)) >>= packDrain more := by
      rw [State.emitGo, bind_assoc, packDrain, ← State.emitSeq_singleton]
      exact State.emitSeq_bind_congr rfl
    have hrest := (silent_withBits s.regs.acc (s.regs.nacc - 8)).emitGo_append s
      [BitVec.ofNat 8 (s.regs.acc / 2 ^ (s.regs.nacc - 8))] (drainBytes s.regs.acc more (s.regs.nacc - 8))
      (State.withBits · s.regs.acc (s.regs.nacc - 8 - 8 * more))
    rw [Nat.mul_succ, Nat.add_comm _ 8, ← Nat.sub_sub]
    refine hunit.trans (Eq.trans ?_ hrest)
    rw [State.emitGo, bind_assoc, bind_assoc]
    exact State.emitSeq_bind_congr (ih _)

/-- `code`, `acc` and `nacc` written. -/
def State.withCode (s : State) (code acc nacc : Nat) : State :=
  { s with regs := { s.regs with code := code, acc := acc, nacc := nacc } }

theorem silent_withCode (code acc nacc : Nat) : Silent (State.withCode · code acc nacc) :=
  ⟨fun _ _ => .rfl, fun _ _ => rfl⟩

theorem putCode_eq (c : Nat) (s : State) {acc nacc : Nat} (hacc : s.regs.acc * 2 ^ 12 + c = acc)
    (hnacc : s.regs.nacc + 12 = nacc) : putCode c s =
    s.emitGo (drainBytes acc (nacc / 8) nacc)
      (State.withCode · c (acc % 2 ^ (nacc - 8 * (nacc / 8))) (nacc - 8 * (nacc / 8))) := by
  have hdrain := packDrain_eq (nacc / 8) (s.withCode c acc nacc)
  have hwrite : (s.withCode c acc nacc).emitGo (drainBytes acc (nacc / 8) nacc)
      (State.withBits · acc (nacc - 8 * (nacc / 8))) = _ :=
    (silent_withCode c acc nacc).emitGo_append s [] _ _
  have hput : putCode c s = packDrain (nacc / 8) (s.withCode c acc nacc) >>= fun t =>
      .ok { t with regs := { t.regs with acc := t.regs.acc % 2 ^ t.regs.nacc } } := by
    subst hacc hnacc
    rfl
  rw [hput, hdrain]
  refine (congrArg (· >>= _) hwrite).trans ?_
  rw [State.emitGo, bind_assoc]
  rfl

/-- The whole bytes that `PutCode(c)` emits where 0 or 4 bits, of the value `acc`, wait. -/
def codeBytes (nacc acc c : Nat) : Bytes :=
  if nacc = 0 then [BitVec.ofNat 8 (c / 16)] else [BitVec.ofNat 8 (acc * 16 + c / 256), BitVec.ofNat 8 (c % 256)]

/-- The value of the bits that wait after the code `c`. -/
def accAfter (nacc c : Nat) : Nat := if nacc = 0 then c % 16 else 0

/-- How many bits wait after a code. -/
def naccAfter (nacc : Nat) : Nat := if nacc = 0 then 4 else 0

/-- What `FlushCodes()` emits. -/
def flushBytes (nacc acc : Nat) : Bytes := if nacc = 0 then [] else [BitVec.ofNat 8 (acc * 16)]

/-- Again 0 or 4 bits wait after a code. -/
theorem naccAfter_cases {nacc : Nat} (h : nacc = 0 ∨ nacc = 4) : naccAfter nacc = 0 ∨ naccAfter nacc = 4 := by
  obtain rfl | rfl := h
  · exact .inr rfl
  · exact .inl rfl

theorem accAfter_lt {nacc : Nat} (h : nacc = 0 ∨ nacc = 4) (c : Nat) : accAfter nacc c < 2 ^ naccAfter nacc := by
  obtain rfl | rfl := h
  · exact Nat.mod_lt c (by decide)
  · exact Nat.one_pos

/-- `PutCode(c)` where 0 or 4 bits wait. -/
theorem putCode_of_waiting {c : Nat} {s : State} (hn : s.regs.nacc = 0 ∨ s.regs.nacc = 4)
    (ha : s.regs.acc < 2 ^ s.regs.nacc) : putCode c s =
    s.emitGo (codeBytes s.regs.nacc s.regs.acc c)
      (State.withCode · c (accAfter s.regs.nacc c) (naccAfter s.regs.nacc)) := by
  obtain h0 | h4 := hn
  · have hacc : s.regs.acc = 0 := Nat.lt_one_iff.1 (by rwa [h0] at ha)
    rw [h0, hacc]
    exact putCode_eq c s (acc := c) (nacc := 12) (by omega) (by omega)
  · have hput := putCode_eq c s (nacc := 16) rfl (by omega)
    have hhigh : (s.regs.acc * 2 ^ 12 + c) / 2 ^ 8 = s.regs.acc * 16 + c / 256 := by omega
    have hlow : BitVec.ofNat 8 (s.regs.acc * 2 ^ 12 + c) = BitVec.ofNat 8 (c % 256) :=
      BitVec.eq_of_toNat_eq (by simp only [BitVec.toNat_ofNat]; omega)
    have hbytes : drainBytes (s.regs.acc * 2 ^ 12 + c) 2 16 = codeBytes 4 s.regs.acc c := by
      simp only [drainBytes, codeBytes, Nat.reduceSub, pow_zero, Nat.div_one, hhigh, hlow]
      rfl
    rw [h4, ← hbytes]
    refine hput.trans (congrArg (s.emitGo _) (funext fun t => ?_))
    exact congrArg (State.withCode t c · 0) (Nat.mod_one _)

/-! ## The turn of the loop and the last code (R201) -/

theorem dictAdd_eq (s : State) (x : Bytes) : s.dictAdd x = { s with
    tabs := { s.tabs with dict := if s.regs.nextCode < 4096 then s.tabs.dict ++ [x] else s.tabs.dict }
    regs := { s.regs with
      nextCode := if s.regs.nextCode < 4096 then s.regs.nextCode + 1 else s.regs.nextCode } } := by
  by_cases h : s.regs.nextCode < 4096
  · rw [if_pos h, if_pos h]
    exact if_pos h
  · rw [if_neg h, if_neg h]
    exact if_neg h

theorem nextToken_lzwC {s : State} (hp : s.phase = .lzwC) : s.nextToken = none := by
  rw [State.nextToken, State.fetchBytes, hp]
  rfl

theorem advance_lzwC {s : State} (hp : s.phase = .lzwC) : advance s = turn s lzwUnit lzwCEnd := by
  rw [advance, hp]

theorem step_lzwC {s : State} (hh : s.host = []) (hb : s.status = .busy) (hp : s.phase = .lzwC) :
    step s = .next (s.settle (turn s lzwUnit lzwCEnd)) := by
  rw [step_of_no_token hh hb (hp ▸ nofun) (nextToken_lzwC hp), advance_lzwC hp]

/-- The phrase, which is the longest known string so far, has grown to the code `e`. -/
def State.lzwGrown (s : State) (e : Nat) : State :=
  { s with regs := { s.regs with cur := s.inAt s.regs.ip, e := some e, w := some e, ip := s.regs.ip + 1 } }

theorem lzwUnit_of_found {s : State} {c e : Nat} (hw : s.regs.w = some c)
    (he : s.dictFind (s.dictAt c ++ [s.inAt s.regs.ip]) = some e) : lzwUnit s = .ok (s.lzwGrown e) := by
  simp only [lzwUnit, hw, State.dictOf, he]
  rfl

/-- What a turn that ends its phrase writes after its output: the code `c` is out, and the phrase with one more byte
joins the dictionary of `s` while it is not full. -/
def State.lzwEmitted (s : State) (c : Nat) (t : State) : State :=
  { t with
    tabs := { t.tabs with
      dict := if s.regs.nextCode < 4096 then s.tabs.dict ++ [s.dictAt c ++ [s.inAt s.regs.ip]] else s.tabs.dict }
    regs := { t.regs with
      cur := s.inAt s.regs.ip, e := none, w := some (s.inAt s.regs.ip).toNat, ip := s.regs.ip + 1, code := c
      acc := accAfter s.regs.nacc c, nacc := naccAfter s.regs.nacc
      nextCode := if s.regs.nextCode < 4096 then s.regs.nextCode + 1 else s.regs.nextCode } }

theorem lzwUnit_of_new {s : State} {c : Nat} (hw : s.regs.w = some c) (hn : s.regs.nacc = 0 ∨ s.regs.nacc = 4)
    (ha : s.regs.acc < 2 ^ s.regs.nacc) (he : s.dictFind (s.dictAt c ++ [s.inAt s.regs.ip]) = none) :
    lzwUnit s = s.emitGo (codeBytes s.regs.nacc s.regs.acc c) (s.lzwEmitted c) := by
  simp only [lzwUnit, hw, State.dictOf, he, Option.getD_some, putCode_of_waiting hn ha, dictAdd_eq]
  rw [State.emitGo, bind_assoc]
  exact State.emitSeq_bind_congr rfl

theorem flushBits_of_waiting {s : State} (hn : s.regs.nacc = 0 ∨ s.regs.nacc = 4) :
    flushBits s = s.emitGo (flushBytes s.regs.nacc s.regs.acc) (State.withBits · s.regs.acc 0) := by
  obtain h0 | h4 := hn
  · rw [flushBits, h0]
    show Except.ok s = .ok (s.withBits s.regs.acc 0)
    rw [State.withBits, ← h0]
  · rw [flushBits, h4, if_pos (by decide), ← State.emitSeq_singleton]
    exact State.emitSeq_bind_congr rfl

/-- What follows the loop writes after its output. -/
def State.lzwEnded (s : State) (c : Nat) (t : State) : State :=
  (t.withCode c (accAfter s.regs.nacc c) 0).goTo .finished

theorem lzwCEnd_of_waiting {s : State} {c : Nat} (hw : s.regs.w = some c) (hn : s.regs.nacc = 0 ∨ s.regs.nacc = 4)
    (ha : s.regs.acc < 2 ^ s.regs.nacc) : lzwCEnd s =
    s.emitGo (codeBytes s.regs.nacc s.regs.acc c ++ flushBytes (naccAfter s.regs.nacc) (accAfter s.regs.nacc c))
      (s.lzwEnded c) := by
  rw [lzwCEnd, hw, Option.getD_some, putCode_of_waiting hn ha]
  have happ := (silent_withCode c (accAfter s.regs.nacc c) (naccAfter s.regs.nacc)).emitGo_append s
    (codeBytes s.regs.nacc s.regs.acc c) (flushBytes (naccAfter s.regs.nacc) (accAfter s.regs.nacc c))
    fun t => (t.withBits t.regs.acc 0).goTo .finished
  refine Eq.trans ?_ happ
  rw [State.emitGo, bind_assoc, bind_assoc]
  refine State.emitSeq_bind_congr ?_
  have hflush := flushBits_of_waiting (s := (s.putAll (codeBytes s.regs.nacc s.regs.acc c)).withCode c
    (accAfter s.regs.nacc c) (naccAfter s.regs.nacc)) (naccAfter_cases hn)
  refine (congrArg (· >>= fun u => .ok (u.goTo .finished)) hflush).trans ?_
  rw [State.emitGo, bind_assoc]
  exact State.emitSeq_bind_congr rfl

/-! ## The compressor (R201, R203) -/

theorem dictFind_eq_none {s : State} {x : Bytes} : s.dictFind x = none ↔ ∀ e : Nat, s.tabs.dict[e]? ≠ some x := by
  simp only [State.dictFind, List.findIdx?_eq_none_iff, beq_eq_false_iff_ne]
  refine ⟨fun h e he => h x (List.mem_of_getElem? he) rfl, fun h y hy hyx => ?_⟩
  obtain ⟨e, he⟩ := List.mem_iff_getElem?.1 hy
  exact h e (hyx ▸ he)

/-- The string that is found stands at its code. -/
theorem getElem?_of_findIdx? {d : List Bytes} {x : Bytes} {e : Nat} (h : d.findIdx? (· == x) = some e) :
    d[e]? = some x := by
  obtain ⟨he, hx, -⟩ := List.findIdx?_eq_some_iff_getElem.1 h
  rw [List.getElem?_eq_getElem he, beq_iff_eq.1 hx]

/-- The last byte, in the terms of the statement. -/
theorem lzwLast_eq (nacc c : Nat) : (if nacc = 0 then [BitVec.ofNat 8 (c % 16 * 16)] else [] : Bytes) =
    flushBytes (naccAfter nacc) (accAfter nacc c) := by
  by_cases h : nacc = 0 <;> simp [flushBytes, naccAfter, accAfter, h]

/-- What R201 writes before its loop, after the length is emitted. -/
def State.lzwCBegin (s : State) (t : State) : State :=
  { t with
    tabs := { t.tabs with dict := Tables.dictSeed }
    regs := { t.regs with
      nextCode := 256, acc := 0, nacc := 0, w := some (s.inAt 0).toNat, ip := 1 }
    phase := .lzwC }

theorem lzwCStart_eq (s : State) : lzwCStart s = s.emitGo (u64le s.regs.nIn) s.lzwCBegin := by
  have hseed : Silent lzwSeed := ⟨fun _ _ => .rfl, fun _ _ => rfl⟩
  rw [lzwCStart, hseed.emitSeq, State.emitGo, bind_assoc]
  exact State.emitSeq_bind_congr rfl

theorem tick_compressLzw {s : State} (hs : s.JustStarted) (hc : s.cmd = 0x13) (hf : s.inputFits) (h0 : s.inLen ≠ 0) :
    tick s = s.settle (s.emitGo (u64le s.inLen.toNat) s.lzwCBegin) := by
  have hbegin : beginCommand s = beginRun (beginCompress .lzw) s := by
    rw [beginCommand, hc]
    rfl
  have hlen : s.inLen.toNat ≠ 0 := mt (BitVec.eq_of_toNat_eq (y := 0)) h0
  have hstart : beginCompress .lzw s.start = lzwCStart s.start := if_neg hlen
  rw [tick, if_pos (hs ▸ rfl), if_pos (hs ▸ rfl), hbegin, beginRun, hs, State.start_checkCap hf]
  exact congrArg s.start.settle (hstart.trans (lzwCStart_eq s.start))

/-- Settles O40: the start of the operation, the turn by whether the dictionary has the longer string, and the end by
how many bits wait. -/
theorem lzwCompressorPacksItsCodes : Obligations.LzwCompressorPacksItsCodes := by
  refine ⟨fun s hs hc hf h0 => ?start, fun s c hh hb hp hw _ hn ha => ?loop⟩
  case start =>
    rw [tick_compressLzw hs hc hf h0]
    have hlen : (u64le s.inLen.toNat).length = 8 := u64le_length _
    refine ⟨fun hroom => ?_, fun hfull => ?_⟩
    · rw [State.emitGo_of_room (hlen.symm ▸ hroom), State.settle_ok]
      have happ := s.putAll_appends (u64le s.inLen.toNat)
      have hin : s.inAt 0 = s.inByteAt 0 := by rw [hs]; rfl
      exact ⟨⟨happ.outCount, happ.outBase, happ.new, happ.old⟩, s.keepsInputs_engine, ⟨rfl, rfl⟩, rfl,
        hs ▸ rfl, rfl, rfl, congrArg (fun b : Byte => some b.toNat) hin, rfl, rfl, rfl⟩
    · rw [State.emitGo_of_no_room (hlen.symm ▸ hfull), State.settle_error]
      exact s.raise_failed _
  case loop =>
    have hstep := step_lzwC hh hb hp
    intro cur x bytes last
    have hbytes : bytes = codeBytes s.regs.nacc s.regs.acc c := rfl
    have hlast : last = flushBytes (naccAfter s.regs.nacc) (accAfter s.regs.nacc c) := lzwLast_eq _ _
    refine ⟨fun hlt hex => ?grown, fun hlt hnew hroom => ?emitted, fun hlt hnew hfull => ?noRoom,
      fun hge hroom => ?ended, fun hge hfull => ?noRoomAtEnd⟩
    case grown =>
      obtain ⟨e, he⟩ := Option.ne_none_iff_exists'.1 fun h => hex.elim (dictFind_eq_none.1 h)
      rw [turn, if_pos hlt, lzwUnit_of_found hw he, State.settle_ok] at hstep
      exact ⟨_, e, hstep, getElem?_of_findIdx? he, fun _ => rfl, ⟨s.keepsInputs_engine, ⟨rfl, rfl⟩, rfl, rfl, rfl, rfl⟩,
        rfl, rfl⟩
    case emitted =>
      rw [hbytes] at hroom
      rw [turn, if_pos hlt, lzwUnit_of_new hw hn ha (dictFind_eq_none.2 hnew), State.emitGo_of_room hroom,
        State.settle_ok] at hstep
      have happ := s.putAll_appends (codeBytes s.regs.nacc s.regs.acc c)
      exact ⟨_, hstep, ⟨happ.outCount, happ.outBase, happ.new, happ.old⟩,
        ⟨s.keepsInputs_engine, ⟨rfl, rfl⟩, rfl, rfl, rfl, rfl⟩, rfl, rfl⟩
    case noRoom =>
      rw [turn, if_pos hlt, lzwUnit_of_new hw hn ha (dictFind_eq_none.2 hnew)] at hstep
      exact fails_of_emitGo hstep hfull
    case ended =>
      rw [← List.length_append, hbytes, hlast] at hroom
      rw [turn, if_neg (Nat.not_lt.2 hge), lzwCEnd_of_waiting hw hn ha, State.emitGo_of_room hroom,
        State.settle_ok] at hstep
      have happ := s.putAll_appends (bytes ++ last)
      rw [hbytes, hlast] at happ ⊢
      exact ⟨_, hstep, ⟨happ.outCount, happ.outBase, happ.new, happ.old⟩, rfl, hb, s.keepsInputs_engine, ⟨rfl, rfl⟩⟩
    case noRoomAtEnd =>
      rw [← List.length_append, hlast] at hfull
      rw [turn, if_neg (Nat.not_lt.2 hge), lzwCEnd_of_waiting hw hn ha] at hstep
      exact fails_of_emitGo hstep hfull

/-! ## The code token (R204) -/

/-- A code whose string is known: a first code of the seed, a code of the dictionary, or the code that the compressor
has only just made. -/
theorem lzwString_of_known {code : Nat} {s : State} {x : Bytes}
    (h : (s.regs.prevCode = none ∧ code < 256 ∧ x = s.dictAt code) ∨
      (∃ pc, s.regs.prevCode = some pc ∧ code < s.regs.nextCode ∧ x = s.dictAt code) ∨
      ∃ pc, s.regs.prevCode = some pc ∧ code = s.regs.nextCode ∧ s.regs.nextCode < 4096 ∧
        x = s.dictAt pc ++ (s.dictAt pc).take 1) : lzwString code s = some x := by
  obtain ⟨hp, hc, rfl⟩ | ⟨pc, hp, hc, rfl⟩ | ⟨pc, hp, hc, hlt, rfl⟩ := h <;> simp only [lzwString, hp]
  · exact if_pos hc
  · exact if_pos hc
  · rw [if_neg (Nat.not_lt.2 hc.ge), if_pos ⟨hc, hlt⟩]

theorem lzwString_of_unknown {code : Nat} {s : State}
    (h : (s.regs.prevCode = none ∧ 256 ≤ code) ∨ ∃ pc, s.regs.prevCode = some pc ∧ s.regs.nextCode < code) :
    lzwString code s = none := by
  obtain ⟨hp, hc⟩ | ⟨pc, hp, hc⟩ := h <;> simp only [lzwString, hp]
  · exact if_neg (Nat.not_lt.2 hc)
  · rw [if_neg (by omega), if_neg (by omega)]

/-- What the code of the string `x` makes of the dictionary: nothing where it is the first. -/
def State.lzwLearned (s : State) (x : Bytes) : List Bytes :=
  match s.regs.prevCode with
  | none => s.tabs.dict
  | some pc => if s.regs.nextCode < 4096 then s.tabs.dict ++ [s.dictAt pc ++ x.take 1] else s.tabs.dict

/-- What the code of a string makes of `next_code`, which counts the entries of the dictionary. -/
def State.lzwNextCode (s : State) : Nat :=
  match s.regs.prevCode with
  | none => s.regs.nextCode
  | some _ => if s.regs.nextCode < 4096 then s.regs.nextCode + 1 else s.regs.nextCode

theorem State.lzwLearned_first {s : State} (h : s.regs.prevCode = none) (x : Bytes) :
    s.lzwLearned x = s.tabs.dict ∧ s.lzwNextCode = s.regs.nextCode := by
  simp only [State.lzwLearned, State.lzwNextCode, h, and_self]

theorem State.lzwLearned_later {s : State} {pc : Nat} (h : s.regs.prevCode = some pc) (x : Bytes) :
    s.lzwLearned x =
      (if s.regs.nextCode < 4096 then s.tabs.dict ++ [s.dictAt pc ++ x.take 1] else s.tabs.dict) ∧
    s.lzwNextCode = if s.regs.nextCode < 4096 then s.regs.nextCode + 1 else s.regs.nextCode := by
  simp only [State.lzwLearned, State.lzwNextCode, h, and_self]

/-- A full dictionary learns nothing, and neither does one at the first code. -/
theorem State.lzwLearned_nothing {s : State} (h : s.regs.prevCode = none ∨ 4096 ≤ s.regs.nextCode) (x : Bytes) :
    s.lzwLearned x = s.tabs.dict ∧ s.lzwNextCode = s.regs.nextCode := by
  cases hp : s.regs.prevCode with
  | none => exact State.lzwLearned_first hp x
  | some pc =>
    have hfull : ¬ s.regs.nextCode < 4096 := Nat.not_lt.2 (h.resolve_left (by simp [hp]))
    simpa only [if_neg hfull] using State.lzwLearned_later hp x

/-- What the code `c` of the string `x` writes after its output. -/
def State.lzwDecoded (s : State) (c : Nat) (x : Bytes) (t : State) : State :=
  { t with
    tabs := { t.tabs with dict := s.lzwLearned x }
    regs := { t.regs with
      code := c, total := s.regs.total + x.length, prevCode := some c, bp := s.regs.bp + 12
      nextCode := s.lzwNextCode } }

theorem lzwLearn_eq (x : Bytes) (s : State) : lzwLearn x s =
    { s with tabs := { s.tabs with dict := s.lzwLearned x }, regs := { s.regs with nextCode := s.lzwNextCode } } := by
  cases hp : s.regs.prevCode with
  | none =>
    obtain ⟨hdict, hnext⟩ := State.lzwLearned_first hp x
    rw [hdict, hnext, lzwLearn, hp]
  | some pc =>
    obtain ⟨hdict, hnext⟩ := State.lzwLearned_later hp x
    rw [hdict, hnext, ← dictAdd_eq, lzwLearn, hp]

theorem lzwCode_of_string {c : BitVec 12} {s : State} {x : Bytes} (h : lzwString c.toNat s = some x) :
    lzwCode c s = s.emitGo (x.take (s.regs.n - s.regs.outCount)) (s.lzwDecoded c.toNat x) := by
  have hlearn : Silent fun t : State =>
      { t with tabs := { t.tabs with dict := s.lzwLearned x }, regs := { t.regs with nextCode := s.lzwNextCode } } :=
    ⟨fun _ _ => .rfl, fun _ _ => rfl⟩
  simp only [lzwCode, h, lzwLearn_eq]
  rw [hlearn.emitSeq, State.emitGo, bind_assoc]
  exact State.emitSeq_bind_congr rfl

theorem lzwCode_of_no_string {c : BitVec 12} {s : State} (h : lzwString c.toNat s = none) :
    lzwCode c s = .error .corruptPayload := by
  simp only [lzwCode, h]

theorem exec_lzwCode (c : BitVec 12) (s : State) : exec (.lzwCode c) s = .next (s.settle (lzwCode c s)) :=
  exec_token (i := .lzwCode c) rfl nofun s

/-- Settles O38: by whether the code's string is known, and then by whether there is room for what `n` leaves of it. -/
theorem lzwCodeAppendsItsString : Obligations.LzwCodeAppendsItsString := by
  intro c s
  have hexec := exec_lzwCode c s
  refine ⟨fun x hx => ?known, fun hbad => ?unknown⟩
  case known =>
    rw [lzwCode_of_string (lzwString_of_known hx)] at hexec
    rw [Nat.min_comm, ← List.length_take]
    refine ⟨fails_of_emitGo hexec, fun hroom => ?_⟩
    rw [State.emitGo_of_room hroom, State.settle_ok] at hexec
    have happ := s.putAll_appends (x.take (s.regs.n - s.regs.outCount))
    refine ⟨_, hexec, ⟨happ.outCount, happ.outBase, happ.new, happ.old⟩,
      ⟨s.keepsInputs_engine, ⟨rfl, rfl⟩, rfl, rfl, rfl, rfl⟩, rfl, fun pc hpc hlt => ?learns,
      fun hsame => ?learnsNothing⟩
    case learns =>
      obtain ⟨hdict, hnext⟩ := State.lzwLearned_later hpc x
      rw [if_pos hlt] at hdict hnext
      exact ⟨hnext, congrArg (fun d => { s.tabs with dict := d }) hdict⟩
    case learnsNothing =>
      obtain ⟨hdict, hnext⟩ := State.lzwLearned_nothing hsame x
      exact ⟨hnext, congrArg (fun d => { s.tabs with dict := d }) hdict⟩
  case unknown =>
    rw [lzwCode_of_no_string (lzwString_of_unknown hbad), State.settle_error] at hexec
    exact ⟨_, hexec, s.raise_fails _⟩

end Sys2Proof.Machine
end

section
/-! DECOMPRESS.LZW (45_lzw.md R205): its header test, the test after the last whole code, and the length of a success
(O41). -/

namespace Sys2Proof.Machine

/-! ## The header (45_lzw.md R205) -/

theorem beginDecompress_lzw {s : State} (h : s.inLen.toNat ≠ 0) :
    beginDecompress .lzw s.start = lzwDStart s.start := if_neg h

/-- The decoder past its header test, with the recorded length `n`. -/
def State.lzwDBegin (s : State) (n : Nat) : State :=
  { s with
    tabs := { s.tabs with dict := Tables.dictSeed }
    regs := { s.regs with nextCode := 256, n := n, prevCode := none, total := 0, bp := 0, ip := 8 }
    phase := .lzwD }

theorem State.Running.lzwDBegin {s t : State} {out : Bytes} (h : s.Running t out) (n : Nat) :
    s.Running (t.lzwDBegin n) out :=
  { h with inputs := h.inputs.trans t.keepsInputs_engine }

theorem lzwDStart_of_header {s : State} (h : 8 ≤ s.inLen.toNat) :
    lzwDStart s.start = .ok (s.start.lzwDBegin (valueLE (s.inputBytes.take 8))) := by
  rw [← rdU64_start h]
  exact if_neg (Nat.not_lt.2 h)

/-! ## The end of the loop (45_lzw.md R205) -/

theorem nextToken_lzwD_end {t : State} (hp : t.phase = .lzwD) (h : 8 * (t.regs.nIn - 8) < t.regs.bp + 12) :
    t.nextToken = none := by
  rw [State.nextToken, fetchBytes_lzw hp, if_neg (Nat.not_le.2 h)]
  rfl

theorem advance_lzwD {t : State} (hp : t.phase = .lzwD) : advance t = lzwDEnd t := by
  rw [advance, hp]

theorem lzwDEnd_of_lt {s : State} (h : s.regs.total < s.regs.n) : lzwDEnd s = .error .sizeMismatch := if_pos h

theorem lzwDEnd_of_le {s : State} (h : s.regs.n ≤ s.regs.total) : lzwDEnd s = s.endOp := if_neg (Nat.not_lt.2 h)

theorem lzwDEnd_of_le_plain {s : State} (h : s.regs.n ≤ s.regs.total) (hplain : s.regs.ending = .plain) :
    lzwDEnd s = .ok s.finish := by
  rw [lzwDEnd_of_le h, State.endOp, hplain]

theorem unitOfWork_lzwD_end {t : State} (hp : t.phase = .lzwD) (h : 8 * (t.regs.nIn - 8) < t.regs.bp + 12) :
    unitOfWork t = t.settle (lzwDEnd t) := by
  rw [unitOfWork, nextToken_lzwD_end hp h]
  dsimp only
  rw [advance_lzwD hp]

theorem step_lzwD_end {s : State} (hh : s.host = []) (hb : s.status = .busy) (hp : s.phase = .lzwD)
    (h : 8 * (s.regs.nIn - 8) < s.regs.bp + 12) : step s = .next (s.settle (lzwDEnd s)) := by
  rw [step_of_no_token hh hb (hp ▸ nofun) (nextToken_lzwD_end hp h), advance_lzwD hp]

/-! ## A loop that ends with a recorded length -/

/-- A loop whose places satisfy `P` goes on in one of them, or has raised, or has ended its operation with `n` bytes. -/
def State.LoopEnds (P : State → Prop) (n : Nat) (s : State) : Prop :=
  P s ∨ s.status = .error ∨ s.status = .done ∧ s.outLen = BitVec.ofNat 64 n

section loopEnds

variable {P : State → Prop} {n : Nat} {s : State}

theorem State.settle_loopEnds {r : Run} (h : Answers r (State.LoopEnds P n)) : (s.settle r).LoopEnds P n := by
  obtain ⟨t, ht, e⟩ | ⟨k, e⟩ := s.settle_cases r
  · exact e ▸ h t ht
  · exact e ▸ .inr (.inl rfl)

/-- A unit of work of the loop: a token, or what comes after the last one. -/
theorem unitOfWork_loopEnds (htoken : ∀ i, s.nextToken = some (.ok i) → Answers (tokenEffect i s) P)
    (hafter : Answers (advance s) (State.LoopEnds P n)) : (unitOfWork s).LoopEnds P n := by
  obtain ⟨i, hi, e⟩ | ⟨x, -, e⟩ | ⟨-, e⟩ := unitOfWork_cases s
  · exact e ▸ State.settle_loopEnds ((htoken i hi).imp fun _ => .inl)
  · exact e ▸ .inr (.inl rfl)
  · exact e ▸ State.settle_loopEnds hafter

theorem runUnits_loopEnds (hunit : ∀ t, P t → (unitOfWork t).LoopEnds P n) (h : P s) (fuel : Nat) :
    (runUnits fuel s).LoopEnds P n := by
  refine runUnits_keeps (fun t hb ht => ?_) fuel (.inl h)
  obtain hp | he | ⟨hd, -⟩ := ht
  · exact hunit t hp
  · exact nomatch he.symm.trans hb
  · exact nomatch hd.symm.trans hb

/-- A success after the loop has `n` bytes. -/
theorem State.LoopEnds.outLen (h : s.LoopEnds P n) (hbusy : P s → s.status = .busy) (hd : s.status = .done) :
    s.outLen = BitVec.ofNat 64 n := by
  obtain hp | he | ⟨-, hlen⟩ := h
  · exact nomatch (hbusy hp).symm.trans hd
  · exact nomatch he.symm.trans hd
  · exact hlen

end loopEnds

/-! ## The loop keeps the recorded length (45_lzw.md R204, R205) -/

/-- `s` is inside the loop of R205, outside DECODE, with the recorded length `n`: it has emitted what the codes so far
stand for, cut at `n`. -/
structure State.LzwDecodes (n : Nat) (s : State) : Prop where
  status : s.status = .busy
  phase : s.phase = .lzwD
  ending : s.regs.ending = .plain
  outBase : s.regs.outBase = 0
  recorded : s.regs.n = n
  cut : s.regs.outCount = min s.regs.total n

/-- The token of a place in the loop is a code. -/
theorem nextToken_lzwD_ok {s : State} {i : Instr} (hp : s.phase = .lzwD) (h : s.nextToken = some (.ok i)) :
    ∃ c, i = .lzwCode c := by
  rw [State.nextToken, fetchBytes_lzw hp] at h
  split at h
  · have hdecode := Option.some.inj h
    simp only [bind, Except.bind, decode] at hdecode
    split at hdecode
    · exact ⟨_, (Except.ok.inj hdecode).symm⟩
    · cases hdecode
  · cases h

section decodes

variable {n : Nat} {s : State}

theorem State.LzwDecodes.answers_lzwCode (h : s.LzwDecodes n) (c : BitVec 12) :
    Answers (lzwCode c s) (State.LzwDecodes n) := by
  cases hs : lzwString c.toNat s with
  | none =>
    rw [lzwCode_of_no_string hs]
    exact answers_error
  | some x =>
    rw [lzwCode_of_string hs]
    refine Answers.bind (P := (· = s.putAll _)) (fun _ ht => (State.emitSeq_ok ht).2) fun _ ht => answers_ok.2 ?_
    subst ht
    refine ⟨h.status, h.phase, h.ending, h.outBase, h.recorded, ?_⟩
    have hcut := h.cut
    have hn := h.recorded
    show s.regs.outCount + (x.take (s.regs.n - s.regs.outCount)).length = min (s.regs.total + x.length) n
    rw [List.length_take]
    omega

theorem State.LzwDecodes.answers_lzwDEnd (h : s.LzwDecodes n) :
    Answers (lzwDEnd s) (State.LoopEnds (State.LzwDecodes n) n) := by
  obtain hlt | hle := Nat.lt_or_ge s.regs.total s.regs.n
  · rw [lzwDEnd_of_lt hlt]
    exact answers_error
  · rw [lzwDEnd_of_le_plain hle h.ending, answers_ok]
    refine .inr (.inr ⟨rfl, ?_⟩)
    rw [State.finish_outLen, h.outBase, Nat.zero_add, h.cut, Nat.min_eq_right (h.recorded ▸ hle)]

theorem State.LzwDecodes.unit_loopEnds (h : s.LzwDecodes n) :
    (unitOfWork s).LoopEnds (State.LzwDecodes n) n := by
  refine unitOfWork_loopEnds (fun i hi => ?_) (advance_lzwD h.phase ▸ h.answers_lzwDEnd)
  obtain ⟨c, rfl⟩ := nextToken_lzwD_ok h.phase hi
  exact h.answers_lzwCode c

end decodes

theorem State.Running.lzwDecodes {s t : State} (h : s.Running t []) (n : Nat) : (t.lzwDBegin n).LzwDecodes n where
  status := h.status
  phase := rfl
  ending := h.ending
  outBase := h.outBase
  recorded := rfl
  cut := h.outCount.trans (Nat.zero_min n).symm

/-! ## The whole operation -/

section operation

variable {s : State}

theorem operate_decompressLzw (hf : s.inputFits) (h : 8 ≤ s.inLen.toNat) :
    operate (beginDecompress .lzw) s =
      runUnits s.fuel (s.start.lzwDBegin (valueLE (s.inputBytes.take 8))) := by
  rw [operate_of_inputFits hf, beginDecompress_lzw (by omega), lzwDStart_of_header h, State.settle_ok]

theorem fails_decompressLzw_short (hf : s.inputFits) (h0 : s.inLen.toNat ≠ 0) (h : s.inLen.toNat < 8) :
    Fails .decompressLzw s .corruptPayload :=
  fails_of_begin (i := .decompressLzw) rfl rfl nofun nofun hf ((beginDecompress_lzw h0).trans (if_pos h))

/-- A success gives as many bytes as the frame records. -/
theorem decompressLzw_outLen {t : State} (hf : s.inputFits) (h0 : s.inLen.toNat ≠ 0)
    (ht : exec .decompressLzw s = .next t) (hd : t.status = .done) :
    t.outLen.toNat = valueLE (s.inputBytes.take 8) := by
  have hfits : valueLE (s.inputBytes.take 8) < 256 ^ 8 :=
    (valueLE_lt _).trans_le (Nat.pow_le_pow_right (by decide) (List.length_take_le 8 _))
  obtain h | h := Nat.lt_or_ge s.inLen.toNat 8
  · obtain ⟨u, hu, hfail, -⟩ := fails_decompressLzw_short hf h0 h
    obtain rfl := Host.Outcome.next.inj (ht.symm.trans hu)
    exact nomatch hfail.status.symm.trans hd
  have hend : t.LoopEnds (State.LzwDecodes (valueLE (s.inputBytes.take 8))) (valueLE (s.inputBytes.take 8)) := by
    rw [← Host.Outcome.next.inj ((exec_of_beginOf rfl s).symm.trans ht), operate_decompressLzw hf h]
    exact runUnits_loopEnds (fun _ => State.LzwDecodes.unit_loopEnds) ((s.start_running .command).lzwDecodes _) _
  rw [hend.outLen (fun h => h.status) hd, BitVec.toNat_ofNat, Nat.mod_eq_of_lt (by omega)]

/-- A frame that holds no whole code goes to the end of the loop at once. -/
theorem unitOfWork_lzwD_no_code (h : s.inLen.toNat < 10) (n : Nat) :
    unitOfWork (s.start.lzwDBegin n) = (s.start.lzwDBegin n).settle (lzwDEnd (s.start.lzwDBegin n)) :=
  unitOfWork_lzwD_end rfl (show 8 * (s.inLen.toNat - 8) < 0 + 12 by omega)

theorem fails_decompressLzw_no_code (hf : s.inputFits) (h : 8 ≤ s.inLen.toNat) (hno : s.inLen.toNat < 10)
    (hn : 0 < valueLE (s.inputBytes.take 8)) : Fails .decompressLzw s .sizeMismatch := by
  obtain ⟨hinputs, hargs⟩ := operate_keeps (i := .decompressLzw) rfl rfl nofun nofun s
  refine ⟨_, exec_of_beginOf rfl s, ?_, hinputs, hargs⟩
  obtain ⟨fuel, hfuel⟩ : ∃ fuel, s.fuel = fuel + 1 := ⟨16 * s.inLen.toNat + 15, rfl⟩
  rw [operate_decompressLzw hf h, hfuel, runUnits_busy rfl, unitOfWork_lzwD_no_code hno, lzwDEnd_of_lt hn,
    State.settle_error, runUnits_ended (by simp)]
  exact State.raise_failed _

theorem gives_decompressLzw_no_code (hf : s.inputFits) (h : 8 ≤ s.inLen.toNat) (hno : s.inLen.toNat < 10)
    (hn : valueLE (s.inputBytes.take 8) = 0) : Gives .decompressLzw s [] := by
  have hend : s.EndsWithin [] (operate (beginDecompress .lzw) s) := by
    obtain ⟨fuel, hfuel⟩ : ∃ fuel, s.fuel = fuel + 1 := ⟨16 * s.inLen.toNat + 15, rfl⟩
    have hu := unitOfWork_lzwD_no_code hno 0
    rw [lzwDEnd_of_le (Nat.zero_le _)] at hu
    rw [operate_decompressLzw hf h, hn, hfuel]
    exact ((s.start_running .command).lzwDBegin 0).runUnits_endOp (by simp) hu fuel
  exact (givesWithinCap_of_operate (i := .decompressLzw) rfl rfl nofun nofun hend).1 fun _ _ => Nat.zero_le _

end operation

/-- Settles O41: the test at the start, the frames without a whole code, the length of a success, and the test after the
loop. -/
theorem lzwDecompressTestsItsFrame : Obligations.LzwDecompressTestsItsFrame := by
  refine ⟨?header, fun s hh hb hp hend => ⟨fun hlt => ?mismatch, fun hle hplain => ?ends⟩⟩
  case header =>
    rintro s n hf h1 rfl
    have h0 : s.inLen.toNat ≠ 0 := Nat.ne_of_gt h1
    exact ⟨fails_decompressLzw_short hf h0, fails_decompressLzw_no_code hf, gives_decompressLzw_no_code hf,
      fun t => decompressLzw_outLen hf h0⟩
  case mismatch =>
    have hstep := step_lzwD_end hh hb hp hend
    rw [lzwDEnd_of_lt hlt, State.settle_error] at hstep
    exact ⟨_, hstep, s.raise_fails _⟩
  case ends =>
    have hstep := step_lzwD_end hh hb hp hend
    rw [lzwDEnd_of_le_plain hle hplain, State.settle_ok] at hstep
    exact ⟨_, hstep, rfl, rfl, rfl, fun _ => rfl, s.finish_keepsInputs, rfl, rfl⟩

end Sys2Proof.Machine
end

section
/-! The round trip of LZW (45_lzw.md R206, R207): the codes of the greedy parse spell the input to a dictionary one
entry behind, the compressor's frame holds them, and the decoder gives what the codes of its frame spell (O39). -/

namespace Sys2Proof.Machine

/-! ## The dictionary (R202) -/

/-- The dictionary with one more string, unless it is full. -/
def lzwGrow (d : List Bytes) (x : Bytes) : List Bytes := if d.length < 4096 then d ++ [x] else d

/-- A dictionary of some moment of LZW: the seed, no empty string, at most 4096 entries. -/
structure LzwDict (d : List Bytes) : Prop where
  seed : ∀ c, c < 256 → d[c]? = some [BitVec.ofNat 8 c]
  nonempty : ∀ x ∈ d, x ≠ []
  cap : d.length ≤ 4096

section dict

variable {d : List Bytes}

theorem lzwDict_seed : LzwDict Tables.dictSeed where
  seed _ := Tables.dictSeed_getElem?
  nonempty x hx := by
    obtain ⟨c, -, rfl⟩ := List.mem_map.1 hx
    exact List.cons_ne_nil _ _
  cap := by rw [Tables.dictSeed_length]; decide

/-- The code of a byte is the byte. -/
theorem LzwDict.getElem?_byte (h : LzwDict d) (b : Byte) : d[b.toNat]? = some [b] := by
  rw [h.seed _ b.isLt, BitVec.ofNat_toNat, BitVec.setWidth_eq]

theorem LzwDict.getD_byte (h : LzwDict d) (b : Byte) : d.getD b.toNat [] = [b] := by
  rw [List.getD_eq_getElem?_getD, h.getElem?_byte, Option.getD_some]

theorem LzwDict.byte_lt (h : LzwDict d) (b : Byte) : b.toNat < d.length :=
  (List.getElem?_eq_some_iff.1 (h.getElem?_byte b)).1

theorem LzwDict.getD_ne_nil (h : LzwDict d) {c : Nat} (hc : c < d.length) : d.getD c [] ≠ [] := by
  rw [List.getD_eq_getElem _ _ hc]
  exact h.nonempty _ (List.getElem_mem hc)

theorem LzwDict.grow (h : LzwDict d) {x : Bytes} (hx : x ≠ []) : LzwDict (lzwGrow d x) := by
  unfold lzwGrow
  split
  · next hlt =>
    refine ⟨fun c hc => ?_, fun y hy => ?_, by simpa using hlt⟩
    · have hseed := h.seed c hc
      rwa [List.getElem?_append_left (List.getElem?_eq_some_iff.1 hseed).1]
    · obtain hy | hy := List.mem_append.1 hy
      · exact h.nonempty y hy
      · exact List.mem_singleton.1 hy ▸ hx
  · exact h

end dict

/-! ## What codes spell (R204) -/

/-- The string `y` that the code `c` stands for after the code `prev`: the three known cases of R204. -/
def LzwStands (d : List Bytes) (prev : Option Nat) (c : Nat) (y : Bytes) : Prop :=
  (prev = none ∧ c < 256 ∧ y = d.getD c []) ∨
  (∃ pc, prev = some pc ∧ c < d.length ∧ y = d.getD c []) ∨
  ∃ pc, prev = some pc ∧ c = d.length ∧ d.length < 4096 ∧ y = d.getD pc [] ++ (d.getD pc []).take 1

/-- What the dictionary becomes with the string `y` after the code `prev`. -/
def lzwAfter (d : List Bytes) (prev : Option Nat) (y : Bytes) : List Bytes :=
  match prev with
  | none => d
  | some pc => lzwGrow d (d.getD pc [] ++ y.take 1)

/-- The codes spell the bytes from the dictionary `d` and the code `prev` on. -/
inductive LzwSpells : List Bytes → Option Nat → List Nat → Bytes → Prop
  | done {d : List Bytes} {prev : Option Nat} : LzwSpells d prev [] []
  | code {d : List Bytes} {prev : Option Nat} {c : Nat} {cs : List Nat} {y x : Bytes} (hc : c < 4096)
      (hy : LzwStands d prev c y) (hcs : LzwSpells (lzwAfter d prev y) (some c) cs x) :
      LzwSpells d prev (c :: cs) (y ++ x)

/-! ## The greedy parse (R201) -/

/-- The codes that the compressor emits over `xs` with the dictionary `d`, where `w` is the code of its phrase so far. -/
def lzwCodes (d : List Bytes) (w : Nat) : Bytes → List Nat
  | [] => [w]
  | b :: xs =>
    match d.findIdx? (· == d.getD w [] ++ [b]) with
    | some e => lzwCodes d e xs
    | none => w :: lzwCodes (lzwGrow d (d.getD w [] ++ [b])) b.toNat xs

theorem lzwCodes_of_found {d : List Bytes} {w e : Nat} {b : Byte}
    (h : d.findIdx? (· == d.getD w [] ++ [b]) = some e) (xs : Bytes) : lzwCodes d w (b :: xs) = lzwCodes d e xs := by
  rw [lzwCodes, h]

theorem lzwCodes_of_new {d : List Bytes} {w : Nat} {b : Byte} (h : d.findIdx? (· == d.getD w [] ++ [b]) = none)
    (xs : Bytes) : lzwCodes d w (b :: xs) = w :: lzwCodes (lzwGrow d (d.getD w [] ++ [b])) b.toNat xs := by
  rw [lzwCodes, h]

theorem lzwCodes_length_le (d : List Bytes) (w : Nat) (xs : Bytes) : (lzwCodes d w xs).length ≤ xs.length + 1 := by
  induction xs generalizing d w with
  | nil => exact Nat.le_refl 1
  | cons b xs ih =>
    cases h : d.findIdx? (· == d.getD w [] ++ [b]) with
    | some e =>
      rw [lzwCodes_of_found h]
      exact (ih d e).trans (Nat.le_succ _)
    | none =>
      rw [lzwCodes_of_new h]
      exact Nat.succ_le_succ (ih _ _)

theorem getD_of_findIdx? {d : List Bytes} {x : Bytes} {e : Nat} (h : d.findIdx? (· == x) = some e) :
    e < d.length ∧ d.getD e [] = x := by
  have he := getElem?_of_findIdx? h
  exact ⟨(List.getElem?_eq_some_iff.1 he).1, by rw [List.getD_eq_getElem?_getD, he, Option.getD_some]⟩

/-- The compressor, with the dictionary `D` and the phrase `w`, is one entry ahead of the decoder: what the decoder
learns from the string of `w` makes its dictionary `d` the compressor's (R206). -/
structure LzwAhead (d : List Bytes) (prev : Option Nat) (D : List Bytes) (w : Nat) : Prop where
  dict : LzwDict D
  code : w < D.length
  learns : lzwAfter d prev (D.getD w []) = D
  first : prev = none → D = Tables.dictSeed
  later : ∀ pc, prev = some pc → pc < d.length

theorem take_one_append {x y : Bytes} (h : x ≠ []) : (x ++ y).take 1 = x.take 1 :=
  List.take_append_of_le_length (List.length_pos_iff.2 h)

section ahead

variable {d D : List Bytes} {prev : Option Nat} {w : Nat}

/-- The code that the compressor emits is known to the decoder, or is the one just made (R206). -/
theorem LzwAhead.stands (h : LzwAhead d prev D w) : LzwStands d prev w (D.getD w []) := by
  have hlearns := h.learns
  have hcode := h.code
  cases prev with
  | none =>
    obtain rfl : d = D := hlearns
    rw [h.first rfl, Tables.dictSeed_length] at hcode
    exact .inl ⟨rfl, hcode, rfl⟩
  | some pc =>
    have hpc := h.later pc rfl
    simp only [lzwAfter, lzwGrow] at hlearns
    split at hlearns
    · next hfree =>
      obtain hold | hmade := Nat.lt_or_ge w d.length
      · refine .inr (.inl ⟨pc, rfl, hold, ?_⟩)
        rw [← hlearns, List.getD_append _ _ _ _ hold]
      · rw [← hlearns, List.length_append, List.length_singleton] at hcode
        obtain rfl : w = d.length := by omega
        refine .inr (.inr ⟨pc, rfl, rfl, hfree, ?_⟩)
        have hprev : D.getD pc [] = d.getD pc [] := by rw [← hlearns, List.getD_append _ _ _ _ hpc]
        have hne : d.getD pc [] ≠ [] := hprev ▸ h.dict.getD_ne_nil (hpc.trans h.code)
        have hstring : D.getD d.length [] = d.getD pc [] ++ (D.getD d.length []).take 1 := by
          conv_lhs => rw [← hlearns]
          rw [List.getD_eq_getElem?_getD, List.getElem?_concat_length, Option.getD_some]
        have hhead : (D.getD d.length []).take 1 = (d.getD pc []).take 1 := by rw [hstring, take_one_append hne]
        rw [hstring, hhead]
    · subst hlearns
      exact .inr (.inl ⟨pc, rfl, hcode, rfl⟩)

/-- The phrase grows by a byte. -/
theorem LzwAhead.grown (h : LzwAhead d prev D w) {b : Byte} {e : Nat}
    (he : D.findIdx? (· == D.getD w [] ++ [b]) = some e) : LzwAhead d prev D e := by
  obtain ⟨hlt, hstring⟩ := getD_of_findIdx? he
  refine ⟨h.dict, hlt, ?_, h.first, h.later⟩
  have hlearns := h.learns
  cases prev with
  | none => exact hlearns
  | some pc => rwa [lzwAfter, hstring, take_one_append (h.dict.getD_ne_nil h.code)]

/-- The code of the phrase is emitted, and the next phrase is the byte `b`. -/
theorem LzwAhead.emitted (h : LzwAhead d prev D w) (b : Byte) :
    LzwAhead D (some w) (lzwGrow D (D.getD w [] ++ [b])) b.toNat := by
  have hgrow := h.dict.grow (x := D.getD w [] ++ [b]) (by simp)
  refine ⟨hgrow, hgrow.byte_lt b, ?_, nofun, fun pc hpc => Option.some.inj hpc ▸ h.code⟩
  rw [lzwAfter, hgrow.getD_byte]
  rfl

/-- The codes of the greedy parse spell the phrase and what follows it. -/
theorem LzwAhead.spells (h : LzwAhead d prev D w) (xs : Bytes) :
    LzwSpells d prev (lzwCodes D w xs) (D.getD w [] ++ xs) := by
  induction xs generalizing d prev D w with
  | nil => exact .code (h.code.trans_le h.dict.cap) h.stands .done
  | cons b xs ih =>
    cases he : D.findIdx? (· == D.getD w [] ++ [b]) with
    | some e =>
      have hrest := ih (h.grown he)
      rw [(getD_of_findIdx? he).2, List.append_assoc] at hrest
      rwa [lzwCodes_of_found he]
    | none =>
      have hnext := h.emitted b
      have hrest := ih hnext
      rw [hnext.dict.getD_byte] at hrest
      rw [lzwCodes_of_new he]
      exact .code (h.code.trans_le h.dict.cap) h.stands (h.learns.symm ▸ hrest)

end ahead

/-- The codes of the greedy parse of a whole input. -/
theorem lzwCodes_spells (b : Byte) (xs : Bytes) :
    LzwSpells Tables.dictSeed none (lzwCodes Tables.dictSeed b.toNat xs) (b :: xs) := by
  have hstart : LzwAhead Tables.dictSeed none Tables.dictSeed b.toNat :=
    ⟨lzwDict_seed, lzwDict_seed.byte_lt b, rfl, fun _ => rfl, nofun⟩
  have hspells := hstart.spells xs
  rwa [lzwDict_seed.getD_byte] at hspells

/-! ## The packed codes (30_encoding.md R93) -/

/-- The bytes of the codes where `nacc` bits, of the value `acc`, wait, with the padding (R203). -/
def lzwPack (nacc acc : Nat) : List Nat → Bytes
  | [] => flushBytes nacc acc
  | c :: cs => codeBytes nacc acc c ++ lzwPack (naccAfter nacc) (accAfter nacc c) cs

theorem codeBytes_length (nacc acc c : Nat) : (codeBytes nacc acc c).length = if nacc = 0 then 1 else 2 := by
  unfold codeBytes
  split <;> rfl

theorem flushBytes_length (nacc acc : Nat) : (flushBytes nacc acc).length = if nacc = 0 then 0 else 1 := by
  unfold flushBytes
  split <;> rfl

theorem lzwPack_length (nacc acc : Nat) (cs : List Nat) :
    cs.length ≤ (lzwPack nacc acc cs).length ∧ (lzwPack nacc acc cs).length ≤ 2 * cs.length + 1 := by
  induction cs generalizing nacc acc with
  | nil =>
    rw [lzwPack, flushBytes_length]
    split <;> simp
  | cons c cs ih =>
    obtain ⟨hle, hge⟩ := ih (naccAfter nacc) (accAfter nacc c)
    rw [lzwPack, List.length_append, codeBytes_length, List.length_cons]
    split <;> omega

/-- Two half bytes make a byte. -/
theorem ofNat_halves {a v : Nat} (ha : a < 16) (hv : v < 16) :
    BitVec.ofNat 8 (a * 16 + v) = BitVec.ofNat 4 a ++ BitVec.ofNat 4 v := by
  refine BitVec.eq_of_toNat_eq ?_
  rw [BitVec.toNat_append, BitVec.toNat_ofNat, BitVec.toNat_ofNat, BitVec.toNat_ofNat, Nat.mod_eq_of_lt ha,
    Nat.mod_eq_of_lt hv, ← Nat.shiftLeft_add_eq_or_of_lt hv, Nat.shiftLeft_eq]
  omega

/-- A field of a code as a number. -/
theorem extractLsb'_code {c : Nat} (hc : c < 4096) (start len : Nat) :
    (BitVec.ofNat 12 c).extractLsb' start len = BitVec.ofNat len (c / 2 ^ start) := by
  refine BitVec.eq_of_toNat_eq ?_
  rw [BitVec.extractLsb'_toNat, BitVec.toNat_ofNat, BitVec.toNat_ofNat, Nat.mod_eq_of_lt hc, Nat.shiftRight_eq_div_pow]

/-- Where half a byte waits, it comes first. -/
theorem lzwPack_half {acc : Nat} (ha : acc < 16) {cs : List Nat} (hcs : ∀ c ∈ cs, c < 4096) :
    ∃ (low : BitVec 4) (rest : Bytes), lzwPack 4 acc cs = (BitVec.ofNat 4 acc ++ low) :: rest := by
  cases cs with
  | nil =>
    rw [lzwPack, flushBytes, if_neg (by decide), ← Nat.add_zero (acc * 16), ofNat_halves ha (by decide)]
    exact ⟨_, _, rfl⟩
  | cons c cs =>
    have hc := hcs c (List.mem_cons_self ..)
    rw [lzwPack, codeBytes, if_neg (by decide), ofNat_halves ha (by omega)]
    exact ⟨_, _, rfl⟩

/-- The decoder reads the first of the packed codes. -/
theorem decode_lzwPack {nacc acc c : Nat} {cs : List Nat} (hn : nacc = 0 ∨ nacc = 4) (ha : acc < 2 ^ nacc)
    (hcs : ∀ e ∈ c :: cs, e < 4096) : ∃ b b' rest, lzwPack nacc acc (c :: cs) = b :: b' :: rest ∧
      ∀ more, decode (.lzw nacc) (b :: b' :: more) = .ok (.lzwCode (BitVec.ofNat 12 c)) := by
  have hc : c < 4096 := hcs c (List.mem_cons_self ..)
  obtain rfl | rfl := hn
  · obtain ⟨low, rest, hrest⟩ := lzwPack_half (acc := c % 16) (by omega) fun e he => hcs e (List.mem_cons_of_mem _ he)
    refine ⟨BitVec.ofNat 8 (c / 16), _, rest, congrArg (_ :: ·) hrest, fun more => ?_⟩
    have hread := decode_lzw_high (BitVec.ofNat 12 c) low more
    have hlow : BitVec.ofNat 4 (c / 2 ^ 0) = BitVec.ofNat 4 (c % 16) :=
      BitVec.eq_of_toNat_eq (by simp only [BitVec.toNat_ofNat]; omega)
    rwa [extractLsb'_code hc, extractLsb'_code hc, hlow] at hread
  · refine ⟨BitVec.ofNat 8 (acc * 16 + c / 256), BitVec.ofNat 8 (c % 256), _, rfl, fun more => ?_⟩
    have hread := decode_lzw_low (BitVec.ofNat 4 acc) (BitVec.ofNat 12 c) more
    have hlow : BitVec.ofNat 8 (c / 2 ^ 0) = BitVec.ofNat 8 (c % 256) :=
      BitVec.eq_of_toNat_eq (by simp only [BitVec.toNat_ofNat]; omega)
    rw [extractLsb'_code hc, extractLsb'_code hc, hlow] at hread
    rwa [ofNat_halves ha (by omega)]

/-! ## The decoder (R205) -/

theorem LzwSpells.codes_lt {d : List Bytes} {prev : Option Nat} {cs : List Nat} {x : Bytes}
    (h : LzwSpells d prev cs x) : ∀ c ∈ cs, c < 4096 := by
  induction h with
  | done => exact fun _ hc => absurd hc List.not_mem_nil
  | code hc _ _ ih => exact List.forall_mem_cons.2 ⟨hc, ih⟩

/-- `t` is the decoder over the input of `s`, with the recorded length `n`, before the codes `cs`, which are the rest of
the code stream; nothing has been cut so far. -/
structure State.LzwBefore (s t : State) (n : Nat) (d : List Bytes) (prev : Option Nat) (cs : List Nat) : Prop where
  phase : t.phase = .lzwD
  recorded : t.regs.n = n
  total : t.regs.total = t.regs.outCount
  dict : t.tabs.dict = d
  nextCode : t.regs.nextCode = d.length
  prevCode : t.regs.prevCode = prev
  half : t.regs.bp % 8 = 0 ∨ t.regs.bp % 8 = 4
  stream : ∃ acc, acc < 2 ^ (t.regs.bp % 8) ∧ s.inputBytes.drop (8 + t.regs.bp / 8) = lzwPack (t.regs.bp % 8) acc cs

section decoder

variable {s t : State} {out : Bytes} {n : Nat} {d : List Bytes} {prev : Option Nat}

/-- The decoder reads the next code back. -/
theorem State.Running.nextToken_lzw (h : s.Running t out) {c : Nat} {cs : List Nat}
    (hb : s.LzwBefore t n d prev (c :: cs)) (hcs : ∀ e ∈ c :: cs, e < 4096) :
    t.nextToken = some (.ok (.lzwCode (BitVec.ofNat 12 c))) := by
  obtain ⟨acc, hacc, hstream⟩ := hb.stream
  obtain ⟨b, b', rest, hbytes, hread⟩ := decode_lzwPack hb.half hacc hcs
  rw [hbytes] at hstream
  obtain ⟨more, hwindow⟩ := h.window_eq (bs := [b, b']) (len := 3) hstream Nat.two_pos (Nat.le_succ 2)
  have hlen := congrArg List.length hstream
  rw [List.length_drop, s.inputBytes_length, ← h.nIn, List.length_cons, List.length_cons] at hlen
  have hhalf := hb.half
  rw [State.nextToken, fetchBytes_lzw hb.phase, if_pos (by omega), hwindow]
  exact congrArg some (hread more)

/-- The decoder's dictionary after the string `y`. -/
theorem State.LzwBefore.learns {cs : List Nat} (hb : s.LzwBefore t n d prev cs) (y : Bytes) :
    t.lzwLearned y = lzwAfter d prev y ∧ t.lzwNextCode = (lzwAfter d prev y).length := by
  cases prev with
  | none =>
    obtain ⟨hdict, hnext⟩ := State.lzwLearned_first hb.prevCode y
    exact ⟨hdict.trans hb.dict, hnext.trans hb.nextCode⟩
  | some pc =>
    obtain ⟨hdict, hnext⟩ := State.lzwLearned_later hb.prevCode y
    rw [hdict, hnext, State.dictAt, hb.dict, hb.nextCode]
    refine ⟨rfl, ?_⟩
    simp only [lzwAfter, lzwGrow]
    split
    · rw [List.length_append, List.length_singleton]
    · rfl

/-- Past the first code. -/
theorem State.LzwBefore.next {c : Nat} {cs : List Nat} {y : Bytes} (hb : s.LzwBefore t n d prev (c :: cs)) :
    s.LzwBefore (t.lzwDecoded c y (t.putAll y)) n (lzwAfter d prev y) (some c) cs where
  phase := hb.phase
  recorded := hb.recorded
  total := congrArg (· + y.length) hb.total
  dict := (hb.learns y).1
  nextCode := (hb.learns y).2
  prevCode := rfl
  half := by
    have hhalf := hb.half
    show (t.regs.bp + 12) % 8 = 0 ∨ (t.regs.bp + 12) % 8 = 4
    omega
  stream := by
    obtain ⟨acc, hacc, hstream⟩ := hb.stream
    have hhalf := hb.half
    have hbits : (t.regs.bp + 12) % 8 = naccAfter (t.regs.bp % 8) := by
      unfold naccAfter
      split <;> omega
    have hplace : 8 + (t.regs.bp + 12) / 8 = 8 + t.regs.bp / 8 + (codeBytes (t.regs.bp % 8) acc c).length := by
      rw [codeBytes_length]
      split <;> omega
    show ∃ acc, acc < 2 ^ ((t.regs.bp + 12) % 8) ∧
      s.inputBytes.drop (8 + (t.regs.bp + 12) / 8) = lzwPack ((t.regs.bp + 12) % 8) acc cs
    rw [hbits, hplace, ← List.drop_drop, hstream, lzwPack, List.drop_left]
    exact ⟨_, accAfter_lt hhalf c, rfl⟩

theorem State.LzwBefore.no_code_left (h : s.Running t out) (hb : s.LzwBefore t n d prev []) :
    8 * (t.regs.nIn - 8) < t.regs.bp + 12 := by
  obtain ⟨acc, -, hstream⟩ := hb.stream
  have hlen := congrArg List.length hstream
  rw [List.length_drop, s.inputBytes_length, ← h.nIn, lzwPack, flushBytes_length] at hlen
  have hhalf := hb.half
  split at hlen <;> omega

/-- The loop of the decoder over the codes that are left. -/
theorem runUnits_lzwD {cs : List Nat} {x : Bytes} (hx : LzwSpells d prev cs x) {t : State} {out : Bytes} {fuel : Nat}
    (h : s.Running t out) (hb : s.LzwBefore t (out ++ x).length d prev cs) (hlen : (out ++ x).length < 2 ^ 64) :
    s.EndsWithin (out ++ x) (runUnits (cs.length + 1 + fuel) t) := by
  induction hx generalizing t out with
  | done =>
    rw [List.append_nil] at *
    rw [List.length_nil, Nat.zero_add, Nat.add_comm]
    have hu := unitOfWork_lzwD_end hb.phase (hb.no_code_left h)
    rw [lzwDEnd_of_le (by rw [hb.total, h.outCount, hb.recorded])] at hu
    exact h.runUnits_endOp hlen hu fuel
  | @code d prev c cs y x hc hy hcs ih =>
    have hcodes := (LzwSpells.code hc hy hcs).codes_lt
    have hu : unitOfWork t = t.settle (lzwCode (BitVec.ofNat 12 c) t) := unitOfWork_of_token (h.nextToken_lzw hb hcodes)
    have hcode : (BitVec.ofNat 12 c).toNat = c := Nat.mod_eq_of_lt hc
    have hstring : lzwString (BitVec.ofNat 12 c).toNat t = some y :=
      lzwString_of_known (by simpa only [hcode, hb.prevCode, hb.nextCode, State.dictAt, hb.dict, LzwStands] using hy)
    have hcut : y.take (t.regs.n - t.regs.outCount) = y := by
      rw [hb.recorded, h.outCount, List.length_append, List.length_append]
      exact List.take_of_length_le (by omega)
    rw [lzwCode_of_string hstring, hcut, hcode, State.emitGo] at hu
    rw [List.length_cons, Nat.add_right_comm _ 1 1, Nat.add_right_comm _ 1 fuel]
    refine h.runUnits_emitSeq hu fun hnext => ?_
    rw [← List.append_assoc] at hb hlen
    exact ih { hnext with inputs := hnext.inputs.trans (State.keepsInputs_engine _) } hb.next hlen

end decoder

/-- The frame of an input of `n` bytes whose codes are `cs` (30_encoding.md R92). -/
def lzwFrame (n : Nat) (cs : List Nat) : Bytes := u64le n ++ lzwPack 0 0 cs

/-- DECOMPRESS.LZW over the frame of codes that spell `x`. -/
theorem givesWithinCap_decompressLzw {s : State} (hf : s.inputFits) {x : Bytes} {cs : List Nat}
    (hx : LzwSpells Tables.dictSeed none cs x) (hin : s.inputBytes = lzwFrame x.length cs) (hlen : x.length < 2 ^ 64) :
    GivesWithinCap .decompressLzw s x := by
  have hsize := congrArg List.length hin
  rw [s.inputBytes_length, lzwFrame, List.length_append, u64le_length] at hsize
  have hcodes := (lzwPack_length 0 0 cs).1
  have hn : valueLE (s.inputBytes.take 8) = x.length := by
    rw [hin, lzwFrame, List.take_left' (u64le_length _), valueLE_u64le hlen]
  have hpacked : s.inputBytes.drop 8 = lzwPack 0 0 cs := by rw [hin, lzwFrame, List.drop_left' (u64le_length _)]
  have hstream : s.inputBytes.drop (8 + 0 / 8) = lzwPack (0 % 8) 0 cs := hpacked
  obtain ⟨fuel, hfuel⟩ : ∃ fuel, s.fuel = cs.length + 1 + fuel := Nat.exists_eq_add_of_le (by rw [State.fuel]; omega)
  have hbefore : s.LzwBefore (s.start.lzwDBegin x.length) x.length Tables.dictSeed none cs :=
    ⟨rfl, rfl, rfl, rfl, Tables.dictSeed_length.symm, rfl, .inl rfl, 0, Nat.one_pos, hstream⟩
  refine givesWithinCap_of_operate (i := .decompressLzw) rfl rfl nofun nofun ?_
  rw [operate_decompressLzw hf (by omega), hn, hfuel]
  exact runUnits_lzwD hx ((s.start_running .command).lzwDBegin _) hbefore hlen

/-! ## The compressor (R201) -/

/-- `t` is the compressor in its loop, with the dictionary `d` and the phrase `w`. -/
structure State.LzwPacking (t : State) (d : List Bytes) (w : Nat) : Prop where
  phase : t.phase = .lzwC
  dict : t.tabs.dict = d
  nextCode : t.regs.nextCode = d.length
  phrase : t.regs.w = some w
  half : t.regs.nacc = 0 ∨ t.regs.nacc = 4
  waiting : t.regs.acc < 2 ^ t.regs.nacc

section compressor

variable {s t : State} {out : Bytes} {d : List Bytes} {w : Nat}

theorem unitOfWork_lzwC (hp : t.phase = .lzwC) : unitOfWork t = t.settle (turn t lzwUnit lzwCEnd) := by
  rw [unitOfWork, nextToken_lzwC hp]
  dsimp only
  rw [advance_lzwC hp]

/-- The end of the loop: the last code is emitted, and then the operation ends. -/
theorem State.Running.runUnits_lzwCEnd (h : s.Running t out) (hpk : t.LzwPacking d w) (hend : ¬ t.regs.ip < t.regs.nIn)
    (hlen : (out ++ lzwPack t.regs.nacc t.regs.acc [w]).length < 2 ^ 64) (fuel : Nat) :
    s.EndsWithin (out ++ lzwPack t.regs.nacc t.regs.acc [w]) (runUnits (fuel + 2) t) := by
  have hu := unitOfWork_lzwC hpk.phase
  have hlast : codeBytes t.regs.nacc t.regs.acc w ++ flushBytes (naccAfter t.regs.nacc) (accAfter t.regs.nacc w) =
      lzwPack t.regs.nacc t.regs.acc [w] := rfl
  rw [turn, if_neg hend, lzwCEnd_of_waiting hpk.phrase hpk.half hpk.waiting, hlast, State.emitGo] at hu
  generalize lzwPack t.regs.nacc t.regs.acc [w] = y at *
  have hrun := h.runUnits_emitSeq (ys := []) (fuel := fuel + 1) hu fun hnext => ?_
  · rwa [List.append_nil] at hrun
  · have hfin : s.Running (t.lzwEnded w (t.putAll y)) (out ++ y) :=
      { hnext with inputs := hnext.inputs.trans (State.keepsInputs_engine _) }
    rw [List.append_nil]
    exact hfin.runUnits_endOp hlen (unitOfWork_finished rfl) fuel

theorem State.Running.lzwGrown (h : s.Running t out) (e : Nat) : s.Running (t.lzwGrown e) out :=
  { h with inputs := h.inputs.trans t.keepsInputs_engine }

theorem State.Running.lzwEmitted {u : State} (h : s.Running u out) (t : State) (c : Nat) :
    s.Running (t.lzwEmitted c u) out :=
  { h with inputs := h.inputs.trans u.keepsInputs_engine }

theorem State.Running.lzwCBegin {u : State} (h : s.Running u out) (t : State) : s.Running (t.lzwCBegin u) out :=
  { h with inputs := h.inputs.trans u.keepsInputs_engine }

/-- The compressor after a turn that grew its phrase. -/
theorem State.LzwPacking.grown (hpk : t.LzwPacking d w) (e : Nat) : (t.lzwGrown e).LzwPacking d e :=
  { hpk with phrase := rfl }

/-- The compressor after a turn that emitted the code of its phrase. -/
theorem State.LzwPacking.emitted (hpk : t.LzwPacking d w) (u : State) (hu : u.phase = t.phase) :
    (t.lzwEmitted w u).LzwPacking (lzwGrow d (d.getD w [] ++ [t.inAt t.regs.ip])) (t.inAt t.regs.ip).toNat where
  phase := hu.trans hpk.phase
  dict := by
    rw [lzwGrow, ← hpk.nextCode, ← hpk.dict]
    rfl
  nextCode := by
    have hnext : (t.lzwEmitted w u).regs.nextCode = if d.length < 4096 then d.length + 1 else d.length := by
      rw [← hpk.nextCode]
      rfl
    rw [hnext, lzwGrow]
    split
    · rw [List.length_append, List.length_singleton]
    · rfl
  phrase := rfl
  half := naccAfter_cases hpk.half
  waiting := accAfter_lt hpk.half w

/-- The loop of the compressor over what is left of the input. -/
theorem runUnits_lzwC (xs : Bytes) {t : State} {out : Bytes} {d : List Bytes} {w fuel : Nat} (h : s.Running t out)
    (hpk : t.LzwPacking d w) (hd : s.inputBytes.drop t.regs.ip = xs)
    (hlen : (out ++ lzwPack t.regs.nacc t.regs.acc (lzwCodes d w xs)).length < 2 ^ 64) :
    s.EndsWithin (out ++ lzwPack t.regs.nacc t.regs.acc (lzwCodes d w xs)) (runUnits (xs.length + 2 + fuel) t) := by
  induction xs generalizing t out d w with
  | nil =>
    rw [List.length_nil, Nat.zero_add, Nat.add_comm]
    exact h.runUnits_lzwCEnd hpk (h.of_drop_nil hd) hlen fuel
  | cons b xs ih =>
    obtain ⟨hlt, hb, hrest⟩ := h.of_drop_cons hd
    have hu := unitOfWork_lzwC hpk.phase
    rw [turn, if_pos hlt] at hu
    rw [List.length_cons, Nat.add_right_comm _ 1 2, Nat.add_right_comm _ 1 fuel]
    have hfind : t.dictFind (t.dictAt w ++ [t.inAt t.regs.ip]) = d.findIdx? (· == d.getD w [] ++ [b]) := by
      rw [State.dictFind, State.dictAt, hpk.dict, hb]
    cases he : d.findIdx? (· == d.getD w [] ++ [b]) with
    | some e =>
      rw [lzwUnit_of_found hpk.phrase (hfind.trans he), State.settle_ok] at hu
      rw [lzwCodes_of_found he] at hlen ⊢
      rw [runUnits_busy h.status, hu]
      exact ih (h.lzwGrown e) (hpk.grown e) hrest hlen
    | none =>
      rw [lzwUnit_of_new hpk.phrase hpk.half hpk.waiting (hfind.trans he), State.emitGo] at hu
      rw [lzwCodes_of_new he, lzwPack] at hlen ⊢
      rw [← List.append_assoc] at hlen
      refine h.runUnits_emitSeq hu fun hnext => ?_
      have hpk' := hpk.emitted (t.putAll (codeBytes t.regs.nacc t.regs.acc w)) rfl
      rw [hb] at hpk'
      exact ih (hnext.lzwEmitted t w) hpk' hrest hlen

end compressor

/-- The result of COMPRESS.LZW (40_commands_contract.md R127 for the empty input). -/
def lzwOutput : Bytes → Bytes
  | [] => []
  | b :: xs => lzwFrame (xs.length + 1) (lzwCodes Tables.dictSeed b.toNat xs)

theorem compressLzw_endsWithin {s : State} (hf : s.inputFits) (hlt : s.inLen.toNat < 2 ^ 56) :
    s.EndsWithin (lzwOutput s.inputBytes) (operate (beginCompress .lzw) s) := by
  have hn := s.inputBytes_length
  cases hin : s.inputBytes with
  | nil =>
    rw [hin] at hn
    exact operate_empty hf hn.symm (if_pos hn.symm)
  | cons b xs =>
    rw [hin, List.length_cons] at hn
    have hcodes := lzwCodes_length_le Tables.dictSeed b.toNat xs
    have hpacked := (lzwPack_length 0 0 (lzwCodes Tables.dictSeed b.toNat xs)).2
    have h0 : s.inLen.toNat ≠ 0 := by omega
    have hbegin : beginCompress .lzw s.start = lzwCStart s.start := if_neg h0
    obtain ⟨fuel, hfuel⟩ : ∃ fuel, s.fuel = xs.length + 2 + fuel := Nat.exists_eq_add_of_le (by rw [State.fuel]; omega)
    have hstart := s.start_running .command
    obtain ⟨-, hb, hrest⟩ := hstart.of_drop_cons (i := 0) hin
    have hpk : (s.start.lzwCBegin (s.start.putAll (u64le s.inLen.toNat))).LzwPacking Tables.dictSeed b.toNat :=
      ⟨rfl, rfl, Tables.dictSeed_length.symm, congrArg (fun b : Byte => some b.toNat) hb, .inl rfl, Nat.one_pos⟩
    rw [operate_of_inputFits hf, hbegin, lzwCStart_eq, hfuel, lzwOutput, lzwFrame, hn, State.emitGo,
      ← List.nil_append (u64le s.inLen.toNat ++ _)]
    refine hstart.settle_emitSeq (ys := lzwPack 0 0 _) fun hnext => ?_
    refine runUnits_lzwC xs (hnext.lzwCBegin s.start) hpk hrest ?_
    rw [List.nil_append, List.length_append, u64le_length]
    show 8 + (lzwPack 0 0 (lzwCodes Tables.dictSeed b.toNat xs)).length < 2 ^ 64
    omega

/-- Settles O39: the codes of the greedy parse spell the input. -/
theorem lzwRoundTrip : Obligations.LzwRoundTrip := by
  intro s hf hlt
  refine ⟨lzwOutput s.inputBytes, fun cap hcap => ?_, fun u hu huf hin => ?_⟩
  · have hend := compressLzw_endsWithin ((s.withOutCap_inputFits cap).2 hf) hlt
    exact ⟨_, exec_of_beginOf rfl _, hend.result hcap⟩
  · have hn := s.inputBytes_length
    rw [← hn] at hu hlt
    generalize s.inputBytes = x at *
    cases x with
    | nil =>
      have hempty : u.inLen.toNat = 0 := by rw [← u.inputBytes_length, hin]; rfl
      exact (givesWithinCap_of_operate (i := .decompressLzw) rfl rfl nofun nofun
        (operate_empty huf hempty (if_pos hempty))).1 hu
    | cons b xs => exact (givesWithinCap_decompressLzw huf (lzwCodes_spells b xs) hin (by omega)).1 hu

end Sys2Proof.Machine
end

section
/-! The tokens of Huffman (46_huffman.md): the tags, which make the records of the tree (O42), and the bit, which walks
them (O43). -/

namespace Sys2Proof.Machine

/-! ## The place that `Des` fills (R236) -/

/-- The arena with `v` at the place that asked for it. -/
def Slot.fill (v : Option Nat) (tree : List TreeRec) : Slot → List TreeRec
  | .root => tree
  | .left p => tree.modify p (TreeRec.withLeft v)
  | .right p => tree.modify p (TreeRec.withRight v)

/-- The root register with `v` at the place that asked for it. -/
def Slot.fillRoot (v root : Option Nat) : Slot → Option Nat
  | .root => v
  | .left _ | .right _ => root

/-- The place is the root or a child of one of the first `len` records. -/
def Slot.Within (len : Nat) : Slot → Prop
  | .root => True
  | .left p | .right p => p < len

theorem State.fillSlot_of_cons {s : State} {sl : Slot} {rest : List Slot} (h : s.regs.slots = sl :: rest)
    (v : Option Nat) (more : List Slot) : s.fillSlot v more = { s with
      tabs := { s.tabs with tree := sl.fill v s.tabs.tree }
      regs := { s.regs with root := sl.fillRoot v s.regs.root, slots := more ++ rest } } := by
  rw [State.fillSlot, h]
  cases sl <;> rfl

theorem State.fillSlot_of_nil {s : State} (h : s.regs.slots = []) (v : Option Nat) (more : List Slot) :
    s.fillSlot v more = { s with regs := { s.regs with slots := more } } := by
  rw [State.fillSlot, h]

@[simp] theorem Slot.fill_length (v : Option Nat) (tree : List TreeRec) (sl : Slot) :
    (sl.fill v tree).length = tree.length := by
  cases sl <;> simp [Slot.fill]

theorem modify_append {α : Type} (f : α → α) {as : List α} {i : Nat} (h : i < as.length) (bs : List α) :
    (as ++ bs).modify i f = as.modify i f ++ bs := by
  induction as generalizing i with
  | nil => exact absurd h (Nat.not_lt_zero i)
  | cons a as ih =>
    cases i with
    | zero => rfl
    | succ i => exact congrArg (a :: ·) (ih (Nat.lt_of_succ_lt_succ h))

theorem getElem?_append_add {α : Type} (as bs : List α) (k : Nat) : (as ++ bs)[as.length + k]? = bs[k]? := by
  rw [List.getElem?_append_right (Nat.le_add_right ..), Nat.add_sub_cancel_left]

/-- Filling a place leaves the records after it as they are. -/
theorem Slot.fill_append {sl : Slot} {tree : List TreeRec} (h : sl.Within tree.length) (v : Option Nat)
    (recs : List TreeRec) : sl.fill v (tree ++ recs) = sl.fill v tree ++ recs := by
  cases sl with
  | root => rfl
  | left p => exact modify_append _ h recs
  | right p => exact modify_append _ h recs

/-! ## The tags (R236) -/

/-- The records `recs` made, and the cursor past a tag of `len` bytes. -/
def State.withRecs (s : State) (recs : List TreeRec) (len : Nat) : State :=
  { s with
    tabs := { s.tabs with tree := s.tabs.tree ++ recs }
    regs := { s.regs with tp := s.regs.tp + len } }

/-- The state after a tag of `len` bytes that makes the records `recs`, gives `v` to the place that asked for it and
asks for the places `more`. -/
def State.tagged (s : State) (v : Option Nat) (recs : List TreeRec) (more : List Slot) (len : Nat) : State :=
  (s.withRecs recs len).fillSlot v more

theorem hufInt_eq (s : State) : hufInt s = .ok (s.tagged (some s.tabs.tree.length) [.internal none none]
    [.left s.tabs.tree.length, .right s.tabs.tree.length] 1) := rfl

theorem hufLeaf_eq (sym : Byte) (s : State) :
    hufLeaf sym s = .ok (s.tagged (some s.tabs.tree.length) [.leaf sym] [] 2) := rfl

theorem hufNull_eq (s : State) : hufNull s = .ok (s.tagged none [] [] 1) := by
  rw [State.tagged, State.withRecs, List.append_nil]
  rfl

/-- What a tag makes of the state, in the terms of the statement. -/
structure State.Tags (s t : State) (v : Option Nat) (recs : List TreeRec) (more : List Slot) (len : Nat) : Prop where
  outside : s.KeepsOutside t
  out : s.KeepsOut t
  fills : s.Fills t v
  tabs : t.tabs = { s.tabs with tree := t.tabs.tree }
  length : t.tabs.tree.length = s.tabs.tree.length + recs.length
  made : ∀ k, k < recs.length → t.tabs.tree[s.tabs.tree.length + k]? = recs[k]?
  regs : t.regs = { s.regs with
    tp := s.regs.tp + len, root := t.regs.root, slots := more ++ s.regs.slots.tail }

section tag

variable {s : State}

theorem State.tagged_of_cons {sl : Slot} {rest : List Slot} (h : s.regs.slots = sl :: rest)
    (hw : sl.Within s.tabs.tree.length) (v : Option Nat) (recs : List TreeRec) (more : List Slot) (len : Nat) :
    s.tagged v recs more len = { s with
      tabs := { s.tabs with tree := sl.fill v s.tabs.tree ++ recs }
      regs := { s.regs with
        tp := s.regs.tp + len, root := sl.fillRoot v s.regs.root, slots := more ++ rest } } := by
  rw [← Slot.fill_append hw]
  exact State.fillSlot_of_cons (s := s.withRecs recs len) h v more

theorem State.tagged_of_nil (h : s.regs.slots = []) (v : Option Nat) (recs : List TreeRec) (more : List Slot)
    (len : Nat) : s.tagged v recs more len = { s with
      tabs := { s.tabs with tree := s.tabs.tree ++ recs }
      regs := { s.regs with tp := s.regs.tp + len, slots := more } } :=
  State.fillSlot_of_nil (s := s.withRecs recs len) h v more

theorem State.SlotReady.within (h : s.SlotReady) {sl : Slot} {rest : List Slot} (hs : s.regs.slots = sl :: rest) :
    sl.Within s.tabs.tree.length := by
  rw [State.SlotReady, hs] at h
  cases sl <;> exact h

/-- What is at the place `sl` after it was filled, and at the other records. -/
theorem State.fills_of_cons {t : State} {sl : Slot} {rest : List Slot} {v : Option Nat} (hs : s.regs.slots = sl :: rest)
    (hroot : t.regs.root = sl.fillRoot v s.regs.root)
    (htree : ∀ q, q < s.tabs.tree.length → t.tabs.tree[q]? = (sl.fill v s.tabs.tree)[q]?) : s.Fills t v := by
  rw [State.Fills, hs, List.head?_cons]
  have hchild {p q : Nat} {f : TreeRec → TreeRec} {l r l' r' : Option Nat}
      (hq : s.tabs.tree[p]? = some (.internal l r)) (hf : f (.internal l r) = .internal l' r') :
      (s.tabs.tree.modify p f)[p]? = some (.internal l' r') := by
    rw [List.getElem?_modify_eq, hq]
    exact congrArg some hf
  cases sl with
  | root => exact ⟨hroot, htree⟩
  | left p | right p =>
    refine ⟨hroot, fun l r hp => ?_, fun q hq hne => ?_⟩
    · rw [htree p (List.getElem?_eq_some_iff.1 hp).1]
      exact hchild (q := p) hp rfl
    · rw [htree q hq]
      exact List.getElem?_modify_ne _ _ hne.symm

theorem State.tagged_tags (hready : s.SlotReady) (v : Option Nat) (recs : List TreeRec) (more : List Slot)
    (len : Nat) : s.Tags (s.tagged v recs more len) v recs more len := by
  cases hs : s.regs.slots with
  | nil =>
    rw [State.tagged_of_nil hs]
    refine ⟨⟨s.keepsInputs_engine, ⟨rfl, rfl⟩, rfl, rfl, rfl, rfl⟩, fun _ => rfl, ?_, rfl, List.length_append,
      fun k _ => getElem?_append_add .. , by rw [hs, List.tail_nil, List.append_nil]⟩
    rw [State.Fills, hs]
    exact ⟨rfl, fun q hq => List.getElem?_append_left hq⟩
  | cons sl rest =>
    rw [State.tagged_of_cons hs (hready.within hs)]
    have hlen := sl.fill_length v s.tabs.tree
    refine ⟨⟨s.keepsInputs_engine, ⟨rfl, rfl⟩, rfl, rfl, rfl, rfl⟩, fun _ => rfl, ?_, rfl, ?_, fun k _ => ?_,
      by rw [hs, List.tail_cons]⟩
    · exact State.fills_of_cons hs rfl fun q hq => List.getElem?_append_left (hlen.symm ▸ hq)
    · exact List.length_append.trans (congrArg (· + recs.length) hlen)
    · exact hlen ▸ getElem?_append_add ..

end tag

/-- A token whose effect is that of a tag. -/
theorem tags_of_exec {s : State} (hready : s.SlotReady) {i : Instr} (hi : beginOf i = none) (hc : i ≠ .clear)
    {v : Option Nat} {recs : List TreeRec} {more : List Slot} {len : Nat}
    (h : tokenEffect i s = .ok (s.tagged v recs more len)) :
    ∃ t, exec i s = .next t ∧ s.Tags t v recs more len :=
  ⟨_, by rw [exec_token hi hc, h, State.settle_ok], State.tagged_tags hready v recs more len⟩

/-- Settles O42: each tag by what it makes and asks for. -/
theorem huffmanTagsBuildTheTree : Obligations.HuffmanTagsBuildTheTree := by
  intro s hready
  refine ⟨?int, fun sym => ?leaf, ?null⟩
  case int =>
    obtain ⟨t, ht, h⟩ := tags_of_exec (i := .hufInt) hready rfl nofun (hufInt_eq s)
    exact ⟨t, ht, h.outside, h.out, h.fills, h.tabs, h.length, h.made 0 Nat.one_pos, h.regs⟩
  case leaf =>
    obtain ⟨t, ht, h⟩ := tags_of_exec (i := .hufLeaf sym) hready rfl nofun (hufLeaf_eq sym s)
    exact ⟨t, ht, h.outside, h.out, h.fills, h.tabs, h.length, h.made 0 Nat.one_pos, h.regs⟩
  case null =>
    obtain ⟨t, ht, h⟩ := tags_of_exec (i := .hufNull) hready rfl nofun (hufNull_eq s)
    exact ⟨t, ht, h.outside, h.out, h.fills, h.tabs, h.length, h.regs⟩

/-! ## The bit (R238) -/

section bit

variable {d : BitVec 1} {s : State} {q child : Nat} {l r : Option Nat}

/-- The walk arrives at a leaf: its symbol is emitted, and the next symbol begins at the root. -/
def Regs.afterHufLeaf (r : Regs) : Regs := { r with node := r.root, bp := r.bp + 1 }

/-- The walk goes on at an internal record. -/
def State.hufDown (s : State) (child : Nat) : State :=
  { s with regs := { s.regs with node := some child, bp := s.regs.bp + 1 } }

theorem hufBit_of_leaf (hn : s.regs.node = some q) (hq : s.tabs.tree[q]? = some (.internal l r))
    (hc : (if d = 0 then l else r) = some child) {sym : Byte} (hs : s.tabs.tree[child]? = some (.leaf sym)) :
    hufBit d s = s.emitThen [sym] Regs.afterHufLeaf := by
  simp only [hufBit, hn, Option.bind_some, hq, hc, hs]
  rw [State.emitThen, State.emitSeq_singleton]
  rfl

theorem hufBit_of_internal (hn : s.regs.node = some q) (hq : s.tabs.tree[q]? = some (.internal l r))
    (hc : (if d = 0 then l else r) = some child) {l' r' : Option Nat}
    (hs : s.tabs.tree[child]? = some (.internal l' r')) : hufBit d s = .ok (s.hufDown child) := by
  simp only [hufBit, hn, Option.bind_some, hq, hc, hs]
  rfl

theorem hufBit_of_no_child (hn : s.regs.node = some q) (hq : s.tabs.tree[q]? = some (.internal l r))
    (hc : (if d = 0 then l else r) = none) : hufBit d s = .error .corruptPayload := by
  simp only [hufBit, hn, Option.bind_some, hq, hc]

/-- There is no way on from no node and from a leaf. -/
theorem hufBit_of_no_children
    (h : s.regs.node = none ∨ ∃ q sym, s.regs.node = some q ∧ s.tabs.tree[q]? = some (.leaf sym)) :
    hufBit d s = .error .corruptPayload := by
  obtain hn | ⟨q, sym, hn, hq⟩ := h
  · simp only [hufBit, hn, Option.bind_none]
  · simp only [hufBit, hn, Option.bind_some, hq]

theorem exec_hufBit (d : BitVec 1) (s : State) : exec (.hufBit d) s = .next (s.settle (hufBit d s)) :=
  exec_token (i := .hufBit d) rfl nofun s

/-- A bit that raises, in the terms of the statement. -/
theorem hufBit_fails {k : ErrKind} (h : hufBit d s = .error k) :
    ∃ t, exec (.hufBit d) s = .next t ∧ t.Failed k ∧ s.KeepsInputs t ∧ s.KeepsArgs t :=
  ⟨_, exec_hufBit d s, by rw [h]; exact s.raise_fails k⟩

end bit

/-- Settles O43: by what the node is, which child the bit names, and whether there is room for a symbol. -/
theorem huffmanBitWalksTheTree : Obligations.HuffmanBitWalksTheTree := by
  intro d s
  refine ⟨fun q l r hn hq => ⟨fun child sym hc hs hfull => ?noRoom, fun child sym hc hs hroom => ?leaf,
    fun child l' r' hc hs => ?internal, fun hc => ?noChild⟩, fun h => hufBit_fails (hufBit_of_no_children h)⟩
  case noRoom =>
    have hexec := exec_hufBit d s
    rw [hufBit_of_leaf hn hq hc hs] at hexec
    exact fails_of_emitThen hexec rfl hfull
  case leaf =>
    have hexec := exec_hufBit d s
    rw [hufBit_of_leaf hn hq hc hs] at hexec
    obtain ⟨t, ht, happ, hout, htabs, hregs⟩ := writes_of_emitThen hexec rfl hroom (fun _ => rfl) fun _ => rfl
    exact ⟨t, ht, happ, hout, htabs, hregs⟩
  case internal =>
    have hexec := exec_hufBit d s
    rw [hufBit_of_internal hn hq hc hs, State.settle_ok] at hexec
    exact ⟨_, hexec, fun _ => rfl, ⟨s.keepsInputs_engine, ⟨rfl, rfl⟩, rfl, rfl, rfl, rfl⟩, rfl, rfl⟩
  case noChild => exact hufBit_fails (hufBit_of_no_child hn hq hc)

end Sys2Proof.Machine
end

section
/-! DECOMPRESS.HUFFMAN (46_huffman.md R235): its tests over the header, after the tree and after the walk, and the
length of a success (O47). -/

namespace Sys2Proof.Machine

/-! ## The header (46_huffman.md R235) -/

theorem beginDecompress_huffman {s : State} (h : s.inLen.toNat ≠ 0) :
    beginDecompress .huffman s.start = hufDStart s.start := if_neg h

/-- The decoder past its header tests, with the recorded length `n` and the tree length `tl`. -/
def State.hufDBegin (s : State) (n tl : Nat) : State :=
  { s with
    regs := { s.regs with n := n, tl := tl, tp := 0, root := none, slots := [.root], ip := 12 }
    tabs := { s.tabs with tree := [] }
    phase := .hufTree }

theorem State.Running.hufDBegin {s t : State} {out : Bytes} (h : s.Running t out) (n tl : Nat) :
    s.Running (t.hufDBegin n tl) out :=
  { h with inputs := h.inputs.trans t.keepsInputs_engine }

/-- The tests (2) and (3) on a frame that is long enough for its length and its tree length. -/
theorem hufDStart_of_header {s : State} (h : 12 ≤ s.inLen.toNat) :
    hufDStart s.start =
      if 767 < valueLE ((s.inputBytes.drop 8).take 4) then .error .corruptPayload
      else if s.inLen.toNat < 12 + valueLE ((s.inputBytes.drop 8).take 4) + 8 then .error .corruptPayload
      else .ok (s.start.hufDBegin (valueLE (s.inputBytes.take 8)) (valueLE ((s.inputBytes.drop 8).take 4))) := by
  rw [← rdU64_start (by omega), ← rdU32_start h]
  exact if_neg (Nat.not_lt.2 h)

/-! ## The end of the tree (46_huffman.md R235 (5), (6)) -/

section treeEnd

variable {s : State}

theorem nextToken_hufTree_end (hp : s.phase = .hufTree) (hs : s.regs.slots = []) : s.nextToken = none := by
  rw [State.nextToken, fetchBytes_hufTree hp, if_neg (not_not.2 hs)]
  rfl

theorem advance_hufTree (hp : s.phase = .hufTree) : advance s = hufTreeEnd s := by
  rw [advance, hp]

/-- The walk begins at the root, with `tb` bits to go. -/
def State.hufWalk (s : State) (tb : Nat) : State :=
  { s with
    regs := { s.regs with tb := tb, node := s.regs.root, bp := 0, ip := 20 + s.regs.tl }
    phase := .hufBits }

theorem hufTreeEnd_of_ne (h : s.regs.tp ≠ s.regs.tl) : hufTreeEnd s = .error .corruptPayload := if_pos h

theorem hufTreeEnd_of_eq (h : s.regs.tp = s.regs.tl) :
    hufTreeEnd s =
      if s.regs.nIn - 20 - s.regs.tl < (s.rdU64 (12 + s.regs.tl) + 7) / 8 then .error .corruptPayload
      else .ok (s.hufWalk (s.rdU64 (12 + s.regs.tl))) := if_neg (not_not.2 h)

theorem unitOfWork_hufTree_end (hp : s.phase = .hufTree) (hs : s.regs.slots = []) :
    unitOfWork s = s.settle (hufTreeEnd s) := by
  rw [unitOfWork, nextToken_hufTree_end hp hs]
  dsimp only
  rw [advance_hufTree hp]

theorem step_hufTree_end (hh : s.host = []) (hb : s.status = .busy) (hp : s.phase = .hufTree)
    (hs : s.regs.slots = []) : step s = .next (s.settle (hufTreeEnd s)) := by
  rw [step_of_no_token hh hb (hp ▸ nofun) (nextToken_hufTree_end hp hs), advance_hufTree hp]

end treeEnd

/-! ## The end of the walk (46_huffman.md R235 (8)) -/

section walkEnd

variable {s : State}

theorem nextToken_hufBits_end (hp : s.phase = .hufBits) (h : s.regs.n ≤ s.regs.outCount ∨ s.regs.tb ≤ s.regs.bp) :
    s.nextToken = none := by
  rw [State.nextToken, fetchBytes_hufBits hp, if_neg (by omega)]
  rfl

theorem advance_hufBits (hp : s.phase = .hufBits) : advance s = hufDEnd s := by
  rw [advance, hp]

theorem hufDEnd_of_lt (h : s.regs.outCount < s.regs.n) : hufDEnd s = .error .sizeMismatch := if_pos h

theorem hufDEnd_of_le (h : s.regs.n ≤ s.regs.outCount) : hufDEnd s = s.endOp := if_neg (Nat.not_lt.2 h)

theorem hufDEnd_of_le_plain (h : s.regs.n ≤ s.regs.outCount) (hplain : s.regs.ending = .plain) :
    hufDEnd s = .ok s.finish := by
  rw [hufDEnd_of_le h, State.endOp, hplain]

theorem unitOfWork_hufBits_end (hp : s.phase = .hufBits) (h : s.regs.n ≤ s.regs.outCount) :
    unitOfWork s = s.settle s.endOp := by
  rw [unitOfWork, nextToken_hufBits_end hp (.inl h)]
  dsimp only
  rw [advance_hufBits hp, hufDEnd_of_le h]

theorem step_hufBits_end (hh : s.host = []) (hb : s.status = .busy) (hp : s.phase = .hufBits)
    (h : s.regs.n ≤ s.regs.outCount ∨ s.regs.tb ≤ s.regs.bp) : step s = .next (s.settle (hufDEnd s)) := by
  rw [step_of_no_token hh hb (hp ▸ nofun) (nextToken_hufBits_end hp h), advance_hufBits hp]

end walkEnd

/-! ## The loops keep the recorded length -/

/-- `s` is inside the tree or the walk of R235, outside DECODE, with the recorded length `n`, which it has not
passed. -/
structure State.HufDecodes (n : Nat) (s : State) : Prop where
  status : s.status = .busy
  phase : s.phase = .hufTree ∨ s.phase = .hufBits
  ending : s.regs.ending = .plain
  outBase : s.regs.outBase = 0
  recorded : s.regs.n = n
  notPast : s.regs.outCount ≤ n

theorem decodeHufTree_cases {bs : Bytes} {i : Instr} (h : decodeHufTree bs = .ok i) :
    i = .hufInt ∨ (∃ sym, i = .hufLeaf sym) ∨ i = .hufNull := by
  unfold decodeHufTree at h
  split at h
  · cases h
  · split_ifs at h
    · exact .inl (Except.ok.inj h).symm
    · split at h
      · exact .inr (.inl ⟨_, (Except.ok.inj h).symm⟩)
      · cases h
    · exact .inr (.inr (Except.ok.inj h).symm)

/-- The token of a place in the tree is a tag. -/
theorem nextToken_hufTree_ok {s : State} {i : Instr} (hp : s.phase = .hufTree) (h : s.nextToken = some (.ok i)) :
    i = .hufInt ∨ (∃ sym, i = .hufLeaf sym) ∨ i = .hufNull := by
  rw [State.nextToken, fetchBytes_hufTree hp] at h
  split at h
  · have hdecode := Option.some.inj h
    simp only [bind, Except.bind, decode] at hdecode
    exact decodeHufTree_cases hdecode
  · cases h

/-- The token of a place in the walk is a bit, and there are bytes to come. -/
theorem nextToken_hufBits_ok {s : State} {i : Instr} (hp : s.phase = .hufBits) (h : s.nextToken = some (.ok i)) :
    s.regs.outCount < s.regs.n ∧ ∃ d, i = .hufBit d := by
  rw [State.nextToken, fetchBytes_hufBits hp] at h
  split at h
  · next hlt =>
    have hdecode := Option.some.inj h
    simp only [bind, Except.bind, decode] at hdecode
    split at hdecode
    · exact ⟨hlt.1, _, (Except.ok.inj hdecode).symm⟩
    · cases hdecode
  · cases h

/-- A tag writes the root, the arena, the places and the cursor. -/
theorem State.tagged_writes (s : State) (v : Option Nat) (recs : List TreeRec) (more : List Slot) (len : Nat) :
    ∃ tree root slots tp, s.tagged v recs more len = { s with
      tabs := { s.tabs with tree := tree }, regs := { s.regs with root := root, slots := slots, tp := tp } } := by
  unfold State.tagged State.fillSlot
  split <;> exact ⟨_, _, _, _, rfl⟩

section decodes

variable {n : Nat} {s : State}

theorem State.HufDecodes.answers_tag (h : s.HufDecodes n) {r : Run} {v : Option Nat} {recs : List TreeRec}
    {more : List Slot} {len : Nat} (hr : r = .ok (s.tagged v recs more len)) : Answers r (State.HufDecodes n) := by
  obtain ⟨tree, root, slots, tp, e⟩ := s.tagged_writes v recs more len
  rw [hr, e, answers_ok]
  exact ⟨h.status, h.phase, h.ending, h.outBase, h.recorded, h.notPast⟩

theorem State.HufDecodes.answers_hufBit (h : s.HufDecodes n) (hlt : s.regs.outCount < s.regs.n) (d : BitVec 1) :
    Answers (hufBit d s) (State.HufDecodes n) := by
  unfold hufBit
  split
  · split
    · exact answers_error
    · split
      · refine Answers.bind (P := (· = s.put _)) (fun _ ht => (State.emit_ok.1 ht).2) fun _ ht => answers_ok.2 ?_
        subst ht
        exact ⟨h.status, h.phase, h.ending, h.outBase, h.recorded, h.recorded ▸ hlt⟩
      · exact answers_ok.2 ⟨h.status, h.phase, h.ending, h.outBase, h.recorded, h.notPast⟩
  · exact answers_error

theorem State.HufDecodes.answers_token (h : s.HufDecodes n) {i : Instr} (hi : s.nextToken = some (.ok i)) :
    Answers (tokenEffect i s) (State.HufDecodes n) := by
  obtain hp | hp := h.phase
  · obtain rfl | ⟨sym, rfl⟩ | rfl := nextToken_hufTree_ok hp hi
    · exact h.answers_tag (hufInt_eq s)
    · exact h.answers_tag (hufLeaf_eq sym s)
    · exact h.answers_tag (hufNull_eq s)
  · obtain ⟨hlt, d, rfl⟩ := nextToken_hufBits_ok hp hi
    exact h.answers_hufBit hlt d

theorem State.HufDecodes.answers_advance (h : s.HufDecodes n) :
    Answers (advance s) (State.LoopEnds (State.HufDecodes n) n) := by
  obtain hp | hp := h.phase
  · rw [advance_hufTree hp]
    exact answers_guard (answers_guard (answers_ok.2
      (.inl ⟨h.status, .inr rfl, h.ending, h.outBase, h.recorded, h.notPast⟩)))
  · rw [advance_hufBits hp]
    obtain hlt | hle := Nat.lt_or_ge s.regs.outCount s.regs.n
    · rw [hufDEnd_of_lt hlt]
      exact answers_error
    · rw [hufDEnd_of_le_plain hle h.ending, answers_ok]
      refine .inr (.inr ⟨rfl, ?_⟩)
      rw [State.finish_outLen, h.outBase, Nat.zero_add, le_antisymm h.notPast (h.recorded ▸ hle)]

theorem State.HufDecodes.unit_loopEnds (h : s.HufDecodes n) : (unitOfWork s).LoopEnds (State.HufDecodes n) n :=
  unitOfWork_loopEnds (fun _ => h.answers_token) h.answers_advance

end decodes

theorem State.Running.hufDecodes {s t : State} (h : s.Running t []) (n tl : Nat) :
    (t.hufDBegin n tl).HufDecodes n where
  status := h.status
  phase := .inl rfl
  ending := h.ending
  outBase := h.outBase
  recorded := rfl
  notPast := h.outCount.le.trans (Nat.zero_le n)

/-! ## The whole operation -/

section operation

variable {s : State}

theorem operate_decompressHuffman (hf : s.inputFits) (h0 : s.inLen.toNat ≠ 0) :
    operate (beginDecompress .huffman) s = runUnits s.fuel (s.start.settle (hufDStart s.start)) := by
  rw [operate_of_inputFits hf, beginDecompress_huffman h0]

theorem fails_decompressHuffman (hf : s.inputFits) (h0 : s.inLen.toNat ≠ 0) {k : ErrKind}
    (h : hufDStart s.start = .error k) : Fails .decompressHuffman s k :=
  fails_of_begin (i := .decompressHuffman) rfl rfl nofun nofun hf ((beginDecompress_huffman h0).trans h)

/-- The tests at the start pass, and the tree begins with the recorded length; or they raise. -/
theorem hufDStart_cases (s : State) : (∃ k, hufDStart s.start = .error k) ∨
    ∃ tl, hufDStart s.start = .ok (s.start.hufDBegin (valueLE (s.inputBytes.take 8)) tl) := by
  by_cases h : 12 ≤ s.inLen.toNat
  · rw [hufDStart_of_header h]
    split
    · exact .inl ⟨_, rfl⟩
    · split
      · exact .inl ⟨_, rfl⟩
      · exact .inr ⟨_, rfl⟩
  · exact .inl ⟨_, if_pos (Nat.not_le.1 h)⟩

/-- A success gives as many bytes as the frame records. -/
theorem decompressHuffman_outLen {t : State} (hf : s.inputFits) (h0 : s.inLen.toNat ≠ 0)
    (ht : exec .decompressHuffman s = .next t) (hd : t.status = .done) :
    t.outLen.toNat = valueLE (s.inputBytes.take 8) := by
  have hfits : valueLE (s.inputBytes.take 8) < 256 ^ 8 :=
    (valueLE_lt _).trans_le (Nat.pow_le_pow_right (by decide) (List.length_take_le 8 _))
  have hend : t.LoopEnds (State.HufDecodes (valueLE (s.inputBytes.take 8))) (valueLE (s.inputBytes.take 8)) := by
    rw [← Host.Outcome.next.inj ((exec_of_beginOf rfl s).symm.trans ht), operate_decompressHuffman hf h0]
    obtain ⟨k, hk⟩ | ⟨tl, htl⟩ := hufDStart_cases s
    · rw [hk, State.settle_error, runUnits_ended (by simp)]
      exact .inr (.inl rfl)
    · rw [htl, State.settle_ok]
      exact runUnits_loopEnds (fun _ => State.HufDecodes.unit_loopEnds)
        ((s.start_running .command).hufDecodes _ tl) _
  rw [hend.outLen (fun h => h.status) hd, BitVec.toNat_ofNat, Nat.mod_eq_of_lt (by omega)]

end operation

/-- Settles O47: the tests at the start in their order, the length of a success, and the tests after the tree and after
the walk. -/
theorem huffmanDecompressTestsItsFrame : Obligations.HuffmanDecompressTestsItsFrame := by
  refine ⟨?header, fun s hh hb => ⟨fun hp hs => ⟨fun hne => ?left, fun heq hshort => ?short, fun heq hlong => ?walk⟩,
    fun hp hlt hbits => ?mismatch, fun hp hle hplain => ?ends⟩⟩
  case header =>
    rintro s n tl hf h1 rfl rfl
    have h0 : s.inLen.toNat ≠ 0 := Nat.ne_of_gt h1
    refine ⟨fun hshort => ?_, fun h hlong => ?_, fun h hcut => ?_, fun t => decompressHuffman_outLen hf h0⟩
    · exact fails_decompressHuffman hf h0 (if_pos hshort)
    · exact fails_decompressHuffman hf h0 ((hufDStart_of_header h).trans (if_pos hlong))
    · refine fails_decompressHuffman hf h0 ((hufDStart_of_header h).trans ?_)
      rw [if_pos hcut, ite_self]
  case left =>
    have hstep := step_hufTree_end hh hb hp hs
    rw [hufTreeEnd_of_ne hne, State.settle_error] at hstep
    exact ⟨_, hstep, s.raise_fails _⟩
  case short =>
    have hstep := step_hufTree_end hh hb hp hs
    rw [hufTreeEnd_of_eq heq, State.rdU64, if_pos hshort, State.settle_error] at hstep
    exact ⟨_, hstep, s.raise_fails _⟩
  case walk =>
    have hstep := step_hufTree_end hh hb hp hs
    rw [hufTreeEnd_of_eq heq, State.rdU64, if_neg (Nat.not_lt.2 hlong), State.settle_ok] at hstep
    exact ⟨_, hstep, rfl, hb, fun _ => rfl, s.keepsInputs_engine, ⟨rfl, rfl⟩, rfl, rfl⟩
  case mismatch =>
    have hstep := step_hufBits_end hh hb hp (.inr hbits)
    rw [hufDEnd_of_lt hlt, State.settle_error] at hstep
    exact ⟨_, hstep, s.raise_fails _⟩
  case ends =>
    have hstep := step_hufBits_end hh hb hp (.inl hle)
    rw [hufDEnd_of_le_plain hle hplain, State.settle_ok] at hstep
    exact ⟨_, hstep, rfl, rfl, rfl, fun _ => rfl, s.finish_keepsInputs, rfl, rfl⟩

end Sys2Proof.Machine
end

section
/-! `BuildTree` (46_huffman.md R222, R223): the queue in order, the leaves in byte order, and each merge of the two
least entries (O45). -/

namespace Sys2Proof.Machine

/-! ## Shapes of trees -/

/-- A tree as the bytes of the tree field tell it (30_encoding.md R95). -/
inductive HufShape
  | null
  | leaf (sym : Byte)
  | int (left right : HufShape)

/-- The arena holds a shape at a place. -/
inductive HufShape.Held (tree : List TreeRec) : Option Nat → HufShape → Prop
  | null : Held tree none .null
  | leaf {q : Nat} {sym : Byte} (h : tree[q]? = some (.leaf sym)) : Held tree (some q) (.leaf sym)
  | int {q : Nat} {l r : Option Nat} {left right : HufShape} (h : tree[q]? = some (.internal l r))
      (hl : Held tree l left) (hr : Held tree r right) : Held tree (some q) (.int left right)

namespace HufShape

/-- The symbols of the leaves, from left to right. -/
def leaves : HufShape → Bytes
  | .null => []
  | .leaf sym => [sym]
  | .int left right => left.leaves ++ right.leaves

/-- Every internal record has both children. -/
def Full : HufShape → Prop
  | .null => False
  | .leaf _ => True
  | .int left right => left.Full ∧ right.Full

/-- The sum of the frequencies of the leaves. -/
def weight (freq : List Nat) (x : HufShape) : Nat := (x.leaves.map fun b => freq.getD b.toNat 0).sum

theorem weight_int (freq : List Nat) (left right : HufShape) :
    (HufShape.int left right).weight freq = left.weight freq + right.weight freq := by
  rw [weight, leaves, List.map_append, List.sum_append, weight, weight]

theorem weight_leaf (freq : List Nat) {v : Nat} (h : v < 256) :
    (HufShape.leaf (BitVec.ofNat 8 v)).weight freq = freq.getD v 0 := by
  rw [weight, leaves, List.map_singleton, List.sum_singleton, BitVec.toNat_ofNat, Nat.mod_eq_of_lt h]

/-- More records leave what the arena holds. -/
theorem Held.append {tree : List TreeRec} {q : Option Nat} {x : HufShape} (h : Held tree q x) (recs : List TreeRec) :
    Held (tree ++ recs) q x := by
  have hold {q : Nat} {rec : TreeRec} (hq : tree[q]? = some rec) : (tree ++ recs)[q]? = some rec := by
    rw [List.getElem?_append_left (List.getElem?_eq_some_iff.1 hq).1, hq]
  induction h with
  | null => exact .null
  | leaf hq => exact .leaf (hold hq)
  | int hq _ _ ihl ihr => exact .int (hold hq) ihl ihr

end HufShape

/-! ## The queue (R222) -/

theorem pqInsert_perm (a : PqEntry) (l : List PqEntry) : (pqInsert a l).Perm (a :: l) := by
  induction l with
  | nil => exact .refl _
  | cons b l ih =>
    rw [pqInsert]
    split
    · exact .refl _
    · exact (ih.cons b).trans (.swap a b l)

theorem pqBefore_iff {a b : PqEntry} : pqBefore a b = true ↔ a.freq < b.freq ∨ a.freq = b.freq ∧ a.seq < b.seq := by
  simp [pqBefore]

/-- The queue stays in order when the entry put in is the youngest. -/
theorem pqInsert_sorted {a : PqEntry} {l : List PqEntry} (hl : l.Pairwise fun x y => pqBefore x y = true)
    (hyoung : ∀ b ∈ l, b.seq < a.seq) : (pqInsert a l).Pairwise fun x y => pqBefore x y = true := by
  induction l with
  | nil => exact List.pairwise_singleton _ a
  | cons b l ih =>
    obtain ⟨hb, hrest⟩ := List.pairwise_cons.1 hl
    obtain ⟨hab, hyoung⟩ := List.forall_mem_cons.1 hyoung
    rw [pqInsert]
    split
    · next h =>
      refine List.pairwise_cons.2 ⟨List.forall_mem_cons.2 ⟨h, fun e he => ?_⟩, hl⟩
      have hbe := pqBefore_iff.1 (hb e he)
      rw [pqBefore_iff] at h ⊢
      omega
    · next h =>
      refine List.pairwise_cons.2 ⟨fun e he => ?_, ih hrest hyoung⟩
      obtain rfl | he := List.mem_cons.1 ((pqInsert_perm a l).mem_iff.1 he)
      · rw [pqBefore_iff] at h ⊢
        omega
      · exact hb e he

/-! ## The leaves (R222) -/

/-- The records of the symbols that occur. -/
def hufLeaves (syms : List Nat) : List TreeRec := syms.map fun v => .leaf (BitVec.ofNat 8 v)

/-- The queue entries of the symbols that occur. -/
def hufEntries (freq syms : List Nat) : List PqEntry :=
  syms.mapIdx fun i v => { freq := freq.getD v 0, seq := v, node := i }

/-- The symbols below `n` that occur. -/
def hufSyms (freq : List Nat) (n : Nat) : List Nat := (List.range n).filter fun v => decide (0 < freq.getD v 0)

theorem hufSyms_succ (freq : List Nat) (n : Nat) :
    hufSyms freq (n + 1) = if 0 < freq.getD n 0 then hufSyms freq n ++ [n] else hufSyms freq n := by
  rw [hufSyms, List.range_succ, List.filter_append]
  split
  · next h => rw [List.filter_singleton, decide_eq_true h]; rfl
  · next h => rw [List.filter_singleton, decide_eq_false h]; exact List.append_nil _

theorem lt_of_mem_hufSyms {freq : List Nat} {n v : Nat} (h : v ∈ hufSyms freq n) : v < n :=
  List.mem_range.1 (List.mem_filter.1 h).1

theorem hufSyms_sorted (freq : List Nat) (n : Nat) : (hufSyms freq n).Pairwise (· < ·) :=
  List.pairwise_lt_range.filter _

theorem hufEntries_concat (freq syms : List Nat) (v : Nat) : hufEntries freq (syms ++ [v]) =
    hufEntries freq syms ++ [{ freq := freq.getD v 0, seq := v, node := syms.length }] := by
  rw [hufEntries, List.mapIdx_concat, hufEntries]

theorem mem_hufEntries {freq syms : List Nat} {e : PqEntry} : e ∈ hufEntries freq syms ↔
    ∃ h : e.node < syms.length, e.freq = freq.getD syms[e.node] 0 ∧ e.seq = syms[e.node] := by
  rw [hufEntries, List.mem_mapIdx]
  constructor
  · rintro ⟨i, hi, rfl⟩
    exact ⟨hi, rfl, rfl⟩
  · rintro ⟨h, hf, hs⟩
    exact ⟨e.node, h, by rw [← hf, ← hs]⟩

/-- The state of `BuildTree` after its first loop over the bytes below `n`. -/
structure HufLeafStage (freq : List Nat) (n : Nat) (t : Tables) : Prop where
  tree : t.tree = hufLeaves (hufSyms freq n)
  perm : t.pq.Perm (hufEntries freq (hufSyms freq n))
  sorted : t.pq.Pairwise fun x y => pqBefore x y = true

theorem buildLeaf_of_pos {freq : List Nat} {v : Nat} (h : 0 < freq.getD v 0) (t : Tables) :
    buildLeaf freq t v = { t with
      tree := t.tree ++ [.leaf (BitVec.ofNat 8 v)]
      pq := pqInsert { freq := freq.getD v 0, seq := v, node := t.tree.length } t.pq } := if_pos h

theorem buildLeaf_of_zero {freq : List Nat} {v : Nat} (h : ¬ 0 < freq.getD v 0) (t : Tables) :
    buildLeaf freq t v = t := if_neg h

theorem HufLeafStage.next {freq : List Nat} {n : Nat} {t : Tables} (h : HufLeafStage freq n t) :
    HufLeafStage freq (n + 1) (buildLeaf freq t n) := by
  by_cases hpos : 0 < freq.getD n 0
  · have hsyms : hufSyms freq (n + 1) = hufSyms freq n ++ [n] := by rw [hufSyms_succ, if_pos hpos]
    have hsize : t.tree.length = (hufSyms freq n).length := by rw [h.tree, hufLeaves, List.length_map]
    rw [buildLeaf_of_pos hpos]
    refine ⟨?_, ?_, pqInsert_sorted h.sorted fun b hb => ?_⟩
    · rw [hsyms, hufLeaves, List.map_append, h.tree]
      rfl
    · rw [hsyms, hufEntries_concat, hsize]
      exact (pqInsert_perm _ _).trans ((h.perm.cons _).trans (List.perm_append_singleton _ _).symm)
    · obtain ⟨hlt, -, hseq⟩ := mem_hufEntries.1 (h.perm.mem_iff.1 hb)
      exact hseq ▸ lt_of_mem_hufSyms (List.getElem_mem hlt)
  · have hsyms : hufSyms freq (n + 1) = hufSyms freq n := by rw [hufSyms_succ, if_neg hpos]
    rw [buildLeaf_of_zero hpos]
    exact ⟨hsyms ▸ h.tree, hsyms ▸ h.perm, h.sorted⟩

/-- The first loop of `BuildTree`. -/
theorem foldl_buildLeaf_stage (freq : List Nat) (n : Nat) (t : Tables) :
    HufLeafStage freq n ((List.range n).foldl (buildLeaf freq) { t with tree := [], pq := [] }) := by
  induction n with
  | zero => exact ⟨rfl, .refl _, .nil⟩
  | succ n ih =>
    rw [List.range_succ, List.foldl_append]
    exact ih.next

/-! ## What is not merged yet -/

/-- Record `q` is older than `i` and no record older than `i` has it as a child. -/
def HufFree (tree : List TreeRec) (i q : Nat) : Prop :=
  q < i ∧ ∀ j l r, j < i → tree[j]? = some (.internal (some l) (some r)) → q ≠ l ∧ q ≠ r

/-- The order of the queue on the records: by weight, and then by age. -/
def HufBefore (weight : Nat → Nat) (a b : Nat) : Prop := weight a < weight b ∨ weight a = weight b ∧ a < b

/-- Record `i` merges the least and the next least of what is not merged yet, and its weight is the sum of theirs. -/
def HufMerges (tree : List TreeRec) (weight : Nat → Nat) (i : Nat) : Prop :=
  ∃ l r, tree[i]? = some (.internal (some l) (some r)) ∧ weight i = weight l + weight r ∧
    HufFree tree i l ∧ HufFree tree i r ∧ HufBefore weight l r ∧
    ∀ q, HufFree tree i q → q ≠ l → q ≠ r → HufBefore weight r q

theorem hufFree_append {tree : List TreeRec} {i q : Nat} (h : i ≤ tree.length) (recs : List TreeRec) :
    HufFree (tree ++ recs) i q ↔ HufFree tree i q := by
  refine and_congr_right fun _ => forall_congr' fun j => forall₂_congr fun l r => forall_congr' fun hj => ?_
  rw [List.getElem?_append_left (hj.trans_le h)]

/-- A new record, whose children are older, takes these from what is free and is free itself. -/
theorem hufFree_concat {tree : List TreeRec} {a b q : Nat}
    (hold : ∀ (j l r : Nat), tree[j]? = some (.internal (some l) (some r)) → l < j ∧ r < j)
    (ha : a < tree.length) (hb : b < tree.length) :
    HufFree (tree ++ [TreeRec.internal (some a) (some b)]) (tree.length + 1) q ↔
      q = tree.length ∨ HufFree tree tree.length q ∧ q ≠ a ∧ q ≠ b := by
  have hnew : (tree ++ [TreeRec.internal (some a) (some b)])[tree.length]? = some (.internal (some a) (some b)) :=
    getElem?_append_add tree _ 0
  constructor
  · rintro ⟨hq, hfree⟩
    have hnot := hfree _ _ _ (Nat.lt_succ_self _) hnew
    refine (Nat.lt_succ_iff_lt_or_eq.1 hq).symm.imp_right fun hlt => ⟨⟨hlt, fun j l r hj hrec => ?_⟩, hnot⟩
    exact hfree j l r (Nat.lt_succ_of_lt hj) (by rwa [List.getElem?_append_left hj])
  · rintro h
    refine ⟨?_, fun j l r hj hrec => ?_⟩
    · obtain rfl | ⟨⟨hq, -⟩, -⟩ := h
      · exact Nat.lt_succ_self _
      · exact Nat.lt_succ_of_lt hq
    · obtain hlt | rfl := Nat.lt_succ_iff_lt_or_eq.1 hj
      · rw [List.getElem?_append_left hlt] at hrec
        have hchild := hold j l r hrec
        obtain rfl | ⟨⟨-, hfree⟩, -⟩ := h
        · omega
        · exact hfree j l r hlt hrec
      · obtain ⟨rfl, rfl⟩ : a = l ∧ b = r := by simpa using hnew.symm.trans hrec
        obtain rfl | ⟨-, hnot⟩ := h
        · omega
        · exact hnot

/-- A merge stays one when records and weights are added after it. -/
theorem HufMerges.append {tree : List TreeRec} {w w' : Nat → Nat} {i : Nat} (h : HufMerges tree w i)
    (hi : i < tree.length) (recs : List TreeRec) (hw : ∀ q, q < tree.length → w' q = w q) :
    HufMerges (tree ++ recs) w' i := by
  obtain ⟨l, r, hrec, hsum, hl, hr, hlr, hleast⟩ := h
  have hfree {q : Nat} : HufFree (tree ++ recs) i q ↔ HufFree tree i q := hufFree_append hi.le recs
  have hbefore {a b : Nat} (ha : HufFree tree i a) (hb : HufFree tree i b) : HufBefore w' a b ↔ HufBefore w a b := by
    rw [HufBefore, HufBefore, hw a (ha.1.trans hi), hw b (hb.1.trans hi)]
  refine ⟨l, r, by rwa [List.getElem?_append_left hi], ?_, hfree.2 hl, hfree.2 hr, (hbefore hl hr).2 hlr,
    fun q hq hql hqr => (hbefore hr (hfree.1 hq)).2 (hleast q (hfree.1 hq) hql hqr)⟩
  rw [hw i hi, hw l (hl.1.trans hi), hw r (hr.1.trans hi), hsum]

/-! ## The merges (R222) -/

/-- The age of a record, which is its entry's `seq`. -/
def hufAge (syms : List Nat) (q : Nat) : Nat :=
  if q < syms.length then syms.getD q 0 else 256 + (q - syms.length)

theorem hufAge_lt (freq : List Nat) {q q' : Nat} (h : q < q') :
    hufAge (hufSyms freq 256) q < hufAge (hufSyms freq 256) q' := by
  have hsorted := List.pairwise_iff_getElem.1 (hufSyms_sorted freq 256)
  unfold hufAge
  split
  · next hq =>
    rw [List.getD_eq_getElem _ _ hq]
    split
    · next hq' =>
      rw [List.getD_eq_getElem _ _ hq']
      exact hsorted q q' hq hq' h
    · have hbyte := lt_of_mem_hufSyms (List.getElem_mem hq)
      omega
  · rw [if_neg (by omega)]
    omega

/-- The tables inside the merge loop, where `shape q` is what record `q` holds. -/
structure HufMerging (freq : List Nat) (shape : Nat → HufShape) (t : Tables) (seq : Nat) : Prop where
  leaves : ∀ q (h : q < (hufSyms freq 256).length),
    t.tree[q]? = some (.leaf (BitVec.ofNat 8 (hufSyms freq 256)[q])) ∧
      shape q = .leaf (BitVec.ofNat 8 (hufSyms freq 256)[q])
  merges : ∀ i, (hufSyms freq 256).length ≤ i → i < t.tree.length →
    HufMerges t.tree (fun q => (shape q).weight freq) i
  held : ∀ q, q < t.tree.length → HufShape.Held t.tree (some q) (shape q) ∧ (shape q).Full
  entries : ∀ e ∈ t.pq, e.freq = (shape e.node).weight freq ∧ e.seq = hufAge (hufSyms freq 256) e.node
  free : ∀ q, (∃ e ∈ t.pq, e.node = q) ↔ HufFree t.tree t.tree.length q
  sorted : t.pq.Pairwise fun x y => pqBefore x y = true
  seq : seq = hufAge (hufSyms freq 256) t.tree.length
  size : t.pq.length + t.tree.length = 2 * (hufSyms freq 256).length
  symbols : (t.pq.flatMap fun e => (shape e.node).leaves).Perm ((hufSyms freq 256).map (BitVec.ofNat 8))

/-- The tables after the merge of `a` and `b`. -/
def Tables.merged (t : Tables) (seq : Nat) (a b : PqEntry) (rest : List PqEntry) : Tables :=
  { t with
    tree := t.tree ++ [.internal (some a.node) (some b.node)]
    pq := pqInsert { freq := a.freq + b.freq, seq := seq, node := t.tree.length } rest }

section merging

variable {freq : List Nat} {shape : Nat → HufShape} {t : Tables} {seq : Nat}

theorem HufMerging.symbols_le (h : HufMerging freq shape t seq) : (hufSyms freq 256).length ≤ t.tree.length := by
  by_contra hlt
  have hlast := (h.leaves t.tree.length (Nat.not_le.1 hlt)).1
  rw [List.getElem?_eq_none (Nat.le_refl _)] at hlast
  cases hlast

/-- A child is older than its parent. -/
theorem HufMerging.children_lt (h : HufMerging freq shape t seq) (j l r : Nat)
    (hrec : t.tree[j]? = some (.internal (some l) (some r))) : l < j ∧ r < j := by
  have hj := (List.getElem?_eq_some_iff.1 hrec).1
  obtain hlt | hge := Nat.lt_or_ge j (hufSyms freq 256).length
  · rw [(h.leaves j hlt).1] at hrec
    cases hrec
  · obtain ⟨l', r', hrec', -, hl, hr, -⟩ := h.merges j hge hj
    rw [hrec'] at hrec
    cases hrec
    exact ⟨hl.1, hr.1⟩

/-- The order of the queue, as one of records. -/
theorem HufMerging.before (h : HufMerging freq shape t seq) {a b : PqEntry} (ha : a ∈ t.pq) (hb : b ∈ t.pq)
    (hab : pqBefore a b = true) : HufBefore (fun q => (shape q).weight freq) a.node b.node := by
  obtain ⟨haf, has⟩ := h.entries a ha
  obtain ⟨hbf, hbs⟩ := h.entries b hb
  rw [pqBefore_iff, haf, hbf, has, hbs] at hab
  refine hab.imp_right fun ⟨hw, hage⟩ => ⟨hw, ?_⟩
  by_contra hle
  obtain hlt | heq := Nat.lt_or_eq_of_le (Nat.not_lt.1 hle)
  · exact absurd (hufAge_lt freq hlt) (Nat.lt_asymm hage)
  · exact absurd hage (heq ▸ Nat.lt_irrefl _)

theorem HufMerging.node_lt (h : HufMerging freq shape t seq) {e : PqEntry} (he : e ∈ t.pq) : e.node < t.tree.length :=
  ((h.free e.node).1 ⟨e, he, rfl⟩).1

theorem hufBefore_irrefl (w : Nat → Nat) (a : Nat) : ¬ HufBefore w a a := by
  rintro (h | ⟨-, h⟩) <;> exact Nat.lt_irrefl _ h

/-- What the merge of the two least entries finds in the queue. -/
structure HufMerging.Least (freq : List Nat) (shape : Nat → HufShape) (t : Tables) (a b : PqEntry)
    (rest : List PqEntry) : Prop where
  old : ∀ e ∈ rest, e ∈ t.pq
  fst : a ∈ t.pq
  snd : b ∈ t.pq
  fst_snd : HufBefore (fun q => (shape q).weight freq) a.node b.node
  fst_rest : ∀ e ∈ rest, HufBefore (fun q => (shape q).weight freq) a.node e.node
  snd_rest : ∀ e ∈ rest, HufBefore (fun q => (shape q).weight freq) b.node e.node

theorem HufMerging.least (h : HufMerging freq shape t seq) {a b : PqEntry} {rest : List PqEntry}
    (hpq : t.pq = a :: b :: rest) : HufMerging.Least freq shape t a b rest := by
  have hsorted := h.sorted
  have hmem : ∀ e, e ∈ t.pq ↔ e = a ∨ e = b ∨ e ∈ rest := by simp [hpq]
  rw [hpq, List.pairwise_cons, List.pairwise_cons, List.forall_mem_cons] at hsorted
  obtain ⟨⟨hab, harest⟩, hbrest, -⟩ := hsorted
  have ha := (hmem a).2 (.inl rfl)
  have hb := (hmem b).2 (.inr (.inl rfl))
  have hold e (he : e ∈ rest) := (hmem e).2 (.inr (.inr he))
  exact ⟨hold, ha, hb, h.before ha hb hab, fun e he => h.before ha (hold e he) (harest e he),
    fun e he => h.before hb (hold e he) (hbrest e he)⟩

/-- What is free besides the two least is the rest of the queue. -/
theorem HufMerging.rest_free (h : HufMerging freq shape t seq) {a b : PqEntry} {rest : List PqEntry}
    (hpq : t.pq = a :: b :: rest) (q : Nat) :
    (∃ e ∈ rest, e.node = q) ↔ HufFree t.tree t.tree.length q ∧ q ≠ a.node ∧ q ≠ b.node := by
  have hl := h.least hpq
  rw [← h.free q]
  constructor
  · rintro ⟨e, he, rfl⟩
    refine ⟨⟨e, hl.old e he, rfl⟩, fun heq => ?_, fun heq => ?_⟩
    · exact hufBefore_irrefl _ _ (heq ▸ hl.fst_rest e he)
    · exact hufBefore_irrefl _ _ (heq ▸ hl.snd_rest e he)
  · rintro ⟨⟨e, he, rfl⟩, hna, hnb⟩
    rw [hpq, List.mem_cons, List.mem_cons] at he
    obtain rfl | rfl | he := he
    · exact absurd rfl hna
    · exact absurd rfl hnb
    · exact ⟨e, he, rfl⟩

/-- The new record merges the two least. -/
theorem HufMerging.newest_merges (h : HufMerging freq shape t seq) {a b : PqEntry} {rest : List PqEntry}
    (hpq : t.pq = a :: b :: rest) {w : Nat → Nat} (hw : ∀ q, q < t.tree.length → w q = (shape q).weight freq)
    (hsum : w t.tree.length = w a.node + w b.node) :
    HufMerges (t.tree ++ [.internal (some a.node) (some b.node)]) w t.tree.length := by
  have hl := h.least hpq
  have hfree {q : Nat} : HufFree (t.tree ++ [.internal (some a.node) (some b.node)]) t.tree.length q ↔
      HufFree t.tree t.tree.length q := hufFree_append (Nat.le_refl _) _
  have hqueued {e : PqEntry} (he : e ∈ t.pq) := hfree.2 ((h.free e.node).1 ⟨e, he, rfl⟩)
  have hbefore {x y : PqEntry} (hx : x ∈ t.pq) (hy : y ∈ t.pq) :
      HufBefore w x.node y.node ↔ HufBefore (fun q => (shape q).weight freq) x.node y.node := by
    rw [HufBefore, HufBefore, hw _ (h.node_lt hx), hw _ (h.node_lt hy)]
  refine ⟨a.node, b.node, getElem?_append_add t.tree _ 0, hsum, hqueued hl.fst, hqueued hl.snd,
    (hbefore hl.fst hl.snd).2 hl.fst_snd, fun q hq hqa hqb => ?_⟩
  obtain ⟨e, he, rfl⟩ := (h.rest_free hpq q).2 ⟨hfree.1 hq, hqa, hqb⟩
  exact (hbefore hl.snd (hl.old e he)).2 (hl.snd_rest e he)

theorem Tables.merged_length (t : Tables) (seq : Nat) (a b : PqEntry) (rest : List PqEntry) :
    (t.merged seq a b rest).tree.length = t.tree.length + 1 := List.length_append

theorem Tables.mem_merged_pq {a b e : PqEntry} {rest : List PqEntry} : e ∈ (t.merged seq a b rest).pq ↔
    e = { freq := a.freq + b.freq, seq := seq, node := t.tree.length } ∨ e ∈ rest :=
  (pqInsert_perm _ rest).mem_iff.trans List.mem_cons

/-- The new record is free, and its children are so no more. -/
theorem HufMerging.merged_free (h : HufMerging freq shape t seq) {a b : PqEntry} {rest : List PqEntry}
    (hpq : t.pq = a :: b :: rest) (q : Nat) : (∃ e ∈ (t.merged seq a b rest).pq, e.node = q) ↔
      HufFree (t.merged seq a b rest).tree (t.merged seq a b rest).tree.length q := by
  have hl := h.least hpq
  rw [Tables.merged_length]
  refine Iff.trans ?_ (hufFree_concat h.children_lt (h.node_lt hl.fst) (h.node_lt hl.snd)).symm
  rw [← h.rest_free hpq q]
  simp only [Tables.mem_merged_pq, or_and_right, exists_or, exists_eq_left, eq_comm]

/-- The queue stays in order, as the new entry is the youngest. -/
theorem HufMerging.merged_sorted (h : HufMerging freq shape t seq) {a b : PqEntry} {rest : List PqEntry}
    (hpq : t.pq = a :: b :: rest) : (t.merged seq a b rest).pq.Pairwise fun x y => pqBefore x y = true := by
  have hsorted := h.sorted
  rw [hpq] at hsorted
  refine pqInsert_sorted hsorted.of_cons.of_cons fun e he => ?_
  have hold := (h.least hpq).old e he
  rw [(h.entries e hold).2, h.seq]
  exact hufAge_lt freq (h.node_lt hold)

theorem HufMerging.merged_size (h : HufMerging freq shape t seq) {a b : PqEntry} {rest : List PqEntry}
    (hpq : t.pq = a :: b :: rest) :
    (t.merged seq a b rest).pq.length + (t.merged seq a b rest).tree.length = 2 * (hufSyms freq 256).length := by
  have hsize := h.size
  have hins : (t.merged seq a b rest).pq.length = rest.length + 1 := (pqInsert_perm _ rest).length_eq
  rw [hpq, List.length_cons, List.length_cons] at hsize
  rw [Tables.merged_length, hins]
  omega

/-- The queue holds the same symbols, where the new record's are those of its children. -/
theorem HufMerging.merged_symbols (h : HufMerging freq shape t seq) {a b : PqEntry} {rest : List PqEntry}
    (hpq : t.pq = a :: b :: rest) {shape' : Nat → HufShape} (hsame : ∀ q, q < t.tree.length → shape' q = shape q)
    (hmade : shape' t.tree.length = .int (shape a.node) (shape b.node)) :
    ((t.merged seq a b rest).pq.flatMap fun e => (shape' e.node).leaves).Perm
      ((hufSyms freq 256).map (BitVec.ofNat 8)) := by
  have hsymbols := h.symbols
  rw [hpq, List.flatMap_cons, List.flatMap_cons, ← List.append_assoc] at hsymbols
  refine ((pqInsert_perm _ rest).flatMap_right _).trans ?_
  have hrest : (rest.flatMap fun e => (shape' e.node).leaves) = rest.flatMap fun e => (shape e.node).leaves :=
    List.flatMap_congr fun e he => by rw [hsame _ (h.node_lt ((h.least hpq).old e he))]
  rw [List.flatMap_cons, hrest, hmade]
  exact hsymbols

/-- One merge. -/
theorem HufMerging.merge (h : HufMerging freq shape t seq) {a b : PqEntry} {rest : List PqEntry}
    (hpq : t.pq = a :: b :: rest) :
    HufMerging freq (Function.update shape t.tree.length (.int (shape a.node) (shape b.node)))
      (t.merged seq a b rest) (seq + 1) := by
  have hl := h.least hpq
  have hk := h.symbols_le
  have ha := h.node_lt hl.fst
  have hb := h.node_lt hl.snd
  have hmade : Function.update shape t.tree.length (.int (shape a.node) (shape b.node)) t.tree.length =
      .int (shape a.node) (shape b.node) := Function.update_self ..
  have hsame (q : Nat) (hq : q < t.tree.length) :
      Function.update shape t.tree.length (.int (shape a.node) (shape b.node)) q = shape q :=
    Function.update_of_ne hq.ne ..
  generalize Function.update shape t.tree.length (.int (shape a.node) (shape b.node)) = shape' at *
  have hlen := t.merged_length seq a b rest
  have hweight (q : Nat) (hq : q < t.tree.length) : (shape' q).weight freq = (shape q).weight freq := by
    rw [hsame q hq]
  have hsum : (shape' t.tree.length).weight freq = (shape a.node).weight freq + (shape b.node).weight freq := by
    rw [hmade, HufShape.weight_int]
  have hold (i : Nat) (hi : i < (t.merged seq a b rest).tree.length) : i < t.tree.length ∨ i = t.tree.length :=
    Nat.lt_succ_iff_lt_or_eq.1 (hi.trans_eq hlen)
  refine ⟨fun q hq => ?leaves, fun i hki hi => ?merges, fun q hq => ?held, fun e he => ?entries, h.merged_free hpq,
    h.merged_sorted hpq, ?seq, h.merged_size hpq, h.merged_symbols hpq hsame hmade⟩
  case leaves =>
    have hq' := hq.trans_le hk
    rw [hsame q hq']
    exact ⟨(List.getElem?_append_left hq').trans (h.leaves q hq).1, (h.leaves q hq).2⟩
  case merges =>
    obtain hlt | rfl := hold i hi
    · exact (h.merges i hki hlt).append hlt _ hweight
    · exact h.newest_merges hpq hweight (by rw [hsum, hweight _ ha, hweight _ hb])
  case held =>
    obtain hlt | rfl := hold q hq
    · rw [hsame q hlt]
      exact ⟨(h.held q hlt).1.append _, (h.held q hlt).2⟩
    · rw [hmade]
      exact ⟨.int (getElem?_append_add t.tree _ 0) ((h.held _ ha).1.append _) ((h.held _ hb).1.append _),
        (h.held _ ha).2, (h.held _ hb).2⟩
  case entries =>
    obtain rfl | he := Tables.mem_merged_pq.1 he
    · exact ⟨by rw [hsum, (h.entries a hl.fst).1, (h.entries b hl.snd).1], h.seq⟩
    · rw [hsame _ (h.node_lt (hl.old e he))]
      exact h.entries e (hl.old e he)
  case seq =>
    rw [hlen, h.seq, hufAge, hufAge, if_neg (Nat.not_lt.2 hk), if_neg (by omega)]
    omega

/-- The merge loop brings a queue that is not empty down to one entry. -/
theorem HufMerging.run_mergeAll {n : Nat} (h : HufMerging freq shape t seq) (hne : t.pq ≠ [])
    (hn : t.pq.length ≤ n + 1) : ∃ shape' e, HufMerging freq shape' (mergeAll n (t, seq)).1 (mergeAll n (t, seq)).2 ∧
      (mergeAll n (t, seq)).1.pq = [e] := by
  induction n generalizing shape t seq with
  | zero =>
    obtain ⟨e, he⟩ := List.length_eq_one_iff.1 (le_antisymm hn (List.length_pos_iff.2 hne))
    exact ⟨shape, e, h, he⟩
  | succ n ih =>
    match hpq : t.pq with
    | [] => exact absurd hpq hne
    | [e] =>
      have hstop : mergeAll (n + 1) (t, seq) = (t, seq) := by simp only [mergeAll, hpq]
      rw [hstop]
      exact ⟨shape, e, h, hpq⟩
    | a :: b :: rest =>
      have hstep : mergeAll (n + 1) (t, seq) = mergeAll n (t.merged seq a b rest, seq + 1) := by
        simp only [mergeAll, hpq]
        rfl
      have hlen : (t.merged seq a b rest).pq.length = rest.length + 1 := (pqInsert_perm _ rest).length_eq
      rw [hpq, List.length_cons, List.length_cons] at hn
      rw [hstep]
      exact ih (h.merge hpq) (List.ne_nil_of_length_eq_add_one hlen) (by omega)

end merging

/-! ## The whole tree (R222, R223) -/

section buildTree

variable {freq : List Nat} {t : Tables}

theorem hufEntries_length (freq syms : List Nat) : (hufEntries freq syms).length = syms.length :=
  List.length_mapIdx

theorem hufEntries_seq (freq syms : List Nat) : (hufEntries freq syms).map PqEntry.seq = syms := by
  induction syms using List.reverseRecOn with
  | nil => rfl
  | append_singleton syms v ih => rw [hufEntries_concat, List.map_append, ih]; rfl

/-- What the records of the first loop hold. -/
def hufLeafShape (freq : List Nat) (q : Nat) : HufShape := .leaf (BitVec.ofNat 8 ((hufSyms freq 256).getD q 0))

theorem hufLeafShape_of_lt {q : Nat} (h : q < (hufSyms freq 256).length) :
    hufLeafShape freq q = .leaf (BitVec.ofNat 8 (hufSyms freq 256)[q]) := by
  rw [hufLeafShape, List.getD_eq_getElem _ _ h]

/-- The merge loop begins with the leaves. -/
theorem HufLeafStage.merging (h : HufLeafStage freq 256 t) : HufMerging freq (hufLeafShape freq) t 256 := by
  have hlen : t.tree.length = (hufSyms freq 256).length := by rw [h.tree, hufLeaves, List.length_map]
  have hleaf (q : Nat) (hq : q < (hufSyms freq 256).length) :
      t.tree[q]? = some (.leaf (BitVec.ofNat 8 (hufSyms freq 256)[q])) := by
    rw [h.tree, hufLeaves, List.getElem?_map, List.getElem?_eq_getElem hq, Option.map_some]
  have hmem (e : PqEntry) : e ∈ t.pq ↔ _ := h.perm.mem_iff.trans mem_hufEntries
  refine ⟨fun q hq => ⟨hleaf q hq, hufLeafShape_of_lt hq⟩, fun i hki hi => ?_, fun q hq => ?_, fun e he => ?_,
    fun q => ?_, h.sorted, ?_, ?_, ?_⟩
  · exact absurd (hi.trans_eq hlen) (Nat.not_lt.2 hki)
  · rw [hufLeafShape_of_lt (hlen ▸ hq)]
    exact ⟨.leaf (hleaf q (hlen ▸ hq)), trivial⟩
  · obtain ⟨hlt, hf, hs⟩ := (hmem e).1 he
    rw [hufLeafShape_of_lt hlt, HufShape.weight_leaf freq (lt_of_mem_hufSyms (List.getElem_mem hlt)), hufAge,
      if_pos hlt, List.getD_eq_getElem _ _ hlt]
    exact ⟨hf, hs⟩
  · constructor
    · rintro ⟨e, he, rfl⟩
      obtain ⟨hlt, -⟩ := (hmem e).1 he
      refine ⟨hlen ▸ hlt, fun j l r hj hrec => ?_⟩
      rw [hleaf j (hlen ▸ hj)] at hrec
      cases hrec
    · rintro ⟨hq, -⟩
      rw [hlen] at hq
      exact ⟨⟨freq.getD (hufSyms freq 256)[q] 0, (hufSyms freq 256)[q], q⟩, (hmem _).2 ⟨hq, rfl, rfl⟩, rfl⟩
  · rw [hlen, hufAge, if_neg (Nat.lt_irrefl _), Nat.sub_self]
  · rw [hlen, h.perm.length_eq, hufEntries_length, Nat.two_mul]
  · refine (h.perm.flatMap_right _).trans (.of_eq ?_)
    have hshape : ∀ e ∈ hufEntries freq (hufSyms freq 256),
        (hufLeafShape freq e.node).leaves = [BitVec.ofNat 8 e.seq] := fun e he => by
      obtain ⟨hlt, -, hs⟩ := mem_hufEntries.1 he
      rw [hufLeafShape_of_lt hlt, HufShape.leaves, hs]
    have hsyms : (hufEntries freq (hufSyms freq 256)).map (fun e => BitVec.ofNat 8 e.seq) =
        (hufSyms freq 256).map (BitVec.ofNat 8) := by
      conv_rhs => rw [← hufEntries_seq freq (hufSyms freq 256), List.map_map]
      rfl
    rw [List.flatMap_congr hshape, ← List.map_eq_flatMap, hsyms]

/-- The tree of one symbol (R223). -/
theorem buildTree_of_one {v : Nat} (hv : hufSyms t.freq 256 = [v]) :
    (buildTree t).1.tree = [.leaf (BitVec.ofNat 8 v), .internal (some 0) none] ∧ (buildTree t).2.2 = some 1 := by
  have h := foldl_buildLeaf_stage t.freq 256 t
  unfold buildTree
  dsimp only [Config.alphabet]
  generalize (List.range 256).foldl (buildLeaf t.freq) { t with tree := [], pq := [] } = u at h ⊢
  obtain ⟨htree, hperm, -⟩ := h
  rw [hv] at htree hperm
  have hpq : u.pq = [{ freq := t.freq.getD v 0, seq := v, node := 0 }] := List.perm_singleton.1 hperm
  simp only [hpq, List.length_singleton, if_true, oneChildRoot, htree]
  exact ⟨rfl, rfl⟩

/-- The tree of two symbols or more: the merge loop ends with the last record as the root. -/
theorem buildTree_of_more (hk : 2 ≤ (hufSyms t.freq 256).length) :
    ∃ u seq shape, HufMerging t.freq shape u seq ∧ (buildTree t).1.tree = u.tree ∧
      u.tree.length = 2 * (hufSyms t.freq 256).length - 1 ∧
      (buildTree t).2.2 = some (2 * (hufSyms t.freq 256).length - 2) ∧
      ((shape (2 * (hufSyms t.freq 256).length - 2)).leaves).Perm ((hufSyms t.freq 256).map (BitVec.ofNat 8)) := by
  have h := foldl_buildLeaf_stage t.freq 256 t
  unfold buildTree
  dsimp only [Config.alphabet]
  generalize (List.range 256).foldl (buildLeaf t.freq) { t with tree := [], pq := [] } = u at h ⊢
  have hlen : u.pq.length = (hufSyms t.freq 256).length := by rw [h.perm.length_eq, hufEntries_length]
  obtain ⟨shape, e, hm, hpq⟩ := h.merging.run_mergeAll (n := u.pq.length)
    (List.ne_nil_of_length_pos (by omega)) (Nat.le_succ _)
  generalize mergeAll u.pq.length (u, 256) = m at hm hpq ⊢
  rw [if_neg (by omega)]
  simp only [hpq]
  have hsize := hm.size
  rw [hpq, List.length_singleton] at hsize
  have hlast : HufFree m.1.tree m.1.tree.length (2 * (hufSyms t.freq 256).length - 2) := by
    refine ⟨by omega, fun j l r hj hrec => ?_⟩
    have hchild := hm.children_lt j l r hrec
    omega
  obtain ⟨e', he', hroot⟩ := (hm.free _).2 hlast
  rw [hpq, List.mem_singleton] at he'
  have hsymbols := hm.symbols
  rw [hpq, List.flatMap_singleton, ← he', hroot] at hsymbols
  exact ⟨m.1, m.2, shape, hm, rfl, by omega, by rw [← he', hroot], hsymbols⟩

end buildTree

/-- Settles O45: the tree of one symbol, and the merge loop for more. -/
theorem huffmanMergesTheTwoLeast : Obligations.HuffmanMergesTheTwoLeast := by
  rintro freq syms - rfl
  refine ⟨fun v hv => buildTree_of_one hv, fun hk => ?_⟩
  obtain ⟨u, seq, shape, hm, htree, hlen, hroot, -⟩ := buildTree_of_more (t := { Tables.fresh with freq := freq }) hk
  rw [htree]
  refine ⟨hlen, hroot, fun q hq => ?_, fun q => (shape q).weight freq, fun q hq => ?_, fun i hki hi => ?_⟩
  · rw [List.getD_eq_getElem _ _ hq]
    exact (hm.leaves q hq).1
  · rw [List.getD_eq_getElem _ _ hq]
    exact (congrArg (HufShape.weight freq) (hm.leaves q hq).2).trans
      (HufShape.weight_leaf freq (lt_of_mem_hufSyms (List.getElem_mem hq)))
  · exact hm.merges i hki (hi.trans_eq hlen.symm)

end Sys2Proof.Machine
end

section
/-! The tree of an input, its serialisation and its codes (46_huffman.md R221, R224, R225). -/

namespace Sys2Proof.Machine

namespace HufShape

/-! ## The serialisation and the codes of a shape -/

/-- The bytes of the tree field (30_encoding.md R95). -/
def ser : HufShape → Bytes
  | .null => encode .hufNull
  | .leaf sym => encode (.hufLeaf sym)
  | .int left right => encode .hufInt ++ left.ser ++ right.ser

/-- How many records, the missing ones included, are on the longest way down. -/
def levels : HufShape → Nat
  | .null => 1
  | .leaf _ => 1
  | .int left right => max left.levels right.levels + 1

/-- The code table with the ways to the leaves written into it. -/
def codes (path : List Bool) (code : List (List Bool)) : HufShape → List (List Bool)
  | .null => code
  | .leaf sym => code.set sym.toNat path
  | .int left right => right.codes (path ++ [true]) (left.codes (path ++ [false]) code)

/-- The way down, 0 to the left and 1 to the right, leads to a leaf with this symbol. -/
inductive Leads : HufShape → List Bool → Byte → Prop
  | leaf {sym : Byte} : Leads (.leaf sym) [] sym
  | left {l r : HufShape} {p : List Bool} {b : Byte} (h : Leads l p b) : Leads (.int l r) (false :: p) b
  | right {l r : HufShape} {p : List Bool} {b : Byte} (h : Leads r p b) : Leads (.int l r) (true :: p) b

/-- `Ser` (R225). -/
theorem Held.serTree {tree : List TreeRec} {q : Option Nat} {x : HufShape} (h : Held tree q x) {depth : Nat}
    (hd : x.levels ≤ depth) : serTree tree depth q = x.ser := by
  induction h generalizing depth with
  | null =>
    obtain ⟨depth, rfl⟩ := Nat.exists_eq_add_of_le' (show 1 ≤ depth from hd)
    rfl
  | leaf hq =>
    obtain ⟨depth, rfl⟩ := Nat.exists_eq_add_of_le' (show 1 ≤ depth from hd)
    simp only [Machine.serTree, hq]
    rfl
  | int hq _ _ ihl ihr =>
    rw [levels] at hd
    obtain ⟨depth, rfl⟩ := Nat.exists_eq_add_of_le' (Nat.le_of_add_left_le hd)
    simp only [Machine.serTree, hq, ihl (depth := depth) (by omega), ihr (depth := depth) (by omega)]
    rfl

/-- `GenCodes` (R224). -/
theorem Held.genCodes {tree : List TreeRec} {q : Option Nat} {x : HufShape} (h : Held tree q x) {depth : Nat}
    (hd : x.levels ≤ depth) (path : List Bool) (code : List (List Bool)) :
    genCodes tree depth q path code = x.codes path code := by
  induction h generalizing depth path code with
  | null =>
    obtain ⟨depth, rfl⟩ := Nat.exists_eq_add_of_le' (show 1 ≤ depth from hd)
    rfl
  | leaf hq =>
    obtain ⟨depth, rfl⟩ := Nat.exists_eq_add_of_le' (show 1 ≤ depth from hd)
    simp only [Machine.genCodes, hq]
    rfl
  | int hq _ _ ihl ihr =>
    rw [levels] at hd
    obtain ⟨depth, rfl⟩ := Nat.exists_eq_add_of_le' (Nat.le_of_add_left_le hd)
    simp only [Machine.genCodes, hq, ihl (depth := depth) (by omega), ihr (depth := depth) (by omega)]
    rfl

/-- A way down the shape is one down the arena. -/
theorem Held.walkTree {tree : List TreeRec} {q : Option Nat} {x : HufShape} {p : List Bool} {b : Byte}
    (hp : x.Leads p b) (h : Held tree q x) : ∃ c, walkTree tree q p = some c ∧ tree[c]? = some (.leaf b) := by
  induction hp generalizing q with
  | leaf =>
    cases h with
    | leaf hq => exact ⟨_, rfl, hq⟩
  | left _ ih =>
    cases h with
    | int hq hl _ =>
      simp only [Machine.walkTree, hq]
      exact ih hl
  | right _ ih =>
    cases h with
    | int hq _ hr =>
      simp only [Machine.walkTree, hq]
      exact ih hr

theorem Leads.length_lt {x : HufShape} {p : List Bool} {b : Byte} (h : x.Leads p b) : p.length < x.levels := by
  induction h with
  | leaf => exact Nat.one_pos
  | left _ ih | right _ ih => rw [levels, List.length_cons]; omega

/-! ## The code table -/

theorem codes_length (path : List Bool) (code : List (List Bool)) (x : HufShape) :
    (x.codes path code).length = code.length := by
  induction x generalizing path code with
  | null => rfl
  | leaf sym => exact List.length_set
  | int left right ihl ihr => rw [codes, ihr, ihl]

/-- The code of a byte that is no leaf is not written. -/
theorem codes_of_not_mem {b : Byte} {x : HufShape} (h : b ∉ x.leaves) (path : List Bool) (code : List (List Bool)) :
    (x.codes path code)[b.toNat]? = code[b.toNat]? := by
  induction x generalizing path code with
  | null => rfl
  | leaf sym =>
    have hne : sym.toNat ≠ b.toNat := fun e => h (List.mem_singleton.2 (BitVec.eq_of_toNat_eq e.symm))
    exact List.getElem?_set_ne hne
  | int left right ihl ihr =>
    rw [leaves, List.mem_append, not_or] at h
    rw [codes, ihr h.2, ihl h.1]

/-- The code of a leaf is a way to it. -/
theorem codes_of_mem {b : Byte} {x : HufShape} (h : b ∈ x.leaves) (path : List Bool) {code : List (List Bool)}
    (hlen : code.length = 256) : ∃ p, (x.codes path code)[b.toNat]? = some (path ++ p) ∧ x.Leads p b := by
  induction x generalizing path code with
  | null => exact absurd h List.not_mem_nil
  | leaf sym =>
    obtain rfl := List.mem_singleton.1 h
    refine ⟨[], ?_, .leaf⟩
    rw [List.append_nil]
    exact List.getElem?_set_self (hlen ▸ b.isLt)
  | int left right ihl ihr =>
    have hleft : (left.codes (path ++ [false]) code).length = 256 := by rw [codes_length, hlen]
    by_cases hr : b ∈ right.leaves
    · obtain ⟨p, hp, hleads⟩ := ihr hr (path ++ [true]) hleft
      exact ⟨true :: p, by rw [codes, hp, List.append_assoc, List.singleton_append], hleads.right⟩
    · obtain ⟨p, hp, hleads⟩ := ihl ((List.mem_append.1 h).resolve_right hr) (path ++ [false]) hlen
      exact ⟨false :: p, by rw [codes, codes_of_not_mem hr, hp, List.append_assoc, List.singleton_append], hleads.left⟩

/-- The code table of a shape. -/
def table (x : HufShape) : List (List Bool) := x.codes [] (List.replicate 256 [])

/-- The code of a byte. -/
def code (x : HufShape) (b : Byte) : List Bool := x.table.getD b.toNat []

/-- The code bits of an input. -/
def bits (x : HufShape) (input : Bytes) : List Bool := input.flatMap x.code

theorem table_length (x : HufShape) : x.table.length = 256 := by rw [table, codes_length, List.length_replicate]

theorem code_leads {x : HufShape} {b : Byte} (h : b ∈ x.leaves) : x.Leads (x.code b) b := by
  obtain ⟨p, hp, hleads⟩ := codes_of_mem h [] (List.length_replicate (n := 256) (a := []))
  rwa [code, List.getD_eq_getElem?_getD, table, hp, Option.getD_some, List.nil_append]

theorem bits_cons (x : HufShape) (b : Byte) (input : Bytes) : x.bits (b :: input) = x.code b ++ x.bits input :=
  List.flatMap_cons

/-- No code is longer than the tree is deep. -/
theorem bits_length_le {x : HufShape} {n : Nat} (hn : x.levels ≤ n + 1) {input : Bytes}
    (h : ∀ b ∈ input, b ∈ x.leaves) : (x.bits input).length ≤ n * input.length := by
  induction input with
  | nil => exact Nat.zero_le _
  | cons b input ih =>
    obtain ⟨hb, hinput⟩ := List.forall_mem_cons.1 h
    have hcode := (code_leads hb).length_lt
    have hrest := ih hinput
    rw [bits_cons, List.length_append, List.length_cons, Nat.mul_succ]
    omega

/-! ## Sizes -/

/-- A tree whose records all have both children is no deeper than it has leaves, and its serialisation has three bytes a
leaf but one (R225). -/
theorem Full.sizes {x : HufShape} (h : x.Full) :
    x.levels ≤ x.leaves.length ∧ x.ser.length + 1 = 3 * x.leaves.length := by
  induction x with
  | null => exact h.elim
  | leaf sym => exact ⟨Nat.le_refl 1, rfl⟩
  | int left right ihl ihr =>
    obtain ⟨hll, hls⟩ := ihl h.1
    obtain ⟨hrl, hrs⟩ := ihr h.2
    have hint : (encode .hufInt).length = 1 := rfl
    rw [levels, leaves, ser, List.length_append, List.length_append, List.length_append, hint]
    omega

end HufShape

/-! ## The tree of a frequency table -/

/-- The tree that `BuildTree` makes of the symbols `syms`: it holds them and is within the bounds of R242. -/
structure HufTreeOf (syms : List Nat) (tree : List TreeRec) (root : Option Nat) (x : HufShape) : Prop where
  held : HufShape.Held tree root x
  leaves : x.leaves.Perm (syms.map (BitVec.ofNat 8))
  inner : ∃ left right, x = .int left right
  ser_le : x.ser.length ≤ 767
  levels_le : x.levels ≤ 256
  levels_le_tree : x.levels ≤ tree.length

/-- The root is no leaf, so every way down has a step (R226). -/
theorem HufTreeOf.ne_nil_of_leads {syms : List Nat} {tree : List TreeRec} {root : Option Nat} {x : HufShape}
    (h : HufTreeOf syms tree root x) {p : List Bool} {b : Byte} (hp : x.Leads p b) : p ≠ [] := by
  obtain ⟨left, right, rfl⟩ := h.inner
  cases hp <;> exact List.cons_ne_nil _ _

theorem hufSyms_length_le (freq : List Nat) (n : Nat) : (hufSyms freq n).length ≤ n :=
  (List.length_filter_le _ _).trans_eq List.length_range

/-- Where a symbol occurs, `BuildTree` makes a tree. -/
theorem exists_hufTreeOf {t : Tables} (h : hufSyms t.freq 256 ≠ []) :
    ∃ x, HufTreeOf (hufSyms t.freq 256) (buildTree t).1.tree (buildTree t).2.2 x := by
  have hpos := List.length_pos_iff.2 h
  obtain hone | hmore := Nat.lt_or_eq_of_le hpos |>.symm
  · obtain ⟨v, hv⟩ := List.length_eq_one_iff.1 hone.symm
    obtain ⟨htree, hroot⟩ := buildTree_of_one hv
    rw [htree, hroot, hv]
    exact ⟨.int (.leaf (BitVec.ofNat 8 v)) .null, .int rfl (.leaf rfl) .null, .refl _, ⟨_, _, rfl⟩,
      show 4 ≤ 767 by decide, show 2 ≤ 256 by decide, Nat.le_refl 2⟩
  · obtain ⟨u, seq, shape, hm, htree, hlen, hroot, hleaves⟩ := buildTree_of_more hmore
    have hbound := hufSyms_length_le t.freq 256
    obtain ⟨hheld, hfull⟩ := hm.held (2 * (hufSyms t.freq 256).length - 2) (by omega)
    have hcount := hleaves.length_eq
    rw [List.length_map] at hcount
    obtain ⟨hlevels, hser⟩ := hfull.sizes
    rw [htree, hroot]
    refine ⟨_, hheld, hleaves, ?_, by omega, by omega, by omega⟩
    generalize shape (2 * (hufSyms t.freq 256).length - 2) = x at hfull hcount
    cases x with
    | null => exact hfull.elim
    | leaf sym => exact absurd hcount hmore.ne
    | int left right => exact ⟨_, _, rfl⟩

/-! ## The frequencies of an input (R221) -/

theorem freqTable_concat (x : Bytes) (b : Byte) :
    freqTable (x ++ [b]) = (freqTable x).modify b.toNat (· + 1) := List.foldl_append

/-- Each byte value is counted. -/
theorem freqTable_eq (x : Bytes) : freqTable x = (List.range 256).map fun v => x.count (BitVec.ofNat 8 v) := by
  induction x using List.reverseRecOn with
  | nil =>
    have hzeros : (List.range 256).map (fun _ => 0) = List.replicate 256 0 := by rw [List.map_const', List.length_range]
    exact hzeros.symm
  | append_singleton x b ih =>
    rw [freqTable_concat, ih]
    refine List.ext_getElem (by simp) fun v hv hv' => ?_
    have hlt : v < 256 := by simpa using hv'
    have hb : b = BitVec.ofNat 8 v ↔ b.toNat = v := by
      rw [← BitVec.toNat_inj, BitVec.toNat_ofNat, Nat.mod_eq_of_lt hlt]
    simp only [List.getElem_modify, List.getElem_map, List.getElem_range, List.count_append, List.count_singleton,
      beq_iff_eq, hb]
    split <;> rfl

theorem freqTable_getD (x : Bytes) (b : Byte) : (freqTable x).getD b.toNat 0 = x.count b := by
  rw [freqTable_eq, List.getD_eq_getElem _ _ (by simpa using b.isLt)]
  simp

/-- Every byte of the input is a symbol of its tree. -/
theorem mem_hufSyms_freqTable {x : Bytes} {b : Byte} (h : b ∈ x) :
    b ∈ (hufSyms (freqTable x) 256).map (BitVec.ofNat 8) := by
  refine List.mem_map.2 ⟨b.toNat, List.mem_filter.2 ⟨List.mem_range.2 b.isLt, ?_⟩, by simp⟩
  rw [freqTable_getD]
  exact decide_eq_true (List.count_pos_iff.2 h)

/-- `BuildTree` makes a tree of the symbols of an input that is not empty. -/
theorem exists_hufTreeOf_input {input : Bytes} (h : input ≠ []) :
    ∃ x, HufTreeOf (hufSyms (freqTable input) 256)
      (buildTree { Tables.fresh with freq := freqTable input }).1.tree
      (buildTree { Tables.fresh with freq := freqTable input }).2.2 x := by
  refine exists_hufTreeOf (t := { Tables.fresh with freq := freqTable input }) fun hnil => ?_
  obtain ⟨b, hb⟩ := List.exists_mem_of_ne_nil _ h
  have hsym := mem_hufSyms_freqTable hb
  rw [show hufSyms (freqTable input) 256 = [] from hnil] at hsym
  exact absurd hsym List.not_mem_nil

theorem totalBits_cons (f : Nat) (freq : List Nat) (c : List Bool) (code : List (List Bool)) :
    totalBits (f :: freq) (c :: code) = f * c.length + totalBits freq code := rfl

/-- One more byte of the value `i`. -/
theorem totalBits_modify {freq : List Nat} {code : List (List Bool)} {i : Nat} (hf : i < freq.length)
    (hc : i < code.length) :
    totalBits (freq.modify i (· + 1)) code = totalBits freq code + (code.getD i []).length := by
  induction freq generalizing code i with
  | nil => exact absurd hf (Nat.not_lt_zero i)
  | cons f freq ih =>
    cases code with
    | nil => exact absurd hc (Nat.not_lt_zero i)
    | cons c code =>
      cases i with
      | zero =>
        rw [List.modify_zero_cons, totalBits_cons, totalBits_cons, List.getD_cons_zero, Nat.succ_mul]
        omega
      | succ i =>
        rw [List.modify_succ_cons, totalBits_cons, totalBits_cons, List.getD_cons_succ,
          ih (Nat.lt_of_succ_lt_succ hf) (Nat.lt_of_succ_lt_succ hc), Nat.add_assoc]

/-- The number of code bits is that of the codes of the input. -/
theorem totalBits_freqTable (x : HufShape) (input : Bytes) :
    totalBits (freqTable input) x.table = (x.bits input).length := by
  have hzero (n : Nat) (code : List (List Bool)) : totalBits (List.replicate n 0) code = 0 := by
    induction n generalizing code with
    | zero => rfl
    | succ n ih =>
      cases code with
      | nil => rfl
      | cons c code => rw [List.replicate_succ, totalBits_cons, Nat.zero_mul, ih]
  induction input using List.reverseRecOn with
  | nil => exact hzero 256 _
  | append_singleton input b ih =>
    have hfreq : b.toNat < (freqTable input).length := by simpa [freqTable_eq] using b.isLt
    have htable : b.toNat < x.table.length := x.table_length ▸ b.isLt
    rw [freqTable_concat, totalBits_modify hfreq htable, ih, HufShape.bits, HufShape.bits, List.flatMap_append,
      List.length_append, List.flatMap_singleton, HufShape.code]

/-! ## What `BuildTree` leaves -/

theorem buildLeaf_freq (freq : List Nat) (t : Tables) (sym : Nat) : (buildLeaf freq t sym).freq = t.freq := by
  unfold buildLeaf
  dsimp only
  split <;> rfl

theorem foldl_buildLeaf_freq (freq syms : List Nat) (t : Tables) : (syms.foldl (buildLeaf freq) t).freq = t.freq := by
  induction syms generalizing t with
  | nil => rfl
  | cons sym syms ih => exact (ih _).trans (buildLeaf_freq freq t sym)

theorem mergeAll_freq (more : Nat) (t : Tables) (seq : Nat) : (mergeAll more (t, seq)).1.freq = t.freq := by
  induction more generalizing t seq with
  | zero => rfl
  | succ more ih =>
    rw [mergeAll]
    split
    · exact ih _ _
    · rfl

theorem oneChildRoot_freq (t : Tables) : (oneChildRoot t).1.freq = t.freq := by
  unfold oneChildRoot
  split <;> rfl

/-- `BuildTree` leaves the frequencies. -/
theorem buildTree_freq (t : Tables) : (buildTree t).1.freq = t.freq := by
  have hleaves := foldl_buildLeaf_freq t.freq (List.range Config.alphabet) { t with tree := [], pq := [] }
  unfold buildTree
  dsimp only
  generalize (List.range Config.alphabet).foldl (buildLeaf t.freq) { t with tree := [], pq := [] } = u at hleaves ⊢
  split
  · exact (oneChildRoot_freq u).trans hleaves
  · have hmerge := (mergeAll_freq u.pq.length u 256).trans hleaves
    split
    · exact hmerge
    · exact hmerge

end Sys2Proof.Machine
end

section
/-! COMPRESS.HUFFMAN (46_huffman.md R221, R226): the bit packer, the loop over the input, and the frame (O46). -/

namespace Sys2Proof.Machine

/-! ## Bits packed highest first (R226, 00_scope.md R12) -/

/-- The whole bytes that leave when `bits` follow the bits `w` that wait. -/
def packFull (w : List Bool) : List Bool → Bytes
  | [] => []
  | b :: bits =>
    if w.length + 1 = 8 then BitVec.ofNat 8 (bitsValue (w ++ [b])) :: packFull [] bits else packFull (w ++ [b]) bits

/-- The bits that wait after `bits`. -/
def packRest (w : List Bool) : List Bool → List Bool
  | [] => w
  | b :: bits => if w.length + 1 = 8 then packRest [] bits else packRest (w ++ [b]) bits

/-- The last byte: the bits that wait, and zeros below them. -/
def packFlush (w : List Bool) : Bytes :=
  if 0 < w.length then [BitVec.ofNat 8 (bitsValue w * 2 ^ (8 - w.length))] else []

/-- The bytes of `bits` after the bits `w`, with the padding. -/
def packBits (w bits : List Bool) : Bytes := packFull w bits ++ packFlush (packRest w bits)

theorem packBits_append (w bits more : List Bool) :
    packBits w (bits ++ more) = packFull w bits ++ packBits (packRest w bits) more := by
  induction bits generalizing w with
  | nil => rfl
  | cons b bits ih =>
    have ih0 := ih []
    have ih1 := ih (w ++ [b])
    rw [packBits] at ih0 ih1 ⊢
    rw [List.cons_append, packFull, packRest, packFull, packRest]
    split
    · rw [List.cons_append, ih0, List.cons_append]
    · exact ih1

theorem bitsFrom_add (bs : Bytes) (i m n : Nat) : bitsFrom bs i (m + n) = bitsFrom bs i m ++ bitsFrom bs (i + m) n := by
  induction m generalizing i with
  | zero => rw [Nat.zero_add]; rfl
  | succ m ih => rw [Nat.succ_add, bitsFrom, bitsFrom, ih, List.cons_append, Nat.add_assoc, Nat.add_comm 1]

theorem bitsFrom_cons (b : Byte) (bs : Bytes) (i n : Nat) : bitsFrom (b :: bs) (i + 8) n = bitsFrom bs i n := by
  induction n generalizing i with
  | zero => rfl
  | succ n ih =>
    rw [bitsFrom, bitsFrom, bitAt_cons_of_le _ _ (by omega), Nat.add_sub_cancel, Nat.add_right_comm, ih]

/-- The bits of the byte that eight bits make. -/
theorem bitsFrom_byte {w : List Bool} (h : w.length = 8) (bs : Bytes) :
    bitsFrom (BitVec.ofNat 8 (bitsValue w) :: bs) 0 8 = w := by
  refine List.ext_getElem ((bitsFrom_length _ _ _).trans h.symm) fun k hk hk' => ?_
  rw [bitsFrom_getElem, bitAt_cons_of_lt _ _ (by omega), BitVec.getLsbD_ofNat, testBit_bitsValue,
    decide_eq_true (by omega), Bool.true_and, List.getD_eq_getElem _ _ (by rw [List.length_reverse]; omega),
    List.getElem_reverse]
  congr 1
  omega

theorem bitsFrom_byte_cons {w : List Bool} (h : w.length = 8) (bs : Bytes) :
    bitsFrom (BitVec.ofNat 8 (bitsValue w) :: bs) 0 (8 * (bs.length + 1)) = w ++ bitsFrom bs 0 (8 * bs.length) := by
  rw [Nat.mul_succ, Nat.add_comm, bitsFrom_add, bitsFrom_byte h, bitsFrom_cons]

theorem bitsValue_append_zeros (w : List Bool) (k : Nat) :
    bitsValue (w ++ List.replicate k false) = bitsValue w * 2 ^ k := by
  induction k with
  | zero => simp
  | succ k ih =>
    rw [List.replicate_succ', ← List.append_assoc, bitsValue_concat, ih, Bool.toNat_false, Nat.add_zero]
    ring

theorem packBits_cons_full {w : List Bool} (h : w.length + 1 = 8) (b : Bool) (bits : List Bool) :
    packBits w (b :: bits) = BitVec.ofNat 8 (bitsValue (w ++ [b])) :: packBits [] bits := by
  rw [packBits, packFull, packRest, if_pos h, if_pos h, List.cons_append, packBits]

theorem packBits_cons_short {w : List Bool} (h : w.length + 1 ≠ 8) (b : Bool) (bits : List Bool) :
    packBits w (b :: bits) = packBits (w ++ [b]) bits := by
  rw [packBits, packFull, packRest, if_neg h, if_neg h, packBits]

theorem packBits_nil_of_pos {w : List Bool} (h : 0 < w.length) :
    packBits w [] = [BitVec.ofNat 8 (bitsValue (w ++ List.replicate (8 - w.length) false))] := by
  rw [bitsValue_append_zeros]
  exact if_pos h

/-- What packed bits are: the bits, and zeros up to a whole byte. -/
theorem packBits_bits {w : List Bool} (hw : w.length < 8) (bits : List Bool) :
    (packBits w bits).length = (w.length + bits.length + 7) / 8 ∧
    bitsFrom (packBits w bits) 0 (8 * (packBits w bits).length) =
      w ++ bits ++ List.replicate (8 * (packBits w bits).length - (w.length + bits.length)) false := by
  induction bits generalizing w with
  | nil =>
    obtain h0 | hpos := Nat.eq_zero_or_pos w.length
    · obtain rfl := List.length_eq_zero_iff.1 h0
      exact ⟨rfl, rfl⟩
    · have hbyte : (w ++ List.replicate (8 - w.length) false).length = 8 := by
        rw [List.length_append, List.length_replicate]
        omega
      have hbits := bitsFrom_byte_cons hbyte []
      rw [packBits_nil_of_pos hpos, List.length_singleton, List.append_nil, List.length_nil]
      exact ⟨by omega, hbits.trans (List.append_nil _)⟩
  | cons b bits ih =>
    by_cases hfull : w.length + 1 = 8
    · obtain ⟨hlen, hbits⟩ := ih (w := []) (by decide)
      have hbyte : (w ++ [b]).length = 8 := by rw [List.length_append, List.length_singleton, hfull]
      rw [List.length_nil, Nat.zero_add] at hlen hbits
      rw [packBits_cons_full hfull, List.length_cons, List.length_cons, bitsFrom_byte_cons hbyte, hbits]
      refine ⟨by omega, ?_⟩
      have hpad : 8 * ((packBits [] bits).length + 1) - (w.length + (bits.length + 1)) =
          8 * (packBits [] bits).length - bits.length := by omega
      rw [hpad, List.nil_append, List.append_assoc, List.append_assoc]
      rfl
    · have hsum : (w ++ [b]).length + bits.length = w.length + (bits.length + 1) := by
        rw [List.length_append, List.length_singleton]
        omega
      have hmore := ih (w := w ++ [b]) (by rw [List.length_append, List.length_singleton]; omega)
      rw [hsum, ← List.append_cons] at hmore
      rw [packBits_cons_short hfull, List.length_cons]
      exact hmore

/-! ## The bit packer (R226) -/

/-- The bits `w` wait in the packer. -/
def State.Waits (s : State) (w : List Bool) : Prop := s.regs.acc = bitsValue w ∧ s.regs.nacc = w.length

theorem State.withBits_self (s : State) : s.withBits s.regs.acc s.regs.nacc = s := rfl

section packer

variable {s : State} {w : List Bool}

theorem putBit_full (h : s.Waits w) (hfull : w.length + 1 = 8) (b : Bool) :
    putBit b s = s.emitGo [BitVec.ofNat 8 (bitsValue (w ++ [b]))] (State.withBits · 0 0) := by
  obtain ⟨hacc, hnacc⟩ := h
  simp only [putBit, hacc, hnacc, if_pos hfull]
  rw [bitsValue_concat, Nat.mul_comm 2, State.emitGo, State.emitSeq_singleton]
  rfl

theorem putBit_short (h : s.Waits w) (hshort : w.length + 1 ≠ 8) (b : Bool) :
    putBit b s = .ok (s.withBits (bitsValue (w ++ [b])) (w ++ [b]).length) := by
  obtain ⟨hacc, hnacc⟩ := h
  simp only [putBit, hacc, hnacc, if_neg hshort]
  rw [bitsValue_concat, Nat.mul_comm 2, List.length_append]
  rfl

/-- `PutBits`: the whole bytes leave, and the rest waits. -/
theorem putBits_eq (bits : List Bool) {s : State} {w : List Bool} (h : s.Waits w) :
    putBits bits s =
      s.emitGo (packFull w bits) (State.withBits · (bitsValue (packRest w bits)) (packRest w bits).length) := by
  induction bits generalizing s w with
  | nil =>
    obtain ⟨hacc, hnacc⟩ := h
    rw [packFull, packRest, ← hacc, ← hnacc]
    rfl
  | cons b bits ih =>
    rw [putBits]
    by_cases hfull : w.length + 1 = 8
    · rw [putBit_full h hfull, packFull, packRest, if_pos hfull, if_pos hfull]
      have happ := (silent_withBits 0 0).emitGo_append s [BitVec.ofNat 8 (bitsValue (w ++ [b]))] (packFull [] bits)
        (State.withBits · (bitsValue (packRest [] bits)) (packRest [] bits).length)
      refine Eq.trans ?_ happ
      rw [State.emitGo, bind_assoc, bind_assoc]
      exact State.emitSeq_bind_congr (ih (w := []) ⟨rfl, rfl⟩)
    · rw [putBit_short h hfull, packFull, packRest, if_neg hfull, if_neg hfull]
      have happ := (silent_withBits (bitsValue (w ++ [b])) (w ++ [b]).length).emitGo_append s []
        (packFull (w ++ [b]) bits)
        (State.withBits · (bitsValue (packRest (w ++ [b]) bits)) (packRest (w ++ [b]) bits).length)
      exact (ih (w := w ++ [b]) ⟨rfl, rfl⟩).trans happ

theorem flushBits_eq (h : s.Waits w) : flushBits s = s.emitGo (packFlush w) (State.withBits · s.regs.acc 0) := by
  obtain ⟨hacc, hnacc⟩ := h
  rw [flushBits, packFlush, hnacc, ← hacc]
  split
  · rw [← State.emitSeq_singleton]
    exact State.emitSeq_bind_congr rfl
  · next h0 =>
    have hself : s.withBits s.regs.acc 0 = s := by rw [← Nat.eq_zero_of_not_pos h0, ← hnacc, s.withBits_self]
    exact congrArg Except.ok hself.symm

end packer

/-! ## The loop over the input (R221 (7)) -/

/-- `t` is the compressor in its loop, with the codes of `x`, where the bits `w` wait. -/
structure State.HufPacking (t : State) (x : HufShape) (w : List Bool) : Prop where
  phase : t.phase = .hufC
  code : t.tabs.code = x.table
  waits : t.Waits w
  short : w.length < 8

/-- What a turn writes after its output, where the bits `w` wait then. -/
def State.hufPacked (s : State) (w : List Bool) (t : State) : State :=
  { t with regs := { t.regs with
      acc := bitsValue w, nacc := w.length, cur := s.inAt s.regs.ip, ip := s.regs.ip + 1 } }

/-- What follows the loop writes after its output. -/
def State.hufEnded (s : State) (t : State) : State := (t.withBits s.regs.acc 0).goTo .finished

theorem packRest_length {w : List Bool} (h : w.length < 8) (bits : List Bool) : (packRest w bits).length < 8 := by
  induction bits generalizing w with
  | nil => exact h
  | cons b bits ih =>
    rw [packRest]
    split
    · exact ih (by decide)
    · exact ih (by rw [List.length_append, List.length_singleton]; omega)

section compressor

variable {s t : State} {out : Bytes} {x : HufShape} {w : List Bool}

theorem hufUnit_eq (h : t.HufPacking x w) : hufUnit t =
    t.emitGo (packFull w (x.code (t.inAt t.regs.ip))) (t.hufPacked (packRest w (x.code (t.inAt t.regs.ip)))) := by
  have hcode : t.tabs.code.getD (t.inAt t.regs.ip).toNat [] = x.code (t.inAt t.regs.ip) := by rw [h.code]; rfl
  rw [hufUnit, hcode, putBits_eq _ h.waits, State.emitGo, bind_assoc]
  exact State.emitSeq_bind_congr rfl

theorem hufCEnd_eq (h : t.HufPacking x w) : hufCEnd t = t.emitGo (packFlush w) t.hufEnded := by
  rw [hufCEnd, flushBits_eq h.waits, State.emitGo, bind_assoc]
  exact State.emitSeq_bind_congr rfl

theorem unitOfWork_hufC (hp : t.phase = .hufC) : unitOfWork t = t.settle (turn t hufUnit hufCEnd) := by
  simp [unitOfWork, State.nextToken, State.fetchBytes, advance, hp]

theorem State.Running.hufPacked {u : State} (h : s.Running u out) (t : State) (w : List Bool) :
    s.Running (t.hufPacked w u) out :=
  { h with inputs := h.inputs.trans u.keepsInputs_engine }

theorem State.Running.hufEnded {u : State} (h : s.Running u out) (t : State) : s.Running (t.hufEnded u) out :=
  { h with inputs := h.inputs.trans u.keepsInputs_engine }

theorem State.HufPacking.packed (h : t.HufPacking x w) (bs : Bytes) (bits : List Bool) :
    (t.hufPacked (packRest w bits) (t.putAll bs)).HufPacking x (packRest w bits) :=
  ⟨h.phase, h.code, ⟨rfl, rfl⟩, packRest_length h.short bits⟩

/-- The end of the loop: the bits that wait are emitted, and then the operation ends. -/
theorem State.Running.runUnits_hufCEnd (h : s.Running t out) (hpk : t.HufPacking x w) (hend : ¬ t.regs.ip < t.regs.nIn)
    (hlen : (out ++ packFlush w).length < 2 ^ 64) (fuel : Nat) :
    s.EndsWithin (out ++ packFlush w) (runUnits (fuel + 2) t) := by
  have hu := unitOfWork_hufC hpk.phase
  rw [turn, if_neg hend, hufCEnd_eq hpk, State.emitGo] at hu
  have hrun := h.runUnits_emitSeq (ys := []) (fuel := fuel + 1) hu fun hnext => ?_
  · rwa [List.append_nil] at hrun
  · rw [List.append_nil]
    exact (hnext.hufEnded t).runUnits_endOp hlen (unitOfWork_finished rfl) fuel

/-- The loop of the compressor over what is left of the input. -/
theorem runUnits_hufC (xs : Bytes) {t : State} {out : Bytes} {w : List Bool} {fuel : Nat} (h : s.Running t out)
    (hpk : t.HufPacking x w) (hd : s.inputBytes.drop t.regs.ip = xs)
    (hlen : (out ++ packBits w (x.bits xs)).length < 2 ^ 64) :
    s.EndsWithin (out ++ packBits w (x.bits xs)) (runUnits (xs.length + 2 + fuel) t) := by
  induction xs generalizing t out w with
  | nil =>
    rw [List.length_nil, Nat.zero_add, Nat.add_comm]
    exact h.runUnits_hufCEnd hpk (h.of_drop_nil hd) hlen fuel
  | cons b xs ih =>
    obtain ⟨hlt, hb, hrest⟩ := h.of_drop_cons hd
    have hu := unitOfWork_hufC hpk.phase
    rw [turn, if_pos hlt, hufUnit_eq hpk, hb, State.emitGo] at hu
    rw [List.length_cons, Nat.add_right_comm _ 1 2, Nat.add_right_comm _ 1 fuel]
    rw [HufShape.bits_cons, packBits_append] at hlen ⊢
    refine h.runUnits_emitSeq hu fun hnext => ?_
    rw [← List.append_assoc] at hlen
    exact ih (hnext.hufPacked t _) (hpk.packed _ _) hrest hlen

end compressor

/-! ## The frame (R221) -/

/-- The frame of an input of `n` bytes with the tree `x` and the code bits `bits` (30_encoding.md R94). -/
def hufFrame (n : Nat) (x : HufShape) (bits : List Bool) : Bytes :=
  u64le n ++ u32le x.ser.length ++ x.ser ++ u64le bits.length ++ packBits [] bits

theorem hufFrame_length (n : Nat) (x : HufShape) (bits : List Bool) :
    (hufFrame n x bits).length = 20 + x.ser.length + (bits.length + 7) / 8 := by
  have hpacked := (packBits_bits (w := []) (by decide) bits).1
  rw [List.length_nil, Nat.zero_add] at hpacked
  simp only [hufFrame, List.length_append, u64le_length, u32le_length, hpacked]
  omega

/-- The tables and the registers of steps (1) to (5) of R221. -/
def State.hufCTables (s : State) (built : Tables × Nat × Option Nat) (code : List (List Bool)) (tl tb : Nat) : State :=
  { s with
    tabs := { built.1 with code := code }
    regs := { s.regs with seq := built.2.1, root := built.2.2, tl := tl, tb := tb } }

/-- The compressor before its loop. -/
def State.hufCBegin (s : State) (built : Tables × Nat × Option Nat) (code : List (List Bool)) (tl tb : Nat) : State :=
  { s.hufCTables built code tl tb with
    regs := { (s.hufCTables built code tl tb).regs with acc := 0, nacc := 0, ip := 0 }, phase := .hufC }

theorem State.Running.hufCBegin {s t : State} {out : Bytes} (h : s.Running t out)
    (built : Tables × Nat × Option Nat) (code : List (List Bool)) (tl tb : Nat) :
    s.Running (t.hufCBegin built code tl tb) out :=
  { h with inputs := h.inputs.trans t.keepsInputs_engine }

/-- Steps (1) to (6) of R221, with the codes `code`, the tree field `ser` and the bit count `tb`. -/
theorem hufCStart_eq {s : State} {built : Tables × Nat × Option Nat} {code : List (List Bool)} {ser : Bytes} {tb : Nat}
    (hbuilt : buildTree { s.tabs with freq := freqTable s.input } = built)
    (hcode : genCodes built.1.tree built.1.tree.length built.2.2 [] (List.replicate Config.alphabet []) = code)
    (hser : serTree built.1.tree (built.1.tree.length + 1) built.2.2 = ser) (htb : totalBits built.1.freq code = tb) :
    hufCStart s = s.emitGo (u64le s.regs.nIn ++ u32le ser.length ++ ser ++ u64le tb)
      (State.hufCBegin · built code ser.length tb) := by
  have hsilent : Silent (State.hufCTables · built code ser.length tb) := ⟨fun _ _ => .rfl, fun _ _ => rfl⟩
  have hform : hufCStart s = (s.hufCTables built code ser.length tb).emitSeq
      (u64le s.regs.nIn ++ u32le ser.length ++ ser ++ u64le tb) >>= fun u =>
        .ok { u with regs := { u.regs with acc := 0, nacc := 0, ip := 0 }, phase := .hufC } := by
    subst hbuilt hcode hser htb
    rfl
  rw [hform, hsilent.emitSeq, State.emitGo, bind_assoc]
  exact State.emitSeq_bind_congr rfl

/-- Steps (1) to (6) of R221 where the tree of the input is `x`. -/
theorem hufCStart_of_tree {s : State} {built : Tables × Nat × Option Nat} {x : HufShape} {syms : List Nat}
    (hbuilt : buildTree { s.tabs with freq := freqTable s.input } = built)
    (hx : HufTreeOf syms built.1.tree built.2.2 x) :
    hufCStart s = s.emitGo (u64le s.regs.nIn ++ u32le x.ser.length ++ x.ser ++ u64le (x.bits s.input).length)
      (State.hufCBegin · built x.table x.ser.length (x.bits s.input).length) := by
  refine hufCStart_eq hbuilt (hx.held.genCodes hx.levels_le_tree _ _)
    (hx.held.serTree (Nat.le_succ_of_le hx.levels_le_tree)) ?_
  rw [← hbuilt, buildTree_freq]
  exact totalBits_freqTable x s.input

/-- COMPRESS.HUFFMAN over an input that is not empty. -/
theorem compressHuffman_endsWithin {s : State} {x : HufShape} (hf : s.inputFits) (h0 : s.inLen.toNat ≠ 0)
    (hlt : s.inLen.toNat < 2 ^ 56) {built : Tables × Nat × Option Nat}
    (hbuilt : buildTree { Tables.fresh with freq := freqTable s.inputBytes } = built)
    (hx : HufTreeOf (hufSyms (freqTable s.inputBytes) 256) built.1.tree built.2.2 x) :
    s.EndsWithin (hufFrame s.inLen.toNat x (x.bits s.inputBytes)) (operate (beginCompress .huffman) s) := by
  have hbegin : beginCompress .huffman s.start = hufCStart s.start := if_neg h0
  have hbits : (x.bits s.inputBytes).length ≤ 255 * s.inputBytes.length :=
    HufShape.bits_length_le hx.levels_le fun b hb => hx.leaves.mem_iff.2 (mem_hufSyms_freqTable hb)
  have hser := hx.ser_le
  have hlen := hufFrame_length s.inLen.toNat x (x.bits s.inputBytes)
  rw [s.inputBytes_length] at hbits
  rw [← s.start_input] at hbuilt
  obtain ⟨fuel, hfuel⟩ : ∃ fuel, s.fuel = s.inputBytes.length + 2 + fuel :=
    Nat.exists_eq_add_of_le (by rw [State.fuel, s.inputBytes_length]; omega)
  have hstart : s.Running s.start [] := s.start_running .command
  rw [hufFrame] at hlen ⊢
  rw [operate_of_inputFits hf, hbegin, hufCStart_of_tree hbuilt hx, hfuel, State.emitGo, s.start_input,
    ← List.nil_append (_ ++ packBits _ _)]
  refine hstart.settle_emitSeq fun hnext => ?_
  have hpk : ((s.start.putAll (u64le s.inLen.toNat ++ u32le x.ser.length ++ x.ser ++
      u64le (x.bits s.inputBytes).length)).hufCBegin built x.table x.ser.length
        (x.bits s.inputBytes).length).HufPacking x [] := ⟨rfl, rfl, ⟨rfl, rfl⟩, by decide⟩
  refine runUnits_hufC s.inputBytes (hnext.hufCBegin built _ _ _) hpk rfl ?_
  rw [List.nil_append, hlen]
  omega

/-- Settles O46: the code of a byte is the way to its leaf, and the packed bits are read back. -/
theorem huffmanCompressWritesItsFrame : Obligations.HuffmanCompressWritesItsFrame := by
  rintro s freq hf h1 hlt rfl
  rw [← freqTable_eq]
  have hne : s.inputBytes ≠ [] := List.ne_nil_of_length_pos (s.inputBytes_length.symm ▸ h1)
  obtain ⟨x, hx⟩ := exists_hufTreeOf_input hne
  have hser := hx.held.serTree (Nat.le_succ_of_le hx.levels_le_tree)
  obtain ⟨hlen, hbits⟩ := packBits_bits (w := []) (by decide) (x.bits s.inputBytes)
  rw [List.nil_append, List.length_nil, Nat.zero_add] at hbits
  rw [List.length_nil, Nat.zero_add] at hlen
  refine ⟨x.code, packBits [] (x.bits s.inputBytes), fun b hb => ?code, hlen, hbits, ?frame⟩
  case code =>
    have hleads := HufShape.code_leads (hx.leaves.mem_iff.2 (mem_hufSyms_freqTable hb))
    exact ⟨hx.ne_nil_of_leads hleads, hx.held.walkTree hleads⟩
  case frame =>
    have hend := compressHuffman_endsWithin hf (Nat.ne_of_gt h1) hlt rfl hx
    rw [hser]
    exact givesWithinCap_of_operate (i := .compressHuffman) rfl rfl nofun nofun hend

end Sys2Proof.Machine
end

section
/-! The round trip of Huffman (46_huffman.md R241): `Des` rebuilds the tree of its serialisation, and the walk over the
codes of an input gives the input back (O44). -/

namespace Sys2Proof.Machine

namespace HufShape

/-! ## The records that `Des` makes (R236) -/

/-- How many tags the serialisation has. -/
def tags : HufShape → Nat
  | .null => 1
  | .leaf _ => 1
  | .int left right => left.tags + right.tags + 1

/-- How many records a shape has. -/
def count : HufShape → Nat
  | .null => 0
  | .leaf _ => 1
  | .int left right => left.count + right.count + 1

/-- The place of a shape whose first record has the index `n`. -/
def place (n : Nat) : HufShape → Option Nat
  | .null => none
  | .leaf _ => some n
  | .int _ _ => some n

/-- The records of a shape in pre-order, the first with the index `n`. -/
def records (n : Nat) : HufShape → List TreeRec
  | .null => []
  | .leaf sym => [.leaf sym]
  | .int left right =>
    .internal (left.place (n + 1)) (right.place (n + 1 + left.count)) ::
      (left.records (n + 1) ++ right.records (n + 1 + left.count))

theorem records_length (n : Nat) (x : HufShape) : (x.records n).length = x.count := by
  induction x generalizing n with
  | null => rfl
  | leaf sym => rfl
  | int left right ihl ihr => rw [records, List.length_cons, List.length_append, ihl, ihr, count]

/-- The records hold the shape, whatever is before them. -/
theorem records_held (x : HufShape) (tree : List TreeRec) :
    Held (tree ++ x.records tree.length) (x.place tree.length) x := by
  induction x generalizing tree with
  | null => exact .null
  | leaf sym => exact .leaf (getElem?_append_add tree _ 0)
  | int left right ihl ihr =>
    have hroot : (tree ++ (HufShape.int left right).records tree.length)[tree.length]? =
        some (.internal (left.place (tree.length + 1)) (right.place (tree.length + 1 + left.count))) :=
      getElem?_append_add tree _ 0
    have hsplit : tree ++ (HufShape.int left right).records tree.length = tree ++
        [.internal (left.place (tree.length + 1)) (right.place (tree.length + 1 + left.count))] ++
          left.records (tree.length + 1) ++ right.records (tree.length + 1 + left.count) := by
      simp [records]
    have hl (l r : Option Nat) := ihl (tree ++ [.internal l r])
    have hr (l r : Option Nat) := ihr (tree ++ [.internal l r] ++ left.records (tree.length + 1))
    simp only [List.length_append, List.length_singleton, records_length] at hl hr
    refine .int hroot ?_ ?_
    · rw [hsplit]
      exact (hl _ _).append _
    · rw [hsplit]
      exact hr _ _

theorem tags_le (x : HufShape) : x.tags ≤ x.ser.length := by
  induction x with
  | null => exact Nat.le_refl 1
  | leaf sym => exact Nat.le_succ 1
  | int left right ihl ihr =>
    have hint : (encode .hufInt).length = 1 := rfl
    rw [tags, ser, List.length_append, List.length_append, hint]
    omega

end HufShape

/-! ## The tree field (R236) -/

/-- The arena, the root, the places and the cursor written. -/
def State.withTree (s : State) (tree : List TreeRec) (root : Option Nat) (slots : List Slot) (tp : Nat) : State :=
  { s with
    tabs := { s.tabs with tree := tree }
    regs := { s.regs with tp := tp, root := root, slots := slots } }

/-- The decoder after `Des` has read the shape `x` for the place `sl`. -/
def State.hufRead (s : State) (sl : Slot) (rest : List Slot) (x : HufShape) : State :=
  s.withTree (sl.fill (x.place s.tabs.tree.length) s.tabs.tree ++ x.records s.tabs.tree.length)
    (sl.fillRoot (x.place s.tabs.tree.length) s.regs.root) rest (s.regs.tp + x.ser.length)

theorem State.Running.withTree {s t : State} {out : Bytes} (h : s.Running t out) (tree : List TreeRec)
    (root : Option Nat) (slots : List Slot) (tp : Nat) : s.Running (t.withTree tree root slots tp) out :=
  { h with inputs := h.inputs.trans t.keepsInputs_engine }

theorem State.Running.hufRead {s t : State} {out : Bytes} (h : s.Running t out) (sl : Slot) (rest : List Slot)
    (x : HufShape) : s.Running (t.hufRead sl rest x) out := h.withTree _ _ _ _

theorem modify_append_length {α : Type} (f : α → α) (as : List α) (b : α) (bs : List α) :
    (as ++ b :: bs).modify as.length f = as ++ f b :: bs := by
  induction as with
  | nil => rfl
  | cons a as ih => exact congrArg (a :: ·) ih

section hufRead

variable {s : State} {tree : List TreeRec} {n : Nat} {root : Option Nat} {slots rest : List Slot} {tp : Nat}

/-- The left child of the record `n` is read. -/
theorem State.hufRead_left (hn : tree.length = n) (x : HufShape) :
    (s.withTree (tree ++ [.internal none none]) root slots tp).hufRead (.left n) rest x =
      s.withTree (tree ++ .internal (x.place (n + 1)) none :: x.records (n + 1)) root rest (tp + x.ser.length) := by
  have hlen : (s.withTree (tree ++ [.internal none none]) root slots tp).tabs.tree.length = n + 1 :=
    List.length_append.trans (congrArg (· + 1) hn)
  have hfill : Slot.fill (x.place (n + 1)) (tree ++ [.internal none none]) (.left n) =
      tree ++ [.internal (x.place (n + 1)) none] := hn ▸ modify_append_length _ tree _ []
  rw [State.hufRead, hlen]
  show s.withTree (Slot.fill _ (tree ++ [.internal none none]) (.left n) ++ _) root rest _ = _
  rw [hfill, List.append_assoc]
  rfl

/-- The right child of the record `n` is read. -/
theorem State.hufRead_right (hn : tree.length = n) {l : Option Nat} {recs : List TreeRec} {m : Nat}
    (hm : recs.length = m) (x : HufShape) :
    (s.withTree (tree ++ .internal l none :: recs) root slots tp).hufRead (.right n) rest x =
      s.withTree (tree ++ .internal l (x.place (n + 1 + m)) :: (recs ++ x.records (n + 1 + m))) root rest
        (tp + x.ser.length) := by
  have hlen : (s.withTree (tree ++ .internal l none :: recs) root slots tp).tabs.tree.length = n + 1 + m := by
    show (tree ++ TreeRec.internal l none :: recs).length = n + 1 + m
    rw [List.length_append, List.length_cons, hn, hm, Nat.add_right_comm, Nat.add_assoc]
  have hfill : Slot.fill (x.place (n + 1 + m)) (tree ++ .internal l none :: recs) (.right n) =
      tree ++ .internal l (x.place (n + 1 + m)) :: recs := hn ▸ modify_append_length _ tree _ recs
  rw [State.hufRead, hlen]
  show s.withTree (Slot.fill _ (tree ++ .internal l none :: recs) (.right n) ++ _) root rest _ = _
  rw [hfill, List.append_assoc]
  rfl

/-- After INT and both children, the internal shape is read. -/
theorem State.hufRead_int (sl : Slot) (left right : HufShape) :
    ((s.withTree (sl.fill (some s.tabs.tree.length) s.tabs.tree ++ [.internal none none])
        (sl.fillRoot (some s.tabs.tree.length) s.regs.root)
        (.left s.tabs.tree.length :: .right s.tabs.tree.length :: rest) (s.regs.tp + 1)).hufRead
      (.left s.tabs.tree.length) (.right s.tabs.tree.length :: rest) left).hufRead
        (.right s.tabs.tree.length) rest right = s.hufRead sl rest (.int left right) := by
  have hlen := sl.fill_length (some s.tabs.tree.length) s.tabs.tree
  have htp : s.regs.tp + 1 + left.ser.length + right.ser.length = s.regs.tp + (HufShape.int left right).ser.length := by
    have hint : (encode .hufInt).length = 1 := rfl
    rw [HufShape.ser, List.length_append, List.length_append, hint]
    omega
  rw [State.hufRead_left hlen, State.hufRead_right hlen (left.records_length _), htp]
  rfl

end hufRead

theorem drop_of_drop_append {α : Type} {l as bs : List α} {a : Nat} (h : l.drop a = as ++ bs) :
    l.drop (a + as.length) = bs := by
  rw [← List.drop_drop, h, List.drop_left]

section tree

variable {s t : State} {out : Bytes}

/-- `Des` reads the next tag back. -/
theorem State.Running.nextToken_hufTree (h : s.Running t out) (hp : t.phase = .hufTree) (hs : t.regs.slots ≠ [])
    {i : Instr} {more : Bytes} (hin : s.inputBytes.drop (12 + t.regs.tp) = encode i ++ more) (hc : i.ctx = .hufTree)
    (hlen : (encode i).length ≤ 2) (hle : t.regs.tp + (encode i).length ≤ t.regs.tl)
    (htl : 12 + t.regs.tl ≤ s.inLen.toNat) : t.nextToken = some (.ok i) := by
  have hwindow : t.window (12 + t.regs.tp) (12 + t.regs.tl) 2 =
      encode i ++ more.take (min 2 (12 + t.regs.tl - (12 + t.regs.tp)) - (encode i).length) := by
    rw [State.window, h.inSlice (by omega), hin, List.take_append, List.take_of_length_le (by omega)]
  rw [State.nextToken, fetchBytes_hufTree hp, if_pos hs, hwindow, ← hc]
  exact congrArg some (decode_encode i _)

/-- A tag that is next, as a unit of work. -/
theorem State.Running.unitOfWork_tag (h : s.Running t out) (hp : t.phase = .hufTree) {sl : Slot} {rest : List Slot}
    (hs : t.regs.slots = sl :: rest) (hw : sl.Within t.tabs.tree.length)
    {i : Instr} {more : Bytes} (hin : s.inputBytes.drop (12 + t.regs.tp) = encode i ++ more) (hc : i.ctx = .hufTree)
    (hlen : (encode i).length ≤ 2) (hle : t.regs.tp + (encode i).length ≤ t.regs.tl)
    (htl : 12 + t.regs.tl ≤ s.inLen.toNat) {v : Option Nat} {recs : List TreeRec} {slots : List Slot} {len : Nat}
    (hi : tokenEffect i t = .ok (t.tagged v recs slots len)) :
    unitOfWork t = t.withTree (sl.fill v t.tabs.tree ++ recs) (sl.fillRoot v t.regs.root) (slots ++ rest)
      (t.regs.tp + len) := by
  rw [unitOfWork_of_token (h.nextToken_hufTree hp (hs ▸ List.cons_ne_nil _ _) hin hc hlen hle htl), hi, State.settle_ok,
    State.tagged_of_cons hs hw]
  rfl

/-- `Des` over the serialisation of a shape. -/
theorem State.Running.runUnits_hufTree (x : HufShape) {t : State} (h : s.Running t out) (hp : t.phase = .hufTree)
    {sl : Slot} {rest : List Slot} (hs : t.regs.slots = sl :: rest) (hw : sl.Within t.tabs.tree.length) {more : Bytes}
    (hin : s.inputBytes.drop (12 + t.regs.tp) = x.ser ++ more) (hle : t.regs.tp + x.ser.length ≤ t.regs.tl)
    (htl : 12 + t.regs.tl ≤ s.inLen.toNat) (fuel : Nat) :
    runUnits (x.tags + fuel) t = runUnits fuel (t.hufRead sl rest x) := by
  induction x generalizing t sl rest more fuel with
  | null =>
    rw [HufShape.tags, Nat.add_comm, runUnits_busy h.status,
      h.unitOfWork_tag (i := .hufNull) hp hs hw hin rfl (Nat.le_succ 1) hle htl (hufNull_eq t)]
    rfl
  | leaf sym =>
    rw [HufShape.tags, Nat.add_comm, runUnits_busy h.status,
      h.unitOfWork_tag (i := .hufLeaf sym) hp hs hw hin rfl (Nat.le_refl 2) hle htl (hufLeaf_eq sym t)]
    rfl
  | int left right ihl ihr =>
    rw [HufShape.ser, List.append_assoc, List.append_assoc] at hin
    have hint : (encode .hufInt).length = 1 := rfl
    have hser : (HufShape.int left right).ser.length = 1 + left.ser.length + right.ser.length := by
      rw [HufShape.ser, List.length_append, List.length_append, hint]
    have hfuel : (HufShape.int left right).tags + fuel = left.tags + (right.tags + fuel) + 1 := by
      rw [HufShape.tags]
      omega
    rw [hfuel, runUnits_busy h.status,
      h.unitOfWork_tag (i := .hufInt) hp hs hw hin rfl (Nat.le_succ 1) (by omega) htl (hufInt_eq t)]
    have hplace : t.tabs.tree.length < (sl.fill (some t.tabs.tree.length) t.tabs.tree ++
        [TreeRec.internal none none]).length := by
      rw [List.length_append, sl.fill_length, List.length_singleton]
      exact Nat.lt_succ_self _
    have hleft : s.inputBytes.drop (12 + (t.regs.tp + 1)) = left.ser ++ (right.ser ++ more) :=
      drop_of_drop_append (a := 12 + t.regs.tp) hin
    have hright : s.inputBytes.drop (12 + (t.regs.tp + 1 + left.ser.length)) = right.ser ++ more := by
      rw [← Nat.add_assoc]
      exact drop_of_drop_append hleft
    rw [← State.hufRead_int sl left right]
    have hafter := h.withTree (sl.fill (some t.tabs.tree.length) t.tabs.tree ++ [.internal none none])
      (sl.fillRoot (some t.tabs.tree.length) t.regs.root)
      (.left t.tabs.tree.length :: .right t.tabs.tree.length :: rest) (t.regs.tp + 1)
    refine (ihl hafter hp rfl hplace hleft (show t.regs.tp + 1 + left.ser.length ≤ t.regs.tl by omega) htl _).trans ?_
    refine ihr (hafter.hufRead _ _ left) hp rfl ?_ hright
      (show t.regs.tp + 1 + left.ser.length + right.ser.length ≤ t.regs.tl by omega) htl fuel
    exact hplace.trans_le (by
      rw [← Slot.fill_length _ _ (.left t.tabs.tree.length)]
      exact List.length_append ▸ Nat.le_add_right _ _)

end tree

/-! ## The walk (R238) -/

/-- From the place `q` of a tree with the root `root`, the bits spell the bytes. -/
inductive HufSpells (tree : List TreeRec) (root : Option Nat) : Option Nat → List Bool → Bytes → Prop
  | done : HufSpells tree root root [] []
  | down {q c : Nat} {l r l' r' : Option Nat} {b : Bool} {bits : List Bool} {y : Byte} {x : Bytes}
      (hq : tree[q]? = some (.internal l r)) (hc : (if b then r else l) = some c)
      (hs : tree[c]? = some (.internal l' r')) (h : HufSpells tree root (some c) bits (y :: x)) :
      HufSpells tree root (some q) (b :: bits) (y :: x)
  | leaf {q c : Nat} {l r : Option Nat} {b : Bool} {bits : List Bool} {sym : Byte} {x : Bytes}
      (hq : tree[q]? = some (.internal l r)) (hc : (if b then r else l) = some c)
      (hs : tree[c]? = some (.leaf sym)) (h : HufSpells tree root root bits x) :
      HufSpells tree root (some q) (b :: bits) (sym :: x)

section spells

variable {tree : List TreeRec} {root : Option Nat} {bits : List Bool} {x : Bytes}

/-- A step of the walk towards a child that holds `shape`. -/
theorem HufSpells.step {q : Nat} {l r : Option Nat} {b : Bool} {shape : HufShape} {p : List Bool} {y : Byte}
    (hq : tree[q]? = some (.internal l r)) (hc : HufShape.Held tree (if b then r else l) shape) (hp : shape.Leads p y)
    (hnext : p ≠ [] → HufSpells tree root (if b then r else l) (p ++ bits) (y :: x))
    (hrest : HufSpells tree root root bits x) : HufSpells tree root (some q) (b :: (p ++ bits)) (y :: x) := by
  generalize hplace : (if b then r else l) = place at hc hnext
  cases hc with
  | null => cases hp
  | leaf hs =>
    cases hp
    exact .leaf hq hplace hs hrest
  | int hs =>
    refine .down hq hplace hs (hnext ?_)
    cases hp <;> exact List.cons_ne_nil _ _

/-- A way down the shape spells its leaf. -/
theorem HufSpells.of_leads {shape : HufShape} {p : List Bool} {y : Byte} (hp : shape.Leads p y) {q : Option Nat}
    (hq : HufShape.Held tree q shape) (hne : p ≠ []) (hrest : HufSpells tree root root bits x) :
    HufSpells tree root q (p ++ bits) (y :: x) := by
  induction hp generalizing q with
  | leaf => exact absurd rfl hne
  | left hp ih =>
    cases hq with
    | int hrec hl _ => exact .step (b := false) hrec hl hp (ih hl) hrest
  | right hp ih =>
    cases hq with
    | int hrec _ hr => exact .step (b := true) hrec hr hp (ih hr) hrest

end spells

/-- The codes of an input spell it. -/
theorem HufTreeOf.spells {syms : List Nat} {tree : List TreeRec} {root : Option Nat} {shape : HufShape}
    (h : HufTreeOf syms tree root shape) {tree' : List TreeRec} {root' : Option Nat}
    (hheld : HufShape.Held tree' root' shape) {x : Bytes} (hx : ∀ b ∈ x, b ∈ shape.leaves) :
    HufSpells tree' root' root' (shape.bits x) x := by
  induction x with
  | nil => exact .done
  | cons b x ih =>
    obtain ⟨hb, hx⟩ := List.forall_mem_cons.1 hx
    have hleads := HufShape.code_leads hb
    rw [HufShape.bits_cons]
    exact .of_leads hleads hheld (h.ne_nil_of_leads hleads) (ih hx)

/-- `t` is the decoder over the input of `s`, with the recorded length `n`, before the bits `bits`, which are the rest
of the recorded bits of the payload. -/
structure State.HufBefore (s t : State) (n : Nat) (tree : List TreeRec) (root node : Option Nat) (bits : List Bool) :
    Prop where
  phase : t.phase = .hufBits
  recorded : t.regs.n = n
  tree : t.tabs.tree = tree
  root : t.regs.root = root
  node : t.regs.node = node
  count : t.regs.tb = t.regs.bp + bits.length
  payload : 20 + t.regs.tl + (t.regs.tb + 7) / 8 ≤ s.inLen.toNat
  stream : bits = bitsFrom (s.inputBytes.drop (20 + t.regs.tl)) t.regs.bp bits.length

section walk

variable {s t : State} {out : Bytes} {n : Nat} {tree : List TreeRec} {root node : Option Nat} {b : Bool}
  {bits : List Bool}

/-- The decoder reads the next bit back. -/
theorem State.Running.nextToken_hufBits (h : s.Running t out) (hb : s.HufBefore t n tree root node (b :: bits))
    (hlt : out.length < n) : t.nextToken = some (.ok (.hufBit (BitVec.ofBool b))) := by
  have hcount := hb.count
  have hpayload := hb.payload
  rw [List.length_cons] at hcount
  obtain ⟨a, rest, hbyte⟩ : ∃ a rest, s.inputBytes.drop (20 + t.regs.tl + t.regs.bp / 8) = a :: rest :=
    ⟨_, _, s.inputBytes_drop_of_lt (by omega)⟩
  obtain ⟨more, hwindow⟩ := h.window_eq (bs := [a]) (len := 1) hbyte Nat.one_pos (Nat.le_refl 1)
  have hbit : bitAt (a :: more) (t.regs.bp % 8) = b := by
    have hhead := (List.cons.inj hb.stream).1
    rw [hhead, bitAt_cons_of_lt _ _ (Nat.mod_lt _ (by decide)), bitAt, List.getD_eq_getElem?_getD, List.getElem?_drop,
      ← Nat.add_zero (20 + t.regs.tl + t.regs.bp / 8), ← List.getElem?_drop, hbyte]
    rfl
  rw [State.nextToken, fetchBytes_hufBits hb.phase, if_pos ⟨by rwa [h.outCount, hb.recorded], by omega⟩, hwindow]
  refine congrArg some ((if_pos ?_).trans (by rw [List.singleton_append, hbit]))
  show t.regs.bp % 8 < 8 * (more.length + 1)
  omega

/-- Past the first bit. -/
theorem State.HufBefore.next (hb : s.HufBefore t n tree root node (b :: bits)) (u : State) (hphase : u.phase = t.phase)
    (htree : u.tabs.tree = t.tabs.tree) {node' : Option Nat}
    (hregs : u.regs = { t.regs with outCount := u.regs.outCount, node := node', bp := t.regs.bp + 1 }) :
    s.HufBefore u n tree root node' bits where
  phase := hphase.trans hb.phase
  recorded := by rw [hregs]; exact hb.recorded
  tree := htree.trans hb.tree
  root := by rw [hregs]; exact hb.root
  node := by rw [hregs]
  count := by
    have hcount := hb.count
    rw [hregs]
    show t.regs.tb = t.regs.bp + 1 + bits.length
    rw [hcount, List.length_cons, Nat.add_right_comm]
    rfl
  payload := by rw [hregs]; exact hb.payload
  stream := by rw [hregs]; exact (List.cons.inj hb.stream).2

theorem ofBool_child (b : Bool) (l r : Option Nat) : (if BitVec.ofBool b = 0 then l else r) = if b then r else l := by
  cases b <;> rfl

/-- The walk has come to a leaf with the symbol `sym`. -/
def State.hufUp (s : State) (sym : Byte) : State :=
  { s.putAll [sym] with regs := (s.putAll [sym]).regs.afterHufLeaf }

/-- The walk over the bits that are left. -/
theorem runUnits_hufBits {x : Bytes} (hx : HufSpells tree root node bits x) {t : State} {out : Bytes} {fuel : Nat}
    (h : s.Running t out) (hb : s.HufBefore t (out ++ x).length tree root node bits)
    (hlen : (out ++ x).length < 2 ^ 64) : s.EndsWithin (out ++ x) (runUnits (bits.length + 1 + fuel) t) := by
  induction hx generalizing t out with
  | done =>
    rw [List.append_nil] at *
    rw [List.length_nil, Nat.zero_add, Nat.add_comm]
    have hu := unitOfWork_hufBits_end hb.phase (by rw [hb.recorded, h.outCount])
    exact h.runUnits_endOp hlen hu fuel
  | @down q c l r l' r' b bits y x hq hc hs _ ih =>
    have hu : unitOfWork t = t.settle (hufBit (BitVec.ofBool b) t) :=
      unitOfWork_of_token (h.nextToken_hufBits hb (by rw [List.length_append, List.length_cons]; omega))
    rw [hufBit_of_internal hb.node (hb.tree ▸ hq) ((ofBool_child ..).trans hc) (hb.tree ▸ hs),
      State.settle_ok] at hu
    rw [List.length_cons, Nat.add_right_comm _ 1 1, Nat.add_right_comm _ 1 fuel, runUnits_busy h.status, hu]
    have hnext : s.Running (t.hufDown c) out := { h with inputs := h.inputs.trans t.keepsInputs_engine }
    exact ih hnext (hb.next (t.hufDown c) rfl rfl rfl) hlen
  | @leaf q c l r b bits sym x hq hc hs _ ih =>
    have hu : unitOfWork t = t.settle (hufBit (BitVec.ofBool b) t) :=
      unitOfWork_of_token (h.nextToken_hufBits hb (by rw [List.length_append, List.length_cons]; omega))
    rw [hufBit_of_leaf hb.node (hb.tree ▸ hq) ((ofBool_child ..).trans hc) (hb.tree ▸ hs)] at hu
    rw [List.length_cons, Nat.add_right_comm _ 1 1, Nat.add_right_comm _ 1 fuel]
    refine h.runUnits_emitSeq (bs := [sym]) hu fun hnext => ?_
    rw [List.append_cons] at hb hlen
    have hrun : s.Running (t.hufUp sym) (out ++ [sym]) :=
      { hnext with inputs := hnext.inputs.trans (State.keepsInputs_engine _) }
    refine ih hrun (hb.next (t.hufUp sym) rfl rfl ?_) hlen
    rw [← hb.root]
    rfl

end walk

/-! ## The whole operation (R235) -/

section frame

variable {n : Nat} {shape : HufShape} {bits : List Bool}

theorem hufFrame_eq : hufFrame n shape bits =
    u64le n ++ (u32le shape.ser.length ++ (shape.ser ++ (u64le bits.length ++ packBits [] bits))) := by
  simp only [hufFrame, List.append_assoc]

theorem hufFrame_size : (hufFrame n shape bits).take 8 = u64le n := by
  rw [hufFrame_eq]
  exact List.take_left' (u64le_length n)

theorem hufFrame_treeSize : ((hufFrame n shape bits).drop 8).take 4 = u32le shape.ser.length := by
  rw [hufFrame_eq, List.drop_left' (u64le_length n)]
  exact List.take_left' (u32le_length _)

theorem hufFrame_tree : (hufFrame n shape bits).drop 12 = shape.ser ++ (u64le bits.length ++ packBits [] bits) := by
  rw [hufFrame_eq, ← List.append_assoc (u64le n)]
  exact List.drop_left' (by rw [List.length_append, u64le_length, u32le_length])

theorem hufFrame_bitCount :
    ((hufFrame n shape bits).drop (12 + shape.ser.length)).take 8 = u64le bits.length := by
  rw [drop_of_drop_append hufFrame_tree]
  exact List.take_left' (u64le_length _)

theorem hufFrame_payload : (hufFrame n shape bits).drop (20 + shape.ser.length) = packBits [] bits := by
  have hbits := drop_of_drop_append (a := 12 + shape.ser.length) 
    (drop_of_drop_append (hufFrame_tree (n := n) (shape := shape) (bits := bits)))
  rwa [u64le_length, Nat.add_right_comm] at hbits

end frame

/-- The packed bits, without the padding. -/
theorem bitsFrom_packBits (bits : List Bool) : bits = bitsFrom (packBits [] bits) 0 bits.length := by
  obtain ⟨hlen, hbits⟩ := packBits_bits (w := []) (by decide) bits
  rw [List.length_nil, Nat.zero_add] at hlen
  obtain ⟨pad, hpad⟩ : ∃ pad, 8 * (packBits [] bits).length = bits.length + pad :=
    Nat.exists_eq_add_of_le (by omega)
  rw [hpad, bitsFrom_add, List.nil_append] at hbits
  exact (List.append_inj_left hbits (bitsFrom_length _ _ _)).symm

/-- The tests after the tree pass, and the walk begins. -/
theorem State.Running.unitOfWork_hufWalk {s t : State} {out : Bytes} (h : s.Running t out) (hp : t.phase = .hufTree)
    (hs : t.regs.slots = []) (heq : t.regs.tp = t.regs.tl) {tb : Nat}
    (htb : valueLE ((s.inputBytes.drop (12 + t.regs.tl)).take 8) = tb)
    (hle : 20 + t.regs.tl + (tb + 7) / 8 ≤ s.inLen.toNat) : unitOfWork t = t.hufWalk tb := by
  have hread : t.rdU64 (12 + t.regs.tl) = tb := by rw [State.rdU64, h.inSlice (by omega), htb]
  rw [unitOfWork_hufTree_end hp hs, hufTreeEnd_of_eq heq, hread, h.nIn, if_neg (by omega), State.settle_ok]

theorem State.Running.hufWalk {s t : State} {out : Bytes} (h : s.Running t out) (tb : Nat) :
    s.Running (t.hufWalk tb) out :=
  { h with inputs := h.inputs.trans t.keepsInputs_engine }

/-- The decoder past its header tests: the tree, the tests after it, and the walk over bits that spell `x`. -/
theorem runUnits_hufDBegin {s : State} {x : Bytes} {shape : HufShape} {bits : List Bool}
    (hx : HufSpells (shape.records 0) (shape.place 0) (shape.place 0) bits x)
    (hin : s.inputBytes = hufFrame x.length shape bits) (hlen : x.length < 2 ^ 64) (hbits : bits.length < 2 ^ 64)
    (fuel : Nat) : s.EndsWithin x
      (runUnits (shape.tags + (bits.length + 1 + fuel + 1)) (s.start.hufDBegin x.length shape.ser.length)) := by
  have hsize := congrArg List.length hin
  rw [s.inputBytes_length, hufFrame_length] at hsize
  have htree : s.inputBytes.drop (12 + 0) = shape.ser ++ (u64le bits.length ++ packBits [] bits) := by
    rw [hin, Nat.add_zero, hufFrame_tree]
  have hcount : valueLE ((s.inputBytes.drop (12 + shape.ser.length)).take 8) = bits.length := by
    rw [hin, hufFrame_bitCount, valueLE_u64le hbits]
  have hstart : s.Running (s.start.hufDBegin x.length shape.ser.length) [] :=
    (s.start_running .command).hufDBegin x.length shape.ser.length
  have hread := hstart.hufRead .root [] shape
  have htl : 12 + shape.ser.length ≤ s.inLen.toNat := by omega
  rw [hstart.runUnits_hufTree shape rfl rfl trivial htree (Nat.zero_add _).le htl, runUnits_busy hread.status,
    hread.unitOfWork_hufWalk rfl rfl (Nat.zero_add _) hcount hsize.ge]
  refine runUnits_hufBits hx (hread.hufWalk bits.length) ?_ hlen
  refine ⟨rfl, rfl, rfl, rfl, rfl, (Nat.zero_add _).symm, hsize.ge, ?_⟩
  show bits = bitsFrom (s.inputBytes.drop (20 + shape.ser.length)) 0 bits.length
  rw [hin, hufFrame_payload]
  exact bitsFrom_packBits bits

/-- DECOMPRESS.HUFFMAN over the frame of `x`. -/
theorem givesWithinCap_decompressHuffman {s : State} (hf : s.inputFits) {x : Bytes} {syms : List Nat}
    {tree : List TreeRec} {root : Option Nat} {shape : HufShape} (hshape : HufTreeOf syms tree root shape)
    (hx : ∀ b ∈ x, b ∈ shape.leaves) (hin : s.inputBytes = hufFrame x.length shape (shape.bits x))
    (hlen : x.length < 2 ^ 56) : GivesWithinCap .decompressHuffman s x := by
  have hsize := congrArg List.length hin
  rw [s.inputBytes_length, hufFrame_length] at hsize
  have hbits : (shape.bits x).length ≤ 255 * x.length := HufShape.bits_length_le hshape.levels_le hx
  have hser := hshape.ser_le
  have htags := shape.tags_le
  have hn : valueLE (s.inputBytes.take 8) = x.length := by rw [hin, hufFrame_size, valueLE_u64le (by omega)]
  have htl : valueLE ((s.inputBytes.drop 8).take 4) = shape.ser.length := by
    rw [hin, hufFrame_treeSize, valueLE_u32le (by omega)]
  obtain ⟨fuel, hfuel⟩ : ∃ fuel, s.fuel = shape.tags + ((shape.bits x).length + 1 + fuel + 1) :=
    ⟨s.fuel - (shape.tags + (shape.bits x).length + 2), by rw [State.fuel]; omega⟩
  have hspells := hshape.spells (shape.records_held []) hx
  refine givesWithinCap_of_operate (i := .decompressHuffman) rfl rfl nofun nofun ?_
  rw [operate_decompressHuffman hf (by omega), hufDStart_of_header (by omega), hn, htl, if_neg (by omega),
    if_neg (by omega), State.settle_ok, hfuel]
  exact runUnits_hufDBegin hspells hin (by omega) (by omega) fuel

/-- Settles O44: the codes of the compressor's tree spell the input. -/
theorem huffmanRoundTrip : Obligations.HuffmanRoundTrip := by
  intro s hf hlt
  have hn := s.inputBytes_length
  by_cases h0 : s.inLen.toNat = 0
  · refine ⟨[], fun cap hcap => ?_, fun u hu huf hin => ?_⟩
    · have hend := operate_empty ((s.withOutCap_inputFits cap).2 hf) h0 (b := beginCompress .huffman) (if_pos h0)
      exact ⟨_, exec_of_beginOf rfl _, hend.result hcap⟩
    · have hempty : u.inLen.toNat = 0 := by rw [← u.inputBytes_length, hin]; rfl
      have hnil : s.inputBytes = [] := List.length_eq_zero_iff.1 (hn.trans h0)
      rw [hnil]
      exact (givesWithinCap_of_operate (i := .decompressHuffman) rfl rfl nofun nofun
        (operate_empty huf hempty (if_pos hempty))).1 fun _ _ => Nat.zero_le _
  · have hne : s.inputBytes ≠ [] := List.ne_nil_of_length_pos (by omega)
    obtain ⟨shape, hshape⟩ := exists_hufTreeOf_input hne
    refine ⟨hufFrame s.inLen.toNat shape (shape.bits s.inputBytes), fun cap hcap => ?_, fun u hu huf hin => ?_⟩
    · have hend := compressHuffman_endsWithin ((s.withOutCap_inputFits cap).2 hf) h0 hlt rfl hshape
      exact ⟨_, exec_of_beginOf rfl _, hend.result hcap⟩
    · rw [← hn] at hu hin hlt
      exact (givesWithinCap_decompressHuffman huf hshape
        (fun b hb => hshape.leaves.mem_iff.2 (mem_hufSyms_freqTable hb)) hin hlt).1 hu

end Sys2Proof.Machine
end

section
/-! The host's moves (70_reset_and_hazards.md): the writes that are dropped (O13) and the buffers (O15). -/

namespace Sys2Proof.Machine

/-! ## Dropped writes (R358) -/

theorem writeCsr_of_busy {s : State} (h : s.status = .busy) (c : Csr) (v : Word64) : writeCsr c v s = .next s := if_pos h

/-- A write of a read-only register changes nothing, BUSY or not. -/
theorem writeCsr_of_readOnly {c : Csr} (hc : c = .status ∨ c = .err ∨ c = .outLen) (v : Word64) (s : State) :
    writeCsr c v s = .next s := by
  obtain rfl | rfl | rfl := hc <;> exact ite_self _

/-- Settles O13: by the register an access names. -/
theorem csrWritesAreDropped : Obligations.CsrWritesAreDropped := by
  intro s offset width v rest hh
  have write {c : Csr} (hc : csrOf offset width = some c) : step s = writeCsr c v { s with host := rest } :=
    (step_of_host_cons hh).trans (hostMove_writeCsr hc v _)
  refine ⟨fun hb ⟨c, hc⟩ => (write hc).trans (writeCsr_of_busy (s := { s with host := rest }) hb c v), fun hrow => ?_⟩
  simp only [List.mem_cons, Prod.mk.injEq, List.not_mem_nil, or_false] at hrow
  obtain ⟨rfl, rfl⟩ | ⟨rfl, rfl⟩ | ⟨rfl, rfl⟩ := hrow
  · exact (write rfl).trans (writeCsr_of_readOnly (.inl rfl) v _)
  · exact (write rfl).trans (writeCsr_of_readOnly (.inr (.inl rfl)) v _)
  · exact (write rfl).trans (writeCsr_of_readOnly (.inr (.inr rfl)) v _)

/-! ## The buffers (R356, R357, R361) -/

theorem hostWriteIn_of_busy {s : State} (h : s.status = .busy) (addr : Nat) (bs : Bytes) :
    hostWriteIn addr bs s = .refused .bufferWhileBusy := if_pos h

/-- A write whose addresses exist stores its bytes. -/
theorem hostWriteIn_of_fits {s : State} (h : s.status ≠ .busy) {addr : Nat} {bs : Bytes}
    (hfit : ∀ c, s.params.inCap = some c → addr + bs.length ≤ c) :
    hostWriteIn addr bs s = .next { s with inMem := s.inMem.writeAll addr bs } := by
  have hin : ¬ (bs ≠ [] ∧ beyond s.params.inCap (addr + bs.length - 1) = true) := fun ⟨hne, hbeyond⟩ => by
    have hpos := List.length_pos_of_ne_nil hne
    rw [beyond_false.2 fun c hc => by have := hfit c hc; omega] at hbeyond
    cases hbeyond
  rw [hostWriteIn, if_neg h, if_neg hin]

theorem hostReadOut_of_busy {s : State} (h : s.status = .busy) (addr : Nat) :
    hostReadOut addr s = .refused .bufferWhileBusy := if_pos h

/-- In DONE, a read below `OUT_LEN` gives the byte that is there. -/
theorem hostReadOut_of_done {s : State} (h : s.status = .done) {addr : Nat} {b : Byte} (hlt : addr < s.outLen.toNat)
    (hcap : ∀ c, s.params.outCap = some c → addr < c) (hb : s.outMem.read addr = some b) :
    hostReadOut addr s = .next { s with rdata := b.zeroExtend 64 } := by
  rw [hostReadOut, if_neg (by simp [h]), beyond_false.2 hcap, if_neg Bool.false_ne_true, if_pos ⟨h, hlt⟩, hb]

/-- Settles O15: the write by what it stores, the read by the result that is held. -/
theorem hostReachesTheBuffers : Obligations.HostReachesTheBuffers := by
  refine ⟨fun s addr bs rest hh => ⟨fun hb => ?_, fun hb hfit => ?_⟩, fun s addr rest hh => ⟨fun hb => ?_, ?_⟩⟩
  · exact (step_of_host_cons hh).trans (hostWriteIn_of_busy (s := { s with host := rest }) hb addr bs)
  · exact ⟨_, (step_of_host_cons hh).trans (hostWriteIn_of_fits (s := { s with host := rest }) hb hfit),
      fun _ hk => Memory.read_writeAll_same _ _ _ hk, fun _ ha => Memory.read_writeAll_other _ _ _ ha⟩
  · exact (step_of_host_cons hh).trans (hostReadOut_of_busy (s := { s with host := rest }) hb addr)
  · intro y hinv hy hlt
    have hlen : addr < s.outLen.toNat := hy.outLen ▸ hlt
    exact (step_of_host_cons hh).trans (hostReadOut_of_done (s := { s with host := rest }) hy.status hlen
      (fun c hc => hlen.trans_le (hinv.resultFits hy.status c hc)) (hy.out addr hlt))

end Sys2Proof.Machine
end

section
/-! Move-to-front (47_bwt_mtf.md R266 to R268): the index token, and the two sides of the transform (O48). -/

namespace Sys2Proof.Machine

/-! ## The list (R266, R267) -/

theorem mtfIdentity_length : Tables.mtfIdentity.length = 256 := by simp [Tables.mtfIdentity]

theorem moveToFront_getElem?_zero (mtf : Bytes) (rank : Nat) (b : Byte) : (moveToFront mtf rank b)[0]? = some b := rfl

/-- The entries before the rank move back by one. -/
theorem moveToFront_getElem?_of_le {mtf : Bytes} {rank q : Nat} (h1 : 1 ≤ q) (hq : q ≤ rank) (b : Byte) :
    (moveToFront mtf rank b)[q]? = mtf[q - 1]? := by
  obtain ⟨p, rfl⟩ := Nat.exists_eq_add_of_le' h1
  rw [moveToFront, List.getElem?_cons_succ, List.getElem?_eraseIdx_of_lt hq]
  rfl

/-- The entries behind the rank stay. -/
theorem moveToFront_getElem?_of_lt {mtf : Bytes} {rank q : Nat} (hq : rank < q) (b : Byte) :
    (moveToFront mtf rank b)[q]? = mtf[q]? := by
  obtain ⟨p, rfl⟩ := Nat.exists_eq_add_of_le' (Nat.one_le_of_lt hq)
  rw [moveToFront, List.getElem?_cons_succ, List.getElem?_eraseIdx_of_ge (Nat.le_of_lt_succ hq)]

section permutation

variable {mtf : Bytes} (h : mtf.Perm Tables.mtfIdentity)
include h

theorem mtf_length : mtf.length = 256 := h.length_eq.trans mtfIdentity_length

theorem mtf_getElem? (i : Byte) : mtf[i.toNat]? = some (mtf.getD i.toNat 0) := by
  have hi : i.toNat < mtf.length := by rw [mtf_length h]; exact i.isLt
  rw [List.getD_eq_getElem _ _ hi, List.getElem?_eq_getElem hi]

theorem mtf_idxOf_lt (b : Byte) : mtf.idxOf b < mtf.length :=
  List.idxOf_lt_length_of_mem (h.mem_iff.2 (mem_mtfIdentity b))

/-- The rank of a byte fits the index. -/
theorem toNat_mtfRank (b : Byte) : (BitVec.ofNat 8 (mtf.idxOf b)).toNat = mtf.idxOf b := by
  have hlt := mtf_idxOf_lt h b
  rw [mtf_length h] at hlt
  rw [BitVec.toNat_ofNat, Nat.mod_eq_of_lt hlt]

/-- The entry at the rank of a byte is the byte (R268). -/
theorem mtf_getD_rank (b : Byte) : mtf.getD (BitVec.ofNat 8 (mtf.idxOf b)).toNat 0 = b := by
  rw [toNat_mtfRank h, List.getD_eq_getElem _ _ (mtf_idxOf_lt h b), List.getElem_idxOf]

end permutation

/-! ## The token (R268) -/

/-- The state after `MtfDecode` of the index `i`, which gives `b`. -/
def State.mtfMoved (s : State) (i b : Byte) : State :=
  { s with
    tabs := { s.tabs with
      mtf := moveToFront s.tabs.mtf i.toNat b
      chunk := s.tabs.chunk.take s.regs.k ++ [b] }
    regs := { s.regs with rank := i, cur := b, k := s.regs.k + 1 } }

theorem mtfIdx_eq (i : Byte) (s : State) : mtfIdx i s = .ok (s.mtfMoved i (s.tabs.mtf.getD i.toNat 0)) := rfl

theorem exec_mtfIdx (i : Byte) (s : State) : exec (.mtfIdx i) s = .next (s.mtfMoved i (s.tabs.mtf.getD i.toNat 0)) :=
  exec_token (i := .mtfIdx i) rfl nofun s

theorem State.mtfMoved_keepsOutside (s : State) (i b : Byte) : s.KeepsOutside (s.mtfMoved i b) :=
  ⟨s.keepsInputs_engine, ⟨rfl, rfl⟩, rfl, rfl, rfl, rfl⟩

/-- Settles O48: the entries of the list by where they stand, and the index of a byte by its rank. -/
theorem mtfIndexMovesToFront : Obligations.MtfIndexMovesToFront := by
  intro s hperm
  refine ⟨fun i => ?moved, fun b => ?coded⟩
  case moved =>
    exact ⟨_, _, exec_mtfIdx i s, mtf_getElem? hperm i, moveToFront_getElem?_zero _ _ _,
      fun _ h1 hq => moveToFront_getElem?_of_le h1 hq _, fun _ hq => moveToFront_getElem?_of_lt hq _, rfl, rfl,
      fun _ => rfl, s.mtfMoved_keepsOutside _ _⟩
  case coded =>
    have hexec := exec_mtfIdx (BitVec.ofNat 8 (s.tabs.mtf.idxOf b)) s
    rw [mtf_getD_rank hperm] at hexec
    refine ⟨_, _, rfl, hexec, rfl, ?_⟩
    rw [State.mtfMoved, toNat_mtfRank hperm]
    rfl

/-! ## The index sequence of a chunk -/

/-- `MtfDecode` of each index (R268). -/
def mtfDecodeAll (mtf : Bytes) : Bytes → Bytes
  | [] => []
  | i :: is => mtf.getD i.toNat 0 :: mtfDecodeAll (moveToFront mtf i.toNat (mtf.getD i.toNat 0)) is

@[simp] theorem mtfEncodeAll_length (mtf bs : Bytes) : (mtfEncodeAll mtf bs).1.length = bs.length := by
  induction bs generalizing mtf with
  | nil => rfl
  | cons b bs ih => exact congrArg (· + 1) (ih _)

@[simp] theorem mtfDecodeAll_length (mtf is : Bytes) : (mtfDecodeAll mtf is).length = is.length := by
  induction is generalizing mtf with
  | nil => rfl
  | cons i is ih => exact congrArg (· + 1) (ih _)

/-- Both sides keep equal lists, so that the indices give the bytes back (R268). -/
theorem mtfDecodeAll_mtfEncodeAll {mtf : Bytes} (h : mtf.Perm Tables.mtfIdentity) (bs : Bytes) :
    mtfDecodeAll mtf (mtfEncodeAll mtf bs).1 = bs := by
  induction bs generalizing mtf with
  | nil => rfl
  | cons b bs ih =>
    have hmoved := moveToFront_getD_perm h (BitVec.ofNat 8 (mtf.idxOf b))
    rw [mtf_getD_rank h, toNat_mtfRank h] at hmoved
    rw [mtfEncodeAll, mtfDecodeAll, mtf_getD_rank h, toNat_mtfRank h, ih hmoved]

end Sys2Proof.Machine
end

section
/-! The inverse transform (47_bwt_mtf.md R272, R273): `LF` puts the rows of a column in the order of their byte and then
of their place, so that it is a permutation of the rows (O50). -/

namespace Sys2Proof.Machine

/-! ## The counts and the start offsets (R272) -/

theorem startOffsets_getD (s : Nat) (cs : List Nat) {v : Nat} (h : v < cs.length) :
    (startOffsets s cs).getD v 0 = s + (cs.take v).sum := by
  induction cs generalizing s v with
  | nil => exact absurd h (Nat.not_lt_zero v)
  | cons c cs ih =>
    cases v with
    | zero => rfl
    | succ v =>
      rw [startOffsets, List.getD_cons_succ, ih _ (Nat.lt_of_succ_lt_succ h), List.take_succ_cons, List.sum_cons,
        Nat.add_assoc]

/-- How many bytes of `col` are lower than `b`. -/
def bytesBelow (col : Bytes) (b : Byte) : Nat := col.countP fun x => decide (x.toNat < b.toNat)

theorem countP_lt_succ (col : Bytes) {v : Nat} (h : v < 256) :
    col.countP (fun x => decide (x.toNat < v + 1)) =
      col.countP (fun x => decide (x.toNat < v)) + col.count (BitVec.ofNat 8 v) := by
  induction col with
  | nil => rfl
  | cons x col ih =>
    have hx : x = BitVec.ofNat 8 v ↔ x.toNat = v := by
      rw [← BitVec.toNat_inj, BitVec.toNat_ofNat, Nat.mod_eq_of_lt h]
    simp only [List.countP_cons, List.count_cons, ih, decide_eq_true_eq, beq_iff_eq, hx]
    split_ifs <;> omega

/-- The counts of the bytes below `v` add up to the number of those bytes. -/
theorem sum_take_freqTable (col : Bytes) {v : Nat} (h : v ≤ 256) :
    ((freqTable col).take v).sum = col.countP fun x => decide (x.toNat < v) := by
  induction v with
  | zero => simp
  | succ v ih =>
    have hlen : v < (freqTable col).length := by rw [freqTable_eq, List.length_map, List.length_range]; exact h
    have hv : (freqTable col)[v] = col.count (BitVec.ofNat 8 v) := by simp [freqTable_eq]
    rw [← List.take_append_getElem hlen, List.sum_append, ih (Nat.le_of_succ_le h), List.sum_singleton, hv,
      countP_lt_succ col h]

theorem startOffsets_countBytes (col : Bytes) (b : Byte) :
    (startOffsets 0 (countBytes col)).getD b.toNat 0 = bytesBelow col b := by
  have hlen : (countBytes col).length = 256 := by
    rw [show countBytes col = freqTable col from rfl, freqTable_eq, List.length_map, List.length_range]
  rw [startOffsets_getD 0 _ (by rw [hlen]; exact b.isLt), Nat.zero_add]
  exact sum_take_freqTable col (Nat.le_of_lt b.isLt)

/-! ## `LF` (R272) -/

/-- The row that `LF` gives for row `k`: behind the rows of a lower byte and the earlier rows of the same byte. -/
def lfRow (col : Bytes) (k : Nat) : Nat := bytesBelow col (col.getD k 0) + (col.take k).count (col.getD k 0)

/-- `LF` of the column `col` (R272). -/
def lfOf (col : Bytes) : List Nat := (lfMapping (startOffsets 0 (countBytes col)) (List.replicate 256 0) col).1

theorem lfMapping_length (start seen : List Nat) (col : Bytes) : (lfMapping start seen col).1.length = col.length := by
  induction col generalizing seen with
  | nil => rfl
  | cons b col ih => exact congrArg (· + 1) (ih _)

/-- An entry of `LF`: the byte's start, and how often the byte has been seen before. -/
theorem lfMapping_getD (start : List Nat) {seen : List Nat} (hs : seen.length = 256) (col : Bytes) {k : Nat}
    (h : k < col.length) : (lfMapping start seen col).1.getD k 0 =
      start.getD (col.getD k 0).toNat 0 + seen.getD (col.getD k 0).toNat 0 + (col.take k).count (col.getD k 0) := by
  induction col generalizing seen k with
  | nil => exact absurd h (Nat.not_lt_zero k)
  | cons b col ih =>
    cases k with
    | zero => rfl
    | succ k =>
      have hb {x : Byte} : (seen.modify b.toNat (· + 1)).getD x.toNat 0 =
          seen.getD x.toNat 0 + if b = x then 1 else 0 := by
        have hx : x.toNat < seen.length := by rw [hs]; exact x.isLt
        rw [List.getD_eq_getElem _ _ (by simpa using hx), List.getD_eq_getElem _ _ hx, List.getElem_modify,
          if_congr (BitVec.toNat_inj (x := b) (y := x)) rfl rfl]
        split <;> rfl
      rw [lfMapping, List.getD_cons_succ, List.getD_cons_succ, ih (by simpa using hs) (Nat.lt_of_succ_lt_succ h), hb,
        List.take_succ_cons, List.count_cons]
      simp only [beq_iff_eq]
      omega

theorem lfOf_length (col : Bytes) : (lfOf col).length = col.length := lfMapping_length _ _ col

theorem lfOf_getD (col : Bytes) {k : Nat} (h : k < col.length) : (lfOf col).getD k 0 = lfRow col k := by
  have hzero {x : Byte} : (List.replicate 256 0).getD x.toNat 0 = 0 := by
    rw [List.getD_eq_getElem _ _ (by rw [List.length_replicate]; exact x.isLt), List.getElem_replicate]
  rw [lfOf, lfMapping_getD _ List.length_replicate col h, startOffsets_countBytes, hzero, Nat.add_zero]
  rfl

theorem lfOf_eq_map (col : Bytes) : lfOf col = (List.range col.length).map (lfRow col) := by
  refine List.ext_getElem (by rw [lfOf_length, List.length_map, List.length_range]) fun k hk _ => ?_
  rw [← List.getD_eq_getElem _ 0 hk, lfOf_getD col (by rwa [lfOf_length] at hk), List.getElem_map, List.getElem_range]

/-! ## The order of the rows (R273) -/

/-- Row `k` stands before row `k'` when the column is sorted stably. -/
def ColumnBefore (col : Bytes) (k k' : Nat) : Prop :=
  (col.getD k 0).toNat < (col.getD k' 0).toNat ∨ col.getD k 0 = col.getD k' 0 ∧ k < k'

theorem columnBefore_total (col : Bytes) {k k' : Nat} (h : k ≠ k') :
    ColumnBefore col k k' ∨ ColumnBefore col k' k := by
  unfold ColumnBefore
  rw [← BitVec.toNat_inj, ← BitVec.toNat_inj]
  omega

section order

variable {col : Bytes} {k k' : Nat}

/-- Row `k` is one more place of its byte. -/
theorem count_take_lt (h : k < k') (hk : k' ≤ col.length) :
    (col.take k).count (col.getD k 0) < (col.take k').count (col.getD k 0) := by
  have hlt : k < col.length := by omega
  have hmono := (List.take_sublist_take_left (l := col) (Nat.succ_le_of_lt h)).count_le (col.getD k 0)
  rw [← List.take_append_getElem hlt, List.count_append, ← List.getD_eq_getElem _ 0 hlt, List.count_singleton_self]
    at hmono
  omega

theorem bytesBelow_add_count_le (col : Bytes) (b : Byte) {n : Nat} (hn : b.toNat < n) :
    bytesBelow col b + col.count b ≤ col.countP fun x => decide (x.toNat < n) := by
  have hsucc := countP_lt_succ col b.isLt
  rw [BitVec.ofNat_toNat, BitVec.setWidth_eq] at hsucc
  rw [bytesBelow, ← hsucc]
  refine List.countP_mono_left fun x _ hx => ?_
  have := of_decide_eq_true hx
  exact decide_eq_true (by omega)

/-- `LF` stays below the next byte's rows. -/
theorem lfRow_lt (h : k < col.length) {n : Nat} (hn : (col.getD k 0).toNat < n) :
    lfRow col k < col.countP fun x => decide (x.toNat < n) := by
  have hcount := count_take_lt (col := col) h (Nat.le_refl _)
  rw [List.take_length] at hcount
  have hbelow := bytesBelow_add_count_le col (col.getD k 0) hn
  rw [lfRow]
  omega

theorem lfRow_lt_length (h : k < col.length) : lfRow col k < col.length :=
  (lfRow_lt h (col.getD k 0).isLt).trans_le List.countP_le_length

/-- `LF` keeps the order of the rows: it is the stable counting sort of the column (R273). -/
theorem lfRow_lt_lfRow (hk : k < col.length) (hk' : k' < col.length) (h : ColumnBefore col k k') :
    lfRow col k < lfRow col k' := by
  obtain hlt | ⟨heq, hlt⟩ := h
  · exact (lfRow_lt hk hlt).trans_le (Nat.le_add_right _ _)
  · have hcount := count_take_lt hlt (Nat.le_of_lt hk')
    rw [lfRow, lfRow, ← heq]
    omega

theorem columnBefore_of_lfRow_lt (hk : k < col.length) (hk' : k' < col.length) (h : lfRow col k < lfRow col k') :
    ColumnBefore col k k' := by
  have hne : k ≠ k' := fun e => absurd (e ▸ h) (Nat.lt_irrefl _)
  refine (columnBefore_total col hne).resolve_right fun hback => ?_
  exact absurd (lfRow_lt_lfRow hk' hk hback) (Nat.not_lt.2 (Nat.le_of_lt h))

end order

theorem lfOf_nodup (col : Bytes) : (lfOf col).Nodup := by
  rw [lfOf_eq_map]
  refine List.Nodup.map_on (fun k hk k' hk' e => ?_) List.nodup_range
  by_contra hne
  have lt {i j : Nat} (hi : i ∈ List.range col.length) (hj : j ∈ List.range col.length) (h : ColumnBefore col i j) :=
    lfRow_lt_lfRow (List.mem_range.1 hi) (List.mem_range.1 hj) h
  obtain h | h := columnBefore_total col hne
  · exact absurd e (Nat.ne_of_lt (lt hk hk' h))
  · exact absurd e.symm (Nat.ne_of_lt (lt hk' hk h))

theorem lt_of_mem_lfOf {col : Bytes} {r : Nat} (h : r ∈ lfOf col) : r < col.length := by
  rw [lfOf_eq_map] at h
  obtain ⟨k, hk, rfl⟩ := List.mem_map.1 h
  exact lfRow_lt_length (List.mem_range.1 hk)

theorem lfOf_perm (col : Bytes) : (lfOf col).Perm (List.range col.length) :=
  (List.subperm_of_subset (lfOf_nodup col) fun _ hr => List.mem_range.2 (lt_of_mem_lfOf hr)).perm_of_length_le
    (by rw [List.length_range, lfOf_length])

/-! ## The walk (R272) -/

@[simp] theorem lfWalk_length (col : Bytes) (lf : List Nat) (more r : Nat) (blk : Bytes) :
    (lfWalk col lf more (r, blk)).2.length = more + blk.length := by
  induction more generalizing r blk with
  | zero => exact (Nat.zero_add _).symm
  | succ more ih => rw [lfWalk, ih, List.length_cons]; omega

/-- The walk stays on the rows, and writes bytes of the column only. -/
theorem mem_lfWalk (col : Bytes) (more : Nat) {r : Nat} (hr : r < col.length) {blk : Bytes} (hblk : ∀ b ∈ blk, b ∈ col) :
    ∀ b ∈ (lfWalk col (lfOf col) more (r, blk)).2, b ∈ col := by
  induction more generalizing r blk with
  | zero => exact hblk
  | succ more ih =>
    rw [lfWalk, lfOf_getD col hr]
    refine ih (lfRow_lt_length hr) (List.forall_mem_cons.2 ⟨?_, hblk⟩)
    rw [List.getD_eq_getElem _ _ hr]
    exact List.getElem_mem hr

/-- Settles O50: `LF` has no entry twice and none beyond the rows, and so the walk stays on the rows. -/
theorem lfMappingIsAPermutation : Obligations.LfMappingIsAPermutation := by
  rintro col lf rfl
  exact ⟨lfOf_perm col, fun p hp => ⟨lfWalk_length col (lfOf col) _ p [], mem_lfWalk col _ hp (by simp)⟩⟩

end Sys2Proof.Machine
end

section
/-! The forward transform (47_bwt_mtf.md R263, R264): the rotations in order, and the last column (O49). -/

namespace Sys2Proof.Machine

/-! ## The order of byte sequences (R263) -/

/-- The byte values of a sequence: sequences of numbers carry the order of R263. -/
def byteValues (x : Bytes) : List Nat := x.map BitVec.toNat

theorem byteValues_inj {x y : Bytes} : byteValues x = byteValues y ↔ x = y :=
  (List.map_injective_iff.2 fun _ _ => BitVec.eq_of_toNat_eq).eq_iff

/-- `compareBytes` is the order of the byte values. -/
theorem compareBytes_compares (x y : Bytes) : (compareBytes x y).Compares (byteValues x) (byteValues y) := by
  induction x generalizing y with
  | nil =>
    cases y with
    | nil => rfl
    | cons b bs => exact List.nil_lt_cons _ _
  | cons a as ih =>
    cases y with
    | nil => exact List.nil_lt_cons _ _
    | cons b bs =>
      rw [compareBytes]
      obtain hlt | heq | hgt := Nat.lt_trichotomy a.toNat b.toNat
      · rw [if_pos hlt]
        exact List.cons_lt_cons_iff.2 (.inl hlt)
      · rw [if_neg (by omega), if_neg (by omega)]
        have hrest := ih bs
        cases hc : compareBytes as bs with
        | lt => exact List.cons_lt_cons_iff.2 (.inr ⟨heq, (Ordering.Compares.eq_lt hrest).1 hc⟩)
        | gt => exact List.cons_lt_cons_iff.2 (.inr ⟨heq.symm, (Ordering.Compares.eq_gt hrest).1 hc⟩)
        | eq => exact congrArg₂ List.cons heq ((Ordering.Compares.eq_eq hrest).1 hc)
      · rw [if_neg (by omega), if_pos hgt]
        exact List.cons_lt_cons_iff.2 (.inl hgt)

/-- What two rotations are compared by: their bytes, and then their start (R263). -/
def rotationKey (c : Bytes) (i : Nat) : List Nat ×ₗ Nat := toLex (byteValues (rotation c i), i)

theorem rotationBefore_iff {c : Bytes} {i j : Nat} :
    rotationBefore c i j = true ↔ rotationKey c i < rotationKey c j := by
  have hcompares := compareBytes_compares (rotation c i) (rotation c j)
  rw [rotationBefore, rotationKey, rotationKey, Prod.Lex.toLex_lt_toLex]
  cases hc : compareBytes (rotation c i) (rotation c j) with
  | lt => simpa using Or.inl ((Ordering.Compares.eq_lt hcompares).1 hc)
  | gt =>
    have hgt := (Ordering.Compares.eq_gt hcompares).1 hc
    simp [not_lt_of_gt hgt, ne_of_gt hgt]
  | eq => simp [(Ordering.Compares.eq_eq hcompares).1 hc]

/-! ## `ROT` (R263) -/

section sort

variable (c : Bytes)

theorem insertRotation_perm (i : Nat) (l : List Nat) : (insertRotation c i l).Perm (i :: l) := by
  induction l with
  | nil => exact .refl _
  | cons j l ih =>
    rw [insertRotation]
    split
    · exact .refl _
    · exact (ih.cons j).trans (.swap i j l)

/-- The rotations stay in order when a new one is put in. -/
theorem insertRotation_sorted {i : Nat} {l : List Nat} (hl : l.Pairwise fun i j => rotationBefore c i j = true)
    (hi : i ∉ l) : (insertRotation c i l).Pairwise fun i j => rotationBefore c i j = true := by
  induction l with
  | nil => exact List.pairwise_singleton _ i
  | cons j l ih =>
    obtain ⟨hj, hrest⟩ := List.pairwise_cons.1 hl
    obtain ⟨hne, hi⟩ := not_or.1 (mt List.mem_cons.2 hi)
    rw [insertRotation]
    split
    · next h =>
      refine List.pairwise_cons.2 ⟨List.forall_mem_cons.2 ⟨h, fun e he => ?_⟩, hl⟩
      exact rotationBefore_iff.2 ((rotationBefore_iff.1 h).trans (rotationBefore_iff.1 (hj e he)))
    · next h =>
      refine List.pairwise_cons.2 ⟨fun e he => ?_, ih hrest hi⟩
      obtain rfl | he := List.mem_cons.1 ((insertRotation_perm c i l).mem_iff.1 he)
      · have hkey : rotationKey c e ≠ rotationKey c j := fun hk => hne (congrArg (fun x => (ofLex x).2) hk)
        rw [rotationBefore_iff] at h ⊢
        exact lt_of_le_of_ne (not_lt.1 h) hkey.symm
      · exact hj e he

theorem foldr_insertRotation (l : List Nat) (hl : l.Nodup) :
    (l.foldr (insertRotation c) []).Perm l ∧
      (l.foldr (insertRotation c) []).Pairwise fun i j => rotationBefore c i j = true := by
  induction l with
  | nil => exact ⟨.refl _, .nil⟩
  | cons i l ih =>
    obtain ⟨hi, hl⟩ := List.nodup_cons.1 hl
    obtain ⟨hperm, hsorted⟩ := ih hl
    exact ⟨(insertRotation_perm c i _).trans (hperm.cons i),
      insertRotation_sorted c hsorted (mt hperm.mem_iff.1 hi)⟩

theorem sortRotations_perm : (sortRotations c).Perm (List.range c.length) :=
  (foldr_insertRotation c _ List.nodup_range).1

theorem sortRotations_sorted : (sortRotations c).Pairwise fun i j => rotationBefore c i j = true :=
  (foldr_insertRotation c _ List.nodup_range).2

@[simp] theorem sortRotations_length : (sortRotations c).length = c.length := by
  rw [(sortRotations_perm c).length_eq, List.length_range]

theorem lt_of_mem_sortRotations {i : Nat} (h : i ∈ sortRotations c) : i < c.length :=
  List.mem_range.1 ((sortRotations_perm c).mem_iff.1 h)

/-- The row of the original string (R263). -/
theorem primaryIndex_lt (h : c ≠ []) : primaryIndex (sortRotations c) < (sortRotations c).length :=
  List.idxOf_lt_length_of_mem
    ((sortRotations_perm c).mem_iff.2 (List.mem_range.2 (List.length_pos_of_ne_nil h)))

theorem getElem?_primaryIndex (h : c ≠ []) :
    (sortRotations c)[primaryIndex (sortRotations c)]? = some 0 := by
  rw [List.getElem?_eq_getElem (primaryIndex_lt c h)]
  exact congrArg some (List.getElem_idxOf _)

/-! ## The last column (R263, R264) -/

@[simp] theorem lastColumn_length (rot : List Nat) : (lastColumn c rot).length = rot.length := List.length_map _

/-- The bytes just before the starts, over all starts, are the chunk's bytes. -/
theorem lastColumn_range : lastColumn c (List.range c.length) = c.rotate (c.length - 1) := by
  refine List.ext_getElem (by simp) fun i hi _ => ?_
  have hlt : i < c.length := by simpa using hi
  have hmod : (i + c.length - 1) % c.length < c.length := Nat.mod_lt _ (by omega)
  have hpos : i + (c.length - 1) = i + c.length - 1 := by omega
  simp only [lastColumn, List.getElem_map, List.getElem_range, List.getElem_rotate, hpos]
  exact List.getD_eq_getElem _ _ hmod

theorem lastColumn_perm : (lastColumn c (sortRotations c)).Perm c := by
  have hperm : (lastColumn c (sortRotations c)).Perm (lastColumn c (List.range c.length)) :=
    (sortRotations_perm c).map _
  rw [lastColumn_range] at hperm
  exact hperm.trans (c.rotate_perm _)

end sort

/-- Settles O49: the insertion sort of the rotations. -/
theorem forwardTransformSortsRotations : Obligations.ForwardTransformSortsRotations := by
  intro c hne
  refine ⟨sortRotations_perm c, sortRotations_sorted c, fun k hk => ?_, lastColumn_perm c, getElem?_primaryIndex c hne⟩
  rw [List.getD_eq_getElem _ _ (by rwa [lastColumn_length])]
  exact List.getElem_map _

end Sys2Proof.Machine
end

section
/-! The inverse transform gives the chunk back (47_bwt_mtf.md R272, R274): `LF` leads from the row of a rotation to the
row of the rotation that begins one byte earlier. -/

namespace Sys2Proof.Machine

/-! ## The rotation one byte earlier -/

/-- A byte sequence with its last byte moved to the front. -/
def rotateBack (x : Bytes) : Bytes := x.getLastD 0 :: x.dropLast

theorem rotateBack_append (x : Bytes) (b : Byte) : rotateBack (x ++ [b]) = b :: x := by
  simp [rotateBack, List.getLastD_eq_getLast?]

theorem rotation_length (c : Bytes) (i : Nat) : (rotation c i).length = c.length := by
  rw [rotation, List.length_append, List.length_drop, List.length_take]
  omega

theorem rotation_self (c : Bytes) : rotation c c.length = rotation c 0 := by simp [rotation]

section rotation

variable {x : Bytes} {i : Nat}

theorem rotation_succ (h : i < x.length) : rotation x (i + 1) = (x.drop (i + 1) ++ x.take i) ++ [x[i]] := by
  rw [rotation, ← List.take_append_getElem h, List.append_assoc]

theorem rotateBack_rotation_succ (h : i < x.length) : rotateBack (rotation x (i + 1)) = rotation x i := by
  rw [rotation_succ h, rotateBack_append, rotation, List.drop_eq_getElem_cons h, List.cons_append]

theorem getLastD_rotation_succ (h : i < x.length) : (rotation x (i + 1)).getLastD 0 = x[i] := by
  rw [rotation_succ h, List.getLastD_concat]

/-- The rotation one byte before the rotation `i`. -/
theorem rotateBack_rotation (h : i < x.length) :
    rotateBack (rotation x i) = rotation x ((i + x.length - 1) % x.length) := by
  cases i with
  | zero =>
    obtain ⟨m, hm⟩ := Nat.exists_eq_succ_of_ne_zero (Nat.ne_of_gt h)
    rw [← rotation_self, hm, Nat.zero_add, Nat.succ_sub_one, Nat.mod_eq_of_lt (Nat.lt_succ_self m)]
    exact rotateBack_rotation_succ (by omega)
  | succ i =>
    rw [rotateBack_rotation_succ (by omega), show i + 1 + x.length - 1 = i + x.length by omega, Nat.add_mod_right,
      Nat.mod_eq_of_lt (by omega)]

/-- The last byte of a rotation is the byte before its start (R263). -/
theorem getLastD_rotation (h : i < x.length) :
    (rotation x i).getLastD 0 = x.getD ((i + x.length - 1) % x.length) 0 := by
  cases i with
  | zero =>
    obtain ⟨m, hm⟩ := Nat.exists_eq_succ_of_ne_zero (Nat.ne_of_gt h)
    rw [← rotation_self, hm, Nat.zero_add, Nat.succ_sub_one, Nat.mod_eq_of_lt (Nat.lt_succ_self m),
      getLastD_rotation_succ (by omega), List.getD_eq_getElem]
  | succ i =>
    rw [getLastD_rotation_succ (by omega), show i + 1 + x.length - 1 = i + x.length by omega, Nat.add_mod_right,
      Nat.mod_eq_of_lt (by omega), List.getD_eq_getElem]

end rotation

/-! ## The sorted rows (R263) -/

/-- The order of two rows: byte by byte. -/
def RowLe (x y : Bytes) : Prop := byteValues x ≤ byteValues y

theorem RowLe.antisymm {x y : Bytes} (h : RowLe x y) (h' : RowLe y x) : x = y := byteValues_inj.1 (le_antisymm h h')

theorem byteValues_append (x y : Bytes) : byteValues (x ++ y) = byteValues x ++ byteValues y := List.map_append

/-- Where sequences of the same length differ in their order, their last bytes do not matter. -/
theorem lt_concat_of_lt {x y : List Nat} (hlen : x.length = y.length) (h : x < y) (a b : Nat) : x ++ [a] < y ++ [b] := by
  induction x generalizing y with
  | nil =>
    obtain rfl := List.length_eq_zero_iff.1 hlen.symm
    exact absurd h (lt_irrefl _)
  | cons v x ih =>
    cases y with
    | nil => exact absurd hlen (Nat.succ_ne_zero _)
    | cons w y =>
      refine List.cons_lt_cons_iff.2 ((List.cons_lt_cons_iff.1 h).imp_right fun ⟨hv, hxy⟩ => ⟨hv, ?_⟩)
      exact ih (Nat.succ.inj hlen) hxy

/-- Rows in order stay in order without their last bytes. -/
theorem RowLe.of_concat {x y : Bytes} (hlen : x.length = y.length) {a b : Byte} (h : RowLe (x ++ [a]) (y ++ [b])) :
    RowLe x y := by
  rw [RowLe, byteValues_append, byteValues_append] at h
  refine not_lt.1 fun hlt => absurd (lt_concat_of_lt ?_ hlt b.toNat a.toNat) (not_lt.2 h)
  rw [byteValues, byteValues, List.length_map, List.length_map, hlen]

/-- The rows of the matrix: the rotations in order. -/
def bwtRows (c : Bytes) : List Bytes := (sortRotations c).map (rotation c)

/-- The last column of a chunk. -/
def bwtColumn (c : Bytes) : Bytes := lastColumn c (sortRotations c)

section rows

variable {c : Bytes} {k k' : Nat}

@[simp] theorem bwtRows_length (c : Bytes) : (bwtRows c).length = c.length := by simp [bwtRows]

@[simp] theorem bwtColumn_length (c : Bytes) : (bwtColumn c).length = c.length := by simp [bwtColumn]

theorem bwtRows_sorted (c : Bytes) : (bwtRows c).Pairwise RowLe := by
  refine List.pairwise_map.2 ((sortRotations_sorted c).imp fun {i j} h => ?_)
  have hkey := rotationBefore_iff.1 h
  rw [rotationKey, rotationKey, Prod.Lex.toLex_lt_toLex] at hkey
  exact hkey.elim le_of_lt fun h => le_of_eq h.1

/-- The last column holds the last bytes of the rows. -/
theorem bwtColumn_eq (c : Bytes) : bwtColumn c = (bwtRows c).map fun x => x.getLastD 0 := by
  rw [bwtColumn, lastColumn, bwtRows, List.map_map]
  exact List.map_congr_left fun i hi => (getLastD_rotation (lt_of_mem_sortRotations c hi)).symm

/-- Every rotation one byte earlier is a rotation. -/
theorem map_rotateBack_bwtRows_perm (c : Bytes) : ((bwtRows c).map rotateBack).Perm (bwtRows c) := by
  have hback : (bwtRows c).map rotateBack =
      (sortRotations c).map fun i => rotation c ((i + c.length - 1) % c.length) := by
    rw [bwtRows, List.map_map]
    exact List.map_congr_left fun i hi => rotateBack_rotation (lt_of_mem_sortRotations c hi)
  have hstarts : ((List.range c.length).map fun i => (i + c.length - 1) % c.length).Perm (List.range c.length) := by
    have hrotate : (List.range c.length).map (fun i => (i + c.length - 1) % c.length) =
        (List.range c.length).rotate (c.length - 1) := by
      refine List.ext_getElem (by simp) fun i hi _ => ?_
      have hlt : i < c.length := by simpa using hi
      simp only [List.getElem_map, List.getElem_range, List.getElem_rotate, List.length_range]
      congr 1
      omega
    rw [hrotate]
    exact (List.range c.length).rotate_perm _
  rw [hback, bwtRows]
  refine ((sortRotations_perm c).map _).trans ?_
  have hrot := (hstarts.map (rotation c)).trans ((sortRotations_perm c).map (rotation c)).symm
  rwa [List.map_map] at hrot

theorem bwtRow_length {x : Bytes} (h : x ∈ bwtRows c) : x.length = c.length := by
  obtain ⟨i, -, rfl⟩ := List.mem_map.1 h
  exact rotation_length c i

theorem bwtColumn_getD (h : k < c.length) : (bwtColumn c).getD k 0 = ((bwtRows c).getD k []).getLastD 0 := by
  rw [List.getD_eq_getElem _ _ (by simpa using h), List.getD_eq_getElem _ _ (by simpa using h)]
  simp only [bwtColumn_eq, List.getElem_map]

/-- The order of the rows of the column is the order of the rotations one byte earlier. -/
theorem rowLe_rotateBack (hk : k < c.length) (hk' : k' < c.length) (h : ColumnBefore (bwtColumn c) k k') :
    RowLe (rotateBack ((bwtRows c).getD k [])) (rotateBack ((bwtRows c).getD k' [])) := by
  rw [ColumnBefore, bwtColumn_getD hk, bwtColumn_getD hk'] at h
  obtain hlt | ⟨heq, hlt⟩ := h
  · exact le_of_lt (List.cons_lt_cons_iff.2 (.inl hlt))
  · have hr : k < (bwtRows c).length := by simpa using hk
    have hr' : k' < (bwtRows c).length := by simpa using hk'
    rw [rotateBack, rotateBack, heq]
    rw [List.getD_eq_getElem _ _ hr, List.getD_eq_getElem _ _ hr'] at *
    have hlen := bwtRow_length (List.getElem_mem hr)
    have hlen' := bwtRow_length (List.getElem_mem hr')
    have hle := List.pairwise_iff_getElem.1 (bwtRows_sorted c) k k' hr hr' hlt
    rw [← List.dropLast_concat_getLast (List.ne_nil_of_length_pos (l := (bwtRows c)[k]) (by omega)),
      ← List.dropLast_concat_getLast (List.ne_nil_of_length_pos (l := (bwtRows c)[k']) (by omega))] at hle
    have hdrop := hle.of_concat (by rw [List.length_dropLast, List.length_dropLast, hlen, hlen'])
    exact List.cons_le_cons _ hdrop

/-- The rotations one byte earlier, in the order that `LF` gives them. -/
def lfRows (c : Bytes) : List Bytes :=
  (List.range c.length).map fun r => rotateBack ((bwtRows c).getD ((lfOf (bwtColumn c)).idxOf r) [])

/-- They are sorted, because `LF` sorts the column stably. -/
theorem lfRows_sorted (c : Bytes) : (lfRows c).Pairwise RowLe := by
  refine List.pairwise_map.2 (List.pairwise_lt_range.imp_of_mem fun {i j} hi hj hij => ?_)
  have row {r : Nat} (hr : r ∈ List.range c.length) : (lfOf (bwtColumn c)).idxOf r < (bwtColumn c).length ∧
      lfRow (bwtColumn c) ((lfOf (bwtColumn c)).idxOf r) = r := by
    have hmem : r ∈ lfOf (bwtColumn c) := (lfOf_perm _).mem_iff.2 (by simpa using hr)
    have hlt := List.idxOf_lt_length_of_mem hmem
    have hcol : (lfOf (bwtColumn c)).idxOf r < (bwtColumn c).length := by rwa [lfOf_length] at hlt
    refine ⟨hcol, ?_⟩
    rw [← lfOf_getD _ hcol, List.getD_eq_getElem _ _ hlt, List.getElem_idxOf]
  obtain ⟨hki, hi⟩ := row hi
  obtain ⟨hkj, hj⟩ := row hj
  have hbefore := columnBefore_of_lfRow_lt hki hkj (by rw [hi, hj]; exact hij)
  rw [bwtColumn_length] at hki hkj
  exact rowLe_rotateBack hki hkj hbefore

theorem map_lfOf_getD (c : Bytes) :
    (lfOf (bwtColumn c)).map (fun r => rotateBack ((bwtRows c).getD ((lfOf (bwtColumn c)).idxOf r) [])) =
      (bwtRows c).map rotateBack := by
  refine List.ext_getElem (by simp [lfOf_length]) fun k hk hk' => ?_
  have hlf : k < (lfOf (bwtColumn c)).length := by simpa using hk
  have hrow : k < (bwtRows c).length := by simpa using hk'
  rw [List.getElem_map, List.getElem_map, (lfOf_nodup _).idxOf_getElem k hlf, List.getD_eq_getElem _ _ hrow]

theorem lfRows_eq (c : Bytes) : lfRows c = bwtRows c := by
  have hperm : (lfRows c).Perm (bwtRows c) := by
    have hlf := lfOf_perm (bwtColumn c)
    rw [bwtColumn_length] at hlf
    refine ((hlf.symm.map _).trans ?_).trans (map_rotateBack_bwtRows_perm c)
    rw [map_lfOf_getD]
  exact List.Perm.eq_of_pairwise (fun _ _ _ _ => RowLe.antisymm) (lfRows_sorted c) (bwtRows_sorted c) hperm

/-- `LF` leads from the row of a rotation to a row of the rotation one byte earlier. -/
theorem bwtRows_lfRow (h : k < c.length) :
    (bwtRows c).getD (lfRow (bwtColumn c) k) [] = rotateBack ((bwtRows c).getD k []) := by
  have hcol : k < (bwtColumn c).length := by simpa using h
  have hlf : k < (lfOf (bwtColumn c)).length := by rwa [lfOf_length]
  have hrow : lfRow (bwtColumn c) k < c.length := by simpa using lfRow_lt_length hcol
  have hidx : (lfOf (bwtColumn c)).idxOf (lfRow (bwtColumn c) k) = k := by
    rw [← lfOf_getD _ hcol, List.getD_eq_getElem _ _ hlf]
    exact (lfOf_nodup _).idxOf_getElem k hlf
  have hget : (lfRows c).getD (lfRow (bwtColumn c) k) [] = rotateBack ((bwtRows c).getD k []) := by
    have hlen : lfRow (bwtColumn c) k < (lfRows c).length := by rwa [lfRows, List.length_map, List.length_range]
    rw [List.getD_eq_getElem _ _ hlen]
    simp only [lfRows, List.getElem_map, List.getElem_range, hidx]
  rwa [lfRows_eq] at hget

end rows

/-! ## The walk (R272) -/

/-- From a row of the rotation `i`, the walk writes the first `i` bytes of the chunk. -/
theorem lfWalk_eq_take {x : Bytes} (i : Nat) (hi : i ≤ x.length) {r : Nat} (hr : r < x.length)
    (hrow : (bwtRows x).getD r [] = rotation x i) (blk : Bytes) :
    (lfWalk (bwtColumn x) (lfOf (bwtColumn x)) i (r, blk)).2 = x.take i ++ blk := by
  induction i generalizing r blk with
  | zero => rfl
  | succ i ih =>
    have hcol : r < (bwtColumn x).length := by simpa using hr
    have hb : (bwtColumn x).getD r 0 = x[i] := by rw [bwtColumn_getD hr, hrow, getLastD_rotation_succ hi]
    rw [lfWalk, lfOf_getD _ hcol, hb, ih (Nat.le_of_succ_le hi) (by simpa using lfRow_lt_length hcol)
      (by rw [bwtRows_lfRow hr, hrow, rotateBack_rotation_succ hi]), ← List.take_append_getElem hi, List.append_assoc]
    rfl

/-- The inverse transform of the last column gives the chunk back (R274). -/
theorem lfWalk_bwtColumn {c : Bytes} (hne : c ≠ []) :
    (lfWalk (bwtColumn c) (lfOf (bwtColumn c)) c.length (primaryIndex (sortRotations c), [])).2 = c := by
  have hlt := primaryIndex_lt c hne
  have hzero : (sortRotations c)[primaryIndex (sortRotations c)] = 0 := List.getElem_idxOf hlt
  rw [lfWalk_eq_take c.length (Nat.le_refl _) (by simpa using hlt), List.take_length, List.append_nil]
  rw [List.getD_eq_getElem _ _ (by simpa using hlt), rotation_self]
  simp only [bwtRows, List.getElem_map, hzero]

end Sys2Proof.Machine
end

section
/-! COMPRESS.BWT (47_bwt_mtf.md R261, R262): the greedy chunks of the input, and the frame they make (O52). -/

namespace Sys2Proof.Machine

/-! ## The chunks (R262) -/

/-- A byte sequence cut into chunks of `BWT_CHUNK_MAX` bytes, the last of which may be shorter. -/
def bwtChunks (x : Bytes) : List Bytes :=
  if x = [] then [] else x.take Config.bwtChunkMax :: bwtChunks (x.drop Config.bwtChunkMax)
termination_by x.length
decreasing_by
  next h =>
    have hpos := List.length_pos_of_ne_nil h
    rw [List.length_drop, Config.bwtChunkMax]
    omega

theorem bwtChunks_nil : bwtChunks [] = [] := by rw [bwtChunks, if_pos rfl]

theorem bwtChunks_of_ne {x : Bytes} (h : x ≠ []) :
    bwtChunks x = x.take Config.bwtChunkMax :: bwtChunks (x.drop Config.bwtChunkMax) := by rw [bwtChunks, if_neg h]

theorem bwtChunks_flatten (x : Bytes) : (bwtChunks x).flatten = x := by
  induction x using bwtChunks.induct with
  | case1 => rw [bwtChunks_nil]; rfl
  | case2 x h ih => rw [bwtChunks_of_ne h, List.flatten_cons, ih, List.take_append_drop]

/-- A chunk that holds a byte and no more bytes than a chunk may (R262). -/
def IsChunk (c : Bytes) : Prop := c ≠ [] ∧ c.length ≤ 100000

theorem IsChunk.length_pos {c : Bytes} (h : IsChunk c) : 0 < c.length := List.length_pos_of_ne_nil h.1

theorem isChunk_of_mem_bwtChunks (x : Bytes) : ∀ c ∈ bwtChunks x, IsChunk c := by
  induction x using bwtChunks.induct with
  | case1 => simp [bwtChunks_nil]
  | case2 x h ih =>
    rw [bwtChunks_of_ne h]
    refine List.forall_mem_cons.2 ⟨⟨fun hnil => h ?_, List.length_take_le _ _⟩, ih⟩
    exact (List.take_eq_nil_iff.1 hnil).resolve_left (by decide)

/-- Every chunk but the last is full. -/
theorem length_of_mem_dropLast_bwtChunks (x : Bytes) : ∀ c ∈ (bwtChunks x).dropLast, c.length = 100000 := by
  induction x using bwtChunks.induct with
  | case1 => simp [bwtChunks_nil]
  | case2 x h ih =>
    rw [bwtChunks_of_ne h]
    by_cases hlast : x.drop Config.bwtChunkMax = []
    · rw [hlast, bwtChunks_nil]
      simp
    · have hlong : Config.bwtChunkMax < x.length := by
        by_contra hle
        exact hlast (List.drop_eq_nil_iff.2 (Nat.not_lt.1 hle))
      rw [List.dropLast_cons_of_ne_nil (by rw [bwtChunks_of_ne hlast]; exact List.cons_ne_nil _ _)]
      refine List.forall_mem_cons.2 ⟨?_, ih⟩
      rw [List.length_take, Nat.min_eq_left (Nat.le_of_lt hlong), Config.bwtChunkMax]

/-! ## The frame (R261) -/

/-- The frame of a chunk: its primary index, its size and the MTF indices of its last column. -/
def bwtChunkFrame (c : Bytes) : Bytes :=
  u64le (primaryIndex (sortRotations c)) ++ u64le c.length ++ (mtfEncodeAll Tables.mtfIdentity (bwtColumn c)).1

/-- The frame of a sequence of chunks of `n` bytes in all. -/
def bwtFrame (n : Nat) (chunks : List Bytes) : Bytes := u64le n ++ chunks.flatMap bwtChunkFrame

theorem bwtChunkFrame_length (c : Bytes) : (bwtChunkFrame c).length = 16 + c.length := by
  rw [bwtChunkFrame, List.length_append, List.length_append, u64le_length, u64le_length, mtfEncodeAll_length,
    bwtColumn_length]

theorem bwtFrame_length_le {chunks : List Bytes} (h : ∀ c ∈ chunks, IsChunk c) (n : Nat) :
    (bwtFrame n chunks).length ≤ 8 + 17 * chunks.flatten.length := by
  rw [bwtFrame, List.length_append, u64le_length]
  induction chunks with
  | nil => simp
  | cons c chunks ih =>
    obtain ⟨hc, hrest⟩ := List.forall_mem_cons.1 h
    have hpos := hc.length_pos
    have hle := ih hrest
    rw [List.flatMap_cons, List.length_append, bwtChunkFrame_length, List.flatten_cons, List.length_append]
    omega

theorem chunks_length_le {chunks : List Bytes} (h : ∀ c ∈ chunks, IsChunk c) : chunks.length ≤ chunks.flatten.length := by
  induction chunks with
  | nil => exact Nat.le_refl 0
  | cons c chunks ih =>
    obtain ⟨hc, hrest⟩ := List.forall_mem_cons.1 h
    have hpos := hc.length_pos
    have hle := ih hrest
    rw [List.length_cons, List.flatten_cons, List.length_append]
    omega

/-! ## The compressor (R261) -/

/-- The compressor past the length. -/
def State.bwtCBegin (s : State) : State := { s with regs := { s.regs with ip := 0 }, phase := .bwtC }

theorem bwtCStart_eq (s : State) : bwtCStart s = s.emitSeq (u64le s.regs.nIn) >>= fun t => .ok t.bwtCBegin := rfl

/-- The state after the output of the chunk `c`. -/
def State.bwtCoded (s : State) (c : Bytes) : State :=
  { s with
    tabs := { s.tabs with
      chunk := c, rot := sortRotations c, mtf := (mtfEncodeAll Tables.mtfIdentity (bwtColumn c)).2 }
    regs := { s.regs with
      cs := c.length, p := primaryIndex (sortRotations c), k := c.length, cur := (bwtColumn c).getLastD 0
      rank := (mtfEncodeAll Tables.mtfIdentity (bwtColumn c)).1.getLastD 0, ip := s.regs.ip + c.length } }

theorem flatMap_encode_mtfIdx (is : Bytes) : is.flatMap (fun i => encode (.mtfIdx i)) = is :=
  List.flatMap_singleton' is

/-- A turn of the loop writes the frame of its chunk. -/
theorem bwtUnit_eq {s : State} {c : Bytes} {cs : Nat} (hcs : min Config.bwtChunkMax (s.regs.nIn - s.regs.ip) = cs)
    (hc : s.inSlice s.regs.ip cs = c) :
    bwtUnit s = s.emitSeq (bwtChunkFrame c) >>= fun t => .ok (t.bwtCoded c) := by
  have hlen : cs = c.length := by rw [← hc, State.inSlice_length]
  unfold bwtUnit
  dsimp only
  rw [hcs, hc, flatMap_encode_mtfIdx, hlen]
  rfl

section compressor

variable {s t : State} {out : Bytes}

theorem State.Running.bwtCBegin (h : s.Running t out) : s.Running t.bwtCBegin out :=
  { h with inputs := h.inputs.trans t.keepsInputs_engine }

theorem State.Running.bwtCoded (h : s.Running t out) (c : Bytes) : s.Running (t.bwtCoded c) out :=
  { h with inputs := h.inputs.trans t.keepsInputs_engine }

theorem unitOfWork_bwtC (hp : t.phase = .bwtC) : unitOfWork t = t.settle (turn t bwtUnit State.endOp) := by
  simp [unitOfWork, State.nextToken, State.fetchBytes, advance, hp]

/-- The chunk of a turn is the next of the greedy chunks. -/
theorem State.Running.bwtUnit (h : s.Running t out) {xs : Bytes} (hin : s.inputBytes.drop t.regs.ip = xs) :
    bwtUnit t = t.emitSeq (bwtChunkFrame (xs.take Config.bwtChunkMax)) >>= fun u =>
      .ok (u.bwtCoded (xs.take Config.bwtChunkMax)) := by
  have hlen : xs.length = t.regs.nIn - t.regs.ip := by rw [← hin, List.length_drop, s.inputBytes_length, h.nIn]
  have hnIn := h.nIn
  refine bwtUnit_eq rfl ?_
  by_cases hip : t.regs.ip ≤ s.inLen.toNat
  · rw [h.inSlice (by omega), hin, ← hlen, ← List.take_eq_take_min]
  · rw [show min Config.bwtChunkMax (t.regs.nIn - t.regs.ip) = 0 by omega,
      List.length_eq_zero_iff.1 (show xs.length = 0 by omega), List.take_nil]
    rfl

/-- The loop of the compressor over what is left of the input. -/
theorem runUnits_bwtC (xs : Bytes) {t : State} {out : Bytes} {fuel : Nat} (h : s.Running t out) (hp : t.phase = .bwtC)
    (hin : s.inputBytes.drop t.regs.ip = xs)
    (hlen : (out ++ (bwtChunks xs).flatMap bwtChunkFrame).length < 2 ^ 64) :
    s.EndsWithin (out ++ (bwtChunks xs).flatMap bwtChunkFrame)
      (runUnits ((bwtChunks xs).length + 1 + fuel) t) := by
  induction xs using bwtChunks.induct generalizing t out with
  | case1 =>
    have hu := unitOfWork_bwtC hp
    rw [turn, if_neg (h.of_drop_nil hin)] at hu
    rw [bwtChunks_nil, List.flatMap_nil, List.append_nil] at *
    rw [List.length_nil, Nat.zero_add, Nat.add_comm]
    exact h.runUnits_endOp hlen hu fuel
  | case2 xs hne ih =>
    obtain ⟨b, bs, hcons⟩ := List.exists_cons_of_ne_nil hne
    obtain ⟨hlt, -⟩ := h.of_drop_cons (hin.trans hcons)
    have hu := unitOfWork_bwtC hp
    rw [turn, if_pos hlt, h.bwtUnit hin] at hu
    have hrest : s.inputBytes.drop (t.regs.ip + (xs.take Config.bwtChunkMax).length) = xs.drop Config.bwtChunkMax := by
      rw [← List.drop_drop, hin, List.length_take]
      exact List.drop_eq_drop_min.symm
    rw [bwtChunks_of_ne hne, List.flatMap_cons] at hlen ⊢
    have hfuel : ∀ n, n + 1 + 1 + fuel = n + 1 + fuel + 1 := by omega
    rw [List.length_cons, hfuel]
    refine h.runUnits_emitSeq hu fun hnext => ?_
    exact ih (hnext.bwtCoded _) hp hrest (by rwa [List.append_assoc])

end compressor

/-- The result of COMPRESS.BWT over an input that is not empty. -/
theorem compressBwt_endsWithin {s : State} (hf : s.inputFits) (h0 : s.inLen.toNat ≠ 0) (hlt : s.inLen.toNat < 2 ^ 56) :
    s.EndsWithin (bwtFrame s.inLen.toNat (bwtChunks s.inputBytes)) (operate (beginCompress .bwt) s) := by
  have hchunks := isChunk_of_mem_bwtChunks s.inputBytes
  have hsize := bwtFrame_length_le hchunks s.inLen.toNat
  have hcount := chunks_length_le hchunks
  rw [bwtChunks_flatten, s.inputBytes_length] at hsize hcount
  obtain ⟨fuel, hfuel⟩ : ∃ fuel, s.fuel = (bwtChunks s.inputBytes).length + 1 + fuel :=
    Nat.exists_eq_add_of_le (by rw [State.fuel]; omega)
  have hbegin : beginCompress .bwt s.start = s.start.emitSeq (u64le s.inLen.toNat) >>= fun t => .ok t.bwtCBegin :=
    if_neg h0
  rw [operate_of_inputFits hf, hbegin, hfuel, bwtFrame]
  refine (s.start_running .command).settle_emitSeq (bs := u64le s.inLen.toNat) fun hheader => ?_
  exact runUnits_bwtC _ hheader.bwtCBegin rfl rfl (by rw [List.nil_append]; exact hsize.trans_lt (by omega))

/-- Settles O52: the chunks are the greedy ones. -/
theorem bwtCompressWritesItsChunks : Obligations.BwtCompressWritesItsChunks := by
  intro s hf h1 hlt
  refine ⟨bwtChunks s.inputBytes, bwtChunks_flatten _, isChunk_of_mem_bwtChunks _,
    length_of_mem_dropLast_bwtChunks _, ?_⟩
  exact givesWithinCap_of_operate (i := .compressBwt) rfl rfl nofun nofun
    (compressBwt_endsWithin hf (Nat.ne_of_gt h1) hlt)

end Sys2Proof.Machine
end

section
/-! DECOMPRESS.BWT (47_bwt_mtf.md R270, R272): its header test, the tests and the end of a chunk, the test after the last
one, and the length of a success (O53). -/

namespace Sys2Proof.Machine

/-! ## The header (R270) -/

theorem beginDecompress_bwt {s : State} (h : s.inLen.toNat ≠ 0) :
    beginDecompress .bwt s.start = bwtDStart s.start := if_neg h

/-- The decoder past its header test, with the recorded length `n`. -/
def State.bwtDBegin (s : State) (n : Nat) : State :=
  { s with regs := { s.regs with n := n, ip := 8 }, phase := .bwtChunk }

theorem State.Running.bwtDBegin {s t : State} {out : Bytes} (h : s.Running t out) (n : Nat) :
    s.Running (t.bwtDBegin n) out :=
  { h with inputs := h.inputs.trans t.keepsInputs_engine }

theorem bwtDStart_of_header {s : State} (h : 8 ≤ s.inLen.toNat) :
    bwtDStart s.start = .ok (s.start.bwtDBegin (valueLE (s.inputBytes.take 8))) := by
  rw [← rdU64_start h]
  exact if_neg (Nat.not_lt.2 h)

/-! ## The header of a chunk (R270) -/

section chunkHeader

variable {s : State} {p cs : Nat}

theorem nextToken_bwtChunk (hp : s.phase = .bwtChunk) : s.nextToken = none := by
  rw [State.nextToken, State.fetchBytes, hp]
  rfl

theorem advance_bwtChunk (hp : s.phase = .bwtChunk) : advance s = turn s bwtHeader bwtDEnd := by rw [advance, hp]

theorem step_bwtChunk (hh : s.host = []) (hb : s.status = .busy) (hp : s.phase = .bwtChunk) :
    step s = .next (s.settle (turn s bwtHeader bwtDEnd)) := by
  rw [step_of_no_token hh hb (hp ▸ nofun) (nextToken_bwtChunk hp), advance_bwtChunk hp]

theorem unitOfWork_bwtChunk (hp : s.phase = .bwtChunk) : unitOfWork s = s.settle (turn s bwtHeader bwtDEnd) := by
  rw [unitOfWork, nextToken_bwtChunk hp]
  dsimp only
  rw [advance_bwtChunk hp]

/-- The decoder at the first index of a chunk of `cs` bytes with the primary index `p`. -/
def State.bwtOpened (s : State) (p cs : Nat) : State :=
  { s with
    tabs := { s.tabs with mtf := Tables.mtfIdentity, chunk := [] }
    regs := { s.regs with p := p, cs := cs, k := 0 }
    phase := .bwtIdx }

theorem State.bwtOpened_status (s : State) (p cs : Nat) : (s.bwtOpened p cs).status = s.status := by
  rw [State.bwtOpened]

theorem State.bwtOpened_keepsInputs (s : State) (p cs : Nat) : s.KeepsInputs (s.bwtOpened p cs) :=
  s.keepsInputs_engine

theorem State.bwtOpened_keepsOut (s : State) (p cs : Nat) : s.KeepsOut (s.bwtOpened p cs) := by
  rw [State.bwtOpened]
  exact fun _ => rfl

theorem State.bwtOpened_keepsArgs (s : State) (p cs : Nat) : s.KeepsArgs (s.bwtOpened p cs) := by
  rw [State.bwtOpened]
  exact ⟨rfl, rfl⟩

theorem State.bwtOpened_tabs (s : State) (p cs : Nat) :
    (s.bwtOpened p cs).tabs = { s.tabs with mtf := Tables.mtfIdentity, chunk := [] } := by rw [State.bwtOpened]

theorem State.bwtOpened_regs (s : State) (p cs : Nat) :
    (s.bwtOpened p cs).regs = { s.regs with p := p, cs := cs, k := 0 } := by rw [State.bwtOpened]

theorem bwtHeader_short (h : s.regs.nIn < s.regs.ip + 16) : bwtHeader s = .error .corruptPayload := if_pos h

/-- The tests on the two fields, in their order. -/
theorem bwtHeader_of_fields (h : s.regs.ip + 16 ≤ s.regs.nIn) (hp : s.rdU64 s.regs.ip = p)
    (hcs : s.rdU64 (s.regs.ip + 8) = cs) :
    bwtHeader s =
      if 100000 < cs then .error .corruptPayload
      else if s.regs.nIn < s.regs.ip + 16 + cs then .error .corruptPayload
      else if cs ≤ p then .error .corruptPayload
      else .ok (s.bwtOpened p cs) := by
  subst hp hcs
  exact if_neg (Nat.not_lt.2 h)

theorem bwtHeader_bad (h : s.regs.ip + 16 ≤ s.regs.nIn) (hp : s.rdU64 s.regs.ip = p)
    (hcs : s.rdU64 (s.regs.ip + 8) = cs) (hbad : 100000 < cs ∨ s.regs.nIn < s.regs.ip + 16 + cs ∨ cs ≤ p) :
    bwtHeader s = .error .corruptPayload := by
  rw [bwtHeader_of_fields h hp hcs]
  split_ifs with hsize hin hindex
  · rfl
  · rfl
  · rfl
  · exact absurd hbad (by omega)

theorem bwtHeader_good (hp : s.rdU64 s.regs.ip = p) (hcs : s.rdU64 (s.regs.ip + 8) = cs)
    (hin : s.regs.ip + 16 + cs ≤ s.regs.nIn) (hsize : cs ≤ 100000) (hindex : p < cs) :
    bwtHeader s = .ok (s.bwtOpened p cs) := by
  rw [bwtHeader_of_fields (by omega) hp hcs, if_neg (Nat.not_lt.2 hsize), if_neg (Nat.not_lt.2 hin),
    if_neg (Nat.not_le.2 hindex)]

theorem stepFails_of_step {k : ErrKind} (h : step s = .next (s.settle (.error k))) : StepFails s k :=
  ⟨_, h, s.raise_fails k⟩

end chunkHeader

/-! ## The end of a chunk (R272) -/

section chunkEnd

variable {s : State}

theorem nextToken_bwtIdx_end (hp : s.phase = .bwtIdx) (h : s.regs.cs ≤ s.regs.k) : s.nextToken = none := by
  rw [State.nextToken, fetchBytes_bwt hp, if_neg (Nat.not_lt.2 h)]
  rfl

theorem advance_bwtIdx (hp : s.phase = .bwtIdx) : advance s = bwtChunkEnd s := by rw [advance, hp]

/-- The block that the walk rebuilds. -/
def State.bwtBlock (s : State) : Bytes := (lfWalk s.tabs.chunk (lfOf s.tabs.chunk) s.regs.cs (s.regs.p, [])).2

@[simp] theorem State.bwtBlock_length (s : State) : s.bwtBlock.length = s.regs.cs := lfWalk_length _ _ _ _ _

theorem silent_inverseBwt : Silent State.inverseBwt := ⟨fun _ _ => .rfl, fun _ _ => rfl⟩

/-- The decoder behind a chunk, whose output is made. -/
def State.bwtClosed (s : State) : State :=
  { s.inverseBwt with
    regs := { s.inverseBwt.regs with ip := s.regs.ip + 16 + s.regs.cs }
    phase := .bwtChunk }

theorem bwtChunkEnd_eq (s : State) : bwtChunkEnd s = s.emitGo s.bwtBlock State.bwtClosed := by
  rw [bwtChunkEnd]
  dsimp only
  rw [silent_inverseBwt.emitSeq, State.emitGo, bind_assoc]
  rfl

theorem unitOfWork_bwtIdx_end (hp : s.phase = .bwtIdx) (h : s.regs.cs ≤ s.regs.k) :
    unitOfWork s = s.settle (s.emitGo s.bwtBlock State.bwtClosed) := by
  rw [unitOfWork, nextToken_bwtIdx_end hp h]
  dsimp only
  rw [advance_bwtIdx hp, bwtChunkEnd_eq]

theorem step_bwtIdx_end (hh : s.host = []) (hb : s.status = .busy) (hp : s.phase = .bwtIdx)
    (h : s.regs.cs ≤ s.regs.k) : step s = .next (s.settle (s.emitGo s.bwtBlock State.bwtClosed)) := by
  rw [step_of_no_token hh hb (hp ▸ nofun) (nextToken_bwtIdx_end hp h), advance_bwtIdx hp, bwtChunkEnd_eq]

end chunkEnd

theorem State.bwtClosed_appends (s : State) (bs : Bytes) : s.Appends (s.putAll bs).bwtClosed bs :=
  have happ := s.putAll_appends bs
  ⟨happ.outCount, happ.outBase, happ.new, happ.old⟩

theorem State.bwtClosed_keepsInputs (s : State) (bs : Bytes) : s.KeepsInputs (s.putAll bs).bwtClosed :=
  s.keepsInputs_engine

/-! ## The end of the frame (R270) -/

theorem bwtDEnd_of_ne {s : State} (h : s.regs.outCount ≠ s.regs.n) : bwtDEnd s = .error .sizeMismatch := if_pos h

theorem bwtDEnd_of_eq {s : State} (h : s.regs.outCount = s.regs.n) : bwtDEnd s = s.endOp := if_neg (not_not.2 h)

theorem bwtDEnd_of_eq_plain {s : State} (h : s.regs.outCount = s.regs.n) (hplain : s.regs.ending = .plain) :
    bwtDEnd s = .ok s.finish := by
  rw [bwtDEnd_of_eq h, State.endOp, hplain]

/-! ## The loop keeps the recorded length -/

/-- `s` is inside the loop of R270, outside DECODE, with the recorded length `n`. -/
structure State.BwtDecodes (n : Nat) (s : State) : Prop where
  status : s.status = .busy
  phase : s.phase = .bwtChunk ∨ s.phase = .bwtIdx
  ending : s.regs.ending = .plain
  outBase : s.regs.outBase = 0
  recorded : s.regs.n = n

/-- The token of a place in the loop is an index. -/
theorem nextToken_bwt_ok {s : State} {i : Instr} (hp : s.phase = .bwtChunk ∨ s.phase = .bwtIdx)
    (h : s.nextToken = some (.ok i)) : ∃ r, i = .mtfIdx r := by
  obtain hp | hp := hp
  · rw [nextToken_bwtChunk hp] at h
    cases h
  · rw [State.nextToken, fetchBytes_bwt hp] at h
    split at h
    · have hdecode := Option.some.inj h
      simp only [bind, Except.bind] at hdecode
      cases hw : s.window (s.regs.ip + 16 + s.regs.k) s.regs.nIn 1 with
      | nil => rw [hw] at hdecode; cases hdecode
      | cons r rest => rw [hw] at hdecode; exact ⟨r, (Except.ok.inj hdecode).symm⟩
    · cases h

section decodes

variable {n : Nat} {s : State}

theorem State.BwtDecodes.answers_mtfIdx (h : s.BwtDecodes n) (r : Byte) : Answers (mtfIdx r s) (State.BwtDecodes n) :=
  answers_ok.2 ⟨h.status, h.phase, h.ending, h.outBase, h.recorded⟩

theorem State.BwtDecodes.answers_bwtHeader (h : s.BwtDecodes n) : Answers (bwtHeader s) (State.BwtDecodes n) :=
  answers_guard <| answers_guard <| answers_guard <| answers_guard <|
    answers_ok.2 ⟨h.status, .inr rfl, h.ending, h.outBase, h.recorded⟩

theorem State.BwtDecodes.answers_bwtChunkEnd (h : s.BwtDecodes n) :
    Answers (bwtChunkEnd s) (State.BwtDecodes n) := by
  rw [bwtChunkEnd_eq, State.emitGo]
  refine Answers.bind (P := (· = s.putAll _)) (fun _ ht => (State.emitSeq_ok ht).2) fun _ ht => answers_ok.2 ?_
  subst ht
  exact ⟨h.status, .inl rfl, h.ending, h.outBase, h.recorded⟩

theorem State.BwtDecodes.answers_bwtDEnd (h : s.BwtDecodes n) :
    Answers (bwtDEnd s) (State.LoopEnds (State.BwtDecodes n) n) := by
  by_cases hn : s.regs.outCount = s.regs.n
  · rw [bwtDEnd_of_eq_plain hn h.ending, answers_ok]
    exact .inr (.inr ⟨rfl, by rw [State.finish_outLen, h.outBase, Nat.zero_add, hn, h.recorded]⟩)
  · rw [bwtDEnd_of_ne hn]
    exact answers_error

theorem State.BwtDecodes.unit_loopEnds (h : s.BwtDecodes n) : (unitOfWork s).LoopEnds (State.BwtDecodes n) n := by
  refine unitOfWork_loopEnds (fun i hi => ?_) ?_
  · obtain ⟨r, rfl⟩ := nextToken_bwt_ok h.phase hi
    exact h.answers_mtfIdx r
  · obtain hp | hp := h.phase
    · rw [advance_bwtChunk hp]
      exact turn_answers (fun _ => h.answers_bwtHeader.imp fun _ => .inl) h.answers_bwtDEnd
    · rw [advance_bwtIdx hp]
      exact h.answers_bwtChunkEnd.imp fun _ => .inl

end decodes

theorem State.Running.bwtDecodes {s t : State} {out : Bytes} (h : s.Running t out) (n : Nat) :
    (t.bwtDBegin n).BwtDecodes n where
  status := h.status
  phase := .inl rfl
  ending := h.ending
  outBase := h.outBase
  recorded := rfl

/-! ## The whole operation -/

section operation

variable {s : State}

theorem operate_decompressBwt (hf : s.inputFits) (h : 8 ≤ s.inLen.toNat) :
    operate (beginDecompress .bwt) s = runUnits s.fuel (s.start.bwtDBegin (valueLE (s.inputBytes.take 8))) := by
  rw [operate_of_inputFits hf, beginDecompress_bwt (by omega), bwtDStart_of_header h, State.settle_ok]

theorem fails_decompressBwt_short (hf : s.inputFits) (h0 : s.inLen.toNat ≠ 0) (h : s.inLen.toNat < 8) :
    Fails .decompressBwt s .corruptPayload :=
  fails_of_begin (i := .decompressBwt) rfl rfl nofun nofun hf ((beginDecompress_bwt h0).trans (if_pos h))

/-- A success gives as many bytes as the frame records. -/
theorem decompressBwt_outLen {t : State} (hf : s.inputFits) (h0 : s.inLen.toNat ≠ 0)
    (ht : exec .decompressBwt s = .next t) (hd : t.status = .done) :
    t.outLen.toNat = valueLE (s.inputBytes.take 8) := by
  have hfits : valueLE (s.inputBytes.take 8) < 256 ^ 8 :=
    (valueLE_lt _).trans_le (Nat.pow_le_pow_right (by decide) (List.length_take_le 8 _))
  obtain h | h := Nat.lt_or_ge s.inLen.toNat 8
  · obtain ⟨u, hu, hfail, -⟩ := fails_decompressBwt_short hf h0 h
    obtain rfl := Host.Outcome.next.inj (ht.symm.trans hu)
    exact nomatch hfail.status.symm.trans hd
  have hend : t.LoopEnds (State.BwtDecodes (valueLE (s.inputBytes.take 8))) (valueLE (s.inputBytes.take 8)) := by
    rw [← Host.Outcome.next.inj ((exec_of_beginOf rfl s).symm.trans ht), operate_decompressBwt hf h]
    exact runUnits_loopEnds (fun _ => State.BwtDecodes.unit_loopEnds) ((s.start_running .command).bwtDecodes _) _
  rw [hend.outLen (fun h => h.status) hd, BitVec.toNat_ofNat, Nat.mod_eq_of_lt (by omega)]

/-- A frame of no chunk goes to the end of the loop at once. -/
theorem unitOfWork_bwtD_no_chunk (h : s.inLen.toNat = 8) (n : Nat) :
    unitOfWork (s.start.bwtDBegin n) = (s.start.bwtDBegin n).settle (bwtDEnd (s.start.bwtDBegin n)) := by
  have hturn : turn (s.start.bwtDBegin n) bwtHeader bwtDEnd = bwtDEnd (s.start.bwtDBegin n) :=
    if_neg (show ¬ 8 < s.inLen.toNat by omega)
  rw [unitOfWork_bwtChunk rfl, hturn]

theorem fails_decompressBwt_no_chunk (hf : s.inputFits) (h : s.inLen.toNat = 8)
    (hn : 0 < valueLE (s.inputBytes.take 8)) : Fails .decompressBwt s .sizeMismatch := by
  obtain ⟨hinputs, hargs⟩ := operate_keeps (i := .decompressBwt) rfl rfl nofun nofun s
  refine ⟨_, exec_of_beginOf rfl s, ?_, hinputs, hargs⟩
  obtain ⟨fuel, hfuel⟩ : ∃ fuel, s.fuel = fuel + 1 := ⟨16 * s.inLen.toNat + 15, rfl⟩
  rw [operate_decompressBwt hf h.ge, hfuel, runUnits_busy rfl, unitOfWork_bwtD_no_chunk h,
    bwtDEnd_of_ne (Nat.ne_of_lt hn), State.settle_error, runUnits_ended (by simp)]
  exact State.raise_failed _

theorem gives_decompressBwt_no_chunk (hf : s.inputFits) (h : s.inLen.toNat = 8)
    (hn : valueLE (s.inputBytes.take 8) = 0) : Gives .decompressBwt s [] := by
  have hend : s.EndsWithin [] (operate (beginDecompress .bwt) s) := by
    obtain ⟨fuel, hfuel⟩ : ∃ fuel, s.fuel = fuel + 1 := ⟨16 * s.inLen.toNat + 15, rfl⟩
    have hu := unitOfWork_bwtD_no_chunk h 0
    rw [bwtDEnd_of_eq rfl] at hu
    rw [operate_decompressBwt hf h.ge, hn, hfuel]
    exact ((s.start_running .command).bwtDBegin 0).runUnits_endOp (by simp) hu fuel
  exact (givesWithinCap_of_operate (i := .decompressBwt) rfl rfl nofun nofun hend).1 fun _ _ => Nat.zero_le _

end operation

/-- Settles O53: the test at the start, the frames of no chunk, the length of a success, the tests and the end of a chunk,
and the test after the last one. -/
theorem bwtDecompressTestsItsFrame : Obligations.BwtDecompressTestsItsFrame := by
  refine ⟨?header, fun s hh hb => ⟨fun hp hin => ?chunkHeader, fun hp hk _ hindex => ?chunkEnd, fun hp hin hne => ?mismatch,
    fun hp hin heq hplain => ?ends⟩⟩
  case header =>
    rintro s n hf h1 rfl
    have h0 : s.inLen.toNat ≠ 0 := Nat.ne_of_gt h1
    exact ⟨fails_decompressBwt_short hf h0, fails_decompressBwt_no_chunk hf, gives_decompressBwt_no_chunk hf,
      fun t => decompressBwt_outLen hf h0⟩
  case chunkHeader =>
    have hstep := step_bwtChunk hh hb hp
    rw [turn, if_pos hin] at hstep
    refine ⟨fun hshort => ?_, fun h16 hbad => ?_, fun hend hsize hindex => ?_⟩
    · exact stepFails_of_step (hstep.trans (by rw [bwtHeader_short hshort]))
    · exact stepFails_of_step (hstep.trans (by rw [bwtHeader_bad h16 rfl rfl hbad]))
    · rw [bwtHeader_good rfl rfl hend hsize hindex, State.settle_ok] at hstep
      exact ⟨_, hstep, rfl, (s.bwtOpened_status _ _).trans hb, s.bwtOpened_keepsOut _ _, s.bwtOpened_keepsInputs _ _,
        s.bwtOpened_keepsArgs _ _, s.bwtOpened_tabs _ _, s.bwtOpened_regs _ _⟩
  case chunkEnd =>
    have hstep := step_bwtIdx_end hh hb hp hk
    refine ⟨fun hroom => ?_, fun hfull => ?_⟩
    · rw [State.emitGo_of_room (s.bwtBlock_length.symm ▸ hroom), State.settle_ok] at hstep
      exact ⟨_, hstep, s.bwtClosed_appends s.bwtBlock, rfl, hb, rfl, rfl, s.bwtClosed_keepsInputs _, rfl, rfl⟩
    · exact fails_of_emitGo hstep (s.bwtBlock_length.symm ▸ hfull)
  case mismatch =>
    have hstep := step_bwtChunk hh hb hp
    rw [turn, if_neg (Nat.not_lt.2 hin), bwtDEnd_of_ne hne] at hstep
    exact stepFails_of_step hstep
  case ends =>
    have hstep := step_bwtChunk hh hb hp
    rw [turn, if_neg (Nat.not_lt.2 hin), bwtDEnd_of_eq_plain heq hplain, State.settle_ok] at hstep
    exact ⟨_, hstep, rfl, rfl, rfl, fun _ => rfl, s.finish_keepsInputs, rfl, rfl⟩

end Sys2Proof.Machine
end

section
/-! The round trip of BWT (47_bwt_mtf.md R274, O51): DECOMPRESS.BWT over the frame of a sequence of chunks reads each column
back from its indices, and the walk of `LF` gives the chunk (R273). -/

namespace Sys2Proof.Machine

/-- `t` has still to read the indices `is` of a chunk with the primary index `p` and the last column `col`; `rest` is
behind them. -/
structure State.BwtReads (s t : State) (n p : Nat) (col is rest : Bytes) : Prop where
  phase : t.phase = .bwtIdx
  recorded : t.regs.n = n
  index : t.regs.p = p
  size : t.regs.cs = t.regs.k + is.length
  taken : t.tabs.chunk.length = t.regs.k
  input : s.inputBytes.drop (t.regs.ip + 16 + t.regs.k) = is ++ rest
  column : t.tabs.chunk ++ mtfDecodeAll t.tabs.mtf is = col

section decoder

variable {s t : State} {out : Bytes} {n p fuel : Nat} {c col is rest ys : Bytes}

/-! ## The indices of a chunk -/

theorem State.Running.mtfMoved (h : s.Running t out) (i b : Byte) : s.Running (t.mtfMoved i b) out :=
  { h with inputs := h.inputs.trans t.keepsInputs_engine }

theorem State.BwtReads.mtfMoved {i : Byte} (h : s.BwtReads t n p col (i :: is) rest) :
    s.BwtReads (t.mtfMoved i (t.tabs.mtf.getD i.toNat 0)) n p col is rest where
  phase := h.phase
  recorded := h.recorded
  index := h.index
  size := h.size.trans (by
    show t.regs.k + (is.length + 1) = t.regs.k + 1 + is.length
    omega)
  taken := by
    show (t.tabs.chunk.take t.regs.k ++ [_]).length = t.regs.k + 1
    rw [List.take_of_length_le h.taken.le, List.length_append, h.taken, List.length_singleton]
  input := by
    have hin := h.input
    rw [← List.singleton_append, List.append_assoc] at hin
    exact drop_of_drop_append hin
  column := by
    show t.tabs.chunk.take t.regs.k ++ [_] ++ mtfDecodeAll (moveToFront _ _ _) is = col
    rw [List.take_of_length_le h.taken.le, List.append_assoc]
    exact h.column

theorem State.Running.unitOfWork_bwtIdx (h : s.Running t out) {i : Byte} (hr : s.BwtReads t n p col (i :: is) rest) :
    unitOfWork t = t.mtfMoved i (t.tabs.mtf.getD i.toNat 0) := by
  obtain ⟨hlt, hb, -⟩ := h.of_drop_cons hr.input
  have hk : t.regs.k < t.regs.cs := by rw [hr.size, List.length_cons]; omega
  have htoken : t.nextToken = some (.ok (.mtfIdx i)) := by
    rw [State.nextToken, fetchBytes_bwt hr.phase, if_pos hk, t.window_cons hlt, hb]
    rfl
  rw [unitOfWork_of_token htoken]
  exact congrArg t.settle (mtfIdx_eq i t)

/-- The indices of a chunk, one unit of work each. -/
theorem State.Running.runUnits_bwtIdx (h : s.Running t out) (hr : s.BwtReads t n p col is rest) :
    ∃ u, runUnits (is.length + fuel) t = runUnits fuel u ∧ s.Running u out ∧ s.BwtReads u n p col [] rest := by
  induction is generalizing t with
  | nil => exact ⟨t, by rw [List.length_nil, Nat.zero_add], h, hr⟩
  | cons i is ih =>
    rw [List.length_cons, Nat.add_right_comm, runUnits_busy h.status, h.unitOfWork_bwtIdx hr]
    exact ih (h.mtfMoved i _) hr.mtfMoved

/-! ## A chunk -/

/-- `t` is between two chunks, and `rest` is the input still to read. -/
structure State.BwtBetween (s t : State) (n : Nat) (rest : Bytes) : Prop where
  phase : t.phase = .bwtChunk
  recorded : t.regs.n = n
  input : s.inputBytes.drop t.regs.ip = rest

theorem State.Running.bwtOpened (h : s.Running t out) (p cs : Nat) : s.Running (t.bwtOpened p cs) out where
  inputs := h.inputs.trans (t.bwtOpened_keepsInputs p cs)
  source := by rw [State.bwtOpened]; exact h.source
  status := (t.bwtOpened_status p cs).trans h.status
  err := by rw [State.bwtOpened]; exact h.err
  outBase := by rw [t.bwtOpened_regs]; exact h.outBase
  outCount := by rw [t.bwtOpened_regs]; exact h.outCount
  emitted k hk := (t.bwtOpened_keepsOut p cs k).trans (h.emitted k hk)
  fits := h.fits

theorem State.Running.bwtClosed (h : s.Running t out) : s.Running t.bwtClosed out :=
  { h with inputs := h.inputs.trans t.keepsInputs_engine }

theorem primaryIndex_sortRotations_lt (h : IsChunk c) : primaryIndex (sortRotations c) < c.length := by
  simpa using primaryIndex_lt c h.1

/-- The header of a chunk reads the two fields back. -/
theorem State.Running.bwtHeader_of_frame (h : s.Running t out) (hb : s.BwtBetween t n (bwtChunkFrame c ++ rest))
    (hc : IsChunk c) : bwtHeader t = .ok (t.bwtOpened (primaryIndex (sortRotations c)) c.length) := by
  have hin := hb.input
  have hindex := primaryIndex_sortRotations_lt hc
  have hsize := hc.2
  have hlen := congrArg List.length hin
  rw [List.length_drop, s.inputBytes_length, ← h.nIn, List.length_append, bwtChunkFrame_length] at hlen
  rw [bwtChunkFrame, List.append_assoc, List.append_assoc] at hin
  have hin' := drop_of_drop_append hin
  rw [u64le_length] at hin'
  refine bwtHeader_good ?_ ?_ (by omega) hsize hindex
  · rw [State.rdU64, h.inSlice (by rw [← h.nIn]; omega), hin, List.take_left' (u64le_length _),
      valueLE_u64le (by omega)]
  · rw [State.rdU64, h.inSlice (by rw [← h.nIn]; omega), hin', List.take_left' (u64le_length _),
      valueLE_u64le (by omega)]

/-- The decoder before the first index of a chunk. -/
theorem State.BwtBetween.opened (hb : s.BwtBetween t n (bwtChunkFrame c ++ rest)) :
    s.BwtReads (t.bwtOpened (primaryIndex (sortRotations c)) c.length) n (primaryIndex (sortRotations c)) (bwtColumn c)
      (mtfEncodeAll Tables.mtfIdentity (bwtColumn c)).1 rest := by
  have hlen : (mtfEncodeAll Tables.mtfIdentity (bwtColumn c)).1.length = c.length := by
    rw [mtfEncodeAll_length, bwtColumn_length]
  constructor
  case phase => rfl
  case recorded => rw [t.bwtOpened_regs]; exact hb.recorded
  case index => rw [t.bwtOpened_regs]
  case size => rw [t.bwtOpened_regs, hlen]; exact (Nat.zero_add _).symm
  case taken => rw [t.bwtOpened_regs, t.bwtOpened_tabs]; rfl
  case input =>
    have hin := hb.input
    rw [bwtChunkFrame, List.append_assoc] at hin
    rw [t.bwtOpened_regs]
    have hdrop := drop_of_drop_append hin
    rwa [List.length_append, u64le_length, u64le_length] at hdrop
  case column =>
    rw [t.bwtOpened_tabs]
    exact mtfDecodeAll_mtfEncodeAll (List.Perm.refl _) _

/-- The walk over the column that has been read back. -/
theorem State.BwtReads.block (hr : s.BwtReads t n (primaryIndex (sortRotations c)) (bwtColumn c) [] rest)
    (hc : c ≠ []) : t.bwtBlock = c := by
  have hcol : t.tabs.chunk = bwtColumn c := (List.append_nil _).symm.trans hr.column
  have hsize : t.regs.cs = c.length := by
    rw [hr.size, ← hr.taken, hcol, bwtColumn_length]
    rfl
  rw [State.bwtBlock, hcol, hsize, hr.index, lfWalk_bwtColumn hc]

theorem State.BwtReads.closed (hr : s.BwtReads t n p col [] rest) (bs : Bytes) :
    s.BwtBetween (t.putAll bs).bwtClosed n rest where
  phase := rfl
  recorded := hr.recorded
  input := by
    have hin := hr.input
    have hsize : t.regs.cs = t.regs.k := hr.size
    rwa [← hsize] at hin

/-- A chunk: its header, its indices and its end. -/
theorem State.Running.runUnits_bwtChunk (h : s.Running t out) (hb : s.BwtBetween t n (bwtChunkFrame c ++ rest))
    (hc : IsChunk c)
    (hnext : ∀ {u}, s.Running u (out ++ c) → s.BwtBetween u n rest → s.EndsWithin (out ++ c ++ ys) (runUnits fuel u)) :
    s.EndsWithin (out ++ (c ++ ys)) (runUnits (c.length + 2 + fuel) t) := by
  have hlt : t.regs.ip < t.regs.nIn := by
    have hlen := congrArg List.length hb.input
    rw [List.length_drop, s.inputBytes_length, ← h.nIn, List.length_append, bwtChunkFrame_length] at hlen
    omega
  have hu := unitOfWork_bwtChunk hb.phase
  rw [turn, if_pos hlt, h.bwtHeader_of_frame hb hc, State.settle_ok] at hu
  have hlen : (mtfEncodeAll Tables.mtfIdentity (bwtColumn c)).1.length = c.length := by
    rw [mtfEncodeAll_length, bwtColumn_length]
  have hfuel : c.length + 2 + fuel = c.length + (fuel + 1) + 1 := by omega
  rw [hfuel, runUnits_busy h.status, hu]
  obtain ⟨v, hv, hrun, hread⟩ := (h.bwtOpened _ _).runUnits_bwtIdx (fuel := fuel + 1) hb.opened
  rw [hlen] at hv
  rw [hv]
  have hend := unitOfWork_bwtIdx_end hread.phase (show v.regs.cs ≤ v.regs.k from hread.size.le)
  rw [hread.block hc.1, State.emitGo] at hend
  exact hrun.runUnits_emitSeq hend fun hput => hnext hput.bwtClosed (hread.closed c)

/-! ## The chunks -/

/-- The number of units of work that a sequence of chunks takes. -/
def bwtUnits (chunks : List Bytes) : Nat := (chunks.map fun c => c.length + 2).sum

theorem bwtUnits_le (chunks : List Bytes) : bwtUnits chunks ≤ (chunks.flatMap bwtChunkFrame).length := by
  induction chunks with
  | nil => exact Nat.le_refl 0
  | cons c chunks ih =>
    rw [bwtUnits, List.map_cons, List.sum_cons, ← bwtUnits, List.flatMap_cons, List.length_append,
      bwtChunkFrame_length]
    omega

theorem runUnits_bwtChunks {chunks : List Bytes} (hc : ∀ c ∈ chunks, IsChunk c) {t : State} {out : Bytes}
    (h : s.Running t out) (hb : s.BwtBetween t n (chunks.flatMap bwtChunkFrame))
    (hn : (out ++ chunks.flatten).length = n) (hlen : n < 2 ^ 64) (fuel : Nat) :
    s.EndsWithin (out ++ chunks.flatten) (runUnits (bwtUnits chunks + 1 + fuel) t) := by
  induction chunks generalizing t out with
  | nil =>
    have hu := unitOfWork_bwtChunk hb.phase
    rw [List.flatten_nil, List.append_nil] at *
    have heq : t.regs.outCount = t.regs.n := by rw [h.outCount, hn, hb.recorded]
    rw [turn, if_neg (h.of_drop_nil hb.input), bwtDEnd_of_eq heq] at hu
    rw [bwtUnits, List.map_nil, List.sum_nil, Nat.zero_add, Nat.add_comm]
    exact h.runUnits_endOp (hn ▸ hlen) hu fuel
  | cons c chunks ih =>
    obtain ⟨hcc, hrest⟩ := List.forall_mem_cons.1 hc
    rw [List.flatten_cons] at hn ⊢
    rw [bwtUnits, List.map_cons, List.sum_cons, ← bwtUnits, Nat.add_assoc, Nat.add_assoc]
    refine h.runUnits_bwtChunk hb hcc fun hrun hbetween => ?_
    rw [← Nat.add_assoc]
    exact ih hrest hrun hbetween (by rw [List.append_assoc, hn])

end decoder

/-- DECOMPRESS.BWT over the frame of a sequence of chunks. -/
theorem givesWithinCap_decompressBwt {s : State} {chunks : List Bytes} (hf : s.inputFits)
    (hc : ∀ c ∈ chunks, IsChunk c) (hin : s.inputBytes = bwtFrame chunks.flatten.length chunks)
    (hlen : chunks.flatten.length < 2 ^ 64) : GivesWithinCap .decompressBwt s chunks.flatten := by
  have hsize := congrArg List.length hin
  rw [s.inputBytes_length, bwtFrame, List.length_append, u64le_length] at hsize
  have hunits := bwtUnits_le chunks
  have hn : valueLE (s.inputBytes.take 8) = chunks.flatten.length := by
    rw [hin, bwtFrame, List.take_left' (u64le_length _), valueLE_u64le hlen]
  have hbody : s.inputBytes.drop 8 = chunks.flatMap bwtChunkFrame := by
    rw [hin, bwtFrame, List.drop_left' (u64le_length _)]
  obtain ⟨fuel, hfuel⟩ : ∃ fuel, s.fuel = bwtUnits chunks + 1 + fuel :=
    Nat.exists_eq_add_of_le (by rw [State.fuel]; omega)
  refine givesWithinCap_of_operate (i := .decompressBwt) rfl rfl nofun nofun ?_
  rw [operate_decompressBwt hf (by omega), hn, hfuel]
  exact runUnits_bwtChunks hc ((s.start_running .command).bwtDBegin _) ⟨rfl, rfl, hbody⟩ rfl hlen fuel

/-- The result of COMPRESS.BWT (40_commands_contract.md R127 for the empty input). -/
def bwtOutput (x : Bytes) : Bytes := if x = [] then [] else bwtFrame x.length (bwtChunks x)

theorem compressBwt_endsWithin_bwtOutput {s : State} (hf : s.inputFits) (hlt : s.inLen.toNat < 2 ^ 56) :
    s.EndsWithin (bwtOutput s.inputBytes) (operate (beginCompress .bwt) s) := by
  have hn := s.inputBytes_length
  by_cases h0 : s.inLen.toNat = 0
  · rw [bwtOutput, if_pos (List.length_eq_zero_iff.1 (hn.trans h0))]
    exact operate_empty hf h0 (if_pos h0)
  · rw [bwtOutput, if_neg (fun hnil => h0 (by rw [← hn, hnil]; rfl)), hn]
    exact compressBwt_endsWithin hf h0 hlt

/-- Settles O51: each chunk is the walk over its own column. -/
theorem bwtRoundTrip : Obligations.BwtRoundTrip := by
  intro s hf hlt
  refine ⟨bwtOutput s.inputBytes, fun cap hcap => ?_, fun u hu huf hin => ?_⟩
  · have hend := compressBwt_endsWithin_bwtOutput ((s.withOutCap_inputFits cap).2 hf) hlt
    exact ⟨_, exec_of_beginOf rfl _, hend.result hcap⟩
  · have hn := s.inputBytes_length
    rw [← hn] at hu hlt
    generalize s.inputBytes = x at *
    by_cases hx : x = []
    · subst hx
      have hempty : u.inLen.toNat = 0 := by rw [← u.inputBytes_length, hin]; rfl
      exact (givesWithinCap_of_operate (i := .decompressBwt) rfl rfl nofun nofun
        (operate_empty huf hempty (if_pos hempty))).1 hu
    · rw [bwtOutput, if_neg hx] at hin
      have hflat := bwtChunks_flatten x
      have hgives := givesWithinCap_decompressBwt huf (isChunk_of_mem_bwtChunks x) (by rw [hflat]; exact hin)
        (by rw [hflat]; omega)
      rw [hflat] at hgives
      exact hgives.1 hu

end Sys2Proof.Machine
end

section
/-! The container (48_container.md R291, R292): the header and its tests, the loop that copies a payload, and PACK and
UNPACK (O54, O55). -/

namespace Sys2Proof.Machine

/-- A command that ends in ERROR keeps its inputs and the `ARG` registers (60_exceptions.md R320). -/
theorem fails_of_operate {i : Instr} {b : State → Run} {s : State} {k : ErrKind} (hi : beginOf i = some b)
    (hc : i.ctx = .command) (h : (operate b s).Failed k) : Fails i s k :=
  have ⟨hinputs, _, hargs⟩ := operationsKeepTheirInputs s _ i hc (exec_of_beginOf hi s)
  ⟨_, exec_of_beginOf hi s, h, hinputs, hargs (h.status ▸ nofun)⟩

/-- A start of a run that raises. -/
theorem operate_failed {b : State → Run} {s : State} {k : ErrKind} (hf : s.inputFits) (h : b s.start = .error k) :
    (operate b s).Failed k := by
  rw [operate_of_inputFits hf, h, State.settle_error, runUnits_ended (by simp)]
  exact s.start.raise_failed k

/-! ## The header (R99) -/

section header

variable {s : State}

theorem start_inAt (s : State) (i : Nat) : s.start.inAt i = s.inByteAt i := (s.start_running .command).inAt i

theorem algOfId_eq_none {n : Nat} (h : 6 < n) : algOfId n = none := by
  cases ha : algOfId n with
  | none => rfl
  | some a =>
    have hn := algOfId_eq_some ha
    cases a <;> exact absurd (hn ▸ h) (by decide)

theorem readHeader_short (h : s.inLen.toNat < 10) : readHeader s.start = .error .malformedContainer := if_pos h

theorem readHeader_of_le (h : 10 ≤ s.inLen.toNat) :
    readHeader s.start =
      if s.inByteAt 0 ≠ s.params.magic then .error .malformedContainer
      else match algOfId (s.inByteAt 1).toNat with
        | none => .error .unknownAlgorithm
        | some a => .ok (a, s.start.readFields) := by
  have hlen : ¬ s.start.regs.nIn < Config.contHdr := Nat.not_lt.2 h
  rw [readHeader, if_neg hlen, start_inAt, start_inAt]
  rw [State.readFields, start_inAt]
  rfl

theorem readHeader_magic (h : 10 ≤ s.inLen.toNat) (hm : s.inByteAt 0 ≠ s.params.magic) :
    readHeader s.start = .error .malformedContainer := by rw [readHeader_of_le h, if_pos hm]

theorem readHeader_unknown (h : 10 ≤ s.inLen.toNat) (hm : s.inByteAt 0 = s.params.magic)
    (ha : 6 < (s.inByteAt 1).toNat) : readHeader s.start = .error .unknownAlgorithm := by
  rw [readHeader_of_le h, if_neg (not_not.2 hm), algOfId_eq_none ha]

theorem readHeader_ok (h : 10 ≤ s.inLen.toNat) (hm : s.inByteAt 0 = s.params.magic) {a : Alg}
    (ha : (s.inByteAt 1).toNat = algId a) : readHeader s.start = .ok (a, s.start.readFields) := by
  rw [readHeader_of_le h, if_neg (not_not.2 hm), ha, algOfId_algId]

theorem rdU64_start_two (h : 10 ≤ s.inLen.toNat) : s.start.rdU64 2 = valueLE ((s.inputBytes.drop 2).take 8) :=
  congrArg valueLE ((s.start_running .command).inSlice (a := 2) (by omega))

/-- A command that begins with the tests of the header fails with the kind of the first that fails. -/
theorem fails_of_readHeader {i : Instr} {f : Alg × State → Run} {k : ErrKind}
    (hi : beginOf i = some fun s => readHeader s >>= f) (hc : i.ctx = .command) (hf : s.inputFits)
    (h : readHeader s.start = .error k) : Fails i s k := by
  refine fails_of_operate hi hc (operate_failed hf ?_)
  rw [h]
  rfl

end header

/-! ## The copy of a payload (R291, R292) -/

/-- `t` is the engine in a loop that copies the input of `s`, with `xs` still to copy. -/
structure State.Copies (s t : State) (xs : Bytes) : Prop where
  status : t.status = .busy
  phase : t.phase = .pack ∨ t.phase = .unpack
  inputs : s.KeepsInputs t
  inBase : t.regs.inBase = 0
  nIn : t.regs.nIn = s.inLen.toNat
  input : s.inputBytes.drop t.regs.ip = xs

/-- The state after the copy of `xs`. -/
def State.copied (t : State) (xs : Bytes) : State :=
  { t.putAll xs with regs := { (t.putAll xs).regs with ip := t.regs.ip + xs.length } }

theorem State.copied_cons (t : State) (b : Byte) (xs : Bytes) : t.copied (b :: xs) = (t.copied [b]).copied xs := by
  simp [State.copied, State.putAll, Memory.writeAll, Nat.add_assoc, Nat.add_comm 1]

theorem State.copied_keepsInputs (t : State) (xs : Bytes) : t.KeepsInputs (t.copied xs) := t.keepsInputs_engine

theorem copyUnit_eq (t : State) : copyUnit t = t.emitGo [t.inAt t.regs.ip] fun u =>
    { u with regs := { u.regs with ip := u.regs.ip + 1 } } := by
  rw [State.emitGo, State.emitSeq_singleton]
  rfl

theorem State.room_copied {t : State} (b : Byte) {n : Nat} (h : t.room 1) : (t.copied [b]).room n ↔ t.room (n + 1) := by
  have hbase : (t.copied [b]).regs.outBase + (t.copied [b]).regs.outCount = t.regs.outBase + t.regs.outCount + 1 := rfl
  have hcap : (t.copied [b]).params.outCap = t.params.outCap := rfl
  simp only [State.room, hbase, hcap] at *
  constructor
  · rintro (rfl | hn)
    · exact h
    · exact .inr fun c hc => by have := hn c hc; omega
  · rintro (h0 | hn)
    · omega
    · exact .inr fun c hc => by have := hn c hc; omega

section copy

variable {s t : State} {b : Byte} {xs : Bytes} {fuel : Nat}

theorem unitOfWork_copy (hp : t.phase = .pack ∨ t.phase = .unpack) :
    unitOfWork t = t.settle (turn t copyUnit State.endOp) := by
  obtain hp | hp := hp
  · simp [unitOfWork, State.nextToken, State.fetchBytes, advance, hp]
  · simp [unitOfWork, State.nextToken, State.fetchBytes, advance, hp]

/-- The next byte to copy. -/
theorem State.Copies.unit (h : s.Copies t (b :: xs)) :
    unitOfWork t = t.settle (t.emitGo [b] fun u => { u with regs := { u.regs with ip := u.regs.ip + 1 } }) := by
  have hip : t.regs.ip < s.inLen.toNat := by
    by_contra hle
    have hnil := h.input
    rw [List.drop_of_length_le (by simpa using hle)] at hnil
    cases hnil
  obtain ⟨hb, -⟩ := List.cons.inj ((s.inputBytes_drop_of_lt hip).symm.trans h.input)
  have hat : t.inAt t.regs.ip = b := by rw [State.inAt, h.inBase, Nat.zero_add, h.inputs.inByteAt, hb]
  rw [unitOfWork_copy h.phase, turn, if_pos (h.nIn ▸ hip), copyUnit_eq, hat]

theorem State.Copies.next (h : s.Copies t (b :: xs)) : s.Copies (t.copied [b]) xs where
  status := h.status
  phase := h.phase
  inputs := h.inputs.trans (t.copied_keepsInputs [b])
  inBase := h.inBase
  nIn := h.nIn
  input := drop_of_drop_append (as := [b]) h.input

/-- With room for the payload, it is copied. -/
theorem State.Copies.runUnits_copied (h : s.Copies t xs) (hroom : t.room xs.length) :
    runUnits (xs.length + fuel) t = runUnits fuel (t.copied xs) ∧ s.Copies (t.copied xs) [] := by
  induction xs generalizing t with
  | nil => exact ⟨by rw [List.length_nil, Nat.zero_add]; rfl, h⟩
  | cons b xs ih =>
    have h1 : t.room 1 := .inr fun c hc => by
      have := hroom.resolve_left (by simp) c hc
      rw [List.length_cons] at this
      omega
    rw [List.length_cons, Nat.add_right_comm, runUnits_busy h.status, h.unit, State.emitGo_of_room (bs := [b]) h1,
      State.settle_ok, t.copied_cons]
    exact ih h.next ((t.room_copied b h1).2 hroom)

/-- Without, the copy fails. -/
theorem State.Copies.runUnits_failed (h : s.Copies t xs) (hroom : ¬ t.room xs.length) :
    (runUnits (xs.length + fuel) t).Failed .capacityExceeded := by
  induction xs generalizing t with
  | nil => exact absurd (.inl rfl) hroom
  | cons b xs ih =>
    rw [List.length_cons, Nat.add_right_comm, runUnits_busy h.status, h.unit]
    by_cases h1 : t.room 1
    · rw [State.emitGo_of_room (bs := [b]) h1, State.settle_ok]
      exact ih h.next (mt (t.room_copied b h1).1 hroom)
    · rw [State.emitGo_of_no_room (bs := [b]) h1, State.settle_error, runUnits_ended (by simp)]
      exact t.raise_failed _

/-- The end of the loop. -/
theorem State.Copies.unit_end (h : s.Copies t []) : unitOfWork t = t.settle t.endOp := by
  have hend : ¬ t.regs.ip < t.regs.nIn := by simpa [h.nIn] using List.drop_eq_nil_iff.1 h.input
  rw [unitOfWork_copy h.phase, turn, if_neg hend]

end copy

/-! ## PACK -/

section pack

variable {s t : State} {out : Bytes} {fuel : Nat}

theorem State.Running.copied (h : s.Running t out) {xs : Bytes} (hf : s.outHolds (out ++ xs).length) :
    s.Running (t.copied xs) (out ++ xs) :=
  { h.putAll hf with inputs := h.inputs.trans (t.copied_keepsInputs xs) }

theorem State.Running.runUnits_pack (h : s.Running t out) (hp : t.phase = .pack) (hip : t.regs.ip = 0)
    (hlen : (out ++ s.inputBytes).length < 2 ^ 64) :
    s.EndsWithin (out ++ s.inputBytes) (runUnits (s.inputBytes.length + (fuel + 1)) t) := by
  have hbase : t.regs.inBase = 0 := congrArg Source.inBase h.source
  have hcopies : s.Copies t s.inputBytes := ⟨h.status, .inl hp, h.inputs, hbase, h.nIn, by rw [hip]; rfl⟩
  by_cases hroom : t.room s.inputBytes.length
  · obtain ⟨hrun, hend⟩ := hcopies.runUnits_copied (fuel := fuel + 1) hroom
    rw [hrun]
    exact (h.copied ((h.room_iff _).1 hroom)).runUnits_endOp hlen hend.unit_end fuel
  · exact ⟨fun hy => absurd ((h.room_iff _).2 hy) hroom, fun _ => hcopies.runUnits_failed hroom⟩

theorem pack_endsWithin (hf : s.inputFits) (ha : s.argAlg.toNat ≤ 6) (hlt : s.inLen.toNat < 2 ^ 63) :
    s.EndsWithin (containerHeader s.params.magic s.argAlg s.argSize.toNat ++ s.inputBytes) (operate beginPack s) := by
  have hbegin : beginPack s.start =
      s.start.emitSeq (containerHeader s.params.magic s.argAlg s.argSize.toNat) >>= fun t => .ok (t.goTo .pack) :=
    if_neg (Nat.not_lt.2 ha)
  obtain ⟨fuel, hfuel⟩ : ∃ fuel, s.fuel = s.inputBytes.length + (fuel + 1) :=
    ⟨15 * s.inLen.toNat + 15, by rw [State.fuel, s.inputBytes_length]; omega⟩
  rw [operate_of_inputFits hf, hbegin, hfuel]
  refine (s.start_running .command).settle_emitSeq
    (bs := containerHeader s.params.magic s.argAlg s.argSize.toNat) fun hheader => ?_
  have hgo : s.Running ((s.start.putAll (containerHeader s.params.magic s.argAlg s.argSize.toNat)).goTo .pack) _ :=
    { hheader with inputs := hheader.inputs.trans (State.keepsInputs_engine _) }
  refine hgo.runUnits_pack rfl rfl ?_
  rw [List.nil_append, List.length_append, containerHeader_length, s.inputBytes_length]
  omega

end pack

/-- Settles O54: the header, and then the copy of the input. -/
theorem packWritesTheHeader : Obligations.PackWritesTheHeader := by
  intro s hf
  refine ⟨fun ha hlt => ?_, fun ha => fails_of_begin (i := .pack) rfl rfl nofun nofun hf (if_pos ha)⟩
  exact givesWithinCap_of_operate (i := .pack) rfl rfl nofun nofun (pack_endsWithin hf ha hlt)

/-! ## UNPACK -/

section unpack

variable {s : State}

/-- The engine before the loop of UNPACK. -/
def State.unpacking (s : State) : State :=
  { s.start.readFields with regs := { s.start.readFields.regs with ip := 10, ending := .unpack }, phase := .unpack }

theorem State.unpacking_copies (s : State) : s.Copies s.unpacking (s.inputBytes.drop 10) :=
  ⟨rfl, .inr rfl, s.keepsInputs_engine, rfl, rfl, rfl⟩

theorem State.unpacking_room (s : State) (n : Nat) : s.unpacking.room n ↔ s.outHolds n :=
  s.unpacking.room_iff_outHolds n rfl rfl

theorem operate_beginUnpack (hf : s.inputFits) (h : 10 ≤ s.inLen.toNat) (hm : s.inByteAt 0 = s.params.magic)
    (ha : (s.inByteAt 1).toNat ≤ 6) : operate beginUnpack s = runUnits s.fuel s.unpacking := by
  obtain ⟨a, ha⟩ := exists_algId_eq ha
  have hbegin : beginUnpack s.start = .ok s.unpacking := by
    rw [beginUnpack, readHeader_ok h hm ha.symm]
    rfl
  rw [operate_of_inputFits hf, hbegin, State.settle_ok]

/-- The end of UNPACK. -/
theorem State.unpacking_finishArgs_result (s : State) {xs : Bytes} (hlen : xs.length < 2 ^ 64) :
    (s.unpacking.copied xs).finishArgs.Result xs where
  status := rfl
  err := rfl
  outLen := by
    show (BitVec.ofNat 64 (0 + (0 + xs.length))).toNat = xs.length
    rw [Nat.zero_add, Nat.zero_add, BitVec.toNat_ofNat, Nat.mod_eq_of_lt hlen]
  out k hk := by
    have hnew := (s.unpacking.putAll_appends xs).new k hk
    have hzero : s.unpacking.regs.outBase + s.unpacking.regs.outCount = 0 := rfl
    rwa [hzero, Nat.zero_add] at hnew

/-- The recorded size in `ARG_SIZE`. -/
theorem State.unpacking_argSize (s : State) (h : 10 ≤ s.inLen.toNat) (xs : Bytes) :
    (s.unpacking.copied xs).finishArgs.argSize.toNat = valueLE ((s.inputBytes.drop 2).take 8) := by
  have hfits : valueLE ((s.inputBytes.drop 2).take 8) < 256 ^ 8 :=
    (valueLE_lt _).trans_le (Nat.pow_le_pow_right (by decide) (List.length_take_le 8 _))
  show (BitVec.ofNat 64 (s.start.rdU64 2)).toNat = _
  rw [rdU64_start_two h, BitVec.toNat_ofNat, Nat.mod_eq_of_lt (by omega)]

theorem unpack_gives (hf : s.inputFits) (h : 10 ≤ s.inLen.toNat) (hm : s.inByteAt 0 = s.params.magic)
    (ha : (s.inByteAt 1).toNat ≤ 6) (hroom : s.outHolds (s.inLen.toNat - 10)) :
    ∃ t, exec .unpack s = .next t ∧ t.Result (s.inputBytes.drop 10) ∧ t.argAlg = s.inByteAt 1 ∧
      t.argSize.toNat = valueLE ((s.inputBytes.drop 2).take 8) ∧ s.KeepsInputs t := by
  have hlen : (s.inputBytes.drop 10).length = s.inLen.toNat - 10 := by rw [List.length_drop, s.inputBytes_length]
  obtain ⟨fuel, hfuel⟩ : ∃ fuel, s.fuel = (s.inputBytes.drop 10).length + (fuel + 1) :=
    ⟨15 * s.inLen.toNat + 25, by rw [State.fuel, hlen]; omega⟩
  obtain ⟨hrun, hend⟩ := s.unpacking_copies.runUnits_copied (fuel := fuel + 1) ((s.unpacking_room _).2 (hlen ▸ hroom))
  have hinputs := (operationsKeepTheirInputs s _ .unpack rfl (exec_of_beginOf rfl s)).1
  refine ⟨_, exec_of_beginOf rfl s, ?_⟩
  have hok : (s.unpacking.copied (s.inputBytes.drop 10)).endOp =
    .ok (s.unpacking.copied (s.inputBytes.drop 10)).finishArgs := rfl
  rw [operate_beginUnpack hf h hm ha, hfuel, hrun, runUnits_busy hend.status, hend.unit_end, hok, State.settle_ok,
    runUnits_ended (by simp [State.finishArgs])] at hinputs ⊢
  have hfits := s.inLen.isLt
  exact ⟨s.unpacking_finishArgs_result (by omega), start_inAt s 1, s.unpacking_argSize h _, hinputs⟩

theorem unpack_fails (hf : s.inputFits) (h : 10 ≤ s.inLen.toNat) (hm : s.inByteAt 0 = s.params.magic)
    (ha : (s.inByteAt 1).toNat ≤ 6) (hroom : ¬ s.outHolds (s.inLen.toNat - 10)) :
    Fails .unpack s .capacityExceeded := by
  have hlen : (s.inputBytes.drop 10).length = s.inLen.toNat - 10 := by rw [List.length_drop, s.inputBytes_length]
  obtain ⟨fuel, hfuel⟩ : ∃ fuel, s.fuel = (s.inputBytes.drop 10).length + fuel :=
    ⟨15 * s.inLen.toNat + 26, by rw [State.fuel, hlen]; omega⟩
  refine fails_of_operate (i := .unpack) rfl rfl ?_
  rw [operate_beginUnpack hf h hm ha, hfuel]
  exact s.unpacking_copies.runUnits_failed (mt (s.unpacking_room _).1 (hlen ▸ hroom))

end unpack

/-- Settles O55: the tests of the header, and then the copy of the payload. -/
theorem unpackParsesTheHeader : Obligations.UnpackParsesTheHeader := fun _ hf =>
  ⟨fun h => fails_of_readHeader (i := .unpack) rfl rfl hf (readHeader_short h),
    fun h hm => fails_of_readHeader (i := .unpack) rfl rfl hf (readHeader_magic h hm),
    fun h hm ha => fails_of_readHeader (i := .unpack) rfl rfl hf (readHeader_unknown h hm ha),
    fun h hm ha => ⟨unpack_gives hf h hm ha, unpack_fails hf h hm ha⟩⟩

end Sys2Proof.Machine
end

section
/-! The kinds an operation can fail with (60_exceptions.md R313, O18): which kinds each piece of an operation raises, which
kinds belong to each place of an operation, and that a run stays within the kinds of its command. -/

namespace Sys2Proof.Machine

/-! ## The kinds of a piece -/

/-- Every raise of `r` is of one of the kinds `ks`. -/
def Raises {α : Type} (r : Except ErrKind α) (ks : List ErrKind) : Prop := ∀ k, r = .error k → k ∈ ks

section raises

variable {α β : Type} {r : Except ErrKind α} {ks ks' : List ErrKind} {k : ErrKind}

theorem raises_ok {a : α} : Raises (.ok a) ks := nofun

theorem raises_error : Raises (.error k : Except ErrKind α) ks ↔ k ∈ ks :=
  ⟨fun h => h k rfl, fun h _ e => Except.error.inj e ▸ h⟩

theorem Raises.mono (h : Raises r ks) (hks : ks ⊆ ks') : Raises r ks' := fun k e => hks (h k e)

theorem Raises.ite {c : Prop} [Decidable c] {r' : Except ErrKind α} (h : Raises r ks) (h' : Raises r' ks) :
    Raises (if c then r else r') ks := by
  split
  · exact h
  · exact h'

/-- A test that raises. -/
theorem Raises.guard {c : Prop} [Decidable c] (hk : k ∈ ks) (h : Raises r ks) :
    Raises (if c then .error k else r) ks := .ite (raises_error.2 hk) h

theorem Raises.bind {f : α → Except ErrKind β} (h : Raises r ks) (hf : ∀ a, Raises (f a) ks) : Raises (r >>= f) ks := by
  cases r with
  | ok a => exact hf a
  | error k => exact raises_error.2 (raises_error.1 h)

end raises

/-! ## Output -/

theorem State.emit_raises (s : State) (b : Byte) : Raises (s.emit b) [.capacityExceeded] := fun _ h =>
  List.mem_singleton.2 (State.emit_error h)

theorem State.emitSeq_raises (s : State) (bs : Bytes) : Raises (s.emitSeq bs) [.capacityExceeded] := fun _ h =>
  List.mem_singleton.2 (State.emitSeq_error h)

theorem State.copyHistory_raises (s : State) (off len : Nat) : Raises (s.copyHistory off len) [.capacityExceeded] := by
  induction len generalizing s with
  | zero => exact raises_ok
  | succ len ih => exact (s.emit_raises _).bind fun t => ih t

theorem packDrain_raises (more : Nat) (s : State) : Raises (packDrain more s) [.capacityExceeded] := by
  induction more generalizing s with
  | zero => exact raises_ok
  | succ more ih => exact (s.emit_raises _).bind fun t => ih _

theorem putCode_raises (c : Nat) (s : State) : Raises (putCode c s) [.capacityExceeded] :=
  (packDrain_raises _ _).bind fun _ => raises_ok

theorem flushBits_raises (s : State) : Raises (flushBits s) [.capacityExceeded] :=
  .ite ((s.emit_raises _).bind fun _ => raises_ok) raises_ok

theorem putBit_raises (b : Bool) (s : State) : Raises (putBit b s) [.capacityExceeded] :=
  .ite ((s.emit_raises _).bind fun _ => raises_ok) raises_ok

theorem putBits_raises (bs : List Bool) (s : State) : Raises (putBits bs s) [.capacityExceeded] := by
  induction bs generalizing s with
  | nil => exact raises_ok
  | cons b bs ih => exact (putBit_raises b s).bind ih

/-! ## The compressors raise nothing but CapacityExceeded (R125) -/

theorem rleUnit_raises (s : State) : Raises (rleUnit s) [.capacityExceeded] :=
  (s.emitSeq_raises _).bind fun _ => raises_ok

theorem deltaUnit_raises (s : State) : Raises (deltaUnit s) [.capacityExceeded] :=
  (s.emitSeq_raises _).bind fun _ => raises_ok

theorem lz77Unit_raises (s : State) : Raises (lz77Unit s) [.capacityExceeded] :=
  (s.emitSeq_raises _).bind fun _ => raises_ok

theorem lzssUnit_raises (s : State) : Raises (lzssUnit s) [.capacityExceeded] := raises_ok

theorem lzssCEnd_raises (s : State) : Raises (lzssCEnd s) [.capacityExceeded] :=
  .guard (by simp) ((s.emitSeq_raises _).bind fun _ => raises_ok)

theorem lzwUnit_raises (s : State) : Raises (lzwUnit s) [.capacityExceeded] := by
  unfold lzwUnit
  dsimp only
  split
  · exact raises_ok
  · exact (putCode_raises _ s).bind fun _ => raises_ok

theorem lzwCEnd_raises (s : State) : Raises (lzwCEnd s) [.capacityExceeded] :=
  (putCode_raises _ s).bind fun t => (flushBits_raises t).bind fun _ => raises_ok

theorem hufUnit_raises (s : State) : Raises (hufUnit s) [.capacityExceeded] :=
  (putBits_raises _ s).bind fun _ => raises_ok

theorem hufCEnd_raises (s : State) : Raises (hufCEnd s) [.capacityExceeded] :=
  (flushBits_raises s).bind fun _ => raises_ok

theorem bwtUnit_raises (s : State) : Raises (bwtUnit s) [.capacityExceeded] :=
  (s.emitSeq_raises _).bind fun _ => raises_ok

theorem copyUnit_raises (s : State) : Raises (copyUnit s) [.capacityExceeded] :=
  (s.emit_raises _).bind fun _ => raises_ok

theorem beginCompress_raises (a : Alg) (s : State) : Raises (beginCompress a s) [.capacityExceeded] := by
  refine .ite raises_ok ?_
  cases a with
  | rle | lz77 | lzss => exact raises_ok
  | huffman => exact (State.emitSeq_raises _ _).bind fun _ => raises_ok
  | lzw => exact (State.emitSeq_raises _ _).bind fun _ => raises_ok
  | delta => exact (s.emitSeq_raises _).bind fun t => (t.emitSeq_raises _).bind fun _ => raises_ok
  | bwt => exact (s.emitSeq_raises _).bind fun _ => raises_ok

/-! ## The decompressors (R126) -/

/-- The kinds of a token and of the work between tokens. -/
def payloadKinds : List ErrKind := [.corruptPayload, .capacityExceeded]

/-- The kinds of a decompressor that tests a size. -/
def sizedKinds : List ErrKind := [.corruptPayload, .sizeMismatch, .capacityExceeded]

theorem full_subset_payloadKinds : [.capacityExceeded] ⊆ payloadKinds := by decide

theorem payloadKinds_subset_sizedKinds : payloadKinds ⊆ sizedKinds := by decide

theorem Raises.payload {α : Type} {r : Except ErrKind α} (h : Raises r [.capacityExceeded]) : Raises r payloadKinds :=
  h.mono full_subset_payloadKinds

theorem Raises.sized {α : Type} {r : Except ErrKind α} (h : Raises r payloadKinds) : Raises r sizedKinds :=
  h.mono payloadKinds_subset_sizedKinds

theorem lz77Match_raises (len : BitVec 7) (off : BitVec 16) (s : State) : Raises (lz77Match len off s) payloadKinds :=
  .guard (by decide) ((s.copyHistory_raises _ _).bind fun _ => raises_ok).payload

theorem lzssMatch_raises (off : BitVec 12) (len : BitVec 4) (s : State) : Raises (lzssMatch off len s) payloadKinds :=
  .guard (by decide) ((s.copyHistory_raises _ _).bind fun _ => raises_ok).payload

theorem lzwCode_raises (c : BitVec 12) (s : State) : Raises (lzwCode c s) payloadKinds := by
  unfold lzwCode
  split
  · exact raises_error.2 (by decide)
  · exact ((State.emitSeq_raises _ _).bind fun _ => raises_ok).payload

theorem hufBit_raises (dir : BitVec 1) (s : State) : Raises (hufBit dir s) payloadKinds := by
  unfold hufBit
  split
  · split
    · exact raises_error.2 (by decide)
    · split
      · exact ((s.emit_raises _).bind fun _ => raises_ok).payload
      · exact raises_ok
  · exact raises_error.2 (by decide)

theorem tokenEffect_raises (i : Instr) (s : State) : Raises (tokenEffect i s) payloadKinds := by
  have emits {r : Run} {g : State → State} (h : Raises r [.capacityExceeded]) :
      Raises (r >>= fun t => .ok (g t)) payloadKinds := (h.bind fun _ => raises_ok).payload
  cases i with
  | rlePair count value => exact emits (s.emitSeq_raises _)
  | deltaFirst b | deltaDiff d | lz77Lit b | lzssLit b => exact emits (s.emit_raises _)
  | lz77Match len off => exact lz77Match_raises len off s
  | lzssMatch off len => exact lzssMatch_raises off len s
  | lzwCode c => exact lzwCode_raises c s
  | hufBit dir => exact hufBit_raises dir s
  | hufInt | hufLeaf _ | hufNull | mtfIdx _ => exact raises_ok
  | _ => exact raises_error.2 (by decide)

theorem hufTreeEnd_raises (s : State) : Raises (hufTreeEnd s) payloadKinds :=
  .guard (by decide) (.guard (by decide) raises_ok)

theorem bwtHeader_raises (s : State) : Raises (bwtHeader s) payloadKinds :=
  .guard (by decide) (.guard (by decide) (.guard (by decide) (.guard (by decide) raises_ok)))

theorem bwtChunkEnd_raises (s : State) : Raises (bwtChunkEnd s) payloadKinds :=
  ((State.emitSeq_raises _ _).bind fun _ => raises_ok).payload

/-- The kinds of an algorithm's decompressor. -/
def decoderKinds : Alg → List ErrKind
  | .rle | .lz77 => payloadKinds
  | _ => sizedKinds

theorem beginDecompress_raises (a : Alg) (s : State) : Raises (beginDecompress a s) (decoderKinds a) := by
  refine .ite raises_ok ?_
  cases a with
  | rle => exact .guard (by decide) raises_ok
  | lz77 => exact raises_ok
  | huffman => exact .guard (by decide) (.guard (by decide) (.guard (by decide) raises_ok))
  | lzw => exact .guard (by decide) raises_ok
  | lzss => exact .guard (by decide) (.guard (by decide) raises_ok)
  | delta => exact .guard (by decide) (.guard (by decide) (.guard (by decide) raises_ok))
  | bwt => exact .guard (by decide) raises_ok

/-! ## What the decoder refuses -/

/-- Where a token is fetched, every refusal is a CorruptPayload (30_encoding.md R101). -/
theorem decode_token_rejects {c : Ctx} (hc : c ≠ .command) {bs : Bytes} {x : Reject} (h : decode c bs = .error x) :
    rejectKind x = .corruptPayload := by
  unfold decode at h
  split at h
  case h_1 => exact absurd rfl hc
  case h_5 =>
    unfold decodeLz77 at h
    repeat' split at h
    all_goals cases h
    all_goals rfl
  case h_9 =>
    unfold decodeHufTree at h
    repeat' split at h
    all_goals cases h
    all_goals rfl
  all_goals repeat' split at h
  all_goals cases h
  all_goals rfl

/-- The place of a fetched token is that of a codec. -/
theorem fetchBytes_ctx {s : State} {c : Ctx} {bs : Bytes} (h : s.fetchBytes = some (.ok (c, bs))) : c ≠ .command := by
  rintro rfl
  unfold State.fetchBytes at h
  dsimp only at h
  repeat' split at h
  all_goals simp at h

theorem fetchBytes_rejects {s : State} {x : Reject} (h : s.fetchBytes = some (.error x)) : x = .outOfFlags := by
  unfold State.fetchBytes at h
  dsimp only at h
  repeat' split at h
  all_goals simp at h
  exact h.symm

theorem nextToken_rejects {s : State} {x : Reject} (h : s.nextToken = some (.error x)) :
    rejectKind x = .corruptPayload := by
  unfold State.nextToken at h
  cases hf : s.fetchBytes with
  | none => rw [hf] at h; cases h
  | some r =>
    rw [hf] at h
    cases r with
    | error y =>
      obtain rfl := Except.error.inj (Option.some.inj h)
      rw [fetchBytes_rejects hf]
      rfl
    | ok cb => exact decode_token_rejects (fetchBytes_ctx hf) (Option.some.inj h)

/-! ## The kinds of a place -/

/-- The kinds that can be raised from a place of an operation on. -/
def Phase.kinds : Phase → List ErrKind
  | .rleD | .lz77D => payloadKinds
  | .deltaD | .lzssD | .lzwD | .hufTree | .hufBits | .bwtChunk | .bwtIdx => sizedKinds
  | _ => [.capacityExceeded]

theorem Phase.full_mem_kinds (p : Phase) : .capacityExceeded ∈ p.kinds := by cases p <;> decide

/-- Where tokens are fetched, a token's kinds can be raised. -/
theorem payloadKinds_subset_of_nextToken {s : State} {x : Except Reject Instr} (h : s.nextToken = some x) :
    payloadKinds ⊆ s.phase.kinds := by
  unfold State.nextToken State.fetchBytes at h
  cases hp : s.phase with
  | rleD | lz77D | deltaD | lzssD | lzwD | hufTree | hufBits | bwtChunk | bwtIdx => decide
  | _ =>
    rw [hp] at h
    cases h

/-- `s` is inside an operation that can raise no kinds but `ks`. -/
structure State.Within (ks : List ErrKind) (s : State) : Prop where
  runs : s.Runs
  kinds : s.phase.kinds ⊆ ks
  decode : s.regs.ending = .decode → .sizeMismatch ∈ ks

/-- `s` is inside such an operation, or at its end. -/
def State.ReachedWithin (ks : List ErrKind) (s : State) : Prop :=
  s.Within ks ∨ s.status = .done ∨ ∃ k ∈ ks, s.Failed k

section within

variable {ks : List ErrKind} {f : Frame} {s : State} {r : Run}

theorem State.Work.within (h : s.Work f) (hf : f.Begun) (hk : f.phase.kinds ⊆ ks)
    (hd : f.source.ending = .decode → .sizeMismatch ∈ ks) : s.Within ks := by
  obtain rfl := h.frame
  exact ⟨⟨_, hf, h⟩, hk, hd⟩

theorem State.Goes.within (h : s.Goes f) (hk : s.phase.kinds ⊆ ks)
    (hd : f.source.ending = .decode → .sizeMismatch ∈ ks) : s.Within ks := by
  obtain ⟨g, hn, hw⟩ := h
  refine hw.within hn.begun ?_ (hn.source ▸ hd)
  obtain rfl := hw.frame
  exact hk

/-- What a piece leaves of the operation in whose kinds it keeps. -/
theorem State.settle_reachedWithin (ha : Answers r fun t => t.Within ks ∨ t.status = .done) (hr : Raises r ks) :
    (s.settle r).ReachedWithin ks := by
  cases r with
  | ok t => exact (answers_ok.1 ha).imp_right .inl
  | error k => exact .inr (.inr ⟨k, raises_error.1 hr, s.raise_failed k⟩)

theorem endOp_answers_done (s : State) : Answers s.endOp fun t => t.status = .done := by
  unfold State.endOp
  split
  · exact answers_ok.2 rfl
  · exact answers_ok.2 rfl
  · exact answers_guard (answers_ok.2 rfl)

theorem endOp_raises (hd : s.regs.ending = .decode → .sizeMismatch ∈ ks) : Raises s.endOp ks := by
  unfold State.endOp
  split
  · exact raises_ok
  · exact raises_ok
  · next he => exact .guard (hd he) raises_ok

/-! ## A unit of work -/

/-- A piece keeps within the kinds of the operation. -/
def Keeps (ks : List ErrKind) (r : Run) : Prop := Answers r (fun t => t.Within ks ∨ t.status = .done) ∧ Raises r ks

theorem Keeps.guard {c : Prop} [Decidable c] {k : ErrKind} (hk : k ∈ ks) (h : Keeps ks r) :
    Keeps ks (if c then .error k else r) := ⟨answers_guard h.1, .guard hk h.2⟩

theorem Keeps.turn {unit after : State → Run} (hu : Keeps ks (unit s)) (ha : Keeps ks (after s)) :
    Keeps ks (turn s unit after) := by
  unfold Machine.turn
  split
  · exact hu
  · exact ha

/-- A piece that stays at its place and emits. -/
theorem Keeps.stays (hs : Sound r (State.Work f)) (hf : f.Begun) (hk : f.phase.kinds ⊆ ks)
    (hd : f.source.ending = .decode → .sizeMismatch ∈ ks) (hr : Raises r [.capacityExceeded]) : Keeps ks r :=
  ⟨hs.answers.imp fun _ ht => .inl (ht.within hf hk hd),
    hr.mono (List.cons_subset.2 ⟨hk f.phase.full_mem_kinds, List.nil_subset _⟩)⟩

/-- A piece that goes on to the place `p`. -/
theorem Keeps.goes {p : Phase} (hs : Sound r (State.Goes f)) (hp : Answers r fun t => t.phase = p) (hpk : p.kinds ⊆ ks)
    (hd : f.source.ending = .decode → .sizeMismatch ∈ ks) (hr : Raises r ks) : Keeps ks r :=
  ⟨(hs.and hp).answers.imp fun _ ht => .inl (ht.1.within (ht.2 ▸ hpk) hd), hr⟩

theorem Keeps.endOp (hd : s.regs.ending = .decode → .sizeMismatch ∈ ks) : Keeps ks s.endOp :=
  ⟨(endOp_answers_done s).imp fun _ => .inr, endOp_raises hd⟩

/-- A piece whose last statement answers a state at the place `p`. -/
theorem answers_phase {r : Run} {g : State → State} {p : Phase} (hg : ∀ t, (g t).phase = p) :
    Answers (r >>= fun t => .ok (g t)) fun t => t.phase = p :=
  Answers.bind (P := fun _ => True) (fun _ _ => trivial) fun t _ => answers_ok.2 (hg t)

theorem lzssCEnd_phase (s : State) : Answers (lzssCEnd s) fun t => t.phase = .finished :=
  answers_guard (answers_phase fun _ => rfl)

theorem lzwCEnd_phase (s : State) : Answers (lzwCEnd s) fun t => t.phase = .finished :=
  Answers.bind (P := fun _ => True) (fun _ _ => trivial) fun _ _ => answers_phase fun _ => rfl

theorem hufCEnd_phase (s : State) : Answers (hufCEnd s) fun t => t.phase = .finished := answers_phase fun _ => rfl

theorem hufTreeEnd_phase (s : State) : Answers (hufTreeEnd s) fun t => t.phase = .hufBits :=
  answers_guard (answers_guard (answers_ok.2 rfl))

theorem bwtHeader_phase (s : State) : Answers (bwtHeader s) fun t => t.phase = .bwtIdx :=
  answers_guard (answers_guard (answers_guard (answers_guard (answers_ok.2 rfl))))

theorem bwtChunkEnd_phase (s : State) : Answers (bwtChunkEnd s) fun t => t.phase = .bwtChunk :=
  answers_phase fun _ => rfl

/-- The work between tokens keeps within the kinds of its place. -/
theorem advance_keeps (hf : f.Begun) (h : s.Work f) (hk : f.phase.kinds ⊆ ks)
    (hd : f.source.ending = .decode → .sizeMismatch ∈ ks) : Keeps ks (advance s) := by
  obtain rfl := h.frame
  have stays {r : Run} (hs : Sound r (State.Work s.frame)) (hr : Raises r [.capacityExceeded]) : Keeps ks r :=
    .stays hs hf hk hd hr
  have hend : Keeps ks s.endOp := .endOp hd
  have hcap : [.capacityExceeded] ⊆ ks := List.cons_subset.2 ⟨hk s.phase.full_mem_kinds, List.nil_subset _⟩
  obtain ⟨hoff, hcmd⟩ := hf
  have hk : s.phase.kinds ⊆ ks := hk
  unfold advance
  cases hp : s.phase with rw [hp] at hk
  | off => exact absurd hp hoff
  | command => exact absurd hp hcmd
  | finished | rleD | deltaD | lz77D => exact hend
  | rleC => exact (stays (rleUnit_work h) (rleUnit_raises s)).turn hend
  | deltaC => exact (stays (deltaUnit_work h) (deltaUnit_raises s)).turn hend
  | lz77C => exact (stays (lz77Unit_work h) (lz77Unit_raises s)).turn hend
  | bwtC => exact (stays (bwtUnit_work h) (bwtUnit_raises s)).turn hend
  | pack | unpack => exact (stays (copyUnit_work h) (copyUnit_raises s)).turn hend
  | lzssC =>
    exact (stays (lzssUnit_work h) (lzssUnit_raises s)).turn
      (.goes (lzssCEnd_goes h) (lzssCEnd_phase s) hcap hd ((lzssCEnd_raises s).mono hcap))
  | lzwC =>
    exact (stays (lzwUnit_work h) (lzwUnit_raises s)).turn
      (.goes (lzwCEnd_goes h) (lzwCEnd_phase s) hcap hd ((lzwCEnd_raises s).mono hcap))
  | hufC =>
    exact (stays (hufUnit_work h) (hufUnit_raises s)).turn
      (.goes (hufCEnd_goes h) (hufCEnd_phase s) hcap hd ((hufCEnd_raises s).mono hcap))
  | lzssD | lzwD | hufBits => exact hend.guard (hk (by decide))
  | hufTree => exact .goes (hufTreeEnd_goes h) (hufTreeEnd_phase s) hk hd ((hufTreeEnd_raises s).sized.mono hk)
  | bwtChunk =>
    exact (Keeps.goes (bwtHeader_goes h) (bwtHeader_phase s) hk hd ((bwtHeader_raises s).sized.mono hk)).turn
      (hend.guard (hk (by decide)))
  | bwtIdx => exact .goes (bwtChunkEnd_goes h) (bwtChunkEnd_phase s) hk hd ((bwtChunkEnd_raises s).sized.mono hk)

theorem State.Within.unit (h : s.Within ks) : (unitOfWork s).ReachedWithin ks := by
  obtain ⟨⟨f, hf, hw⟩, hk, hd⟩ := h
  obtain rfl := hw.frame
  obtain ⟨i, hi, e⟩ | ⟨x, hx, e⟩ | ⟨-, e⟩ := unitOfWork_cases s
  · rw [e]
    exact State.settle_reachedWithin ((tokenEffect_work i hw).answers.imp fun t ht => .inl (ht.within hf hk hd))
      ((tokenEffect_raises i s).mono (List.Subset.trans (payloadKinds_subset_of_nextToken hi) hk))
  · rw [e]
    refine .inr (.inr ⟨_, ?_, s.raise_failed _⟩)
    rw [nextToken_rejects hx]
    exact hk (payloadKinds_subset_of_nextToken hx (by decide))
  · rw [e]
    obtain ⟨ha, hr⟩ := advance_keeps hf hw hk hd
    exact State.settle_reachedWithin ha hr

end within

theorem State.ReachedWithin.run {ks : List ErrKind} {s : State} (h : s.ReachedWithin ks) (fuel : Nat) :
    (runUnits fuel s).ReachedWithin ks := by
  refine runUnits_keeps (P := State.ReachedWithin ks) (fun t hb ht => ?_) fuel h
  obtain ht | hd | ⟨k, -, hk⟩ := ht
  · exact ht.unit
  · exact absurd (hb.symm.trans hd) nofun
  · exact absurd (hb.symm.trans hk.status) nofun

/-! ## The start of a run -/

section start

variable {ks : List ErrKind} {f : Frame} {s : State} {r : Run}

/-- The place after the start of a compressor. -/
theorem beginCompress_place (a : Alg) (s : State) :
    Answers (beginCompress a s) fun t => t.phase.kinds ⊆ [.capacityExceeded] := by
  have placed {r : Run} {p : Phase} (h : Answers r fun t => t.phase = p) (hp : p.kinds ⊆ [.capacityExceeded]) :
      Answers r fun t => t.phase.kinds ⊆ [.capacityExceeded] := h.imp fun _ ht => ht ▸ hp
  unfold beginCompress
  split
  · exact placed (p := .finished) (answers_ok.2 rfl) (by decide)
  · cases a with
    | rle => exact placed (p := .rleC) (answers_ok.2 rfl) (by decide)
    | lz77 => exact placed (p := .lz77C) (answers_ok.2 rfl) (by decide)
    | lzss => exact placed (p := .lzssC) (answers_ok.2 rfl) (by decide)
    | huffman => exact placed (p := .hufC) (answers_phase fun _ => rfl) (by decide)
    | lzw => exact placed (p := .lzwC) (answers_phase fun _ => rfl) (by decide)
    | delta =>
      exact placed (p := .deltaC)
        (Answers.bind (P := fun _ => True) (fun _ _ => trivial) fun _ _ => answers_phase fun _ => rfl) (by decide)
    | bwt => exact placed (p := .bwtC) (answers_phase fun _ => rfl) (by decide)

/-- The place after the start of a decompressor. -/
theorem beginDecompress_place (a : Alg) (s : State) :
    Answers (beginDecompress a s) fun t => t.phase.kinds ⊆ decoderKinds a := by
  have placed {r : Run} {p : Phase} (h : Answers r fun t => t.phase = p) (hp : p.kinds ⊆ decoderKinds a) :
      Answers r fun t => t.phase.kinds ⊆ decoderKinds a := h.imp fun _ ht => ht ▸ hp
  unfold beginDecompress
  split
  · exact placed (p := .finished) (answers_ok.2 rfl) (by cases a <;> decide)
  · cases a with
    | rle => exact placed (p := .rleD) (answers_guard (answers_ok.2 rfl)) (by decide)
    | lz77 => exact placed (p := .lz77D) (answers_ok.2 rfl) (by decide)
    | huffman =>
      exact placed (p := .hufTree) (answers_guard (answers_guard (answers_guard (answers_ok.2 rfl)))) (by decide)
    | lzw => exact placed (p := .lzwD) (answers_guard (answers_ok.2 rfl)) (by decide)
    | lzss => exact placed (p := .lzssD) (answers_guard (answers_guard (answers_ok.2 rfl))) (by decide)
    | delta =>
      exact placed (p := .deltaD) (answers_guard (answers_guard (answers_guard (answers_ok.2 rfl)))) (by decide)
    | bwt => exact placed (p := .bwtChunk) (answers_guard (answers_ok.2 rfl)) (by decide)

/-- The kinds of the tests of a container's header. -/
def headerKinds : List ErrKind := [.malformedContainer, .unknownAlgorithm]

theorem readHeader_raises (s : State) : Raises (readHeader s) headerKinds := by
  refine .guard (by decide) (.guard (by decide) ?_)
  split
  · exact raises_error.2 (by decide)
  · exact raises_ok

/-- The kinds of a command. -/
def commandKinds : Instr → List ErrKind
  | .decompressRle | .decompressLz77 => payloadKinds
  | .decompressHuffman | .decompressLzw | .decompressLzss | .decompressDelta | .decompressBwt => sizedKinds
  | .pack => [.unknownAlgorithm, .capacityExceeded]
  | .unpack => headerKinds ++ [.capacityExceeded]
  | .decode => headerKinds ++ sizedKinds
  | _ => [.capacityExceeded]

theorem full_mem_commandKinds (i : Instr) : .capacityExceeded ∈ commandKinds i := by
  cases i <;> simp [commandKinds, payloadKinds, sizedKinds]

/-- A start that goes on in the frame `f`, outside DECODE or with a SizeMismatch among its kinds. -/
theorem Keeps.starts (hs : Sound r (State.Goes f)) (hp : Answers r fun t => t.phase.kinds ⊆ ks)
    (hd : f.source.ending = .decode → .sizeMismatch ∈ ks) (hr : Raises r ks) : Keeps ks r :=
  ⟨(hs.and hp).answers.imp fun _ ht => .inl (ht.1.within ht.2 hd), hr⟩

theorem decoderKinds_subset_sizedKinds (a : Alg) : decoderKinds a ⊆ sizedKinds := by cases a <;> decide

/-- Every command starts within its kinds. -/
theorem beginOf_keeps {i : Instr} {b : State → Run} (hi : beginOf i = some b) (h : s.Work f) (hb : s.regs.outBase = 0)
    (hc : s.regs.outCount = 0) (hplain : f.source.ending = .plain) : Keeps (commandKinds i) (b s) := by
  have plain {ks : List ErrKind} : f.source.ending = .decode → .sizeMismatch ∈ ks := by rw [hplain]; exact nofun
  have after {α : Type} {r : Except ErrKind α} {g : α → Run} {ks : List ErrKind}
      (hg : ∀ a, Answers (g a) fun t => t.phase.kinds ⊆ ks) : Answers (r >>= g) fun t => t.phase.kinds ⊆ ks :=
    Answers.bind (P := fun _ => True) (fun _ _ => trivial) fun a _ => hg a
  cases i <;> cases hi
  case compressRle | compressLz77 | compressHuffman | compressLzw | compressLzss | compressDelta | compressBwt =>
    exact .starts (beginCompress_goes _ h) (beginCompress_place _ s) plain (beginCompress_raises _ s)
  case decompressRle | decompressLz77 | decompressHuffman | decompressLzw | decompressLzss | decompressDelta |
      decompressBwt =>
    exact .starts (beginDecompress_goes _ h) (beginDecompress_place _ s) plain (beginDecompress_raises _ s)
  case encodeRle | encodeLz77 | encodeHuffman | encodeLzw | encodeLzss | encodeDelta | encodeBwt =>
    exact .starts (beginEncode_goes _ h hb hc) (after fun t => beginCompress_place _ _) plain
      ((s.emitSeq_raises _).bind fun t => beginCompress_raises _ _)
  case pack =>
    exact .starts (beginPack_goes h)
      (answers_guard (after fun t => answers_ok.2 (show Phase.kinds .pack ⊆ _ by decide))) plain
      (.guard (by decide) (((s.emitSeq_raises _).bind fun _ => raises_ok).mono (by decide)))
  case unpack =>
    exact .starts (beginUnpack_goes h) (after fun t => answers_ok.2 (show Phase.kinds .unpack ⊆ _ by decide)) nofun
      (((readHeader_raises s).mono (List.subset_append_left _ _)).bind fun _ => raises_ok)
  case decode =>
    have hsized (a : Alg) : decoderKinds a ⊆ commandKinds .decode :=
      List.Subset.trans (decoderKinds_subset_sizedKinds a) (List.subset_append_right _ _)
    exact .starts (beginDecode_goes h)
      (after fun x => (beginDecompress_place x.1 _).imp fun _ ht => List.Subset.trans ht (hsized x.1))
      (fun _ => by decide)
      (((readHeader_raises s).mono (List.subset_append_left _ _)).bind fun x =>
        (beginDecompress_raises x.1 _).mono (hsized x.1))

end start

/-! ## Whole operations -/

theorem checkCap_keeps {ks : List ErrKind} {s : State} {b : State → Run} (hk : .capacityExceeded ∈ ks)
    (h : Keeps ks (b s)) : Keeps ks (s.checkCap >>= b) := by
  unfold State.checkCap
  split
  · exact h
  · split
    · exact ⟨answers_error, raises_error.2 hk⟩
    · exact h

/-- The failure of an operation over a canonical `IN`. -/
theorem operate_failed_kinds_of_wf {i : Instr} {b : State → Run} (hi : beginOf i = some b) {s : State} (hin : s.inMem.wf)
    (he : (operate b s).status = .error) : ∃ k ∈ commandKinds i, (operate b s).Failed k := by
  obtain ⟨ha, hr⟩ := checkCap_keeps (full_mem_commandKinds i) (beginOf_keeps hi (State.start_work hin) rfl rfl rfl)
  obtain ht | hd | hk := (State.settle_reachedWithin (s := s.start) ha hr).run s.fuel
  · obtain ⟨f, -, hw⟩ := ht.runs
    exact absurd (hw.status.symm.trans he) nofun
  · exact absurd (he.symm.trans hd) nofun
  · exact hk

/-- What holds of the failure over the input alone holds over every state with that input (O22). -/
theorem operate_failed_kinds {i : Instr} {b : State → Run} (hi : beginOf i = some b) {s : State}
    (he : (operate b s).status = .error) : ∃ k ∈ commandKinds i, (operate b s).Failed k := by
  have hsame := operate_same hi (withInputOnly_wf s) (u := s) rfl rfl
    (fun a ha => (withInputOnly_inByteAt s ha).symm) fun _ => ⟨rfl, rfl⟩
  obtain ⟨k, hk, hfail⟩ := operate_failed_kinds_of_wf hi (withInputOnly_wf s) (hsame.status.trans he)
  exact ⟨k, hk, he, hsame.err ▸ hfail.err, hsame.outLen ▸ hfail.outLen, hsame.outMem ▸ hfail.out⟩

/-- A command that is refused for the length of its input (40_commands_contract.md R122). -/
theorem fails_of_inCap {i : Instr} {b : State → Run} (hi : beginOf i = some b) (hc : i.ctx = .command) {s : State}
    {cap : Nat} (hcap : s.params.inCap = some cap) (hlt : cap < s.inLen.toNat) : Fails i s .capacityExceeded := by
  refine fails_of_operate hi hc ?_
  have hcheck : s.start.checkCap = .error .capacityExceeded := by
    have hcap' : s.start.params.inCap = some cap := hcap
    rw [State.checkCap, hcap']
    exact if_pos hlt
  rw [operate, beginRun, hcheck]
  exact (runUnits_ended (s := s.start.raise .capacityExceeded) (by simp) s.fuel).symm ▸ s.start.raise_failed _

/-- Settles O18: the kinds of the command by its row, and the start check. -/
theorem failuresAreTheRulesKinds : Obligations.FailuresAreTheRulesKinds := by
  refine ⟨fun s t i hc ht he => ?kinds, fun s i cap hc hclear hcap hlt => ?inCap⟩
  case kinds =>
    cases hi : beginOf i with
    | none =>
      obtain rfl := eq_clear_of_beginOf hc hi
      cases ht
      cases he
    | some b =>
      obtain rfl := Host.Outcome.next.inj ((exec_of_beginOf hi s).symm.trans ht)
      obtain ⟨k, hk, hfail⟩ := operate_failed_kinds hi he
      refine ⟨k, hfail, ?_, ?_, ?_, ?_, ?_, ?_⟩
      · rintro a (rfl | rfl)
        · cases a <;> exact List.mem_singleton.1 hk
        · cases a <;> exact List.mem_singleton.1 hk
      · rintro a rfl
        have hsub : commandKinds (decompressOf a) ⊆ sizedKinds := by cases a <;> decide
        exact hsub hk
      · rintro (rfl | rfl)
        · exact hk
        · exact hk
      · rintro rfl
        exact hk
      · rintro rfl
        exact hk
      · rintro rfl
        exact hk
  case inCap =>
    cases hi : beginOf i with
    | none => exact absurd (eq_clear_of_beginOf hc hi) hclear
    | some b => exact fails_of_inCap hi hc hcap hlt

end Sys2Proof.Machine
end

section
/-! An operation and its image under a map of the states, with which its pieces commute: the two come to their ends
together. -/

namespace Sys2Proof.Machine

/-! ## An exchange in the answer of a piece -/

/-- A piece of an operation with `g` made of the state it answers. -/
def mapRun (g : State → State) : Run → Run
  | .ok t => .ok (g t)
  | .error k => .error k

section mapRun

variable {g : State → State}

theorem bind_mapRun {r r' : Run} {x x' : State → Run} (hr : r' = mapRun g r)
    (hx : ∀ t, x' (g t) = mapRun g (x t)) : (r' >>= x') = mapRun g (r >>= x) := by
  subst hr
  cases r with
  | ok t => exact hx t
  | error k => rfl

theorem if_mapRun {c : Prop} [Decidable c] {a a' b b' : Run} (ha : a' = mapRun g a) (hb : b' = mapRun g b) :
    (if c then a' else b') = mapRun g (if c then a else b) := by
  split
  · exact ha
  · exact hb

/-- A test that raises. -/
theorem guard_mapRun {c : Prop} [Decidable c] {k : ErrKind} {r r' : Run} (h : ¬ c → r' = mapRun g r) :
    (if c then .error k else r') = mapRun g (if c then .error k else r) := by
  split
  · rfl
  · next hc => exact h hc

end mapRun

/-! ## Pieces, units of work and runs -/

/-- A piece from `s` and from its image: where it does not raise, both go on, to a state and its image; or both come to
their end sequence, which the map need not commute with. -/
inductive MapAlike (g : State → State) (s : State) (r r' : Run) : Prop
  | goes (hb : Answers r fun t => t.status = .busy) (h : r' = mapRun g r)
  | ends (h : r = .ok s.finish) (h' : r' = (g s).endOp)

/-- A unit of work from `s` and from its image. -/
inductive MapUnits (g : State → State) (s t t' : State) : Prop
  | goes (hb : t.status = .busy) (h : t' = g t)
  | raises (k : ErrKind) (h : t.Failed k) (h' : t'.Failed k)
  | ends (h : t = s.finish) (h' : t' = (g s).settle (g s).endOp) (ha : advance s = .ok s.finish)

/-- The ends of the two operations: both have failed with the same kind, or both have come to their end sequence, from a
state that satisfies `P` and from its image. -/
inductive MapEnds (g : State → State) (P : State → Prop) (v v' : State) : Prop
  | raised (k : ErrKind) (h : v.Failed k) (h' : v'.Failed k)
  | ended (z : State) (hz : P z) (ha : advance z = .ok z.finish) (h : v = z.finish)
      (h' : v' = (g z).settle (g z).endOp)

theorem State.Goes.status {f : Frame} {s : State} (h : s.Goes f) : s.status = .busy := by
  obtain ⟨g, -, hw⟩ := h
  exact hw.status

section alike

variable {g : State → State} {s : State} {r r' : Run}

theorem MapAlike.guard {c : Prop} [Decidable c] {k : ErrKind} (h : MapAlike g s r r') :
    MapAlike g s (if c then .error k else r) (if c then .error k else r') := by
  split
  · exact .goes answers_error rfl
  · exact h

theorem MapAlike.of_goes {f : Frame} (hs : Sound r (State.Goes f)) (h : r' = mapRun g r) : MapAlike g s r r' :=
  .goes (hs.answers.imp fun _ => State.Goes.status) h

theorem MapAlike.of_work {f : Frame} (hs : Sound r (State.Work f)) (h : r' = mapRun g r) : MapAlike g s r r' :=
  .goes (hs.answers.imp fun _ ht => ht.status) h

theorem MapAlike.endOp (hplain : s.regs.ending = .plain) : MapAlike g s s.endOp (g s).endOp :=
  .ends (by rw [State.endOp, hplain]) rfl

theorem MapAlike.turn {unit after : State → Run} (hcur : (g s).regs.ip < (g s).regs.nIn ↔ s.regs.ip < s.regs.nIn)
    (hu : MapAlike g s (unit s) (unit (g s))) (ha : MapAlike g s (after s) (after (g s))) :
    MapAlike g s (turn s unit after) (turn (g s) unit after) := by
  unfold Machine.turn
  by_cases hc : s.regs.ip < s.regs.nIn
  · rwa [if_pos hc, if_pos (hcur.2 hc)]
  · rwa [if_neg hc, if_neg (mt hcur.1 hc)]

theorem settle_mapUnits (hb : Answers r fun t => t.status = .busy) :
    MapUnits g s (s.settle r) ((g s).settle (mapRun g r)) := by
  cases r with
  | ok t => exact .goes (hb t rfl) rfl
  | error k => exact .raises k (s.raise_failed k) (State.raise_failed k)

theorem MapAlike.settle (h : MapAlike g s (advance s) (advance (g s))) :
    MapUnits g s (s.settle (advance s)) ((g s).settle (advance (g s))) := by
  cases h with
  | goes hb e => rw [e]; exact settle_mapUnits hb
  | ends e e' => rw [e, e']; exact .ends rfl rfl e

/-- A unit of work, by the token both fetch and the work between tokens. -/
theorem unitOfWork_mapUnits {f : Frame} (h : s.Work f) (htoken : (g s).nextToken = s.nextToken)
    (heffect : ∀ i, s.nextToken = some (.ok i) → tokenEffect i (g s) = mapRun g (tokenEffect i s))
    (hadvance : MapAlike g s (advance s) (advance (g s))) : MapUnits g s (unitOfWork s) (unitOfWork (g s)) := by
  unfold unitOfWork
  rw [htoken]
  split
  · next i hi =>
    rw [heffect i hi]
    exact settle_mapUnits ((tokenEffect_work i h).answers.imp fun _ ht => ht.status)
  · exact .raises _ (s.raise_failed _) (State.raise_failed _)
  · exact hadvance.settle

theorem settle_endOp_ended (s : State) : (s.settle s.endOp).status ≠ .busy := by
  obtain ⟨t, ht, e⟩ | ⟨k, e⟩ := s.settle_cases s.endOp
  · rw [e, endOp_answers_done s t ht]
    exact nofun
  · rw [e]
    exact nofun

variable {P : State → Prop}

theorem MapEnds.status {v v' : State} (h : MapEnds g P v v') : v'.status ≠ .busy := by
  cases h with
  | raised k h h' => rw [h'.status]; exact nofun
  | ended z hz ha h h' => rw [h']; exact settle_endOp_ended _

/-- Two runs whose units of work are alike come to their ends together. -/
theorem runUnits_mapEnds (hbusy : ∀ s, P s → s.status = .busy ∧ (g s).status = .busy)
    (hunit : ∀ s, P s → MapUnits g s (unitOfWork s) (unitOfWork (g s)))
    (hkeeps : ∀ s, P s → (unitOfWork s).status = .busy → P (unitOfWork s)) (fuel : Nat) {s : State} (h : P s)
    (hended : (runUnits fuel s).status ≠ .busy) : MapEnds g P (runUnits fuel s) (runUnits fuel (g s)) := by
  induction fuel generalizing s with
  | zero => exact absurd (hbusy s h).1 hended
  | succ fuel ih =>
    rw [runUnits_busy (hbusy s h).1] at hended ⊢
    rw [runUnits_busy (hbusy s h).2]
    cases hunit s h with
    | goes hb e =>
      rw [e]
      exact ih (hkeeps s h hb) hended
    | raises k e e' =>
      rw [runUnits_ended (by rw [e.status]; exact nofun), runUnits_ended (by rw [e'.status]; exact nofun)]
      exact .raised k e e'
    | ends e e' ha =>
      rw [e, e', runUnits_ended (by simp), runUnits_ended (settle_endOp_ended _)]
      exact .ended s h ha rfl rfl

/-- Two operations that start alike come to their ends together; the second may have more fuel. -/
theorem operate_mapEnds {r : Run} {s₁ s₂ : State} (hbusy : ∀ s, P s → s.status = .busy ∧ (g s).status = .busy)
    (hunit : ∀ s, P s → MapUnits g s (unitOfWork s) (unitOfWork (g s)))
    (hkeeps : ∀ s, P s → (unitOfWork s).status = .busy → P (unitOfWork s)) (h : Answers r P) (fuel extra : Nat)
    (hended : (runUnits fuel (s₁.settle r)).status ≠ .busy) :
    MapEnds g P (runUnits fuel (s₁.settle r)) (runUnits (fuel + extra) (s₂.settle (mapRun g r))) := by
  cases r with
  | ok t =>
    have hends := runUnits_mapEnds hbusy hunit hkeeps fuel (answers_ok.1 h) hended
    show MapEnds g P (runUnits fuel t) (runUnits (fuel + extra) (g t))
    rwa [runUnits_add, runUnits_ended hends.status]
  | error k =>
    have hraised (u : State) (n : Nat) : runUnits n (u.raise k) = u.raise k := runUnits_ended (by simp) n
    show MapEnds g P (runUnits fuel (s₁.raise k)) (runUnits (fuel + extra) (s₂.raise k))
    rw [hraised, hraised]
    exact .raised k (State.raise_failed k) (State.raise_failed k)

end alike

end Sys2Proof.Machine
end

section
/-! DECODE (48_container.md R295), the codec: each piece of a decompressor commutes with the exchange that makes a
DECOMPRESS of the payload the codec inside DECODE, where `in[i]` means `IN[10 + i]`. -/

namespace Sys2Proof.Machine

/-! ## The codec inside DECODE -/

/-- The container around a payload: the whole input, and the two fields of the header. -/
structure Wrap where
  inMem : Memory
  inLen : Word64
  aAlg : Byte
  aSize : Word64

/-- A state of a DECOMPRESS of the payload, as the codec inside DECODE of the container. -/
def State.inside (s : State) (w : Wrap) : State :=
  { s with
    inMem := w.inMem, inLen := w.inLen
    regs := { s.regs with aAlg := w.aAlg, aSize := w.aSize, ending := .decode, inBase := Config.contHdr } }

/-- The input of the codec is the payload. -/
def Wrap.Holds (w : Wrap) (s : State) : Prop := ∀ i, i < s.regs.nIn → (s.inside w).inAt i = s.inAt i

section pieces

variable {w : Wrap} {s : State}

/-! ## Reads of the input -/

theorem inSlice_inside (hr : w.Holds s) {a len : Nat} (h : a + len ≤ s.regs.nIn) :
    (s.inside w).inSlice a len = s.inSlice a len := by
  induction len generalizing a with
  | zero => rfl
  | succ len ih => rw [State.inSlice, State.inSlice, hr a (by omega), ih (by omega)]

theorem rdU64_inside (hr : w.Holds s) {p : Nat} (h : p + 8 ≤ s.regs.nIn) : (s.inside w).rdU64 p = s.rdU64 p :=
  congrArg valueLE (inSlice_inside hr h)

theorem rdU32_inside (hr : w.Holds s) {p : Nat} (h : p + 4 ≤ s.regs.nIn) : (s.inside w).rdU32 p = s.rdU32 p :=
  congrArg valueLE (inSlice_inside hr h)

theorem window_inside (hr : w.Holds s) {a hi len : Nat} (h : hi ≤ s.regs.nIn) :
    (s.inside w).window a hi len = s.window a hi len := by
  by_cases ha : a < hi
  · exact inSlice_inside hr (by omega)
  · rw [State.window_of_le _ (Nat.le_of_not_lt ha), State.window_of_le _ (Nat.le_of_not_lt ha)]

/-! ## Output -/

theorem emit_inside (s : State) (b : Byte) : (s.inside w).emit b = mapRun (·.inside w) (s.emit b) :=
  guard_mapRun fun _ => rfl

theorem emitSeq_inside (s : State) (bs : Bytes) : (s.inside w).emitSeq bs = mapRun (·.inside w) (s.emitSeq bs) := by
  induction bs generalizing s with
  | nil => rfl
  | cons b bs ih => exact bind_mapRun (emit_inside s b) ih

theorem copyHistory_inside (s : State) (off len : Nat) :
    (s.inside w).copyHistory off len = mapRun (·.inside w) (s.copyHistory off len) := by
  induction len generalizing s with
  | zero => rfl
  | succ len ih => exact bind_mapRun (emit_inside s _) ih

/-! ## The start of a decompressor -/

theorem hufDStart_inside (hr : w.Holds s) : hufDStart (s.inside w) = mapRun (·.inside w) (hufDStart s) := by
  refine guard_mapRun fun (h : ¬ s.regs.nIn < 12) => ?_
  rw [rdU32_inside hr (by omega), rdU64_inside hr (by omega)]
  exact guard_mapRun fun _ => guard_mapRun fun _ => rfl

theorem lzwDStart_inside (hr : w.Holds s) : lzwDStart (s.inside w) = mapRun (·.inside w) (lzwDStart s) := by
  refine guard_mapRun fun (h : ¬ s.regs.nIn < 8) => ?_
  rw [rdU64_inside hr (by omega)]
  rfl

theorem lzssDStart_inside (hr : w.Holds s) : lzssDStart (s.inside w) = mapRun (·.inside w) (lzssDStart s) := by
  refine guard_mapRun fun (h : ¬ s.regs.nIn < 12) => ?_
  rw [rdU32_inside hr (by omega), rdU64_inside hr (by omega)]
  exact guard_mapRun fun _ => rfl

theorem deltaDStart_inside (hr : w.Holds s) : deltaDStart (s.inside w) = mapRun (·.inside w) (deltaDStart s) := by
  refine guard_mapRun fun (h : ¬ s.regs.nIn < 8) => ?_
  rw [rdU64_inside hr (by omega)]
  exact guard_mapRun fun _ => guard_mapRun fun _ => rfl

theorem bwtDStart_inside (hr : w.Holds s) : bwtDStart (s.inside w) = mapRun (·.inside w) (bwtDStart s) := by
  refine guard_mapRun fun (h : ¬ s.regs.nIn < 8) => ?_
  rw [rdU64_inside hr (by omega)]
  rfl

theorem beginDecompress_inside (a : Alg) (hr : w.Holds s) :
    beginDecompress a (s.inside w) = mapRun (·.inside w) (beginDecompress a s) := by
  refine if_mapRun rfl ?_
  cases a with
  | rle => exact guard_mapRun fun _ => rfl
  | lz77 => rfl
  | huffman => exact hufDStart_inside hr
  | lzw => exact lzwDStart_inside hr
  | lzss => exact lzssDStart_inside hr
  | delta => exact deltaDStart_inside hr
  | bwt => exact bwtDStart_inside hr

/-! ## The tokens -/

theorem dictAdd_inside (s : State) (x : Bytes) : (s.inside w).dictAdd x = (s.dictAdd x).inside w := by
  unfold State.dictAdd
  show (if s.regs.nextCode < Config.lzwDictMax then _ else _) = _
  split
  · rfl
  · rfl

theorem lzwLearn_inside (x : Bytes) (s : State) : lzwLearn x (s.inside w) = (lzwLearn x s).inside w := by
  unfold lzwLearn
  show (match s.regs.prevCode with | none => _ | some pc => _) = _
  cases s.regs.prevCode with
  | none => rfl
  | some pc => exact dictAdd_inside s _

theorem lzwCode_inside (c : BitVec 12) (s : State) : lzwCode c (s.inside w) = mapRun (·.inside w) (lzwCode c s) := by
  have hstring : lzwString c.toNat (s.inside w) = lzwString c.toNat s := rfl
  unfold lzwCode
  rw [hstring]
  cases lzwString c.toNat s with
  | none => rfl
  | some x =>
    dsimp only
    rw [lzwLearn_inside]
    exact bind_mapRun (emitSeq_inside _ _) fun _ => rfl

theorem fillSlot_inside (s : State) (v : Option Nat) (more : List Slot) :
    (s.inside w).fillSlot v more = (s.fillSlot v more).inside w := by
  have hslots : (s.inside w).regs.slots = s.regs.slots := rfl
  unfold State.fillSlot
  rw [hslots]
  split <;> rfl

theorem hufBit_inside (dir : BitVec 1) (s : State) : hufBit dir (s.inside w) = mapRun (·.inside w) (hufBit dir s) := by
  have hnode : (s.inside w).regs.node.bind ((s.inside w).tabs.tree[·]?) = s.regs.node.bind (s.tabs.tree[·]?) := rfl
  have htree : (s.inside w).tabs.tree = s.tabs.tree := rfl
  unfold hufBit
  rw [hnode]
  split
  · split
    · rfl
    · rw [htree]
      split
      · exact bind_mapRun (emit_inside s _) fun _ => rfl
      · rfl
  · rfl

/-- No token reads the input: its operands came with it. -/
theorem tokenEffect_inside (i : Instr) (s : State) :
    tokenEffect i (s.inside w) = mapRun (·.inside w) (tokenEffect i s) := by
  cases i with
  | rlePair count value => exact bind_mapRun (emitSeq_inside s _) fun _ => rfl
  | deltaFirst b | deltaDiff d | lz77Lit b | lzssLit b => exact bind_mapRun (emit_inside s _) fun _ => rfl
  | lz77Match len off =>
    exact guard_mapRun fun _ => bind_mapRun (copyHistory_inside s _ _) fun _ => rfl
  | lzssMatch off len =>
    exact guard_mapRun fun _ => bind_mapRun (copyHistory_inside s _ _) fun _ => rfl
  | lzwCode c => exact lzwCode_inside c s
  | hufInt => exact congrArg Except.ok (fillSlot_inside (s.newRec (.internal none none) 1) _ _)
  | hufLeaf sym => exact congrArg Except.ok (fillSlot_inside (s.newRec (.leaf sym) 2) _ _)
  | hufNull => exact congrArg Except.ok (fillSlot_inside { s with regs := { s.regs with tp := s.regs.tp + 1 } } _ _)
  | hufBit dir => exact hufBit_inside dir s
  | mtfIdx r => rfl
  | _ => rfl

/-! ## The work between tokens -/

theorem hufTreeEnd_inside (hr : w.Holds s) (h : 20 + s.regs.tl ≤ s.regs.nIn) :
    hufTreeEnd (s.inside w) = mapRun (·.inside w) (hufTreeEnd s) := by
  have htb : (s.inside w).rdU64 (12 + (s.inside w).regs.tl) = s.rdU64 (12 + s.regs.tl) :=
    rdU64_inside (p := 12 + s.regs.tl) hr (by omega)
  unfold hufTreeEnd
  rw [htb]
  exact guard_mapRun fun _ => guard_mapRun fun _ => rfl

theorem bwtHeader_inside (hr : w.Holds s) : bwtHeader (s.inside w) = mapRun (·.inside w) (bwtHeader s) := by
  refine guard_mapRun fun (h : ¬ s.regs.nIn < s.regs.ip + 16) => ?_
  have hp : (s.inside w).rdU64 (s.inside w).regs.ip = s.rdU64 s.regs.ip :=
    rdU64_inside (p := s.regs.ip) hr (by omega)
  have hcs : (s.inside w).rdU64 ((s.inside w).regs.ip + 8) = s.rdU64 (s.regs.ip + 8) :=
    rdU64_inside (p := s.regs.ip + 8) hr (by omega)
  rw [hp, hcs]
  exact guard_mapRun fun _ => guard_mapRun fun _ => guard_mapRun fun _ => rfl

theorem bwtChunkEnd_inside (s : State) : bwtChunkEnd (s.inside w) = mapRun (·.inside w) (bwtChunkEnd s) :=
  bind_mapRun (emitSeq_inside s.inverseBwt _) fun _ => rfl

/-- The places of a decompressor. -/
def Phase.decodes : Phase → Bool
  | .rleD | .deltaD | .lz77D | .lzssD | .lzwD | .hufTree | .hufBits | .bwtChunk | .bwtIdx | .finished => true
  | _ => false

theorem advance_inside {f : Frame} (h : s.Work f) (hf : f.Bounded) (hr : w.Holds s)
    (hplain : s.regs.ending = .plain) (hd : s.phase.decodes) :
    MapAlike (·.inside w) s (advance s) (advance (s.inside w)) := by
  have hend : MapAlike (·.inside w) s s.endOp (s.inside w).endOp := .endOp hplain
  have hp' : (s.inside w).phase = s.phase := rfl
  obtain rfl := h.frame
  unfold advance
  rw [hp']
  cases hp : s.phase with
  | finished | rleD | deltaD | lz77D => exact hend
  | lzssD | lzwD | hufBits => exact hend.guard
  | hufTree => exact .of_goes (hufTreeEnd_goes h) (hufTreeEnd_inside hr (hf.tree hp))
  | bwtIdx => exact .of_goes (bwtChunkEnd_goes h) (bwtChunkEnd_inside s)
  | bwtChunk => exact .turn Iff.rfl (.of_goes (bwtHeader_goes h) (bwtHeader_inside hr)) hend.guard
  | _ => rw [hp] at hd; cases hd

/-! ## A unit of work -/

/-- The codec inside DECODE fetches the same token. -/
theorem fetchBytes_inside {f : Frame} (h : s.Work f) (hf : f.Bounded) (hr : w.Holds s) :
    (s.inside w).fetchBytes = s.fetchBytes := by
  obtain rfl := h.frame
  have hall {a len : Nat} : (s.inside w).window a (s.inside w).regs.nIn len = s.window a s.regs.nIn len :=
    window_inside hr (Nat.le_refl _)
  have hp' : (s.inside w).phase = s.phase := rfl
  cases hp : s.phase with
  | rleD => rw [fetchBytes_rle (hp'.trans hp), fetchBytes_rle hp, hall]; rfl
  | deltaD => rw [fetchBytes_delta (hp'.trans hp), fetchBytes_delta hp, hall]; rfl
  | lz77D => rw [fetchBytes_lz77 (hp'.trans hp), fetchBytes_lz77 hp, hall]; rfl
  | lzwD => rw [fetchBytes_lzw (hp'.trans hp), fetchBytes_lzw hp, hall]; rfl
  | hufBits => rw [fetchBytes_hufBits (hp'.trans hp), fetchBytes_hufBits hp, hall]; rfl
  | bwtIdx => rw [fetchBytes_bwt (hp'.trans hp), fetchBytes_bwt hp, hall]; rfl
  | hufTree =>
    have htree : 20 + s.regs.tl ≤ s.regs.nIn := hf.tree hp
    have hwin : (s.inside w).window (12 + (s.inside w).regs.tp) (12 + (s.inside w).regs.tl) 2 =
        s.window (12 + s.regs.tp) (12 + s.regs.tl) 2 := window_inside hr (by show 12 + s.regs.tl ≤ _; omega)
    rw [fetchBytes_hufTree (hp'.trans hp), fetchBytes_hufTree hp, hwin]
    rfl
  | lzssD =>
    have hflags : 12 + s.regs.fc ≤ s.regs.nIn := hf.flags hp
    by_cases hn : s.regs.outCount < s.regs.n
    · by_cases ht : 8 * s.regs.fc ≤ s.regs.tok
      · rw [fetchBytes_lzss_outOfFlags (hp'.trans hp) hn ht, fetchBytes_lzss_outOfFlags hp hn ht]
      · have ht := Nat.not_le.1 ht
        have hflag : (s.inside w).inAt (12 + s.regs.tok / 8) = s.inAt (12 + s.regs.tok / 8) := hr _ (by omega)
        rw [fetchBytes_lzss (s := s.inside w) (hp'.trans hp) hn ht (congrArg (·.getLsbD (s.regs.tok % 8)) hflag),
          fetchBytes_lzss hp hn ht rfl, hall]
        rfl
    · rw [State.fetchBytes, State.fetchBytes, hp', hp]
      dsimp only
      rw [if_neg hn, if_neg (show ¬ (s.inside w).regs.outCount < (s.inside w).regs.n from hn)]
  | _ =>
    unfold State.fetchBytes
    rw [hp', hp]

theorem unitOfWork_inside {f : Frame} (h : s.Work f) (hf : f.Bounded) (hr : w.Holds s)
    (hplain : s.regs.ending = .plain) (hd : s.phase.decodes) :
    MapUnits (·.inside w) s (unitOfWork s) (unitOfWork (s.inside w)) :=
  unitOfWork_mapUnits h (by rw [State.nextToken, State.nextToken, fetchBytes_inside h hf hr])
    (fun i _ => tokenEffect_inside i s) (advance_inside h hf hr hplain hd)

end pieces

end Sys2Proof.Machine
end

section
/-! A decompressor outside DECODE (40_commands_contract.md R126): where it stands, and that a success has emitted fewer than
2^64 bytes, so that `OUT_LEN` counts them all. -/

namespace Sys2Proof.Machine

/-! ## The decompressors without a test of the size: RLE, Delta and LZ77 -/

/-- `s` is inside a decompressor that ends with its input, or behind the empty input: each byte of its `m` bytes has made
at most 255 of output. -/
structure State.RawDecodes (m : Nat) (s : State) : Prop where
  status : s.status = .busy
  phase : s.phase = .rleD ∨ s.phase = .deltaD ∨ s.phase = .lz77D ∨ s.phase = .finished
  ending : s.regs.ending = .plain
  outBase : s.regs.outBase = 0
  nIn : s.regs.nIn = m
  ip : s.regs.ip ≤ m + 8
  made : s.regs.outCount ≤ 255 * s.regs.ip

/-- A token of one of the three. -/
inductive RawToken : Instr → Prop
  | rlePair (count value : Byte) : RawToken (.rlePair count value)
  | deltaFirst (b : Byte) : RawToken (.deltaFirst b)
  | deltaDiff (d : Byte) : RawToken (.deltaDiff d)
  | lz77Lit (b : Byte) : RawToken (.lz77Lit b)
  | lz77Match (len : BitVec 7) (off : BitVec 16) : RawToken (.lz77Match len off)

/-- The places of the three. -/
def rawCtx : Ctx → Bool
  | .rle | .deltaFirst | .deltaDiff | .lz77 => true
  | _ => false

theorem rawToken_of_ctx {i : Instr} (h : rawCtx i.ctx) : RawToken i := by
  cases i with
  | rlePair count value => exact .rlePair count value
  | deltaFirst b => exact .deltaFirst b
  | deltaDiff d => exact .deltaDiff d
  | lz77Lit b => exact .lz77Lit b
  | lz77Match len off => exact .lz77Match len off
  | _ => cases h

theorem rawToken_of_decode {c : Ctx} (hc : rawCtx c) {bs : Bytes} {i : Instr} (h : decode c bs = .ok i) : RawToken i := by
  have hlzw : c.atBit0 ≠ .lzw 0 := by
    intro e
    cases c <;> cases e
    cases hc
  have hhuf : c.atBit0 ≠ .hufBit 0 := by
    intro e
    cases c <;> cases e
    cases hc
  exact rawToken_of_ctx ((decodedBytesAreTheEncoding c bs i hlzw hhuf h).1.symm ▸ hc)

section raw

variable {m : Nat} {s : State}

/-- The token of a place in one of the three loops, before the end of the input. -/
theorem State.RawDecodes.nextToken_ok (h : s.RawDecodes m) {i : Instr} (hi : s.nextToken = some (.ok i)) :
    s.regs.ip < m ∧ RawToken i := by
  have taken {c : Ctx} {bs : Bytes} (hc : rawCtx c)
      (hf : s.fetchBytes = if s.regs.ip < s.regs.nIn then some (.ok (c, bs)) else none) : s.regs.ip < m ∧ RawToken i := by
    rw [State.nextToken, hf] at hi
    split at hi
    · next hlt => exact ⟨h.nIn ▸ hlt, rawToken_of_decode hc (Option.some.inj hi)⟩
    · cases hi
  obtain hp | hp | hp | hp := h.phase
  · exact taken rfl (fetchBytes_rle hp)
  · exact taken (by split <;> rfl) (fetchBytes_delta hp)
  · exact taken rfl (fetchBytes_lz77 hp)
  · simp [State.nextToken, State.fetchBytes, hp] at hi

/-- A token that appends `bs` and takes `d` bytes of the input. -/
theorem State.RawDecodes.putAll (h : s.RawDecodes m) (hip : s.regs.ip < m) {bs : Bytes} {r : Regs} {d : Nat} (hd : d ≤ 8)
    (hlen : bs.length ≤ 255 * d)
    (hr : (r.ending, r.outBase, r.nIn, r.ip, r.outCount) =
      ((s.putAll bs).regs.ending, (s.putAll bs).regs.outBase, (s.putAll bs).regs.nIn, s.regs.ip + d,
        s.regs.outCount + bs.length)) : State.RawDecodes m { s.putAll bs with regs := r } := by
  simp only [Prod.mk.injEq] at hr
  obtain ⟨he, hb, hn, hi, hc⟩ := hr
  refine ⟨h.status, h.phase, he.trans h.ending, hb.trans h.outBase, hn.trans h.nIn, ?_, ?_⟩
  · show r.ip ≤ m + 8
    omega
  · have hmade := h.made
    show r.outCount ≤ 255 * r.ip
    omega

theorem State.RawDecodes.answers_token (h : s.RawDecodes m) (hip : s.regs.ip < m) {i : Instr} (hi : RawToken i) :
    Answers (tokenEffect i s) (State.RawDecodes m) := by
  have emits {b : Byte} {x : State → State} (hx : (x (s.put b)).RawDecodes m) :
      Answers (s.emit b >>= fun t => .ok (x t)) (State.RawDecodes m) :=
    Answers.bind (P := (· = s.put b)) (fun _ ht => (State.emit_ok.1 ht).2) fun _ ht => answers_ok.2 (ht ▸ hx)
  cases hi with
  | rlePair count value =>
    refine Answers.bind (P := (· = s.putAll _)) (fun _ ht => (State.emitSeq_ok ht).2) fun _ ht => answers_ok.2 ?_
    subst ht
    have hcount := count.isLt
    exact h.putAll hip (d := 2) (by decide) (by rw [List.length_replicate]; omega) rfl
  | deltaFirst b => exact emits (h.putAll hip (bs := [b]) (d := 1) (by decide) (by simp) rfl)
  | deltaDiff d => exact emits (h.putAll hip (bs := [s.regs.prev + d]) (d := 1) (by decide) (by simp) rfl)
  | lz77Lit b => exact emits (h.putAll hip (bs := [b]) (d := 2) (by decide) (by simp) rfl)
  | lz77Match len off =>
    refine answers_guard (Answers.bind (P := fun t => ∃ bs : Bytes, bs.length = len.toNat ∧ t = s.putAll bs)
      (fun _ ht => State.copyHistory_ok ht) fun _ ht => answers_ok.2 ?_)
    obtain ⟨bs, hbs, rfl⟩ := ht
    have hlen := len.isLt
    exact h.putAll hip (d := 3) (by decide) (by omega) rfl

theorem State.RawDecodes.advance_eq (h : s.RawDecodes m) : advance s = .ok s.finish := by
  have hend : s.endOp = .ok s.finish := by rw [State.endOp, h.ending]
  obtain hp | hp | hp | hp := h.phase <;> rw [advance, hp, ← hend]

end raw

/-! ## All seven -/

/-- `s` is inside a decompressor outside DECODE: in the loop of one that tests its size against the recorded length, or of
one of the other three over fewer than 2^50 bytes. -/
inductive State.Decoding (s : State) : Prop
  | lzss {n : Nat} (hn : n < 2 ^ 64) (h : s.LzssDecodes n)
  | lzw {n : Nat} (hn : n < 2 ^ 64) (h : s.LzwDecodes n)
  | huffman {n : Nat} (hn : n < 2 ^ 64) (h : s.HufDecodes n)
  | bwt {n : Nat} (hn : n < 2 ^ 64) (h : s.BwtDecodes n)
  | raw {m : Nat} (hm : m < 2 ^ 50) (h : s.RawDecodes m)

section decoding

variable {s : State}

theorem State.Decoding.status (h : s.Decoding) : s.status = .busy := by
  cases h with
  | lzss hn h | lzw hn h | huffman hn h | bwt hn h | raw hm h => exact h.status

theorem State.Decoding.ending (h : s.Decoding) : s.regs.ending = .plain := by
  cases h with
  | lzss hn h | lzw hn h | huffman hn h | bwt hn h | raw hm h => exact h.ending

theorem State.Decoding.outBase (h : s.Decoding) : s.regs.outBase = 0 := by
  cases h with
  | lzss hn h | lzw hn h | huffman hn h | bwt hn h | raw hm h => exact h.outBase

theorem State.Decoding.decodes (h : s.Decoding) : s.phase.decodes := by
  cases h with
  | lzss hn h | lzw hn h => rw [h.phase]; rfl
  | huffman hn h | bwt hn h => obtain hp | hp := h.phase <;> rw [hp] <;> rfl
  | raw hm h => obtain hp | hp | hp | hp := h.phase <;> rw [hp] <;> rfl

/-- Of what a loop with a recorded length has come to, only another place of it is BUSY. -/
theorem State.LoopEnds.of_busy {P : State → Prop} {n : Nat} (h : s.LoopEnds P n) (hb : s.status = .busy) : P s := by
  obtain hp | he | ⟨hd, -⟩ := h
  · exact hp
  · exact nomatch hb.symm.trans he
  · exact nomatch hb.symm.trans hd

theorem State.RawDecodes.unit {m : Nat} (h : s.RawDecodes m) (hb : (unitOfWork s).status = .busy) :
    (unitOfWork s).RawDecodes m := by
  obtain ⟨i, hi, e⟩ | ⟨x, -, e⟩ | ⟨-, e⟩ := unitOfWork_cases s
  · obtain ⟨hip, htoken⟩ := h.nextToken_ok hi
    rw [e] at hb ⊢
    obtain ⟨t, ht, e'⟩ | ⟨k, e'⟩ := s.settle_cases (tokenEffect i s)
    · exact e' ▸ h.answers_token hip htoken t ht
    · rw [e'] at hb
      cases hb
  · rw [e] at hb
    cases hb
  · rw [e, h.advance_eq, State.settle_ok] at hb
    cases hb

/-- A unit of work after which the engine is still BUSY goes on in the decompressor. -/
theorem State.Decoding.unit (h : s.Decoding) (hb : (unitOfWork s).status = .busy) : (unitOfWork s).Decoding := by
  cases h with
  | lzss hn h => exact .lzss hn (State.LoopEnds.of_busy (P := State.LzssDecodes _) h.unit_lzssAfter hb)
  | lzw hn h => exact .lzw hn (h.unit_loopEnds.of_busy hb)
  | huffman hn h => exact .huffman hn (h.unit_loopEnds.of_busy hb)
  | bwt hn h => exact .bwt hn (h.unit_loopEnds.of_busy hb)
  | raw hm h => exact .raw hm (h.unit hb)

/-- The end of the loop of R270 is after its last chunk. -/
theorem State.BwtDecodes.outCount_eq {n : Nat} (h : s.BwtDecodes n) (ha : advance s = .ok s.finish) :
    s.regs.outCount = n := by
  obtain hp | hp := h.phase
  · rw [advance_bwtChunk hp, turn] at ha
    split at ha
    · exact nomatch bwtHeader_phase s _ ha
    · by_contra hne
      rw [bwtDEnd_of_ne (h.recorded ▸ hne)] at ha
      cases ha
  · rw [advance_bwtIdx hp] at ha
    exact nomatch bwtChunkEnd_phase s _ ha

/-- A successful end has emitted fewer than 2^64 bytes. -/
theorem State.Decoding.outCount_lt (h : s.Decoding) (ha : advance s = .ok s.finish) : s.regs.outCount < 2 ^ 64 := by
  cases h with
  | lzw hn h => exact (h.cut.trans_le (Nat.min_le_right _ _)).trans_lt hn
  | huffman hn h => exact h.notPast.trans_lt hn
  | bwt hn h => exact (h.outCount_eq ha).trans_lt hn
  | raw hm h =>
    have hmade := h.made
    have hip := h.ip
    omega
  | lzss hn h =>
    rw [advance_lzssD h.phase] at ha
    by_contra hle
    rw [lzssDEnd_of_ne (by rw [h.recorded]; omega)] at ha
    cases ha

theorem rdU64_lt (s : State) (p : Nat) : s.rdU64 p < 2 ^ 64 := by
  have hlt := valueLE_lt (s.inSlice p 8)
  rwa [State.inSlice_length] at hlt

/-- Every decompressor starts so. -/
theorem beginDecompress_decoding (a : Alg) (s : State) (hlt : s.inLen.toNat < 2 ^ 50) :
    Answers (beginDecompress a s.start) State.Decoding := by
  have raw (ph : Phase) (h : ph = .rleD ∨ ph = .deltaD ∨ ph = .lz77D ∨ ph = .finished) :
      State.Decoding (s.start.goTo ph) :=
    .raw hlt ⟨rfl, h, rfl, rfl, rfl, Nat.zero_le _, Nat.zero_le _⟩
  have hn := rdU64_lt s.start 0
  unfold beginDecompress
  split
  · exact answers_ok.2 (raw .finished (by simp))
  · cases a with
    | rle => exact answers_guard (answers_ok.2 (raw .rleD (by simp)))
    | lz77 => exact answers_ok.2 (raw .lz77D (by simp))
    | huffman =>
      exact answers_guard (answers_guard (answers_guard (answers_ok.2
        (.huffman hn ⟨rfl, .inl rfl, rfl, rfl, rfl, Nat.zero_le _⟩))))
    | lzw => exact answers_guard (answers_ok.2 (.lzw hn ⟨rfl, rfl, rfl, rfl, rfl, (Nat.zero_min _).symm⟩))
    | lzss => exact answers_guard (answers_guard (answers_ok.2 (.lzss hn ⟨rfl, rfl, rfl, rfl, rfl⟩)))
    | delta =>
      exact answers_guard (answers_guard (answers_guard (answers_ok.2
        (.raw hlt ⟨rfl, .inr (.inl rfl), rfl, rfl, rfl, Nat.le_add_left _ _, Nat.zero_le _⟩))))
    | bwt => exact answers_guard (answers_ok.2 (.bwt hn ⟨rfl, .inl rfl, rfl, rfl, rfl⟩))

end decoding

end Sys2Proof.Machine
end

section
/-! DECODE (48_container.md R295, O56): the run of the codec inside it and the DECOMPRESS of the payload come to their ends
together, and the end sequence of DECODE adds the test of the size. -/

namespace Sys2Proof.Machine

/-! ## The two runs -/

/-- What an operation keeps of `IN` it reads as before. -/
theorem Wrap.Holds.keep {w : Wrap} {s t : State} (h : w.Holds s) (hk : s.KeepsInputs t) (hs : t.source = s.source) :
    w.Holds t := by
  have hn : t.regs.nIn = s.regs.nIn := congrArg Source.nIn hs
  have hbase : t.regs.inBase = s.regs.inBase := congrArg Source.inBase hs
  intro i hi
  have hin : (t.inside w).inAt i = (s.inside w).inAt i := by
    show (w.inMem.read _).getD (Config.inByte t.epoch _) = (w.inMem.read _).getD (Config.inByte s.epoch _)
    rw [hk.epoch]
    rfl
  rw [hin, h i (hn ▸ hi), State.inAt, State.inAt, hbase, hk.inByteAt]

/-- A state of a DECOMPRESS of the payload of `w`. -/
structure State.Unwraps (w : Wrap) (s : State) : Prop where
  works : ∃ f : Frame, f.Begun ∧ f.Bounded ∧ s.Work f
  holds : w.Holds s
  decoding : s.Decoding

theorem State.Unwraps.unit {w : Wrap} {s : State} (h : s.Unwraps w) (hb : (unitOfWork s).status = .busy) :
    (unitOfWork s).Unwraps w := by
  obtain ⟨f, hf, hbound, hw⟩ := h.works
  obtain ⟨g, hn, hw'⟩ | hrest := unitOfWork_after hf hw
  · have hsource : (unitOfWork s).source = s.source :=
      (congrArg Frame.source hw'.frame).trans (hn.source.trans (congrArg Frame.source hw.frame).symm)
    exact ⟨⟨g, hn.begun, hn.bounded hbound, hw'⟩, h.holds.keep (unitOfWork_keepsInputs s) hsource, h.decoding.unit hb⟩
  · exact absurd hb hrest.2

theorem State.Unwraps.mapUnits {w : Wrap} {s : State} (h : s.Unwraps w) :
    MapUnits (·.inside w) s (unitOfWork s) (unitOfWork (s.inside w)) := by
  obtain ⟨f, -, hbound, hw⟩ := h.works
  exact unitOfWork_inside hw hbound h.holds h.decoding.ending h.decoding.decodes

/-! ## The payload of a container as the input of DECOMPRESS -/

/-- The state whose input is `p`, in canonical form. -/
def State.withInput (s : State) (p : Bytes) : State :=
  { s with inMem := Memory.writeAll [] 0 p, inLen := BitVec.ofNat 64 p.length }

/-- The container in `IN`, with the fields of its header. -/
def State.wrap (s : State) : Wrap where
  inMem := s.inMem
  inLen := s.inLen
  aAlg := s.inByteAt 1
  aSize := BitVec.ofNat 64 (s.start.rdU64 2)

theorem withInput_wf (s : State) (p : Bytes) : (s.withInput p).inMem.wf := Memory.writeAll_wf .nil _ _

section withInput

variable {s : State} {p : Bytes}

theorem withInput_inLen (hp : p.length < 2 ^ 64) : (s.withInput p).inLen.toNat = p.length := by
  rw [State.withInput, BitVec.toNat_ofNat, Nat.mod_eq_of_lt hp]

theorem withInput_inByteAt {i : Nat} (h : i < p.length) : (s.withInput p).inByteAt i = p[i] := by
  have hread := Memory.read_writeAll_same [] 0 p h
  rw [Nat.zero_add] at hread
  rw [State.inByteAt, State.withInput, hread]
  rfl

theorem inputBytes_getElem (s : State) {i : Nat} (h : i < s.inputBytes.length) : s.inputBytes[i] = s.inByteAt i := by
  simp [State.inputBytes]

theorem withInput_inputBytes (hp : p.length < 2 ^ 64) : (s.withInput p).inputBytes = p := by
  refine List.ext_getElem (by rw [State.inputBytes_length, withInput_inLen hp]) fun i hi hi' => ?_
  rw [inputBytes_getElem, withInput_inByteAt hi']

end withInput

/-! ## A container of a known algorithm -/

/-- `IN` holds a container of `a` with the size and the payload (30_encoding.md R99). -/
def State.HoldsContainer (s : State) (a : Alg) (size : Word64) (payload : Bytes) : Prop :=
  s.inputBytes = s.params.magic :: BitVec.ofNat 8 (algId a) :: (u64le size.toNat ++ payload)

section container

variable {s : State} {a : Alg} {size : Word64} {payload : Bytes}

theorem State.HoldsContainer.inLen (h : s.HoldsContainer a size payload) : s.inLen.toNat = 10 + payload.length := by
  rw [← s.inputBytes_length, h, List.length_cons, List.length_cons, List.length_append, u64le_length]
  omega

theorem State.HoldsContainer.length_lt (h : s.HoldsContainer a size payload) : payload.length < 2 ^ 64 := by
  have hlen := h.inLen
  have hlt := s.inLen.isLt
  omega

theorem State.HoldsContainer.inByteAt_zero (h : s.HoldsContainer a size payload) :
    s.inByteAt 0 = s.params.magic := by
  have hlen := h.inLen
  rw [← inputBytes_getElem s (i := 0) (by rw [s.inputBytes_length]; omega)]
  simp only [show s.inputBytes = _ from h, List.getElem_cons_zero]

theorem State.HoldsContainer.inByteAt_one (h : s.HoldsContainer a size payload) :
    s.inByteAt 1 = BitVec.ofNat 8 (algId a) := by
  have hlen := h.inLen
  rw [← inputBytes_getElem s (i := 1) (by rw [s.inputBytes_length]; omega)]
  simp only [show s.inputBytes = _ from h, List.getElem_cons_succ, List.getElem_cons_zero]

theorem State.HoldsContainer.drop_two (h : s.HoldsContainer a size payload) :
    s.inputBytes.drop 2 = u64le size.toNat ++ payload := by rw [show s.inputBytes = _ from h]; rfl

theorem State.HoldsContainer.drop_ten (h : s.HoldsContainer a size payload) : s.inputBytes.drop 10 = payload := by
  have hdrop := drop_of_drop_append h.drop_two
  rwa [u64le_length] at hdrop

theorem State.HoldsContainer.wrap_aAlg (h : s.HoldsContainer a size payload) :
    s.wrap.aAlg = BitVec.ofNat 8 (algId a) := h.inByteAt_one

theorem State.HoldsContainer.wrap_aSize (h : s.HoldsContainer a size payload) : s.wrap.aSize = size := by
  have hlen := h.inLen
  show BitVec.ofNat 64 (s.start.rdU64 2) = size
  rw [rdU64_start_two (by omega), h.drop_two, List.take_left' (u64le_length _), valueLE_u64le size.isLt,
    BitVec.ofNat_toNat, BitVec.setWidth_eq]

theorem State.HoldsContainer.readHeader (h : s.HoldsContainer a size payload) :
    readHeader s.start = .ok (a, s.start.readFields) := by
  have hlen := h.inLen
  have hid : (BitVec.ofNat 8 (algId a)).toNat = algId a := by cases a <;> rfl
  exact readHeader_ok (by omega) h.inByteAt_zero (h.inByteAt_one ▸ hid)

/-- The input of the codec inside DECODE is the payload. -/
theorem State.HoldsContainer.holds (h : s.HoldsContainer a size payload) :
    s.wrap.Holds (s.withInput payload).start := by
  intro i hi
  have hi : i < payload.length := (withInput_inLen (s := s) h.length_lt) ▸ hi
  have hlen := h.inLen
  have hdrop : 10 + i < s.inputBytes.length := by rw [s.inputBytes_length]; omega
  have hin : ((s.withInput payload).start.inside s.wrap).inAt i = s.inByteAt (10 + i) := rfl
  have hpay : s.inputBytes[10 + i] = payload[i] := by
    simp only [← h.drop_ten, List.getElem_drop]
  rw [hin, start_inAt, withInput_inByteAt hi, ← inputBytes_getElem s hdrop, hpay]

/-- DECODE begins the codec it names over the payload (R295). -/
theorem State.HoldsContainer.beginDecode_eq (h : s.HoldsContainer a size payload) :
    beginDecode s.start = mapRun (·.inside s.wrap) (beginDecompress a (s.withInput payload).start) := by
  have hstart : ({ s.start.readFields with regs := { s.start.readFields.regs with
      inBase := Config.contHdr, nIn := s.start.readFields.regs.nIn - Config.contHdr, ending := .decode } } : State) =
      (s.withInput payload).start.inside s.wrap := by
    have hn : s.start.readFields.regs.nIn - Config.contHdr = (s.withInput payload).inLen.toNat := by
      rw [withInput_inLen h.length_lt]
      show s.inLen.toNat - 10 = _
      rw [h.inLen, Nat.add_sub_cancel_left]
    rw [hn, State.readFields, start_inAt]
    rfl
  rw [← beginDecompress_inside a h.holds, beginDecode, h.readHeader, ← hstart]
  rfl

theorem beginOf_decompressOf (a : Alg) : beginOf (decompressOf a) = some (beginDecompress a) := by cases a <;> rfl

/-- DECOMPRESS of the payload starts so. -/
theorem State.HoldsContainer.beginDecompress_unwraps (h : s.HoldsContainer a size payload) (hlt : s.inLen.toNat < 2 ^ 50) :
    Answers (beginDecompress a (s.withInput payload).start) (State.Unwraps s.wrap) := by
  intro t ht
  have hlen := h.inLen
  have hn := withInput_inLen (s := s) h.length_lt
  obtain ⟨g, hnext, hw⟩ := (beginDecompress_goes a (State.start_work (withInput_wf s payload))).answers t ht
  have hsource : t.source = (s.withInput payload).start.source := (congrArg Frame.source hw.frame).trans hnext.source
  exact ⟨⟨g, hnext.begun, hnext.bounded ⟨nofun, nofun⟩, hw⟩,
    h.holds.keep (beginDecompress_keepsInputs a _ t ht) hsource,
    beginDecompress_decoding a (s.withInput payload) (by omega) t ht⟩

/-- The two operations come to their ends together. -/
theorem State.HoldsContainer.mapEnds (h : s.HoldsContainer a size payload) (hf : s.inputFits)
    (hlt : s.inLen.toNat < 2 ^ 50) (hended : (operate (beginDecompress a) (s.withInput payload)).status ≠ .busy) :
    MapEnds (·.inside s.wrap) (State.Unwraps s.wrap) (operate (beginDecompress a) (s.withInput payload))
      (operate beginDecode s) := by
  have hlen := h.inLen
  have hn := withInput_inLen (s := s) h.length_lt
  have hfits : (s.withInput payload).inputFits := fun c hc => (hn.trans_le (by omega)).trans (hf c hc)
  obtain ⟨extra, hfuel⟩ : ∃ extra, s.fuel = (s.withInput payload).fuel + extra :=
    Nat.exists_eq_add_of_le (by rw [State.fuel, State.fuel, hn]; omega)
  rw [operate_of_inputFits hfits] at hended ⊢
  rw [operate_of_inputFits hf, h.beginDecode_eq, hfuel]
  exact operate_mapEnds (fun _ hs => ⟨hs.decoding.status, hs.decoding.status⟩) (fun _ => State.Unwraps.mapUnits)
    (fun _ => State.Unwraps.unit) (h.beginDecompress_unwraps hlt) _ extra hended

/-- Every DECOMPRESS over the payload ends as the one over the canonical state (O22). -/
theorem decompress_same {s u v : State} (hp : payload.length < 2 ^ 64) (hparams : u.params = s.params)
    (hin : u.inputBytes = payload) (hv : exec (decompressOf a) u = .next v) :
    ∃ p, SameResult p (operate (beginDecompress a) (s.withInput payload)) v := by
  obtain rfl := Host.Outcome.next.inj ((exec_of_beginOf (beginOf_decompressOf a) u).symm.trans hv)
  have hlen : u.inLen.toNat = payload.length := by rw [← u.inputBytes_length, hin]
  have hn := withInput_inLen (s := s) hp
  refine ⟨_, operate_same (beginOf_decompressOf a) (withInput_wf s payload) hparams
    (BitVec.eq_of_toNat_eq (hlen.trans hn.symm)) (fun i hi => ?_) (by cases a <;> exact nofun)⟩
  have hi : i < payload.length := hn ▸ hi
  rw [withInput_inByteAt hi, ← inputBytes_getElem u (by rw [hin]; exact hi)]
  simp only [hin]

/-! ## The three ends of DECODE (R295) -/

variable {v : State}

/-- DECODE fails where DECOMPRESS of the payload does. -/
theorem State.HoldsContainer.fails {p : Prop} {k : ErrKind} (h : s.HoldsContainer a size payload) (hf : s.inputFits)
    (hlt : s.inLen.toNat < 2 ^ 50) (hsame : SameResult p (operate (beginDecompress a) (s.withInput payload)) v)
    (hv : v.Failed k) : Fails .decode s k := by
  have hstatus := hsame.status.trans hv.status
  refine fails_of_operate (i := .decode) rfl rfl ?_
  cases h.mapEnds hf hlt (by rw [hstatus]; exact nofun) with
  | raised k' e e' => exact ⟨e'.status, (e'.err.trans e.err.symm).trans (hsame.err.trans hv.err), e'.outLen, e'.out⟩
  | ended z hz ha e e' => rw [e] at hstatus; cases hstatus

/-- Where DECOMPRESS of the payload gives `y`, DECODE comes to its end sequence with as many bytes emitted. -/
theorem State.HoldsContainer.ended {p : Prop} {y : Bytes} (h : s.HoldsContainer a size payload) (hf : s.inputFits)
    (hlt : s.inLen.toNat < 2 ^ 50) (hsame : SameResult p (operate (beginDecompress a) (s.withInput payload)) v)
    (hv : v.Result y) : ∃ z : State, z.regs.outCount = y.length ∧ z.finish.Result y ∧
      operate beginDecode s = (z.inside s.wrap).settle (z.inside s.wrap).endOp := by
  have hstatus := hsame.status.trans hv.status
  cases h.mapEnds hf hlt (by rw [hstatus]; exact nofun) with
  | raised k e e' => exact nomatch e.status.symm.trans hstatus
  | ended z hz ha e e' =>
    rw [e] at hsame
    have hlen : z.finish.outLen.toNat = y.length := hsame.outLen ▸ hv.outLen
    refine ⟨z, ?_, ⟨rfl, hsame.err.trans hv.err, hlen, fun k hk => hsame.outMem ▸ hv.out k hk⟩, e'⟩
    rwa [State.finish_outLen, hz.decoding.outBase, Nat.zero_add, BitVec.toNat_ofNat,
      Nat.mod_eq_of_lt (hz.decoding.outCount_lt ha)] at hlen

theorem State.inside_endOp (z : State) (w : Wrap) : (z.inside w).endOp =
    if z.regs.outCount ≠ w.aSize.toNat then .error .sizeMismatch else .ok (z.inside w).finishArgs := rfl

theorem State.HoldsContainer.sizeMismatch {p : Prop} {y : Bytes} (h : s.HoldsContainer a size payload)
    (hf : s.inputFits) (hlt : s.inLen.toNat < 2 ^ 50)
    (hsame : SameResult p (operate (beginDecompress a) (s.withInput payload)) v) (hv : v.Result y)
    (hne : y.length ≠ size.toNat) : Fails .decode s .sizeMismatch := by
  obtain ⟨z, hcount, -, e⟩ := h.ended hf hlt hsame hv
  refine fails_of_operate (i := .decode) rfl rfl ?_
  rw [e, z.inside_endOp, hcount, h.wrap_aSize, if_pos hne, State.settle_error]
  exact State.raise_failed _

theorem State.HoldsContainer.gives {p : Prop} {y : Bytes} (h : s.HoldsContainer a size payload) (hf : s.inputFits)
    (hlt : s.inLen.toNat < 2 ^ 50) (hsame : SameResult p (operate (beginDecompress a) (s.withInput payload)) v)
    (hv : v.Result y) (heq : y.length = size.toNat) :
    ∃ t, exec .decode s = .next t ∧ t.Result y ∧ t.argAlg = BitVec.ofNat 8 (algId a) ∧ t.argSize = size ∧
      s.KeepsInputs t := by
  obtain ⟨z, hcount, hres, e⟩ := h.ended hf hlt hsame hv
  refine ⟨_, exec_of_beginOf rfl s, ?_, ?_, ?_, (operationsKeepTheirInputs s _ .decode rfl (exec_of_beginOf rfl s)).1⟩
  all_goals rw [e, z.inside_endOp, hcount, h.wrap_aSize, if_neg (not_not.2 heq), State.settle_ok]
  · exact ⟨rfl, hres.err, hres.outLen, hres.out⟩
  · exact h.wrap_aAlg
  · exact h.wrap_aSize

/-- DECOMPRESS over nothing gives nothing (40_commands_contract.md R127). -/
theorem operate_decompress_empty (a : Alg) (s : State) :
    (operate (beginDecompress a) (s.withInput [])).Result [] :=
  (operate_empty (s := s.withInput []) (fun _ _ => Nat.zero_le _) rfl (if_pos rfl)).result fun _ _ => Nat.zero_le _

end container

/-- Settles O56: the tests of the header, and then the end of DECODE by the end of DECOMPRESS over the payload. -/
theorem decodeRunsTheNamedDecompressor : Obligations.DecodeRunsTheNamedDecompressor := by
  refine ⟨fun s hf => ⟨?short, ?magic, ?unknown⟩, fun s a size payload hf hlt hin => ⟨?empty, fun u v hparams hu hv => ?_⟩⟩
  case short => exact fun h => fails_of_readHeader (i := .decode) rfl rfl hf (readHeader_short h)
  case magic => exact fun h hm => fails_of_readHeader (i := .decode) rfl rfl hf (readHeader_magic h hm)
  case unknown => exact fun h hm ha => fails_of_readHeader (i := .decode) rfl rfl hf (readHeader_unknown h hm ha)
  case empty =>
    rintro rfl rfl
    have hsame : SameResult False (operate (beginDecompress a) (s.withInput [])) _ := ⟨rfl, rfl, rfl, rfl, nofun⟩
    exact State.HoldsContainer.gives hin hf hlt hsame (operate_decompress_empty a s) rfl
  have hholds : s.HoldsContainer a size payload := hin
  obtain ⟨p, hsame⟩ := decompress_same hholds.length_lt hparams hu hv
  exact ⟨fun y hy heq => hholds.gives hf hlt hsame hy heq, fun y hy hne => hholds.sizeMismatch hf hlt hsame hy hne,
    fun k hk => hholds.fails hf hlt hsame hk⟩

end Sys2Proof.Machine
end

section
/-! ENCODE (48_container.md R294), the codec: each piece of a compressor commutes with the map that puts the header in
front of the output. -/

namespace Sys2Proof.Machine

/-! ## A memory behind other bytes -/

/-- The same bytes at addresses higher by `d`. -/
def Memory.shift (m : Memory) (d : Nat) : Memory := m.map fun c => (c.1 + d, c.2)

theorem Memory.shift_write (m : Memory) (d a : Nat) (v : Byte) : (m.shift d).write (a + d) v = (m.write a v).shift d := by
  induction m with
  | nil => rfl
  | cons c rest ih =>
    obtain ⟨x, b⟩ := c
    have hcons : Memory.shift ((x, b) :: rest) d = (x + d, b) :: Memory.shift rest d := rfl
    rw [hcons, Memory.write, Memory.write]
    simp only [Nat.add_lt_add_iff_right, Nat.add_right_cancel_iff]
    split_ifs with hlt heq
    · rfl
    · rfl
    · rw [ih]
      rfl

/-- A write behind all of `m`. -/
theorem Memory.write_append {m : Memory} {a : Nat} (h : ∀ c ∈ m, c.1 < a) (m' : Memory) (v : Byte) :
    Memory.write (m ++ m') a v = m ++ m'.write a v := by
  induction m with
  | nil => rfl
  | cons c rest ih =>
    obtain ⟨x, b⟩ := c
    obtain ⟨hx, hrest⟩ := List.forall_mem_cons.1 h
    have hx : x < a := hx
    rw [List.cons_append, Memory.write, if_neg (by omega), if_neg (by omega), ih hrest]
    rfl

theorem Memory.mem_writeAll {m : Memory} {a : Nat} {vs : Bytes} {c : Host.Cell} (h : c ∈ m.writeAll a vs) :
    c ∈ m ∨ c.1 < a + vs.length := by
  induction vs generalizing m a with
  | nil => exact .inl h
  | cons v vs ih =>
    rw [List.length_cons]
    obtain hc | hc := ih h
    · obtain rfl | hm := Memory.mem_write m a v hc
      · exact .inr (by show a < _; omega)
      · exact .inl hm
    · exact .inr (by omega)

/-! ## The codec behind a header -/

/-- The state of a COMPRESS, with the bytes `hdr` in front of its output. -/
def State.behind (hdr : Bytes) (s : State) : State :=
  { s with
    params := { s.params with outCap := s.params.outCap.map (· + hdr.length) }
    outMem := Memory.writeAll [] 0 hdr ++ s.outMem.shift hdr.length
    regs := { s.regs with outBase := s.regs.outBase + hdr.length } }

section pieces

variable {hdr : Bytes}

theorem beyond_add (cap : Option Nat) (a d : Nat) : beyond (cap.map (· + d)) (a + d) = beyond cap a := by
  cases cap with
  | none => rfl
  | some c => simp [beyond]

theorem put_behind (s : State) (b : Byte) : (s.behind hdr).put b = (s.put b).behind hdr := by
  have hat : s.regs.outBase + hdr.length + s.regs.outCount = s.regs.outBase + s.regs.outCount + hdr.length := by omega
  have hfront : ∀ c ∈ Memory.writeAll [] 0 hdr, c.1 < s.regs.outBase + s.regs.outCount + hdr.length := fun c hc => by
    have hlt := (Memory.mem_writeAll hc).resolve_left (List.not_mem_nil)
    omega
  simp only [State.put, State.behind]
  rw [hat, Memory.write_append hfront, Memory.shift_write]

theorem emit_behind (s : State) (b : Byte) : (s.behind hdr).emit b = mapRun (State.behind hdr) (s.emit b) := by
  have hcap : beyond (s.behind hdr).params.outCap ((s.behind hdr).regs.outBase + (s.behind hdr).regs.outCount) =
      beyond s.params.outCap (s.regs.outBase + s.regs.outCount) := by
    show beyond (s.params.outCap.map (· + hdr.length)) (s.regs.outBase + hdr.length + s.regs.outCount) = _
    rw [Nat.add_right_comm, beyond_add]
  unfold State.emit
  rw [hcap, put_behind]
  exact guard_mapRun fun _ => rfl

theorem emitSeq_behind (s : State) (bs : Bytes) :
    (s.behind hdr).emitSeq bs = mapRun (State.behind hdr) (s.emitSeq bs) := by
  induction bs generalizing s with
  | nil => rfl
  | cons b bs ih => exact bind_mapRun (emit_behind s b) ih

theorem inSlice_behind (s : State) (a len : Nat) : (s.behind hdr).inSlice a len = s.inSlice a len := by
  induction len generalizing a with
  | zero => rfl
  | succ len ih => exact congrArg (s.inAt a :: ·) (ih (a + 1))

theorem sameInput_behind (s : State) : s.SameInput (s.behind hdr) := ⟨rfl, fun _ => rfl⟩

/-! ## The bit packers -/

theorem packDrain_behind (more : Nat) (s : State) :
    packDrain more (s.behind hdr) = mapRun (State.behind hdr) (packDrain more s) := by
  induction more generalizing s with
  | zero => rfl
  | succ more ih =>
    exact bind_mapRun (emit_behind s _) fun t => ih { t with regs := { t.regs with nacc := t.regs.nacc - 8 } }

theorem putCode_behind (c : Nat) (s : State) : putCode c (s.behind hdr) = mapRun (State.behind hdr) (putCode c s) :=
  bind_mapRun (packDrain_behind _ { s with regs := { s.regs with
    code := c, acc := s.regs.acc * 2 ^ Config.lzwCodeBits + c, nacc := s.regs.nacc + Config.lzwCodeBits } })
    fun _ => rfl

theorem flushBits_behind (s : State) : flushBits (s.behind hdr) = mapRun (State.behind hdr) (flushBits s) :=
  if_mapRun (bind_mapRun (emit_behind s _) fun _ => rfl) rfl

theorem putBit_behind (b : Bool) (s : State) : putBit b (s.behind hdr) = mapRun (State.behind hdr) (putBit b s) :=
  if_mapRun (bind_mapRun (emit_behind s _) fun _ => rfl) rfl

theorem putBits_behind (bs : List Bool) (s : State) :
    putBits bs (s.behind hdr) = mapRun (State.behind hdr) (putBits bs s) := by
  induction bs generalizing s with
  | nil => rfl
  | cons b bs ih => exact bind_mapRun (putBit_behind b s) ih

/-! ## The turns of the loops -/

theorem rleRun_behind (s : State) (b : Byte) (more run : Nat) : rleRun (s.behind hdr) b more run = rleRun s b more run := by
  induction more generalizing run with
  | zero => rfl
  | succ more ih =>
    rw [rleRun, rleRun, ih]
    rfl

theorem rleUnit_behind (s : State) : rleUnit (s.behind hdr) = mapRun (State.behind hdr) (rleUnit s) := by
  have hcur : (s.behind hdr).inAt (s.behind hdr).regs.ip = s.inAt s.regs.ip := rfl
  unfold rleUnit
  dsimp only
  rw [hcur, rleRun_behind]
  exact bind_mapRun (emitSeq_behind s _) fun _ => rfl

theorem deltaUnit_behind (s : State) : deltaUnit (s.behind hdr) = mapRun (State.behind hdr) (deltaUnit s) :=
  bind_mapRun (emitSeq_behind s _) fun _ => rfl

theorem lz77Unit_behind (s : State) : lz77Unit (s.behind hdr) = mapRun (State.behind hdr) (lz77Unit s) := by
  have hfind : findMatch (s.behind hdr) (s.behind hdr).regs.ip Config.lz77Window Config.lz77MaxMatch =
      findMatch s s.regs.ip Config.lz77Window Config.lz77MaxMatch := findMatch_congr (sameInput_behind s) _ _ _
  have hcur : (s.behind hdr).inAt (s.behind hdr).regs.ip = s.inAt s.regs.ip := rfl
  unfold lz77Unit
  dsimp only
  rw [hcur, hfind]
  generalize findMatch s s.regs.ip Config.lz77Window Config.lz77MaxMatch = m
  exact bind_mapRun (emitSeq_behind s _) fun _ => rfl

/-- What a turn of LZSS writes, for any match and token. -/
theorem lzssWrites_behind (s : State) (m : Match) (i : Instr × Nat) (flags : Bytes) :
    Except.ok { s.behind hdr with
      tabs := { s.tabs with flags := flags, data := s.tabs.data ++ encode i.1 }
      regs := { (s.behind hdr).regs.withMatch m with ip := s.regs.ip + i.2, tok := s.regs.tok + 1 } } =
    mapRun (State.behind hdr) (.ok { s with
      tabs := { s.tabs with flags := flags, data := s.tabs.data ++ encode i.1 }
      regs := { s.regs.withMatch m with ip := s.regs.ip + i.2, tok := s.regs.tok + 1 } }) := rfl

theorem lzssUnit_behind (s : State) : lzssUnit (s.behind hdr) = mapRun (State.behind hdr) (lzssUnit s) := by
  have hfind : findMatch (s.behind hdr) (s.behind hdr).regs.ip Config.lzssWindow Config.lzssLookahead =
      findMatch s s.regs.ip Config.lzssWindow Config.lzssLookahead := findMatch_congr (sameInput_behind s) _ _ _
  have hcur : (s.behind hdr).inAt (s.behind hdr).regs.ip = s.inAt s.regs.ip := rfl
  unfold lzssUnit
  dsimp only
  rw [hcur, hfind]
  exact lzssWrites_behind s _ _ _

theorem lzssCEnd_behind (s : State) : lzssCEnd (s.behind hdr) = mapRun (State.behind hdr) (lzssCEnd s) :=
  guard_mapRun fun _ => bind_mapRun (emitSeq_behind s _) fun _ => rfl

theorem dictAdd_behind (s : State) (x : Bytes) : (s.behind hdr).dictAdd x = (s.dictAdd x).behind hdr := by
  unfold State.dictAdd
  show (if s.regs.nextCode < Config.lzwDictMax then _ else _) = _
  split
  · rfl
  · rfl

theorem lzwUnit_behind (s : State) : lzwUnit (s.behind hdr) = mapRun (State.behind hdr) (lzwUnit s) := by
  have hfind : (s.behind hdr).dictFind ((s.behind hdr).dictOf (s.behind hdr).regs.w ++ [s.inAt s.regs.ip]) =
      s.dictFind (s.dictOf s.regs.w ++ [s.inAt s.regs.ip]) := rfl
  have hcur : (s.behind hdr).inAt (s.behind hdr).regs.ip = s.inAt s.regs.ip := rfl
  unfold lzwUnit
  dsimp only
  rw [hcur, hfind]
  cases s.dictFind (s.dictOf s.regs.w ++ [s.inAt s.regs.ip]) with
  | some c => rfl
  | none =>
    refine bind_mapRun (putCode_behind _ s) fun t => ?_
    rw [dictAdd_behind]
    rfl

theorem lzwCEnd_behind (s : State) : lzwCEnd (s.behind hdr) = mapRun (State.behind hdr) (lzwCEnd s) :=
  bind_mapRun (putCode_behind _ s) fun t => bind_mapRun (flushBits_behind t) fun _ => rfl

theorem hufUnit_behind (s : State) : hufUnit (s.behind hdr) = mapRun (State.behind hdr) (hufUnit s) :=
  bind_mapRun (putBits_behind _ s) fun _ => rfl

theorem hufCEnd_behind (s : State) : hufCEnd (s.behind hdr) = mapRun (State.behind hdr) (hufCEnd s) :=
  bind_mapRun (flushBits_behind s) fun _ => rfl

theorem bwtUnit_behind (s : State) : bwtUnit (s.behind hdr) = mapRun (State.behind hdr) (bwtUnit s) := by
  have hchunk : (s.behind hdr).inSlice (s.behind hdr).regs.ip
        (min Config.bwtChunkMax ((s.behind hdr).regs.nIn - (s.behind hdr).regs.ip)) =
      s.inSlice s.regs.ip (min Config.bwtChunkMax (s.regs.nIn - s.regs.ip)) := inSlice_behind s _ _
  unfold bwtUnit
  dsimp only
  rw [hchunk]
  exact bind_mapRun (emitSeq_behind s _) fun _ => rfl

theorem copyUnit_behind (s : State) : copyUnit (s.behind hdr) = mapRun (State.behind hdr) (copyUnit s) :=
  bind_mapRun (emit_behind s _) fun _ => rfl

/-! ## The start of a compressor -/

theorem hufCStart_behind (s : State) : hufCStart (s.behind hdr) = mapRun (State.behind hdr) (hufCStart s) := by
  have hin : (s.behind hdr).input = s.input := inSlice_behind s _ _
  have htabs : (s.behind hdr).tabs = s.tabs := rfl
  have emit {t u : State} (e : t = u.behind hdr) (bs : Bytes) : t.emitSeq bs = mapRun (State.behind hdr) (u.emitSeq bs) :=
    e ▸ emitSeq_behind u bs
  unfold hufCStart
  dsimp only
  rw [hin, htabs]
  generalize buildTree { s.tabs with freq := freqTable s.input } = built
  exact bind_mapRun (emit (by rfl) _) fun _ => rfl

theorem beginCompress_behind (a : Alg) (s : State) :
    beginCompress a (s.behind hdr) = mapRun (State.behind hdr) (beginCompress a s) := by
  refine if_mapRun rfl ?_
  cases a with
  | rle | lz77 | lzss => rfl
  | huffman => exact hufCStart_behind s
  | lzw => exact bind_mapRun (emitSeq_behind (lzwSeed s) _) fun _ => rfl
  | delta => exact bind_mapRun (emitSeq_behind s _) fun t => bind_mapRun (emitSeq_behind t _) fun _ => rfl
  | bwt => exact bind_mapRun (emitSeq_behind s _) fun _ => rfl

/-! ## A unit of work -/

/-- No token is fetched where nothing but CapacityExceeded is raised. -/
theorem nextToken_of_kinds {s : State} (h : s.phase.kinds ⊆ [.capacityExceeded]) : s.nextToken = none := by
  cases hx : s.nextToken with
  | none => rfl
  | some x => exact absurd (h (payloadKinds_subset_of_nextToken hx (by decide : .corruptPayload ∈ payloadKinds))) (by decide)

theorem advance_behind {f : Frame} {s : State} (h : s.Work f) (hplain : s.regs.ending = .plain)
    (hk : s.phase.kinds ⊆ [.capacityExceeded]) :
    MapAlike (State.behind hdr) s (advance s) (advance (s.behind hdr)) := by
  have hend : MapAlike (State.behind hdr) s s.endOp (s.behind hdr).endOp := .endOp hplain
  have hp' : (s.behind hdr).phase = s.phase := rfl
  unfold advance
  rw [hp']
  cases hp : s.phase with rw [hp] at hk
  | off | command => exact .goes (answers_ok.2 h.status) rfl
  | finished => exact hend
  | rleC => exact .turn Iff.rfl (.of_work (rleUnit_work h) (rleUnit_behind s)) hend
  | deltaC => exact .turn Iff.rfl (.of_work (deltaUnit_work h) (deltaUnit_behind s)) hend
  | lz77C => exact .turn Iff.rfl (.of_work (lz77Unit_work h) (lz77Unit_behind s)) hend
  | bwtC => exact .turn Iff.rfl (.of_work (bwtUnit_work h) (bwtUnit_behind s)) hend
  | pack | unpack => exact .turn Iff.rfl (.of_work (copyUnit_work h) (copyUnit_behind s)) hend
  | lzssC =>
    exact .turn Iff.rfl (.of_work (lzssUnit_work h) (lzssUnit_behind s))
      (.of_goes (lzssCEnd_goes h) (lzssCEnd_behind s))
  | lzwC =>
    exact .turn Iff.rfl (.of_work (lzwUnit_work h) (lzwUnit_behind s)) (.of_goes (lzwCEnd_goes h) (lzwCEnd_behind s))
  | hufC =>
    exact .turn Iff.rfl (.of_work (hufUnit_work h) (hufUnit_behind s)) (.of_goes (hufCEnd_goes h) (hufCEnd_behind s))
  | rleD | lz77D | deltaD | lzssD | lzwD | hufTree | hufBits | bwtChunk | bwtIdx => exact absurd hk (by decide)

theorem unitOfWork_behind {f : Frame} {s : State} (h : s.Work f) (hplain : s.regs.ending = .plain)
    (hk : s.phase.kinds ⊆ [.capacityExceeded]) :
    MapUnits (State.behind hdr) s (unitOfWork s) (unitOfWork (s.behind hdr)) :=
  unitOfWork_mapUnits h ((nextToken_of_kinds (s := s.behind hdr) hk).trans (nextToken_of_kinds hk).symm)
    (fun _ hi => nomatch (nextToken_of_kinds hk).symm.trans hi) (advance_behind h hplain hk)

end pieces

end Sys2Proof.Machine
end

section
/-! ENCODE and the round trips of the containers (48_container.md R293, R294, R296, O57): ENCODE is the header and then
COMPRESS behind it, and DECODE of that is DECOMPRESS of what COMPRESS gave. -/

namespace Sys2Proof.Machine

/-! ## The two runs -/

/-- A state of a COMPRESS. -/
structure State.Encoding (s : State) : Prop where
  within : s.Within [.capacityExceeded]
  ending : s.regs.ending = .plain

section encoding

variable {s : State}

theorem State.Encoding.status (h : s.Encoding) : s.status = .busy := by
  obtain ⟨f, -, hw⟩ := h.within.runs
  exact hw.status

theorem State.Encoding.unit (h : s.Encoding) (hb : (unitOfWork s).status = .busy) : (unitOfWork s).Encoding := by
  obtain ⟨f, hf, hw⟩ := h.within.runs
  obtain ⟨g, hn, hw'⟩ | hrest := unitOfWork_after hf hw
  · have hsource : (unitOfWork s).source = s.source :=
      (congrArg Frame.source hw'.frame).trans (hn.source.trans (congrArg Frame.source hw.frame).symm)
    refine ⟨?_, (congrArg Source.ending hsource).trans h.ending⟩
    obtain ht | hd | ⟨k, -, hk⟩ := h.within.unit
    · exact ht
    · exact nomatch hb.symm.trans hd
    · exact nomatch hb.symm.trans hk.status
  · exact absurd hb hrest.2

theorem State.Encoding.mapUnits {hdr : Bytes} (h : s.Encoding) :
    MapUnits (State.behind hdr) s (unitOfWork s) (unitOfWork (s.behind hdr)) := by
  obtain ⟨f, -, hw⟩ := h.within.runs
  exact unitOfWork_behind hw h.ending h.within.kinds

theorem beginCompress_encoding (a : Alg) (hin : s.inMem.wf) : Answers (beginCompress a s.start) State.Encoding := by
  intro t ht
  have hgoes := (beginCompress_goes a (State.start_work hin)).answers t ht
  have hkinds := beginCompress_place a s.start t ht
  refine ⟨hgoes.within hkinds nofun, ?_⟩
  obtain ⟨g, hn, hw⟩ := hgoes
  exact congrArg Source.ending ((congrArg Frame.source hw.frame).trans hn.source)

end encoding

/-! ## The output behind the header -/

theorem Memory.read_append_of_some {m m' : Memory} {a : Nat} {v : Byte} (h : m.read a = some v) :
    Memory.read (m ++ m') a = some v := by
  induction m with
  | nil => cases h
  | cons c rest ih =>
    obtain ⟨x, b⟩ := c
    rw [List.cons_append]
    unfold Memory.read at h ⊢
    split_ifs with hx
    · rwa [if_pos hx] at h
    · rw [if_neg hx] at h
      exact ih h

theorem Memory.read_append_of_lt {m : Memory} {a : Nat} (h : ∀ c ∈ m, c.1 < a) (m' : Memory) :
    Memory.read (m ++ m') a = m'.read a := by
  induction m with
  | nil => rfl
  | cons c rest ih =>
    obtain ⟨x, b⟩ := c
    obtain ⟨hx, hrest⟩ := List.forall_mem_cons.1 h
    rw [List.cons_append, Memory.read, if_neg (Nat.ne_of_lt hx), ih hrest]

theorem Memory.read_shift (m : Memory) (d a : Nat) : (m.shift d).read (a + d) = m.read a := by
  induction m with
  | nil => rfl
  | cons c rest ih =>
    obtain ⟨x, b⟩ := c
    have hcons : Memory.shift ((x, b) :: rest) d = (x + d, b) :: Memory.shift rest d := rfl
    rw [hcons, Memory.read, Memory.read, ih]
    simp only [Nat.add_right_cancel_iff]

/-- The result of the codec, behind the header. -/
theorem behind_finish_result {z : State} {hdr y : Bytes} (h : z.finish.Result y) (hlen : (hdr ++ y).length < 2 ^ 64) :
    (z.behind hdr).finish.Result (hdr ++ y) where
  status := rfl
  err := h.err
  outLen := by
    have hy := h.outLen
    rw [List.length_append] at hlen ⊢
    rw [State.finish_outLen, BitVec.toNat_ofNat] at hy ⊢
    show (z.regs.outBase + hdr.length + z.regs.outCount) % 2 ^ 64 = _
    omega
  out k hk := by
    show Memory.read (Memory.writeAll [] 0 hdr ++ z.outMem.shift hdr.length) k = _
    rw [List.length_append] at hk
    obtain hlt | hge := Nat.lt_or_ge k hdr.length
    · have hread := Memory.read_writeAll_same [] 0 hdr hlt
      rw [Nat.zero_add] at hread
      rw [List.getElem_append_left hlt]
      exact Memory.read_append_of_some hread
    · obtain ⟨i, rfl⟩ := Nat.exists_eq_add_of_le' hge
      have hfront : ∀ c ∈ Memory.writeAll [] 0 hdr, c.1 < i + hdr.length := fun c hc => by
        have hlt := (Memory.mem_writeAll hc).resolve_left List.not_mem_nil
        omega
      rw [Memory.read_append_of_lt hfront, Memory.read_shift, List.getElem_append_right hge]
      simp only [Nat.add_sub_cancel]
      exact h.out i (by omega)

/-! ## ENCODE (R294) -/

/-- The header that ENCODE writes. -/
def State.encodeHeader (s : State) (a : Alg) : Bytes :=
  containerHeader s.params.magic (BitVec.ofNat 8 (algId a)) s.inLen.toNat

theorem encodeHeader_length (s : State) (a : Alg) : (s.encodeHeader a).length = 10 := containerHeader_length _ _ _

section encode

variable {s : State} {a : Alg} {cap : Option Nat}

/-- The capacity that the header leaves. -/
def capBehind (cap : Option Nat) : Option Nat := cap.map (· - 10)

theorem capBehind_add (h : ∀ c, cap = some c → 10 ≤ c) : (capBehind cap).map (· + 10) = cap := by
  cases cap with
  | none => rfl
  | some c => simp [capBehind, Nat.sub_add_cancel (h c rfl)]

/-- ENCODE begins the codec behind the header. -/
theorem beginEncode_eq (h : ∀ c, cap = some c → 10 ≤ c) :
    beginEncode a (s.withOutCap cap).start =
      mapRun (State.behind (s.encodeHeader a)) (beginCompress a (s.withOutCap (capBehind cap)).start) := by
  have hlen := encodeHeader_length s a
  have hroom : (s.withOutCap cap).start.room (s.encodeHeader a).length :=
    ((s.withOutCap cap).start.room_iff_outHolds _ rfl rfl).2 fun c hc => hlen.trans_le (h c hc)
  have hstart : ({ (s.withOutCap cap).start.putAll (s.encodeHeader a) with regs :=
      { ((s.withOutCap cap).start.putAll (s.encodeHeader a)).regs with outBase := Config.contHdr, outCount := 0 } } :
        State) = (s.withOutCap (capBehind cap)).start.behind (s.encodeHeader a) := by
    have hcap : (capBehind cap).map (· + (s.encodeHeader a).length) = cap := by rw [hlen, capBehind_add h]
    have hbase : (0 : Nat) + (s.encodeHeader a).length = Config.contHdr := by rw [hlen]; rfl
    show _ = { (s.withOutCap (capBehind cap)).start with
      params := { s.params with outCap := (capBehind cap).map (· + (s.encodeHeader a).length) }
      outMem := Memory.writeAll [] 0 (s.encodeHeader a) ++ []
      regs := { s.start.regs with outBase := 0 + (s.encodeHeader a).length } }
    rw [hcap, hbase, List.append_nil]
    rfl
  rw [← beginCompress_behind, ← hstart, beginEncode]
  show (s.withOutCap cap).start.emitSeq (s.encodeHeader a) >>= _ = _
  rw [State.emitSeq_of_room hroom]
  rfl

/-- ENCODE and COMPRESS come to their ends together. -/
theorem encode_mapEnds (hin : s.inMem.wf) (hf : s.inputFits) (h : ∀ c, cap = some c → 10 ≤ c)
    (hended : (operate (beginCompress a) (s.withOutCap (capBehind cap))).status ≠ .busy) :
    MapEnds (State.behind (s.encodeHeader a)) State.Encoding
      (operate (beginCompress a) (s.withOutCap (capBehind cap))) (operate (beginEncode a) (s.withOutCap cap)) := by
  rw [operate_of_inputFits ((s.withOutCap_inputFits _).2 hf)] at hended ⊢
  rw [operate_of_inputFits ((s.withOutCap_inputFits _).2 hf), beginEncode_eq h]
  exact operate_mapEnds (fun _ hs => ⟨hs.status, hs.status⟩) (fun _ => State.Encoding.mapUnits)
    (fun _ => State.Encoding.unit) (beginCompress_encoding a (s := s.withOutCap (capBehind cap)) hin) _ 0 hended

/-- Over a canonical `IN`, ENCODE gives the header and what COMPRESS gives. -/
theorem encode_result_of_wf (hin : s.inMem.wf) (hf : s.inputFits) (h : ∀ c, cap = some c → 10 ≤ c) {y : Bytes}
    (hy : (operate (beginCompress a) (s.withOutCap (capBehind cap))).Result y)
    (hlen : (s.encodeHeader a ++ y).length < 2 ^ 64) :
    (operate (beginEncode a) (s.withOutCap cap)).Result (s.encodeHeader a ++ y) := by
  cases encode_mapEnds hin hf h (by rw [hy.status]; exact nofun) with
  | raised k e _ => exact nomatch e.status.symm.trans hy.status
  | ended z hz ha e e' =>
    have hend : (z.behind (s.encodeHeader a)).endOp = .ok (z.behind (s.encodeHeader a)).finish := by
      rw [State.endOp, show (z.behind (s.encodeHeader a)).regs.ending = .plain from hz.ending]
    rw [e', hend, State.settle_ok]
    exact behind_finish_result (e ▸ hy) hlen

theorem SameResult.result {p : Prop} {t u : State} (h : SameResult p t u) {y : Bytes} (hy : t.Result y) : u.Result y :=
  ⟨h.status ▸ hy.status, h.err ▸ hy.err, h.outLen ▸ hy.outLen, fun k hk => h.outMem ▸ hy.out k hk⟩

theorem SameResult.symm {t u : State} (h : SameResult False t u) : SameResult False u t :=
  ⟨h.status.symm, h.err.symm, h.outLen.symm, h.outMem.symm, nofun⟩

/-- A command over a state, and over its input alone (O22). -/
theorem operate_withInputOnly {i : Instr} {b : State → Run} (hi : beginOf i = some b) (s : State) :
    SameResult False (operate b s.withInputOnly) (operate b s) :=
  have h := operate_same hi (withInputOnly_wf s) (u := s) rfl rfl
    (fun _ ha => (withInputOnly_inByteAt s ha).symm) fun _ => ⟨rfl, rfl⟩
  ⟨h.status, h.err, h.outLen, h.outMem, nofun⟩

theorem beginOf_compressOf (a : Alg) : beginOf (compressOf a) = some (beginCompress a) := by cases a <;> rfl

theorem beginOf_encodeOf (a : Alg) : beginOf (encodeOf a) = some (beginEncode a) := by cases a <;> rfl

/-- ENCODE gives the header and what COMPRESS gives. -/
theorem encode_result (hf : s.inputFits) (h : ∀ c, cap = some c → 10 ≤ c) {y : Bytes}
    (hy : (operate (beginCompress a) (s.withOutCap (capBehind cap))).Result y)
    (hlen : (s.encodeHeader a ++ y).length < 2 ^ 64) :
    (operate (beginEncode a) (s.withOutCap cap)).Result (s.encodeHeader a ++ y) := by
  have hcompress := operate_withInputOnly (beginOf_compressOf a) (s.withOutCap (capBehind cap))
  have hencode := operate_withInputOnly (beginOf_encodeOf a) (s.withOutCap cap)
  exact hencode.result <| encode_result_of_wf (s := s.withInputOnly) (withInputOnly_wf s) hf h
    (hcompress.symm.result hy) hlen

end encode

/-! ## The length of a compressed input -/

section bounds

variable {s : State}

theorem compressHuffman_bounded (hf : s.inputFits) (hlt : s.inLen.toNat < 2 ^ 34) :
    ∃ y : Bytes, y.length < 2 ^ 49 ∧ s.EndsWithin y (operate (beginCompress .huffman) s) := by
  have hn := s.inputBytes_length
  by_cases h0 : s.inLen.toNat = 0
  · exact ⟨[], by simp, operate_empty hf h0 (if_pos h0)⟩
  · obtain ⟨x, hx⟩ := exists_hufTreeOf_input (List.ne_nil_of_length_pos (l := s.inputBytes) (by omega))
    refine ⟨_, ?_, compressHuffman_endsWithin hf h0 (by omega) rfl hx⟩
    have hbits : (x.bits s.inputBytes).length ≤ 255 * s.inputBytes.length :=
      HufShape.bits_length_le hx.levels_le fun b hb => hx.leaves.mem_iff.2 (mem_hufSyms_freqTable hb)
    have hser := hx.ser_le
    rw [hufFrame_length]
    omega

theorem compressLzw_bounded (hf : s.inputFits) (hlt : s.inLen.toNat < 2 ^ 34) :
    ∃ y : Bytes, y.length < 2 ^ 49 ∧ s.EndsWithin y (operate (beginCompress .lzw) s) := by
  refine ⟨_, ?_, compressLzw_endsWithin hf (by omega)⟩
  have hn := s.inputBytes_length
  cases hin : s.inputBytes with
  | nil => simp [lzwOutput]
  | cons b xs =>
    have hcodes := lzwCodes_length_le Tables.dictSeed b.toNat xs
    have hpacked := (lzwPack_length 0 0 (lzwCodes Tables.dictSeed b.toNat xs)).2
    rw [hin, List.length_cons] at hn
    rw [lzwOutput, lzwFrame, List.length_append, u64le_length]
    omega

theorem compressLzss_bounded (hf : s.inputFits) (hlt : s.inLen.toNat < 2 ^ 34) :
    ∃ y : Bytes, y.length < 2 ^ 49 ∧ s.EndsWithin y (operate (beginCompress .lzss) s) := by
  refine ⟨_, ?_, compressLzss_endsWithin (r := s.start) ⟨rfl, fun _ => rfl⟩ hf hlt⟩
  have htokens : (s.start.lzssTokens 0).length ≤ s.inLen.toNat := s.start.lzssTokens_length_le 0
  have hdata := (s.start.lzssTokens_spells 0 (Nat.zero_le _)).length_data.2
  have hflags := (lzssFlags_holds (s.start.lzssTokens 0)).1
  rw [lzssOutput]
  split
  · simp
  · rw [lzssFrame_length]
    omega

theorem compressDelta_bounded (hf : s.inputFits) (hlt : s.inLen.toNat < 2 ^ 34) :
    ∃ y : Bytes, y.length < 2 ^ 49 ∧ s.EndsWithin y (operate (beginCompress .delta) s) := by
  refine ⟨_, ?_, compressDelta_endsWithin hf (by omega)⟩
  have hn := s.inputBytes_length
  cases hin : s.inputBytes with
  | nil => simp [deltaFrame]
  | cons b rest =>
    rw [hin, List.length_cons] at hn
    rw [deltaFrame, List.length_append, u64le_length, List.length_cons, deltaDiffs_length]
    omega

theorem compressBwt_bounded (hf : s.inputFits) (hlt : s.inLen.toNat < 2 ^ 34) :
    ∃ y : Bytes, y.length < 2 ^ 49 ∧ s.EndsWithin y (operate (beginCompress .bwt) s) := by
  refine ⟨_, ?_, compressBwt_endsWithin_bwtOutput hf (by omega)⟩
  have hsize := bwtFrame_length_le (isChunk_of_mem_bwtChunks s.inputBytes) s.inputBytes.length
  rw [bwtChunks_flatten, s.inputBytes_length] at hsize
  rw [bwtOutput]
  split
  · simp
  · rw [s.inputBytes_length]
    omega

theorem compress_bounded (a : Alg) (hf : s.inputFits) (hlt : s.inLen.toNat < 2 ^ 34) :
    ∃ y : Bytes, y.length < 2 ^ 49 ∧ s.EndsWithin y (operate (beginCompress a) s) := by
  have hn := s.inputBytes_length
  cases a with
  | huffman => exact compressHuffman_bounded hf hlt
  | lzw => exact compressLzw_bounded hf hlt
  | lzss => exact compressLzss_bounded hf hlt
  | delta => exact compressDelta_bounded hf hlt
  | bwt => exact compressBwt_bounded hf hlt
  | rle =>
    refine ⟨_, ?_, compressRle_endsWithin hf (by omega)⟩
    have hle := rlePairs_length_le s.inputBytes
    rw [rleFrame_length]
    omega
  | lz77 =>
    refine ⟨_, ?_, compressLz77_endsWithin (r := s.start) ⟨rfl, fun _ => rfl⟩ hf (by omega)⟩
    have htokens : (s.start.lz77Tokens 0).length ≤ s.inLen.toNat := s.start.lz77Tokens_length_le 0
    have hframe := (s.start.lz77Tokens_spells 0 (Nat.zero_le _)).length_frame.2
    omega

end bounds

/-! ## The round trips -/

theorem RoundTrips.mono {c d : Instr} {m n : Nat} (h : RoundTrips c d n) (hmn : m ≤ n) : RoundTrips c d m :=
  fun s hf hlt => h s hf (hlt.trans_le hmn)

theorem roundTrips (a : Alg) : RoundTrips (compressOf a) (decompressOf a) (2 ^ 34) := by
  have hle : 2 ^ 34 ≤ 2 ^ 56 := by decide
  cases a with
  | rle => exact rle_roundTrips.mono hle
  | lz77 => exact RoundTrips.mono lz77RoundTrip hle
  | huffman => exact RoundTrips.mono huffmanRoundTrip hle
  | lzw => exact RoundTrips.mono lzwRoundTrip hle
  | lzss => exact lzssRoundTrip
  | delta => exact delta_roundTrips.mono hle
  | bwt => exact RoundTrips.mono bwtRoundTrip hle

theorem State.Result.unique {t : State} {y y' : Bytes} (h : t.Result y) (h' : t.Result y') : y = y' := by
  refine List.ext_getElem (h.outLen.symm.trans h'.outLen) fun k hk hk' => ?_
  exact Option.some.inj ((h.out k hk).symm.trans (h'.out k hk'))

/-- What COMPRESS gives is short enough for the container. -/
theorem compress_result_length {s : State} {a : Alg} {y : Bytes} (hf : s.inputFits) (hlt : s.inLen.toNat < 2 ^ 34)
    (hy : (operate (beginCompress a) (s.withOutCap none)).Result y) : y.length < 2 ^ 49 := by
  obtain ⟨y', hlen, hend⟩ := compress_bounded a ((s.withOutCap_inputFits none).2 hf) hlt
  rw [hy.unique (hend.result nofun)]
  exact hlen

/-- ENCODE and then DECODE (R296). -/
theorem encode_decode_roundTrip (s : State) (a : Alg) (hf : s.inputFits) (hlt : s.inLen.toNat < 2 ^ 34) :
    ∃ y, (∀ cap, (s.withOutCap cap).outHolds y.length →
        ∃ t, exec (encodeOf a) (s.withOutCap cap) = .next t ∧ t.Result y) ∧
      ∀ u : State, u.outHolds s.inLen.toNat → u.params.magic = s.params.magic → u.inputFits → u.inputBytes = y →
        ∃ v, exec .decode u = .next v ∧ v.Result s.inputBytes ∧ v.argAlg = BitVec.ofNat 8 (algId a) ∧
          v.argSize = s.inLen := by
  obtain ⟨y, hcompress, hdecompress⟩ := roundTrips a s hf hlt
  have hresult (cap : Option Nat) (hcap : (s.withOutCap cap).outHolds y.length) :
      (operate (beginCompress a) (s.withOutCap cap)).Result y := by
    obtain ⟨t, ht, hres⟩ := hcompress cap hcap
    rwa [← Host.Outcome.next.inj ((exec_of_beginOf (beginOf_compressOf a) _).symm.trans ht)] at hres
  have hlen := compress_result_length hf hlt (hresult none nofun)
  have hhdr := encodeHeader_length s a
  refine ⟨s.encodeHeader a ++ y, fun cap hcap => ?_, fun u hu hmagic huf hin => ?_⟩
  · have hcap (c : Nat) (hc : cap = some c) : 10 + y.length ≤ c := by
      have hle := hcap c hc
      rwa [List.length_append, hhdr] at hle
    refine ⟨_, exec_of_beginOf (beginOf_encodeOf a) _, encode_result hf (fun c hc => by have := hcap c hc; omega)
      (hresult _ fun c hc => ?_) (by rw [List.length_append]; omega)⟩
    obtain ⟨c', hc', rfl⟩ := Option.map_eq_some_iff.1 hc
    have := hcap c' hc'
    omega
  · have hholds : u.HoldsContainer a s.inLen y := by
      rw [State.HoldsContainer, hin, hmagic]
      rfl
    have hulen := hholds.inLen
    have hn := withInput_inLen (s := u) hholds.length_lt
    have hgives := hdecompress (u.withInput y) hu (fun c hc => (hn.trans_le (by omega)).trans (huf c hc))
      (withInput_inputBytes hholds.length_lt)
    obtain ⟨t, ht, hres, -⟩ := hgives
    obtain rfl := Host.Outcome.next.inj ((exec_of_beginOf (beginOf_decompressOf a) _).symm.trans ht)
    have hsame : SameResult False (operate (beginDecompress a) (u.withInput y)) _ := ⟨rfl, rfl, rfl, rfl, nofun⟩
    obtain ⟨v, hv, hvres, halg, hsize, -⟩ := hholds.gives huf (by omega) hsame hres s.inputBytes_length
    exact ⟨v, hv, hvres, halg, hsize⟩

/-- PACK and then UNPACK (R293). -/
theorem pack_unpack_roundTrip (s : State) (ha : s.argAlg.toNat ≤ 6) (hf : s.inputFits) (hlt : s.inLen.toNat < 2 ^ 63) :
    ∃ y, (∀ cap, (s.withOutCap cap).outHolds y.length → ∃ t, exec .pack (s.withOutCap cap) = .next t ∧ t.Result y) ∧
      ∀ u : State, u.outHolds s.inLen.toNat → u.params.magic = s.params.magic → u.inputFits → u.inputBytes = y →
        ∃ v, exec .unpack u = .next v ∧ v.Result s.inputBytes ∧ v.argAlg = s.argAlg ∧ v.argSize = s.argSize := by
  refine ⟨containerHeader s.params.magic s.argAlg s.argSize.toNat ++ s.inputBytes, fun cap hcap => ?_,
    fun u hu hmagic huf hin => ?_⟩
  · exact ⟨_, exec_of_beginOf rfl _, (pack_endsWithin ((s.withOutCap_inputFits cap).2 hf) ha hlt).result hcap⟩
  · obtain ⟨a, hid⟩ := exists_algId_eq ha
    have halg : BitVec.ofNat 8 (algId a) = s.argAlg := by rw [hid, BitVec.ofNat_toNat, BitVec.setWidth_eq]
    have hholds : u.HoldsContainer a s.argSize s.inputBytes := by
      rw [State.HoldsContainer, hin, hmagic, halg]
      rfl
    have hulen := hholds.inLen
    rw [s.inputBytes_length] at hulen
    have hone := hholds.inByteAt_one.trans halg
    obtain ⟨v, hv, hres, hargAlg, hargSize, -⟩ := unpack_gives huf (by omega) hholds.inByteAt_zero (hone ▸ ha)
      (by rwa [hulen, Nat.add_sub_cancel_left])
    rw [hholds.drop_ten] at hres
    rw [hholds.drop_two, List.take_left' (u64le_length _), valueLE_u64le s.argSize.isLt] at hargSize
    exact ⟨v, hv, hres, hargAlg.trans hone, BitVec.eq_of_toNat_eq hargSize⟩

/-- Settles O57: the two round trips. -/
theorem containersRoundTrip : Obligations.ContainersRoundTrip := ⟨pack_unpack_roundTrip, encode_decode_roundTrip⟩

end Sys2Proof.Machine
end
